-- ==== Sys2Proof/Word.lean ====
section
/-! DEFINITION. The smallest unit that crosses a connection of the engine: the byte (R178). -/
namespace Sys2Proof

/-- One byte on a control port, a stage link or the pack bus. -/
abbrev Byte := BitVec 8

end Sys2Proof
end

