-- ==== Sys2Proof/Syntax.lean ====
section
/-! DEFINITION. The commands the engine takes: one constructor of Instr for each row of
spec/opcode_table.json, with the operands the spec gives it.

Numbered things are counted from 0 here and from 1 in the manual: input k is `⟨k - 1, _⟩ : Fin 64`, and so for
mixes (Fin 24), pack slots and scene slots (Fin 32), groups and link sets (Fin 8) (DESIGN CHOICE, log 20). -/
namespace Sys2Proof

/-- The two stage links (chapter 1): A from the primary stage box, B from the redundant one. -/
inductive Link where
  | a
  | b
  deriving DecidableEq, Repr

/-- The two control ports (chapter 9): port 0 is home and port 1 is guest. -/
inductive Port where
  | home
  | guest
  deriving DecidableEq, Repr

/-- The parameters and the data part of a request body (9.1). -/
structure Payload where
  /-- 0 to 16 bytes -/
  params : List Byte
  /-- 0 to 512 bytes -/
  data : List Byte
  deriving DecidableEq, Repr

/-- A scene name: 12 bytes (R91, R178). -/
abbrev SceneName := Vector Byte 12

/-- What the controller receives in an announce window (R125): no signal, one signal that carries these bytes, or
the overlap of several packs announcing together. -/
inductive Received where
  | nothing
  | bytes (sent : List Byte)
  | overlap
  deriving DecidableEq, Repr

/-- The keys whose break acts on nothing (R137). -/
inductive MakeOnlyKey where
  | next
  | prev
  | call
  | silence
  deriving DecidableEq, Repr

/-- The commands, in the order of spec/opcode_table.json. -/
inductive Instr where
  /-- R2 -/
  | signalAppears (l : Link)
  /-- R2 -/
  | signalLost (l : Link)
  /-- R1: the bytes of the delimited frame, in the order carried -/
  | frameArrival (l : Link) (frame : List Byte)
  /-- R61 -/
  | frameInstant
  /-- R115 -/
  | packBusFrame
  /-- R16 -/
  | setSourceMode (p : Port) (q : Payload)
  /-- R17 -/
  | readLinkStatus (p : Port) (q : Payload)
  /-- R30 -/
  | setSend (p : Port) (q : Payload)
  /-- R32 -/
  | setSendRow (p : Port) (q : Payload)
  /-- R33 -/
  | readSendRow (p : Port) (q : Payload)
  /-- R34 -/
  | setMix (p : Port) (q : Payload)
  /-- R35 -/
  | readMix (p : Port) (q : Payload)
  /-- R37 -/
  | setGroup (p : Port) (q : Payload)
  /-- R38 -/
  | readGroup (p : Port) (q : Payload)
  /-- R36 -/
  | setLinkSet (p : Port) (q : Payload)
  /-- R39 -/
  | setInput (p : Port) (q : Payload)
  /-- R40 -/
  | readInputs (p : Port) (q : Payload)
  /-- R41 -/
  | setTalkSource (p : Port) (q : Payload)
  /-- R42 -/
  | talk (p : Port) (q : Payload)
  /-- R60 -/
  | readEffective (p : Port) (q : Payload)
  /-- R73 -/
  | readMeters (p : Port) (q : Payload)
  /-- R74 -/
  | clearLatches (p : Port) (q : Payload)
  /-- R76 -/
  | readLatches (p : Port) (q : Payload)
  /-- R100 -/
  | storeScene (p : Port) (q : Payload)
  /-- R101 -/
  | storeWriteEnd
  /-- R102 -/
  | recallScene (p : Port) (q : Payload)
  /-- R103; `degraded`: the slot's memory has degraded since it was written, and its name now reads so (log 11) -/
  | recallVerifyEnd (degraded : Option SceneName)
  /-- R104 -/
  | mixLoad
  /-- R104 -/
  | inputSectionLoad
  /-- R107 -/
  | abortRecall (p : Port) (q : Payload)
  /-- R109 -/
  | eraseScene (p : Port) (q : Payload)
  /-- R109 -/
  | eraseEnd
  /-- R110 -/
  | protectScene (p : Port) (q : Payload)
  /-- R111 -/
  | setStartScene (p : Port) (q : Payload)
  /-- R112 -/
  | readDirectory (p : Port) (q : Payload)
  /-- R113 -/
  | readResult (p : Port) (q : Payload)
  /-- R97; `degraded` as for recallVerifyEnd (log 11) -/
  | verifySlotDone (degraded : Option SceneName)
  /-- R118 -/
  | sweepStart
  /-- R119: the 64 positions of the poll answer (11.7), position k at bit k -/
  | pollPhase (answers : BitVec 64)
  /-- R121 -/
  | readPhase
  /-- R122: the bytes of the key report, or none for a read that returns no report -/
  | keyReportRead (slot : Fin 32) (report : Option (List Byte))
  /-- R125 -/
  | announceWindow (slot : Fin 32) (received : Received)
  /-- R123 -/
  | downstreamPart
  /-- R130 -/
  | assignPack (p : Port) (q : Payload)
  /-- R131 -/
  | releasePack (p : Port) (q : Payload)
  /-- R132 -/
  | readPackTable (p : Port) (q : Payload)
  /-- R142 -/
  | makeOfUp (slot : Fin 32)
  /-- R142 -/
  | makeOfDown (slot : Fin 32)
  /-- R139 -/
  | makeOfNext (slot : Fin 32)
  /-- R139 -/
  | makeOfPrev (slot : Fin 32)
  /-- R147 -/
  | makeOfCall (slot : Fin 32)
  /-- R146 -/
  | makeOfSilence (slot : Fin 32)
  /-- R144 -/
  | breakOfUp (slot : Fin 32)
  /-- R144 -/
  | breakOfDown (slot : Fin 32)
  /-- R137 -/
  | breakOfMakeOnlyKey (slot : Fin 32) (key : MakeOnlyKey)
  /-- R145 -/
  | overflowMarker (slot : Fin 32)
  /-- R137 -/
  | ignoredKeyCode (slot : Fin 32) (code : Byte)
  /-- R143 -/
  | heldKeyExpiry (slot : Fin 32)
  /-- R148 -/
  | readCalls (p : Port) (q : Payload)
  /-- R151: a byte, with or without a framing error -/
  | receiveByte (p : Port) (byte : Byte) (framingError : Bool)
  /-- R152 -/
  | interbyteSilenceTimeout (p : Port)
  /-- R153 -/
  | lineBreak (p : Port)
  /-- R153 -/
  | lineIdle (p : Port)
  /-- R159 -/
  | transmitFrameEnd (p : Port)
  /-- R157 -/
  | unknownRequest (p : Port) (code : Byte) (q : Payload)
  /-- R164 -/
  | identify (p : Port) (q : Payload)
  /-- R165 -/
  | portStatus (p : Port) (q : Payload)
  /-- R162 -/
  | passCharge (p : Port) (q : Payload)
  /-- R163 -/
  | reclaimCharge (p : Port) (q : Payload)
  /-- R167 -/
  | resetEngine (p : Port) (q : Payload)
  /-- R167: a pulse on the reset pin -/
  | warmReset
  /-- R44, R167 -/
  | powerUp
  /-- R93; `cutName`: the name that a slot cut short in a store or erase is left holding (log 11) -/
  | powerLoss (cutName : SceneName)
  /-- R172 -/
  | setNoticeMask (p : Port) (q : Payload)
  /-- R172 -/
  | readNoticeMask (p : Port) (q : Payload)
  /-- R173 -/
  | readReasons (p : Port) (q : Payload)
  /-- R173 -/
  | readStates (p : Port) (q : Payload)
  /-- R174 -/
  | wait (p : Port) (q : Payload)
  /-- R176 -/
  | cancelWait (p : Port) (q : Payload)
  /-- R176 -/
  | waitTimeout (p : Port)
  deriving DecidableEq, Repr

end Sys2Proof
end

