-- ==== Sys2Proof/Decode.lean ====
section
/-! DEFINITION. The engine has no instruction words: its commands are events and requests, and no row of
spec/opcode_table.json gives bits. So no word spells a command. -/
namespace Sys2Proof

/-- The command that a word of nbits bits spells by the table's bits: none, for the table gives no row any bits. -/
def decodeTableWord (_nbits _w : Nat) : Option Instr := none

end Sys2Proof
end

