-- ==== Sys2Proof/Machine/State.lean ====
section
/-! DEFINITION. The state of the engine, as plain data, and its value at reset. `Engine` holds every block but the
two control ports; `PortState` holds one port with its notice unit; `State` puts them together with the model's own
counter of free choices and the queue of commands. -/
namespace Sys2Proof.Machine

/-! ### Stage links and input selection (chapter 1) -/

/-- The state of a link (R2 to R5). -/
inductive LinkState where
  | down
  | seeking
  | locked
  deriving DecidableEq, Repr

/-- A good stage frame as the frame holder keeps it: its number and its samples for link channels 1 to n (R6). -/
structure StageFrame where
  number : BitVec 16
  samples : List Int
  deriving DecidableEq, Repr

/-- One stage link receiver (chapter 1, "Link States"). -/
structure Receiver where
  /-- whether the line carries a signal (R2) -/
  signal : Bool
  state : LinkState
  /-- 0 to 4 -/
  goodRun : Nat
  /-- 0 to 8 -/
  missRun : Nat
  lastNumber : Option (BitVec 16)
  /-- 0 to 64 -/
  lastCount : Nat
  /-- 0 to 65,535 -/
  slips : Nat
  /-- the frame in the holder -/
  held : Option StageFrame
  /-- the holder's fresh mark -/
  fresh : Bool
  deriving DecidableEq, Repr

/-- R16: the source mode. -/
inductive SourceMode where
  | auto
  | forceA
  | forceB
  deriving DecidableEq, Repr

/-- R8: a delivered frame has 64 link channels; an absent channel is `none` and carries zero. -/
abbrev Delivered := Vector (Option Int) 64

/-- The input selector (R8 to R19). -/
structure Selector where
  mode : SourceMode
  autoRevert : Bool
  active : Link
  /-- 0 to 255 -/
  missRun : Nat
  /-- 0 to 255 -/
  concealCount : Nat
  /-- 0 to 96,000 frame instants -/
  primaryTime : Nat
  lastUsed : Delivered
  /-- the most recent delivered frame -/
  delivered : Delivered
  deriving DecidableEq, Repr

/-! ### The mix tables (chapter 2) -/

/-- A set of mixes: mix k is bit k - 1, as R178 carries it. -/
abbrev MixSet := BitVec 24

/-- R20: an input record. -/
structure InputRec where
  patch : Option (Fin 64)
  /-- T, -24 to 24 -/
  trim : Int
  inverted : Bool
  on : Bool
  deriving DecidableEq, Repr

/-- R21: a send record. -/
structure SendRec where
  /-- S, 0 to 232 -/
  level : Nat
  /-- P, -32 to 32 -/
  pan : Int
  on : Bool
  deriving DecidableEq, Repr

/-- R22: a mix record. -/
structure MixRec where
  /-- M, -120 to 20 -/
  master : Int
  mute : Bool
  /-- h, -1 to 2 -/
  shift : Int
  /-- K, 1 to 8,388,607 -/
  ceiling : Nat
  /-- the release step, 1 to 256 -/
  release : Nat
  /-- D, -80 to 0 -/
  dim : Int
  /-- engineer hold -/
  hold : Bool
  linkSet : Option (Fin 8)
  deriving DecidableEq, Repr

/-- R23: a group of a mix. -/
structure Group where
  /-- G, -80 to 20 -/
  trim : Int
  members : List (Fin 64)
  deriving DecidableEq, Repr

/-- What the tables hold for one mix: its record, its row of the send matrix and its eight groups. -/
structure MixTable where
  record : MixRec
  sends : Vector SendRec 64
  groups : Vector Group 8
  deriving DecidableEq, Repr

/-- The scene state of the mix tables (R92): all that a scene holds a copy of. -/
structure Tables where
  inputs : Vector InputRec 64
  mixes : Vector MixTable 24
  talkSource : Option (Fin 64)
  deriving DecidableEq, Repr

/-! ### Coefficients, mix computation and ear guard (chapters 3 to 5) -/

/-- R54: one side of one pair of mix and input. -/
structure Coef where
  target : Nat
  live : Nat
  step : Nat
  deriving DecidableEq, Repr

/-- The two sides of a pair. -/
structure CoefPair where
  left : Coef
  right : Coef
  deriving DecidableEq, Repr

/-- What the mix engine and the ear guard keep for one mix: latches (R68 to R70, R84), guard gain (R79), peak meters
(R72) and the outputs of the latest frame instant (R82). -/
structure MixRun where
  clip : Bool
  near : Bool
  guard : Bool
  /-- g, 0 to 16,384 -/
  gain : Nat
  meterLeft : Nat
  meterRight : Nat
  outLeft : Int
  outRight : Int
  deriving DecidableEq, Repr

/-! ### The scene library (chapter 6) -/

/-- R91: the state of a scene slot. -/
inductive SlotState where
  | unchecked
  | empty
  | valid
  | damaged
  deriving DecidableEq, Repr

/-- What the nonvolatile memory of a slot holds (R91, R93): the erased pattern; a name and contents with a check
value that agrees with them; or a name (and contents that nothing can read) with a check value that does not agree
(log 10). -/
inductive SlotImage where
  | erased
  | written (name : SceneName) (contents : Tables)
  | broken (name : SceneName)
  deriving DecidableEq, Repr

/-- R91: a scene slot. -/
structure SceneSlot where
  state : SlotState
  protect : Bool
  image : SlotImage
  deriving DecidableEq, Repr

/-- R92: a class set. -/
structure ClassSet where
  sends : Bool
  groups : Bool
  mix : Bool
  guard : Bool
  inputs : Bool
  deriving DecidableEq, Repr

/-- The phase of a recall: verify, or load with the mixes still awaiting recall, the input section's mark, and
whether an ABORT RECALL has been accepted (R103, R104, R107). -/
inductive RecallPhase where
  | verify
  | load (awaiting : MixSet) (inputs : Bool) (aborting : Bool)
  deriving DecidableEq, Repr

/-- A recall or a start load (R98, R102). -/
structure RecallJob where
  startLoad : Bool
  slot : Fin 32
  mixes : MixSet
  classes : ClassSet
  phase : RecallPhase
  deriving DecidableEq, Repr

/-- R94: the library operation in progress. A store holds the staging copy (R100). -/
inductive Operation where
  | idle
  | verifyAll (next : Fin 32)
  | store (slot : Fin 32) (name : SceneName) (contents : Tables)
  | erase (slot : Fin 32)
  | recall (job : RecallJob)
  deriving DecidableEq, Repr

/-- R95: the operation field of the result record. -/
inductive ResultOp where
  | none
  | store
  | recall
  | erase
  | startLoad
  deriving DecidableEq, Repr

/-- R95: the outcome field of the result record. -/
inductive ResultOutcome where
  | inProgress
  | done
  | aborted
  | failed
  | skipped
  deriving DecidableEq, Repr

/-- R95: the result record. -/
structure ResultRec where
  op : ResultOp
  slot : Option (Fin 32)
  outcome : ResultOutcome
  mixesLoaded : Nat
  deriving DecidableEq, Repr

/-- The scene library (R91 to R114). -/
structure Library where
  slots : Vector SceneSlot 32
  startScene : Option (Fin 32)
  operation : Operation
  result : ResultRec
  deriving DecidableEq, Repr

/-! ### Pack bus and pack keys (chapters 7 and 8) -/

/-- A pack serial of 6 bytes (R117). -/
abbrev PackIdentity := Vector Byte 6

/-- R117: the state of a pack slot. -/
inductive PackState where
  | empty
  | online
  | lost
  | conflict
  deriving DecidableEq, Repr

/-- The keys that repeat (R142). -/
inductive RepeatKey where
  | up
  | down
  deriving DecidableEq, Repr

/-- R142: the phase of a held-key record. -/
inductive HeldPhase where
  | delay
  | repeating
  deriving DecidableEq, Repr

/-- R142: a held-key record; `time` is the time to the next repeat in ms as it was last set (log 9). -/
structure HeldKey where
  key : RepeatKey
  phase : HeldPhase
  time : Nat
  deriving DecidableEq, Repr

/-- R117: a pack slot record. -/
structure PackSlot where
  state : PackState
  identity : Option PackIdentity
  assigned : Option (Fin 24)
  /-- 0 to 16 -/
  missRun : Nat
  /-- 0 for the master offset, 1 to 8 for a group -/
  target : Fin 9
  silence : Bool
  held : Option HeldKey
  deriving DecidableEq, Repr

/-- Where the sweep stands (R118): none in progress, or the part that comes next. `reading` holds the slots picked
and not yet read (R121, R122), `attach` the next announce window (R125). -/
inductive SweepPart where
  | idle
  | poll
  | read
  | reading (picked : List (Fin 32))
  | attach (next : Fin 32)
  | downstream
  deriving DecidableEq, Repr

/-- R123, 11.7: a message to one pack. -/
inductive PackMessage where
  | welcome
  | occupied
  | released
  deriving DecidableEq, Repr

/-- R123: a status record for one ONLINE slot. -/
structure StatusRec where
  slot : Fin 32
  state : PackState
  assigned : Option (Fin 24)
  target : Fin 9
  value : Int
  hold : Bool
  silence : Bool
  deriving DecidableEq, Repr

/-- R123: what a downstream part carries. -/
structure Downstream where
  records : List StatusRec
  messages : List (PackMessage × Fin 32)
  deriving DecidableEq, Repr

/-- R115: the 32 stereo pairs of a pack bus frame. -/
abbrev AudioFrame := Vector (Int × Int) 32

/-- The pack bus controller and the pack key handler (R115 to R150). -/
structure PackBus where
  slots : Vector PackSlot 32
  sweep : SweepPart
  sweepCounter : Fin 64
  /-- the round-robin pointer -/
  pointer : Fin 32
  /-- the pending marks of the sweep in progress, slot s at bit s - 1 -/
  pendingMarks : BitVec 32
  /-- welcome, occupied and released messages not yet sent, oldest first -/
  messages : List (PackMessage × Fin 32)
  /-- key events handed to the key handler and not yet applied, oldest first (R138) -/
  keyEvents : List (Fin 32 × Byte)
  /-- the call list (R147) -/
  calls : List (Fin 32)
  /-- whether the outputs of the latest frame instant have not yet been sent in a pack bus frame (R115) -/
  frameDue : Bool
  /-- the last pack bus frame sent -/
  sentAudio : Option AudioFrame
  /-- the last downstream part sent -/
  sentDownstream : Option Downstream
  deriving DecidableEq, Repr

/-! ### The engine without its ports -/

/-- Every block but the control ports. -/
structure Engine where
  powered : Bool
  linkA : Receiver
  linkB : Receiver
  selector : Selector
  tables : Tables
  /-- the talk set of port 0 (R25) -/
  talkHome : MixSet
  /-- the talk set of port 1 (R25) -/
  talkGuest : MixSet
  coefs : Vector (Vector CoefPair 64) 24
  runs : Vector MixRun 24
  /-- the input peak meters (R71) -/
  inputMeters : Vector Nat 64
  /-- the model's own: the next frame instant arrives together with the warm reset just taken, so that no input meter
  rises at it (R78, log 26) -/
  metersRest : Bool
  library : Library
  packs : PackBus
  /-- the port that holds charge (R161) -/
  charge : Port
  deriving DecidableEq, Repr

/-! ### Control ports and notice units (chapters 9 and 10) -/

/-- R169: the eleven events. -/
inductive Event where
  | clip
  | guard
  | packAttach
  | packLost
  | packConflict
  | packAdjust
  | call
  | sourceChange
  | linkDown
  | opDone
  | charge
  deriving DecidableEq, Repr

/-- R169: the eight states that a notice unit reads as levels. -/
inductive Level where
  | holdCharge
  | libraryBusy
  | aLocked
  | bLocked
  | onB
  | concealing
  | anyLost
  | callsWaiting
  deriving DecidableEq, Repr

/-- R169: the nineteen items: an event, or the rise of a state. -/
inductive Item where
  | event (e : Event)
  | rise (x : Level)
  deriving DecidableEq, Repr

/-- A set of items: each at the position of 11.3 (R179). -/
structure ItemSet where
  events : BitVec 11
  rises : BitVec 8
  deriving DecidableEq, Repr

/-- The condition of a wait: events, and states by level or rise (R174, R179). -/
structure Condition where
  events : BitVec 11
  states : BitVec 8
  deriving DecidableEq, Repr

/-- 11.3: a notice block. -/
structure NoticeBlock where
  items : ItemSet
  /-- the levels of the eight states when the block was built -/
  levels : BitVec 8
  deriving DecidableEq, Repr

/-- R170: a notice unit. -/
structure NoticeUnit where
  occurred : ItemSet
  mask : ItemSet
  reasons : ItemSet
  armed : Bool
  deriving DecidableEq, Repr

/-- R174: a parked wait; the timeout in ms as the request carried it, 0 for none (log 9). -/
structure ParkedWait where
  condition : Condition
  timeout : Nat
  deriving DecidableEq, Repr

/-- A kept request (R151, R154). -/
structure Request where
  code : Byte
  payload : Payload
  deriving DecidableEq, Repr

/-- 11.2: the status codes. -/
inductive Status where
  | ok
  | started
  | partly
  | met
  | timedOut
  | cancelled
  | unknownRequest
  | notInCharge
  | homeOnly
  | badIndex
  | awaitingRecall
  | libraryBusy
  | slotEmpty
  | slotDamaged
  | slotProtected
  | waitBusy
  | noWait
  | groupConflict
  | notRecalling
  deriving DecidableEq, Repr

/-- R158: a reply body. -/
structure Reply where
  echo : Byte
  status : Status
  lost : Bool
  garbled : Bool
  clamped : Bool
  data : List Byte
  deriving DecidableEq, Repr

/-- A frame for the transmit line (R159): the reply of the request in service, the reply of a parked wait, or an
attention frame. -/
inductive Frame where
  | service (r : Reply)
  | parked (r : Reply)
  | attention (b : NoticeBlock)
  deriving DecidableEq, Repr

/-- R151: the receiver of a port; `receiving` holds the bytes gathered after the start byte. -/
inductive PortReceiver where
  | hunting
  | receiving (got : List Byte)
  | inBreak
  deriving DecidableEq, Repr

/-- One control port with its notice unit (R168). -/
structure PortState where
  receiver : PortReceiver
  /-- at most 4, oldest first (R154) -/
  queue : List Request
  /-- the request in service (R155) -/
  service : Option Request
  wait : Option ParkedWait
  lost : Bool
  garbled : Bool
  /-- the frame on the transmit line -/
  line : Option Frame
  /-- the model's own: the frame on the line tells a CLIP or GUARD of a frame instant that a warm reset, waiting right
  behind it, arrived together with (R78, R90, log 26) -/
  unseen : Bool
  /-- frames ready and not begun, oldest first -/
  ready : List Frame
  unit : NoticeUnit
  deriving DecidableEq, Repr

/-! ### The whole state -/

/-- The state of the block. -/
structure State where
  engine : Engine
  /-- port 0 -/
  home : PortState
  /-- port 1 -/
  guest : PortState
  /-- how many free order choices have been taken (the model's own, log 7) -/
  draws : Nat
  /-- the commands waiting, first in, first out -/
  pending : List Instr
  deriving DecidableEq, Repr

/-- Why a step may stop with a fault: there is no such reason, since the manual gives every command an effect or no
occasion (log 2). -/
inductive Fault where
  deriving DecidableEq, Repr

/-- Why a step may be refused. -/
inductive Refusal where
  /-- raised by an arm of exec that gives its command no meaning yet; safe; no arm does so -/
  | notModelled (mnemonic : String)
  deriving DecidableEq, Repr

/-! ### Reset -/

/-- R2, R7: a receiver after a cold reset, its line without signal. -/
def Receiver.reset : Receiver :=
  { signal := false, state := .down, goodRun := 0, missRun := 0, lastNumber := none, lastCount := 0, slips := 0,
    held := none, fresh := false }

/-- R8: the zero frame. -/
def Delivered.zero : Delivered := Vector.replicate 64 none

/-- R19. -/
def Selector.reset : Selector :=
  { mode := .auto, autoRevert := true, active := .a, missRun := 0, concealCount := 0, primaryTime := 0,
    lastUsed := Delivered.zero, delivered := Delivered.zero }

/-- R20: input i takes link channel i. -/
def InputRec.reset (i : Fin 64) : InputRec := { patch := some i, trim := 0, inverted := false, on := true }

/-- R21. -/
def SendRec.reset : SendRec := { level := 0, pan := 0, on := true }

/-- R22. -/
def MixRec.reset : MixRec :=
  { master := 0, mute := false, shift := 0, ceiling := 8388607, release := 16, dim := -40, hold := false,
    linkSet := none }

/-- R23. -/
def Group.reset : Group := { trim := 0, members := [] }

/-- R21 to R23. -/
def MixTable.reset : MixTable :=
  { record := MixRec.reset, sends := Vector.replicate 64 SendRec.reset, groups := Vector.replicate 8 Group.reset }

/-- R44: the tables after a cold reset. -/
def Tables.reset : Tables :=
  { inputs := Vector.ofFn InputRec.reset, mixes := Vector.replicate 24 MixTable.reset, talkSource := none }

/-- R58: every send level is 0, so the target is 0 and the step is max(1, ceil(0 / 64)). -/
def Coef.reset : Coef := { target := 0, live := 0, step := 1 }

/-- Both sides of a pair (R58). -/
def CoefPair.reset : CoefPair := { left := Coef.reset, right := Coef.reset }

/-- R77, R89; the outputs before the first frame instant are 0 (log 16). -/
def MixRun.reset : MixRun :=
  { clip := false, near := false, guard := false, gain := 16384, meterLeft := 0, meterRight := 0, outLeft := 0,
    outRight := 0 }

/-- R91: a slot as the part leaves the factory, at the start of verify-all. -/
def SceneSlot.factory : SceneSlot := { state := .unchecked, protect := false, image := .erased }

/-- R95. -/
def ResultRec.reset : ResultRec := { op := .none, slot := none, outcome := .done, mixesLoaded := 0 }

/-- R114 for a part with its factory memory (log 8): verify-all has begun at slot 1. -/
def Library.reset : Library :=
  { slots := Vector.replicate 32 SceneSlot.factory, startScene := none, operation := .verifyAll 0,
    result := ResultRec.reset }

/-- R134, R150: slot s takes mix s for s = 1 to 24; slots 25 to 32 take none. -/
def PackSlot.reset (a : Fin 32) : PackSlot :=
  { state := .empty, identity := none, assigned := if h : a.val < 24 then some ⟨a.val, h⟩ else none, missRun := 0,
    target := 0, silence := false, held := none }

/-- R134, R150: counter 0, pointer at address 32. -/
def PackBus.reset : PackBus :=
  { slots := Vector.ofFn PackSlot.reset, sweep := .idle, sweepCounter := 0, pointer := 31, pendingMarks := 0#32,
    messages := [], keyEvents := [], calls := [], frameDue := false, sentAudio := none, sentDownstream := none }

/-- The engine without its ports after the cold reset of a factory-new part. -/
def Engine.reset : Engine :=
  { powered := true, linkA := Receiver.reset, linkB := Receiver.reset, selector := Selector.reset,
    tables := Tables.reset, talkHome := 0#24, talkGuest := 0#24,
    coefs := Vector.replicate 24 (Vector.replicate 64 CoefPair.reset), runs := Vector.replicate 24 MixRun.reset,
    inputMeters := Vector.replicate 64 0, metersRest := false, library := Library.reset, packs := PackBus.reset,
    charge := .home }

/-- The empty set of items. -/
def ItemSet.empty : ItemSet := { events := 0#11, rises := 0#8 }

/-- R177: a notice unit at its reset values. -/
def NoticeUnit.reset : NoticeUnit :=
  { occurred := ItemSet.empty, mask := ItemSet.empty, reasons := ItemSet.empty, armed := true }

/-- R168: a port after a cold reset, before verify-all begins. -/
def PortState.reset : PortState :=
  { receiver := .hunting, queue := [], service := none, wait := none, lost := false, garbled := false, line := none,
    unseen := false, ready := [], unit := NoticeUnit.reset }

/-- R94: the rise of LIBRARY_BUSY, at its position of 11.3, which the start of verify-all leaves in both occurred
sets. -/
def ItemSet.libraryRise : ItemSet := { events := 0#11, rises := 2#8 }

/-- A port once verify-all has begun (R94). -/
def PortState.coldReset : PortState :=
  { PortState.reset with unit := { NoticeUnit.reset with occurred := ItemSet.libraryRise } }

/-- The block right after the cold reset of a factory-new part, verify-all begun (log 8). -/
def State.reset : State :=
  { engine := Engine.reset, home := PortState.coldReset, guest := PortState.coldReset, draws := 0, pending := [] }

end Sys2Proof.Machine
end

