-- ==== Sys2Proof/Machine/Ops.lean ====
section
/-! DEFINITION. The named operations every block uses: access to receivers and ports, byte order (R178), the cyclic
redundancy check (R1, 9.1), sets of mixes, and the composition of changes that raise events. -/
namespace Sys2Proof

/-- The other stage link. -/
def Link.other : Link → Link
  | .a => .b
  | .b => .a

/-- The other control port. -/
def Port.other : Port → Port
  | .home => .guest
  | .guest => .home

/-- Control ports are numbered 0 and 1 (0.6). -/
def Port.number : Port → Nat
  | .home => 0
  | .guest => 1

end Sys2Proof

namespace Sys2Proof.Machine

/-! ### Receivers, ports and talk sets by name -/

/-- The receiver of a link. -/
def Engine.receiver (e : Engine) : Link → Receiver
  | .a => e.linkA
  | .b => e.linkB

/-- The engine with one receiver replaced. -/
def Engine.setReceiver (e : Engine) : Link → Receiver → Engine
  | .a, r => { e with linkA := r }
  | .b, r => { e with linkB := r }

/-- The talk set owned by a port (R25). -/
def Engine.talkSet (e : Engine) : Port → MixSet
  | .home => e.talkHome
  | .guest => e.talkGuest

/-- The engine with one port's talk set replaced. -/
def Engine.setTalkSet (e : Engine) : Port → MixSet → Engine
  | .home, t => { e with talkHome := t }
  | .guest, t => { e with talkGuest := t }

/-- One control port of the state. -/
def State.port (s : State) : Port → PortState
  | .home => s.home
  | .guest => s.guest

/-- The state with one control port replaced. -/
def State.setPort (s : State) : Port → PortState → State
  | .home, x => { s with home := x }
  | .guest, x => { s with guest := x }

/-- The state with the engine's blocks replaced. -/
def State.setEngine (s : State) (e : Engine) : State := { s with engine := e }

/-! ### Changes that raise events -/

/-- A change of the engine's blocks together with the events it raises, in the order of their causes. -/
abbrev Act := Engine × List Event

/-- No change and no event. -/
def Act.start (e : Engine) : Act := (e, [])

/-- One change after another. -/
def Act.andThen (x : Act) (f : Engine → Act) : Act := ((f x.1).1, x.2 ++ (f x.1).2)

/-! ### Tables, packs and scenes by index -/

/-- The tables of one mix changed. -/
def Tables.modifyMix (t : Tables) (m : Fin 24) (f : MixTable → MixTable) : Tables :=
  { t with mixes := t.mixes.set m (f t.mixes[m]) }

/-- The tables of one mix changed, in the engine. -/
def Engine.modifyMix (e : Engine) (m : Fin 24) (f : MixTable → MixTable) : Engine :=
  { e with tables := e.tables.modifyMix m f }

/-- One pack slot record changed. -/
def Engine.modifyPack (e : Engine) (a : Fin 32) (f : PackSlot → PackSlot) : Engine :=
  { e with packs := { e.packs with slots := e.packs.slots.set a (f e.packs.slots[a]) } }

/-- One scene slot changed. -/
def Library.modifySlot (l : Library) (k : Fin 32) (f : SceneSlot → SceneSlot) : Library :=
  { l with slots := l.slots.set k (f l.slots[k]) }

/-- One scene slot changed, in the engine. -/
def Engine.modifySlot (e : Engine) (k : Fin 32) (f : SceneSlot → SceneSlot) : Engine :=
  { e with library := e.library.modifySlot k f }

/-! ### Sets of mixes (R178) -/

/-- Whether a mix is in a set. -/
def MixSet.has (s : MixSet) (m : Fin 24) : Bool := s.getLsbD m.val

/-- The set of the mixes that satisfy a test. -/
def MixSet.ofTest (f : Fin 24 → Bool) : MixSet :=
  (List.finRange 24).foldl (fun acc m => if f m then acc ||| BitVec.twoPow 24 m.val else acc) 0#24

/-- The set of all 24 mixes. -/
def MixSet.all : MixSet := BitVec.allOnes 24

/-- A set without one mix. -/
def MixSet.without (s : MixSet) (m : Fin 24) : MixSet := s &&& ~~~ (BitVec.twoPow 24 m.val)

/-- The mixes of a set in ascending order (R104). -/
def MixSet.members (s : MixSet) : List (Fin 24) := (List.finRange 24).filter fun m => MixSet.has s m

/-- The number of mixes in a set. -/
def MixSet.size (s : MixSet) : Nat := (MixSet.members s).length

/-! ### Byte order and signed fields (R178) -/

/-- The low byte of a number. -/
def byteOf (n : Nat) : Byte := BitVec.ofNat 8 n

/-- A signed one-byte field in two's complement. -/
def signedByte (x : Int) : Byte := BitVec.ofInt 8 x

/-- A yes-or-no field: 0 or 1. -/
def flagByte (b : Bool) : Byte := if b then 1#8 else 0#8

/-- A two-byte field, most significant byte first. -/
def bytes16 (n : Nat) : List Byte := [byteOf (n / 256), byteOf n]

/-- A three-byte field, most significant byte first. -/
def bytes24 (n : Nat) : List Byte := [byteOf (n / 65536), byteOf (n / 256), byteOf n]

/-- A signed three-byte field: an audio sample (0.6). -/
def sampleBytes (x : Int) : List Byte := bytes24 (BitVec.ofInt 24 x).toNat

/-- The unsigned number that bytes spell, most significant first. -/
def numberOf (bs : List Byte) : Nat := bs.foldl (fun acc b => acc * 256 + b.toNat) 0

/-- The sum of bytes modulo 256 (R122, R125). -/
def byteSum (bs : List Byte) : Byte := bs.foldl (fun acc b => acc + b) 0#8

/-- A field that names something from 1 to n, or 0 for none. -/
def ordinalByte (x : Option (Fin n)) : Byte :=
  match x with
  | none => 0#8
  | some k => byteOf (k.val + 1)

/-! ### The check of frames (R1, 9.1) -/

/-- One bit into the CRC of polynomial x^16 + x^12 + x^5 + 1. -/
def crcBit (c : BitVec 16) (b : Bool) : BitVec 16 :=
  if c.msb != b then (c <<< 1) ^^^ 0x1021#16 else c <<< 1

/-- One byte into the CRC, most significant bit first. -/
def crcByte (c : BitVec 16) (b : Byte) : BitVec 16 :=
  [7, 6, 5, 4, 3, 2, 1, 0].foldl (fun acc k => crcBit acc (b.getLsbD k)) c

/-- The CRC of a sequence of bytes: from all ones, nothing reflected, no final exclusive-or. -/
def crc16 (bs : List Byte) : BitVec 16 := bs.foldl crcByte 0xFFFF#16

end Sys2Proof.Machine
end

