-- ==== Sys2Proof/Machine/Levels.lean ====
section
/-! DEFINITION. The level deriver and the coefficient ramps (chapter 3): the target of each side of each pair of mix
and input, recomputation at the change of a quantity, and the movement of the live values. -/
namespace Sys2Proof.Machine

/-! ### The derivation of a target (3.1 to 3.3) -/

/-- R25: the mixes in either port's talk set. -/
def Engine.onAir (e : Engine) : MixSet := e.talkHome ||| e.talkGuest

/-- R25: a mix is talking when it is in either talk set and the talk source is not none. -/
def talking (t : Tables) (air : MixSet) (m : Fin 24) : Bool := MixSet.has air m && t.talkSource.isSome

/-- R46: the input is the talk source of a talking mix. -/
def overridden (t : Tables) (air : MixSet) (m : Fin 24) (i : Fin 64) : Bool :=
  talking t air m && decide (t.talkSource = some i)

/-- R45: the trim of the group of the mix that holds the input, 0 when none does. -/
def groupTrim (x : MixTable) (i : Fin 64) : Int :=
  match x.groups.toList.find? (fun g => g.members.contains i) with
  | some g => g.trim
  | none => 0

/-- R47: the silence test of a pair. -/
def silenced (t : Tables) (air : MixSet) (m : Fin 24) (i : Fin 64) : Bool :=
  !(t.inputs[i]).on || (t.inputs[i]).patch.isNone ||
    (!overridden t air m i &&
      (!((t.mixes[m]).sends[i]).on || decide (((t.mixes[m]).sends[i]).level = 0) || (t.mixes[m]).record.mute))

/-- R45, R46: the effective level S + T + G + M + D'. -/
def effectiveLevel (t : Tables) (air : MixSet) (m : Fin 24) (i : Fin 64) : Int :=
  let send := (t.mixes[m]).sends[i]
  let level : Int := if overridden t air m i && decide (send.level = 0) then 208 else (send.level : Int)
  let dim : Int := if talking t air m && !overridden t air m i then (t.mixes[m]).record.dim else 0
  level + (t.inputs[i]).trim + groupTrim (t.mixes[m]) i + (t.mixes[m]).record.master + dim

/-- R49: the coefficient table for level codes 1 to 232, each entry 16,384 x 10^((L - 208)/40) rounded to the nearest
integer. -/
def coefficientTable : List Nat :=
  [0, 0, 0, 0, 0, 0, 0, 0, 0, 0, 0, 0, 0, 0, 0, 0, 0, 0, 0, 0] ++
  [0, 0, 0, 0, 0, 0, 0, 1, 1, 1, 1, 1, 1, 1, 1, 1, 1, 1, 1, 1] ++
  [1, 1, 1, 1, 1, 1, 2, 2, 2, 2, 2, 2, 2, 2, 2, 3, 3, 3, 3, 3] ++
  [3, 4, 4, 4, 4, 5, 5, 5, 5, 6, 6, 7, 7, 7, 8, 8, 9, 9, 10, 10] ++
  [11, 12, 12, 13, 14, 15, 15, 16, 17, 18, 19, 21, 22, 23, 25, 26, 28, 29, 31, 33] ++
  [35, 37, 39, 41, 44, 46, 49, 52, 55, 58, 62, 65, 69, 73, 78, 82, 87, 92, 98, 103] ++
  [110, 116, 123, 130, 138, 146, 155, 164, 174, 184, 195, 206, 218, 231, 245, 260, 275, 291, 309, 327] ++
  [346, 367, 389, 412, 436, 462, 489, 518, 549, 581, 616, 652, 691, 732, 775, 821, 870, 921, 976, 1034] ++
  [1095, 1160, 1229, 1301, 1379, 1460, 1547, 1638, 1735, 1838, 1947, 2063, 2185, 2314, 2451, 2597, 2751, 2914, 3086, 3269] ++
  [3463, 3668, 3885, 4115, 4359, 4618, 4891, 5181, 5488, 5813, 6158, 6523, 6909, 7318, 7752, 8211, 8698, 9213, 9759, 10338] ++
  [10950, 11599, 12286, 13014, 13785, 14602, 15467, 16384, 17355, 18383, 19472, 20626, 21848, 23143, 24514, 25967, 27506, 29135, 30862, 32690] ++
  [34627, 36679, 38853, 41155, 43593, 46176, 48913, 51811, 54881, 58133, 61577, 65226]

/-- R49: the coefficient of a level code. -/
def coefficient (code : Nat) : Nat := coefficientTable.getD (code - 1) 0

/-- R50: the far side of a pan, (32 - |P|)/32 of the coefficient, an exact half rounded up. -/
def farSide (c pan : Nat) : Nat := (c * (32 - pan) + 16) / 32

/-- R50: the balance law. -/
def panSplit (c : Nat) (pan : Int) : Nat × Nat :=
  if 0 < pan then (farSide c pan.natAbs, c)
  else if pan < 0 then (c, farSide c pan.natAbs)
  else (c, c)

/-- R45 to R50: the left and right target of a pair, from the tables and the mixes on air. -/
def deriveTargets (t : Tables) (air : MixSet) (m : Fin 24) (i : Fin 64) : Nat × Nat :=
  if silenced t air m i then (0, 0)
  else
    let level := effectiveLevel t air m i
    if level ≤ 0 then (0, 0)
    else panSplit (coefficient (min level 232).toNat) ((t.mixes[m]).sends[i]).pan

/-! ### Recomputation and ramps (3.4 to 3.6) -/

/-- R55: the ramp step from a live value to a target. -/
def rampStep (live target : Nat) : Nat := max 1 (((max live target - min live target) + 63) / 64)

/-- R52: a new target restarts the ramp; an equal one leaves the side as it was. -/
def Coef.retarget (c : Coef) (target : Nat) : Coef :=
  if target = c.target then c else { c with target := target, step := rampStep c.live target }

/-- R52, both sides of a pair. -/
def CoefPair.retarget (c : CoefPair) (target : Nat × Nat) : CoefPair :=
  { left := c.left.retarget target.1, right := c.right.retarget target.2 }

/-- R51: the recomputation of every pair that a change reaches, from the tables as they stand after the change. -/
def Engine.recompute (e : Engine) (reach : Fin 24 → Fin 64 → Bool) : Engine :=
  { e with
    coefs := Vector.ofFn fun m => Vector.ofFn fun i =>
      if reach m i then ((e.coefs[m])[i]).retarget (deriveTargets e.tables e.onAir m i) else (e.coefs[m])[i] }

/-- R56: the movement of one live value at a frame instant. -/
def Coef.move (c : Coef) : Coef :=
  if c.live < c.target then { c with live := min (c.live + c.step) c.target }
  else { c with live := max (c.live - c.step) c.target }

/-- R56, both sides of a pair. -/
def CoefPair.move (c : CoefPair) : CoefPair := { left := c.left.move, right := c.right.move }

/-- R58: at a reset the live value is 0 and the step is set from it, whether or not the target differs. -/
def Coef.fromSilence (target : Nat) : Coef := { target := target, live := 0, step := rampStep 0 target }

/-- R58: every target recomputed from the tables as they stand, every live value 0. -/
def Engine.restartRamps (e : Engine) : Engine :=
  { e with
    coefs := Vector.ofFn fun m => Vector.ofFn fun i =>
      { left := Coef.fromSilence (deriveTargets e.tables e.onAir m i).1,
        right := Coef.fromSilence (deriveTargets e.tables e.onAir m i).2 } }

/-! ### What a change reaches (R51) -/

/-- All 64 inputs of one mix. -/
def reachMix (m : Fin 24) : Fin 24 → Fin 64 → Bool := fun m' _ => decide (m' = m)

/-- One input in all 24 mixes. -/
def reachInput (i : Fin 64) : Fin 24 → Fin 64 → Bool := fun _ i' => decide (i' = i)

/-- Some inputs of one mix. -/
def reachInputsOf (m : Fin 24) (l : List (Fin 64)) : Fin 24 → Fin 64 → Bool :=
  fun m' i => decide (m' = m) && l.contains i

/-- Every pair of every mix whose talking state differs between two states of the tables and talk sets, or that is
talking in the later one when `source` is set (R41, R51). -/
def reachTalking (before after : Engine) (source : Bool) : Fin 24 → Fin 64 → Bool := fun m _ =>
  (talking before.tables before.onAir m != talking after.tables after.onAir m) ||
    (source && talking after.tables after.onAir m)

end Sys2Proof.Machine
end

