-- ==== Sys2Proof/Config.lean ====
section
/-! DEFINITION. The free values: what the manual leaves open while the engine goes on. Each is a constant with no
body, so that no proof can rest on a value of it. All but the last are applied to the model's own counter
`State.draws`, which gives a fresh choice each time (log 7). -/
namespace Sys2Proof

/-- When, inside a frame instant, a receiver's own work is taken (R5, R12, R14: "either may be taken first"). -/
inductive Turn where
  /-- before the selector's stages -/
  | beforeSelector
  /-- between the concealment stage and the closing stage -/
  | beforeClosing
  /-- after the closing stage -/
  | afterClosing
  deriving DecidableEq, Repr, Inhabited

/-- The order in which the items and frames of one command reach one port (R159, R170, R172; log 4). -/
opaque Config.order : Nat → Nat

/-- Whether the parked wait is taken before the attention for the k-th thing that reaches a port (R170, R175; log 5). -/
opaque Config.waitFirst : Nat → Nat → Bool

/-- The turn of each receiver at a frame instant (R12, R14; log 6). -/
opaque Config.receiverTurn : Nat → Link → Turn

/-- Whether a warm reset and a frame instant, one of them waiting right behind the other, arrived together (R78, R90:
"a warm reset and a frame instant can arrive together, and either may be taken first"; log 26). -/
opaque Config.together : Nat → Bool

/-- What the name bytes of a slot in the erased pattern read as while the slot is UNCHECKED (R91, R112; log 14). -/
opaque Config.erasedName : SceneName

end Sys2Proof
end

