-- ==== Sys2Proof/Machine/Flags.lean ====
section
/-! DEFINITION. The eight states as levels (R18, R94, R133, R149, R161), the positions of events and states in every
field that carries them (R179), sets of items, and the codes of replies (11.2). -/
namespace Sys2Proof.Machine

/-! ### Levels -/

/-- R94: an operation is in progress. -/
def Library.busy (l : Library) : Bool := decide (l.operation ≠ .idle)

/-- R133: at least one slot is LOST. -/
def PackBus.anyLost (b : PackBus) : Bool := (List.finRange 32).any fun a => decide ((b.slots[a]).state = .lost)

/-- The level of a state as the unit of port p reads it (R18, R94, R133, R149, R161). -/
def Engine.level (e : Engine) (p : Port) : Level → Bool
  | .holdCharge => decide (e.charge = p)
  | .libraryBusy => e.library.busy
  | .aLocked => decide (e.linkA.state = .locked)
  | .bLocked => decide (e.linkB.state = .locked)
  | .onB => decide (e.selector.active = .b)
  | .concealing => decide (e.selector.concealCount ≠ 0)
  | .anyLost => e.packs.anyLost
  | .callsWaiting => !e.packs.calls.isEmpty

/-- The eight states in the order of their positions (11.3). -/
def Level.all : List Level :=
  [.holdCharge, .libraryBusy, .aLocked, .bLocked, .onB, .concealing, .anyLost, .callsWaiting]

/-- The position of a state in a rises or states field (11.3). -/
def Level.bit : Level → Nat
  | .holdCharge => 0
  | .libraryBusy => 1
  | .aLocked => 2
  | .bLocked => 3
  | .onB => 4
  | .concealing => 5
  | .anyLost => 6
  | .callsWaiting => 7

/-- The position of an event in an events field (11.3). -/
def Event.bit : Event → Nat
  | .clip => 0
  | .guard => 1
  | .packAttach => 2
  | .packLost => 3
  | .packConflict => 4
  | .packAdjust => 5
  | .call => 6
  | .sourceChange => 7
  | .linkDown => 8
  | .opDone => 9
  | .charge => 10

/-- The states field for port p: the level of each state at its position (11.3). -/
def Engine.levels (e : Engine) (p : Port) : BitVec 8 := BitVec.ofBoolListLE (Level.all.map (e.level p))

/-- R169: the states that turn from false to true between two states of the blocks, as the unit of port p sees them. -/
def rises (before after : Engine) (p : Port) : List Level :=
  Level.all.filter fun x => !before.level p x && after.level p x

/-- The link that the frame instants are slaved to, or none when they run from the internal reference (R61). -/
def Engine.slavedTo (e : Engine) : Option Link :=
  if (e.receiver e.selector.active).state = .locked then some e.selector.active else none

/-! ### Sets of items (R170, R179) -/

/-- The set that holds one item. -/
def ItemSet.single : Item → ItemSet
  | .event e => { events := BitVec.twoPow 11 e.bit, rises := 0#8 }
  | .rise x => { events := 0#11, rises := BitVec.twoPow 8 x.bit }

/-- The items in either set. -/
def ItemSet.union (x y : ItemSet) : ItemSet := { events := x.events ||| y.events, rises := x.rises ||| y.rises }

/-- The items in both sets. -/
def ItemSet.inter (x y : ItemSet) : ItemSet := { events := x.events &&& y.events, rises := x.rises &&& y.rises }

/-- The items of the first set that are not in the second. -/
def ItemSet.diff (x y : ItemSet) : ItemSet :=
  { events := x.events &&& ~~~ y.events, rises := x.rises &&& ~~~ y.rises }

/-- Whether an item is in a set. -/
def ItemSet.has (x : ItemSet) : Item → Bool
  | .event e => x.events.getLsbD e.bit
  | .rise l => x.rises.getLsbD l.bit

/-- Whether a set holds no item. -/
def ItemSet.isEmpty (x : ItemSet) : Bool := decide (x = ItemSet.empty)

/-- The items that meet a condition: its events, and the rises of its states (R175). -/
def Condition.items (c : Condition) : ItemSet := { events := c.events, rises := c.states }

/-- The four bytes of a notice block (11.3). -/
def NoticeBlock.bytes (b : NoticeBlock) : List Byte :=
  bytes16 b.items.events.toNat ++ [b.items.rises, b.levels]

/-! ### Replies (11.2) -/

/-- 11.2: the code of a status. -/
def Status.code : Status → Byte
  | .ok => 0x00
  | .started => 0x01
  | .partly => 0x02
  | .met => 0x03
  | .timedOut => 0x04
  | .cancelled => 0x05
  | .unknownRequest => 0x10
  | .notInCharge => 0x11
  | .homeOnly => 0x12
  | .badIndex => 0x13
  | .awaitingRecall => 0x14
  | .libraryBusy => 0x15
  | .slotEmpty => 0x16
  | .slotDamaged => 0x17
  | .slotProtected => 0x18
  | .waitBusy => 0x19
  | .noWait => 0x1A
  | .groupConflict => 0x1B
  | .notRecalling => 0x1C

/-- The flags byte: LOST at bit 0, GARBLED at bit 1, CLAMPED at bit 2 (11.2). -/
def Reply.flags (r : Reply) : Byte :=
  byteOf ((if r.lost then 1 else 0) + (if r.garbled then 2 else 0) + (if r.clamped then 4 else 0))

/-- A reply body (11.2). -/
def Reply.body (r : Reply) : List Byte := [r.echo, r.status.code, r.flags] ++ r.data

/-- The bytes of a control frame after its start byte and before its check: type, body length, body (11.2). -/
def framed (kind : Byte) (body : List Byte) : List Byte := kind :: (bytes16 body.length ++ body)

/-- A whole control frame on the line: start byte, type, body length, body, check (11.2). -/
def controlFrame (kind : Byte) (body : List Byte) : List Byte :=
  0xA5#8 :: (framed kind body ++ bytes16 (crc16 (framed kind body)).toNat)

/-- The bytes of a frame that the engine sends: REPLY 0x02 or ATTENTION 0x03 (11.2). -/
def Frame.bytes : Frame → List Byte
  | .service r => controlFrame 0x02#8 r.body
  | .parked r => controlFrame 0x02#8 r.body
  | .attention b => controlFrame 0x03#8 b.bytes

end Sys2Proof.Machine
end

