-- ==== Sys2Proof/Machine/Operands.lean ====
section
/-! DEFINITION. How the owning block reads the parameters and the data part of a request (R156, R178), names a
numbered thing (0.6), and clamps a value out of its range (R28). -/
namespace Sys2Proof.Machine

/-- A parameter byte; a missing one is read as zero (R156). -/
def Payload.byte (q : Payload) (k : Nat) : Byte := q.params.getD k 0#8

/-- An unsigned one-byte parameter. -/
def Payload.u8 (q : Payload) (k : Nat) : Nat := (Payload.byte q k).toNat

/-- A signed one-byte parameter. -/
def Payload.s8 (q : Payload) (k : Nat) : Int := (Payload.byte q k).toInt

/-- A two-byte parameter, big-endian. -/
def Payload.u16 (q : Payload) (k : Nat) : Nat := Payload.u8 q k * 256 + Payload.u8 q (k + 1)

/-- A three-byte parameter, big-endian. -/
def Payload.u24 (q : Payload) (k : Nat) : Nat :=
  Payload.u8 q k * 65536 + Payload.u8 q (k + 1) * 256 + Payload.u8 q (k + 2)

/-- A set of mixes: three bytes read as one 24-bit value (R178). -/
def Payload.mixSet (q : Payload) (k : Nat) : MixSet := BitVec.ofNat 24 (Payload.u24 q k)

/-- A set of events: two bytes; positions that name nothing are ignored (R178, R179). -/
def Payload.events (q : Payload) (k : Nat) : BitVec 11 := BitVec.ofNat 11 (Payload.u16 q k)

/-- A set of rises or states: one byte (R178, R179). -/
def Payload.states (q : Payload) (k : Nat) : BitVec 8 := Payload.byte q k

/-- A class set: positions beyond the five classes are ignored (R102, R178). -/
def Payload.classes (q : Payload) (k : Nat) : ClassSet :=
  { sends := (Payload.byte q k).getLsbD 0, groups := (Payload.byte q k).getLsbD 1,
    mix := (Payload.byte q k).getLsbD 2, guard := (Payload.byte q k).getLsbD 3,
    inputs := (Payload.byte q k).getLsbD 4 }

/-- A bit of a field-present set (11.5). -/
def Payload.present (q : Payload) (k bit : Nat) : Bool := (Payload.byte q k).getLsbD bit

/-- The data part as whole records of 4 bytes; bytes after the last whole record are discarded (R32, R156). -/
def records4 : List Byte → List (Byte × Byte × Byte × Byte)
  | a :: b :: c :: d :: rest => (a, b, c, d) :: records4 rest
  | _ => []

/-- A number from 1 to n names a thing; any other number names none and is a bad index (R28). -/
def ordinal (n k : Nat) : Option (Fin n) :=
  if h : 1 ≤ k ∧ k ≤ n then some ⟨k - 1, by omega⟩ else none

/-- A number from 1 to n names a thing and 0 names none; any other number is a bad index (0.6, R28). -/
def ordinalOrNone (n k : Nat) : Option (Option (Fin n)) :=
  if k = 0 then some none else (ordinal n k).map some

/-- R28: the nearest value of a range. -/
def clampInt (lo hi x : Int) : Int := if x < lo then lo else if hi < x then hi else x

/-- R28: the nearest value of a range. -/
def clampNat (lo hi x : Nat) : Nat := if x < lo then lo else if hi < x then hi else x

/-- Whether clamping changes the value. -/
def outsideInt (lo hi x : Int) : Bool := decide (x < lo) || decide (hi < x)

/-- Whether clamping changes the value. -/
def outsideNat (lo hi x : Nat) : Bool := decide (x < lo) || decide (hi < x)

/-- R28: a yes-or-no value; above 1 it is taken as 1. -/
def yes (x : Nat) : Bool := decide (x ≠ 0)

/-- R28: a yes-or-no value above 1 is clamped. -/
def outsideYesNo (x : Nat) : Bool := decide (1 < x)

end Sys2Proof.Machine
end

