-- ==== Sys2Proof/Machine/Notices.lean ====
section
/-! DEFINITION. The notice units and waits (chapter 10), the building of replies (R158), and the one shared operation
by which a command's events and rises reach both ports and its frames are handed to the transmitters (`conclude`). -/
namespace Sys2Proof.Machine

/-! ### Building frames (R158, R159, R170) -/

/-- R158: a reply built now; it carries LOST and GARBLED as the port's flags stand. -/
def PortState.reply (x : PortState) (echo : Byte) (status : Status) (clamped : Bool) (data : List Byte) : Reply :=
  { echo := echo, status := status, lost := x.lost, garbled := x.garbled, clamped := clamped, data := data }

/-- R158: the building of a reply clears both flags, and the frame becomes ready (R159). -/
def PortState.sendReply (x : PortState) (f : Frame) : PortState :=
  { x with lost := false, garbled := false, ready := x.ready ++ [f] }

/-- R159: a frame that is ready begins when no frame is on the line. -/
def PortState.kick (x : PortState) : PortState :=
  match x.line, x.ready with
  | none, f :: rest => { x with line := some f, ready := rest }
  | _, _ => x

/-- The frames of a port in the order they are sent: the one on the line, then those ready behind it. -/
def PortState.outgoing (x : PortState) : List Frame := x.line.toList ++ x.ready

/-- R167: whether a reply is that of an accepted RESET ENGINE (code 0x05, 11.4). -/
def Reply.resetsEngine (r : Reply) : Bool := decide (r.echo = 0x05#8) && decide (r.status = .ok)

/-- R78, R90: whether a frame tells its console a CLIP or a GUARD: in the block of an attention, or in that of a MET. -/
def Frame.tellsClipOrGuard : Frame → Bool
  | .service _ => false
  | .parked r =>
    decide (r.status = .met) &&
      ((r.data.getD 1 0#8).getLsbD (Event.bit .clip) || (r.data.getD 1 0#8).getLsbD (Event.bit .guard))
  | .attention b => b.items.has (.event .clip) || b.items.has (.event .guard)

/-! ### The notice unit (R170 to R175) -/

/-- The code of WAIT, which the reply of a parked wait echoes (11.4). -/
def waitCode : Byte := 0x14

/-- R170: an item enters the occurred set. -/
def PortState.record (x : PortState) (i : Item) : PortState :=
  { x with unit := { x.unit with occurred := x.unit.occurred.union (ItemSet.single i) } }

/-- R170, steps 1 to 3: masked items that have occurred join the reasons; an armed unit with reasons makes an
attention frame ready, disarms, and its reasons leave the occurred set. -/
def PortState.update (x : PortState) (levels : BitVec 8) : PortState :=
  let reasons := x.unit.reasons.union (x.unit.mask.inter x.unit.occurred)
  if x.unit.armed && !reasons.isEmpty then
    { x with
      ready := x.ready ++ [.attention { items := reasons, levels := levels }]
      unit := { x.unit with reasons := reasons, armed := false, occurred := x.unit.occurred.diff reasons } }
  else { x with unit := { x.unit with reasons := reasons } }

/-- R175: the items that a condition consumes: those of its items that are in the occurred set. -/
def PortState.consumable (x : PortState) (c : Condition) : ItemSet := c.items.inter x.unit.occurred

/-- R175: consumed items leave the occurred set and the reasons. -/
def PortState.consume (x : PortState) (c : Condition) : PortState :=
  { x with
    unit := { x.unit with
      occurred := x.unit.occurred.diff (x.consumable c)
      reasons := x.unit.reasons.diff (x.consumable c) } }

/-- R175: the parked wait is met: its items are consumed, its cell becomes empty, and MET is built. -/
def PortState.meet (x : PortState) (c : Condition) (levels : BitVec 8) : PortState :=
  let block : NoticeBlock := { items := x.consumable c, levels := levels }
  { (x.consume c).sendReply (.parked (x.reply waitCode .met false block.bytes)) with wait := none }

/-- R175: whether a condition names the item that arrives, as an event or as the state whose rise it is. -/
def Condition.names (c : Condition) (i : Item) : Bool := c.items.has i

/-- R175: whether the level of the state whose rise this is stands true. -/
def levelStands (levels : BitVec 8) : Item → Bool
  | .event _ => false
  | .rise l => levels.getLsbD l.bit

/-- R170, R175: the item is offered to the parked wait. It meets the wait when the condition names it and it still
stands in the occurred set, or when the condition names the state whose rise it is and the state is true. -/
def PortState.offer (x : PortState) (i : Item) (levels : BitVec 8) : PortState :=
  match x.wait with
  | some w =>
    if w.condition.names i && (x.unit.occurred.has i || levelStands levels i) then x.meet w.condition levels else x
  | none => x

/-- R170, R175: an item reaches the unit; the parked wait or the attention is taken first. -/
def PortState.arrive (x : PortState) (i : Item) (waitFirst : Bool) (levels : BitVec 8) : PortState :=
  if waitFirst then ((x.record i).offer i levels).update levels
  else ((x.record i).update levels).offer i levels

/-! ### What one command brings to a port -/

/-- One thing that one command brings to a port: the reply of the request in service, the reply CANCELLED of the
parked wait (R176), the reply TIMED_OUT of the parked wait (R176), an update of the reasons (R172), or an item. -/
inductive Happening where
  | reply (echo : Byte) (status : Status) (clamped : Bool) (data : List Byte)
  | cancelled
  | timedOut
  | update
  | item (i : Item)
  deriving DecidableEq, Repr

/-- What a happening does to its port. -/
def PortState.happen (x : PortState) (waitFirst : Bool) (levels : BitVec 8) : Happening → PortState
  | .reply echo status clamped data => x.sendReply (.service (x.reply echo status clamped data))
  | .cancelled => x.sendReply (.parked (x.reply waitCode .cancelled false []))
  | .timedOut =>
    x.sendReply (.parked (x.reply waitCode .timedOut false
      (NoticeBlock.bytes { items := ItemSet.empty, levels := levels })))
  | .update => x.update levels
  | .item i => x.arrive i waitFirst levels

/-- Happenings taken one after another. -/
def PortState.run (waitFirst : Nat → Bool) (levels : BitVec 8) : Nat → List Happening → PortState → PortState
  | _, [], x => x
  | k, h :: rest, x => PortState.run waitFirst levels (k + 1) rest (x.happen (waitFirst k) levels h)

/-- An element put into a list at a place. -/
def insertAt (x : α) : Nat → List α → List α
  | 0, l => x :: l
  | _ + 1, [] => [x]
  | k + 1, y :: l => y :: insertAt x k l

/-- The arrangement of a list that a number picks: every order of the list is picked by some number (log 4). -/
def arrange (n : Nat) : List α → List α
  | [] => []
  | x :: l => insertAt x (n % (l.length + 1)) (arrange (n / (l.length + 1)) l)

/-- What one command brings to port p, in blocks whose inner order is fixed (R176) and whose order among themselves is
free (R159, R170, R172, log 4), then the start of the next frame on an idle line. -/
def State.deliver (s : State) (p : Port) (blocks : List (List Happening)) : State :=
  match blocks with
  | [] => s.setPort p (s.port p).kick
  | _ :: _ =>
    let taken := (arrange (Config.order s.draws) blocks).flatten
    { s.setPort p (((s.port p).run (Config.waitFirst s.draws) (s.engine.levels p) 0 taken).kick) with
      draws := s.draws + 1 }

/-- The items of a command as blocks for port p: the events it raised, then the rises it made (R169). -/
def itemBlocks (before after : Engine) (events : List Event) (p : Port) : List (List Happening) :=
  (events.map fun e => [.item (.event e)]) ++ ((rises before after p).map fun x => [.item (.rise x)])

/-- The end of every command: its events and rises reach both notice units together with the frames it makes for one
port (`own`), and idle transmitters begin their next frame (R158, R159, R169, R170). -/
def State.conclude (s : State) (before : Engine) (events : List Event) (p : Port) (own : List (List Happening)) :
    State :=
  (s.deliver p (own ++ itemBlocks before s.engine events p)).deliver p.other
    (itemBlocks before s.engine events p.other)

/-- A change of the blocks, and the events it raises told at both ports. -/
def State.acted (s : State) (f : Engine → Act) : State :=
  (s.setEngine (f s.engine).1).conclude s.engine (f s.engine).2 .home []

/-- What a command that is not a request answers: a change of the blocks and the events it raises; nothing while the
power is off (log 2). -/
def State.act (s : State) (f : Engine → Act) : Host.Outcome State Fault Refusal :=
  if s.engine.powered then .next (s.acted f) else .next s

/-! ### What a request answers (R157, R158) -/

/-- The outcome of a request's own rule on the blocks: their new values, the status, the CLAMPED flag, the reply data
and the events raised. -/
structure Effect where
  engine : Engine
  status : Status
  clamped : Bool
  data : List Byte
  events : List Event
  deriving DecidableEq, Repr

/-- R157: a refused request changes nothing, raises nothing and carries no data. -/
def Effect.refuse (e : Engine) (status : Status) : Effect :=
  { engine := e, status := status, clamped := false, data := [], events := [] }

/-- A request that changes nothing and returns data. -/
def Effect.read (e : Engine) (data : List Byte) : Effect :=
  { engine := e, status := .ok, clamped := false, data := data, events := [] }

/-- A request that is accepted with OK and no data. -/
def Effect.accept (e : Engine) (clamped : Bool) : Effect :=
  { engine := e, status := .ok, clamped := clamped, data := [], events := [] }

/-- What a taken request does: to the blocks, to its own port before any frame is built, the frames it makes and the
events it raises. -/
structure Answer where
  engine : Engine
  port : PortState
  own : List (List Happening)
  events : List Event
  deriving DecidableEq, Repr

/-- The answer of a request that acts on the blocks alone: its reply is one happening. -/
def Effect.answer (f : Effect) (echo : Byte) (x : PortState) : Answer :=
  { engine := f.engine, port := x, own := [[.reply echo f.status f.clamped f.data]], events := f.events }

/-- The answer of a request that acts on its own port alone. -/
def portAnswer (e : Engine) (x : PortState) (echo : Byte) (status : Status) (data : List Byte) : Answer :=
  { engine := e, port := x, own := [[.reply echo status false data]], events := [] }

/-! ### The requests of chapter 10 -/

/-- R172: SET NOTICE MASK. -/
def answerSetNoticeMask (q : Payload) (echo : Byte) (e : Engine) (x : PortState) : Answer :=
  let mask : ItemSet := { events := Payload.events q 0, rises := Payload.states q 2 }
  { engine := e
    port := { x with unit := { x.unit with mask := mask, armed := x.unit.armed || !mask.isEmpty } }
    own := [[.reply echo .ok false []], [.update]]
    events := [] }

/-- R172: READ NOTICE MASK. -/
def answerReadNoticeMask (echo : Byte) (e : Engine) (x : PortState) : Answer :=
  portAnswer e x echo .ok
    (bytes16 x.unit.mask.events.toNat ++ [x.unit.mask.rises, flagByte x.unit.armed])

/-- R173: READ REASONS. -/
def answerReadReasons (p : Port) (echo : Byte) (e : Engine) (x : PortState) : Answer :=
  portAnswer e
    { x with unit := { x.unit with
      occurred := x.unit.occurred.diff x.unit.reasons, reasons := ItemSet.empty, armed := true } }
    echo .ok (NoticeBlock.bytes { items := x.unit.reasons, levels := e.levels p })

/-- R173: READ STATES. -/
def answerReadStates (p : Port) (echo : Byte) (e : Engine) (x : PortState) : Answer :=
  portAnswer e x echo .ok
    (bytes16 x.unit.occurred.events.toNat ++ [x.unit.occurred.rises, e.levels p])

/-- R174: whether a condition is met at the instant the WAIT is taken: a state of it is true, or an item of it stands
in the occurred set. -/
def metAtOnce (c : Condition) (x : PortState) (levels : BitVec 8) : Bool :=
  decide (c.states &&& levels ≠ 0#8) || !(x.consumable c).isEmpty

/-- R174, R175: WAIT is refused, met at once, or parked; a parked wait leaves service with no reply (R155). -/
def answerWait (p : Port) (q : Payload) (echo : Byte) (e : Engine) (x : PortState) : Answer :=
  let c : Condition := { events := Payload.events q 0, states := Payload.states q 2 }
  match x.wait with
  | some _ => portAnswer e x echo .waitBusy []
  | none =>
    if metAtOnce c x (e.levels p) then
      portAnswer e (x.consume c) echo .met
        (NoticeBlock.bytes { items := x.consumable c, levels := e.levels p })
    else
      { engine := e, port := { x with service := none, wait := some { condition := c, timeout := Payload.u16 q 3 } },
        own := [], events := [] }

/-- R176: CANCEL WAIT; the reply CANCELLED goes before the reply OK. -/
def answerCancelWait (echo : Byte) (e : Engine) (x : PortState) : Answer :=
  match x.wait with
  | none => portAnswer e x echo .noWait []
  | some _ =>
    { engine := e, port := { x with wait := none }, own := [[.cancelled, .reply echo .ok false []]], events := [] }

/-- R176: the timeout of a parked wait runs out; a wait without a timeout has no such moment (R174). -/
def execWaitTimeout (p : Port) (s : State) : Host.Outcome State Fault Refusal :=
  match (s.port p).wait with
  | some w =>
    if s.engine.powered && decide (w.timeout ≠ 0) then
      .next ((s.setPort p { s.port p with wait := none }).conclude s.engine [] p [[.timedOut]])
    else .next s
  | none => .next s

end Sys2Proof.Machine
end

