-- ==== Sys2Proof/Machine/Links.lean ====
section
/-! DEFINITION. The stage link receivers and the input selector (chapter 1). -/
namespace Sys2Proof.Machine

/-! ### Receivers (R1 to R6) -/

/-- 11.6: the samples of a stage frame, three bytes each, signed. -/
def samplesOf : List Byte → List Int
  | a :: b :: c :: rest => (BitVec.ofNat 24 (numberOf [a, b, c])).toInt :: samplesOf rest
  | _ => []

/-- R1, 11.6: the frame that the delimited bytes carry, when it is good: a count of 1 to 64, a length that agrees with
it, and a check value equal to the CRC over what comes before it. -/
def goodFrame (bytes : List Byte) : Option StageFrame :=
  let count := numberOf ((bytes.drop 2).take 1)
  if 1 ≤ count ∧ count ≤ 64 ∧ bytes.length = 3 * count + 5 ∧
      (crc16 (bytes.take (3 * count + 3))).toNat = numberOf (bytes.drop (3 * count + 3)) then
    some
      { number := BitVec.ofNat 16 (numberOf (bytes.take 2))
        samples := samplesOf ((bytes.drop 3).take (3 * count)) }
  else none

/-- R3: whether a frame's number follows the last one, 65,535 being followed by 0. -/
def Receiver.follows (r : Receiver) (f : StageFrame) : Bool :=
  match r.lastNumber with
  | some n => decide (f.number = n + 1#16)
  | none => false

/-- R3, R4: the number and the count of a good frame are the last ones from now on. -/
def Receiver.note (r : Receiver) (f : StageFrame) : Receiver :=
  { r with lastNumber := some f.number, lastCount := f.samples.length }

/-- R3, R4, R6: a good frame enters the holder and is marked fresh. -/
def Receiver.hold (r : Receiver) (f : StageFrame) : Receiver := { r with held := some f, fresh := true }

/-- R3: the good-frame run that a good frame leaves in SEEKING. -/
def Receiver.extendedRun (r : Receiver) (f : StageFrame) : Nat :=
  if 1 ≤ r.goodRun ∧ r.follows f = true then r.goodRun + 1 else 1

/-- R3: a good frame in SEEKING. -/
def Receiver.seek (r : Receiver) (f : StageFrame) : Receiver :=
  if 4 ≤ r.extendedRun f then
    { (r.note f).hold f with state := .locked, slips := 0, missRun := 0, goodRun := 0 }
  else { r.note f with goodRun := r.extendedRun f }

/-- R4: a good frame in LOCKED; a number that does not follow is a slip. -/
def Receiver.accept (r : Receiver) (f : StageFrame) : Receiver :=
  { (r.note f).hold f with
    slips := if r.follows f then r.slips else min 65535 (r.slips + 1), missRun := 0 }

/-- R1, R3, R4: an arrival; a frame that is not good counts as no frame, and none reaches a receiver in DOWN. -/
def Receiver.arrival (r : Receiver) (bytes : List Byte) : Receiver :=
  match r.state, goodFrame bytes with
  | .seeking, some f => r.seek f
  | .locked, some f => r.accept f
  | _, _ => r

/-- R2, R5, R6: the link leaves LOCKED: the holder is emptied, both runs become 0 and the last number is absent. -/
def Receiver.leaveLocked (r : Receiver) (state : LinkState) : Receiver :=
  { r with state := state, held := none, fresh := false, missRun := 0, goodRun := 0, lastNumber := none }

/-- R2: signal appears on the line. -/
def Receiver.signalAppears (r : Receiver) : Receiver :=
  match r.state with
  | .down => { r with signal := true, state := .seeking, goodRun := 0, lastNumber := none }
  | _ => { r with signal := true }

/-- R2: signal is lost on the line. -/
def Receiver.signalLost (r : Receiver) : Receiver :=
  match r.state with
  | .down => { r with signal := false }
  | .seeking => { r with signal := false, state := .down, goodRun := 0, lastNumber := none }
  | .locked => { r.leaveLocked .down with signal := false }

/-- R5: a receiver's work at a frame instant, given whether no good frame has arrived since the previous one. -/
def Receiver.instant (r : Receiver) (missed : Bool) : Receiver :=
  match r.state, missed with
  | .locked, true =>
    if 8 ≤ r.missRun + 1 then r.leaveLocked .seeking else { r with missRun := r.missRun + 1 }
  | _, _ => r

/-- LINK_DOWN for a departure of a link from LOCKED (R18). -/
def linkDownOf (before after : Receiver) : List Event :=
  if before.state = .locked ∧ after.state ≠ .locked then [.linkDown] else []

/-- R5: the work of one receiver at a frame instant, with the event it raises. -/
def Engine.receiverInstant (l : Link) (missed : Bool) (e : Engine) : Act :=
  (e.setReceiver l ((e.receiver l).instant missed), linkDownOf (e.receiver l) ((e.receiver l).instant missed))

/-! ### The selector (R8 to R15) -/

/-- R6, R10: the frame of a holder, when it is fresh. -/
def Receiver.freshFrame (r : Receiver) : Option StageFrame := if r.fresh then r.held else none

/-- R8: a fresh frame in 64-channel form; channels above its count are absent. -/
def Delivered.ofFrame (f : StageFrame) : Delivered := Vector.ofFn fun c => f.samples[c.val]?

/-- R9: a change of the active link and its effects; none when the link is active already. -/
def Engine.setActive (l : Link) (e : Engine) : Act :=
  if e.selector.active = l then (e, [])
  else ({ e with selector := { e.selector with active := l, missRun := 0 } }, [.sourceChange])

/-- R15: whether the selector returns to A. -/
def Engine.reverts (e : Engine) : Bool :=
  decide (e.selector.mode = .auto) && e.selector.autoRevert && decide (e.selector.active = .b) &&
    decide (96000 ≤ e.selector.primaryTime) && e.linkA.freshFrame.isSome

/-- R15: the revert check. -/
def Engine.revertCheck (e : Engine) : Act := if e.reverts then e.setActive .a else (e, [])

/-- R10: the delivery of a fresh frame. -/
def Engine.useFrame (e : Engine) (f : StageFrame) : Engine :=
  { e with
    selector := { e.selector with
      missRun := 0, concealCount := 0, lastUsed := Delivered.ofFrame f, delivered := Delivered.ofFrame f } }

/-- R13: concealment, when no fresh frame is delivered. -/
def Engine.conceal (e : Engine) : Engine :=
  let count := min 255 (e.selector.concealCount + 1)
  { e with
    selector := { e.selector with
      concealCount := count
      delivered := if count ≤ 2 then e.selector.lastUsed else Delivered.zero } }

/-- R10, R13: the newly active or the active link delivers its fresh frame, or the gap is concealed. -/
def Engine.useOrConceal (e : Engine) : Engine :=
  match (e.receiver e.selector.active).freshFrame with
  | some f => e.useFrame f
  | none => e.conceal

/-- R11: a miss counts. -/
def Engine.countMiss (e : Engine) : Engine :=
  { e with selector := { e.selector with missRun := min 255 (e.selector.missRun + 1) } }

/-- R11: whether the selector fails over, its miss run having been counted. -/
def Engine.failsOver (e : Engine) : Bool :=
  decide (e.selector.mode = .auto) && decide (3 ≤ e.selector.missRun) &&
    decide ((e.receiver e.selector.active.other).state = .locked)

/-- R10, R11, R13: the delivery stage with the miss rule, then concealment. -/
def Engine.deliverOrMiss (e : Engine) : Act :=
  match (e.receiver e.selector.active).freshFrame with
  | some f => (e.useFrame f, [])
  | none =>
    if e.countMiss.failsOver then
      ((e.countMiss.setActive e.selector.active.other).1.useOrConceal,
        (e.countMiss.setActive e.selector.active.other).2)
    else (e.countMiss.conceal, [])

/-- R6, R14: the closing stage: the primary-locked time, and the fresh marks of both holders. -/
def Engine.closing (e : Engine) : Engine :=
  { e with
    linkA := { e.linkA with fresh := false }
    linkB := { e.linkB with fresh := false }
    selector := { e.selector with
      primaryTime :=
        if e.selector.active = .b ∧ e.linkA.state = .locked then min 96000 (e.selector.primaryTime + 1) else 0 } }

/-- The receivers whose work falls at a given turn of the instant (R12, R14). -/
def Engine.receiversAt (now : Turn) (turn : Link → Turn) (missed : Link → Bool) (e : Engine) : Act :=
  (((Act.start e).andThen fun e' => if turn .a = now then e'.receiverInstant .a (missed .a) else (e', []))).andThen
    fun e' => if turn .b = now then e'.receiverInstant .b (missed .b) else (e', [])

/-- R5, R10: the work of both receivers and of the selector at a frame instant. A receiver misses when its holder was
not fresh as the instant began. -/
def Engine.selectFrame (turn : Link → Turn) (e : Engine) : Act :=
  let missed : Link → Bool := fun l => !(e.receiver l).fresh
  (((((Act.start e).andThen
    (Engine.receiversAt .beforeSelector turn missed)).andThen
    Engine.revertCheck).andThen
    Engine.deliverOrMiss).andThen
    (Engine.receiversAt .beforeClosing turn missed)).andThen
    fun e' => (Act.start e'.closing).andThen (Engine.receiversAt .afterClosing turn missed)

/-! ### Requests of chapter 1 -/

/-- R16: the mode that a parameter names. -/
def sourceModeOf : Nat → Option SourceMode
  | 0 => some .auto
  | 1 => some .forceA
  | 2 => some .forceB
  | _ => none

/-- R16: the link that a mode forces. -/
def SourceMode.forced : SourceMode → Option Link
  | .auto => none
  | .forceA => some .a
  | .forceB => some .b

/-- 11.5: the code of a source mode. -/
def SourceMode.code : SourceMode → Byte
  | .auto => 0
  | .forceA => 1
  | .forceB => 2

/-- R16: a mode forces its link at once; AUTO leaves the active link. -/
def Engine.applyMode (mode : SourceMode) (e : Engine) : Act :=
  match mode.forced with
  | some l => e.setActive l
  | none => (e, [])

/-- R16: SET SOURCE MODE. -/
def effectSetSourceMode (q : Payload) (e : Engine) : Effect :=
  match sourceModeOf (Payload.u8 q 0) with
  | none => Effect.refuse e .badIndex
  | some mode =>
    let set : Engine :=
      { e with selector := { e.selector with mode := mode, autoRevert := yes (Payload.u8 q 1) } }
    { engine := (set.applyMode mode).1
      status := .ok
      clamped := outsideYesNo (Payload.u8 q 1)
      data := []
      events := (set.applyMode mode).2 }

/-- 11.5: the code of a link state. -/
def LinkState.code : LinkState → Byte
  | .down => 0
  | .seeking => 1
  | .locked => 2

/-- 11.5: four bytes of the link status record. -/
def Receiver.status (r : Receiver) : List Byte := r.state.code :: (bytes16 r.slips ++ [byteOf r.lastCount])

/-- R17: READ LINK STATUS. -/
def effectReadLinkStatus (e : Engine) : Effect :=
  Effect.read e
    (e.linkA.status ++ e.linkB.status ++
      [e.selector.mode.code, flagByte e.selector.autoRevert, flagByte (decide (e.selector.active = .b)),
        flagByte (decide (e.selector.concealCount ≠ 0))])

/-! ### Meanings of the link events -/

/-- R2: SIGNAL_APPEARS. While the power is off only the line changes. -/
def execSignalAppears (l : Link) (s : State) : Host.Outcome State Fault Refusal :=
  if s.engine.powered then
    s.act fun e => (e.setReceiver l (e.receiver l).signalAppears, [])
  else .next (s.setEngine (s.engine.setReceiver l { s.engine.receiver l with signal := true }))

/-- R2: SIGNAL_LOST. While the power is off only the line changes. -/
def execSignalLost (l : Link) (s : State) : Host.Outcome State Fault Refusal :=
  if s.engine.powered then
    s.act fun e =>
      (e.setReceiver l (e.receiver l).signalLost, linkDownOf (e.receiver l) (e.receiver l).signalLost)
  else .next (s.setEngine (s.engine.setReceiver l { s.engine.receiver l with signal := false }))

/-- R1, R3, R4: FRAME_ARRIVAL. -/
def execFrameArrival (l : Link) (frame : List Byte) (s : State) : Host.Outcome State Fault Refusal :=
  s.act fun e => (e.setReceiver l ((e.receiver l).arrival frame), [])

end Sys2Proof.Machine
end

