-- ==== Sys2Proof/Machine/MixEngine.lean ====
section
/-! DEFINITION. The mix computation, the ear guard and the meters (chapters 4 and 5), the frame instant as a whole
(R61), and the requests that read and clear latches and meters. -/
namespace Sys2Proof.Machine

/-! ### Samples and sums (4.2, 4.3) -/

/-- R62: the sample an input takes from the delivered frame. -/
def Engine.sample (e : Engine) (i : Fin 64) : Int :=
  match (e.tables.inputs[i]).patch with
  | some c => (e.selector.delivered[c]).getD 0
  | none => 0

/-- R64: one product, negated for an inverted input. -/
def product (inverted : Bool) (sample : Int) (coef : Nat) : Int :=
  if inverted then -(sample * coef) else sample * coef

/-- R64: the accumulator of a mix side: the exact sum of the 64 products. -/
def accumulate (term : Fin 64 → Int) : Int := (List.finRange 64).foldl (fun acc i => acc + term i) 0

/-- R64: the left accumulator of a mix. -/
def Engine.sumLeft (e : Engine) (m : Fin 24) : Int :=
  accumulate fun i => product (e.tables.inputs[i]).inverted (e.sample i) ((e.coefs[m])[i]).left.live

/-- R64: the right accumulator of a mix. -/
def Engine.sumRight (e : Engine) (m : Fin 24) : Int :=
  accumulate fun i => product (e.tables.inputs[i]).inverted (e.sample i) ((e.coefs[m])[i]).right.live

/-! ### Shift, rounding and limit (4.4, 4.5) -/

/-- R67: the magnitude of a quotient rounded to the nearest integer, an exact half to the even neighbour. -/
def roundMagnitude (magnitude divisor : Nat) : Nat :=
  let quotient := magnitude / divisor
  let remainder := magnitude % divisor
  if 2 * remainder < divisor then quotient
  else if divisor < 2 * remainder then quotient + 1
  else if quotient % 2 = 0 then quotient else quotient + 1

/-- R67: convergent rounding, symmetric about zero. -/
def roundHalfEven (x : Int) (divisor : Nat) : Int :=
  if x < 0 then -(roundMagnitude x.natAbs divisor : Int) else (roundMagnitude x.natAbs divisor : Int)

/-- R66: the divisor of a headroom shift, 2^(14 + h). -/
def headroomDivisor (shift : Int) : Nat := 2 ^ (14 + shift).toNat

/-- R66, R67: the accumulator scaled by the headroom shift and rounded. -/
def scaled (sum shift : Int) : Int := roundHalfEven sum (headroomDivisor shift)

/-- R68: half of full scale. -/
def isNear (v : Int) : Bool := decide (4194304 ≤ v.natAbs)

/-- R69: a value outside the 24-bit sample range. -/
def isClipped (v : Int) : Bool := outsideInt (-8388608) 8388607 v

/-- R69: the 24-bit limit. -/
def limit24 (v : Int) : Int := clampInt (-8388608) 8388607 v

/-! ### The ear guard (chapter 5) -/

/-- R80: the guard gain applied to one side. -/
def applyGain (v : Int) (gain : Nat) : Int := roundHalfEven (v * gain) 16384

/-- R80, R81: the larger magnitude of two sides. -/
def peakOf (left right : Int) : Nat := max left.natAbs right.natAbs

/-- R80: whether the guard engages. -/
def guardEngages (left right : Int) (gain ceiling : Nat) : Bool :=
  decide (ceiling < peakOf (applyGain left gain) (applyGain right gain))

/-- R81: the gain that an engagement computes. -/
def engagedGain (left right : Int) (ceiling : Nat) : Nat := ceiling * 16384 / peakOf left right

/-- R83: the gain that a release leaves. -/
def releasedGain (gain release : Nat) : Nat := min 16384 (gain + release)

/-- R80, R81: the gain with which the outputs of the instant are formed. -/
def gainInForce (left right : Int) (gain ceiling : Nat) : Nat :=
  if guardEngages left right gain ceiling then engagedGain left right ceiling else gain

/-- R81, R83: the gain held for the next frame instant. -/
def gainHeld (left right : Int) (gain : Nat) (r : MixRec) : Nat :=
  if guardEngages left right gain r.ceiling then engagedGain left right r.ceiling else releasedGain gain r.release

/-! ### One mix at a frame instant -/

/-- R66 to R72, R80 to R84: latches, gain, meters and outputs of a mix, from its two accumulators. -/
def MixRun.instant (x : MixRun) (r : MixRec) (sumLeft sumRight : Int) : MixRun :=
  let scaledLeft := scaled sumLeft r.shift
  let scaledRight := scaled sumRight r.shift
  let left := limit24 scaledLeft
  let right := limit24 scaledRight
  let gain := gainInForce left right x.gain r.ceiling
  { clip := x.clip || isClipped scaledLeft || isClipped scaledRight
    near := x.near || isNear scaledLeft || isNear scaledRight
    guard := x.guard || guardEngages left right x.gain r.ceiling
    gain := gainHeld left right x.gain r
    meterLeft := max x.meterLeft (applyGain left gain).natAbs
    meterRight := max x.meterRight (applyGain right gain).natAbs
    outLeft := applyGain left gain
    outRight := applyGain right gain }

/-- R70, R84: CLIP when the clip latch goes from clear to set; GUARD when the guard engages from unity. -/
def MixRun.events (x : MixRun) (r : MixRec) (sumLeft sumRight : Int) : List Event :=
  (if !x.clip && (isClipped (scaled sumLeft r.shift) || isClipped (scaled sumRight r.shift)) then [.clip] else []) ++
  (if decide (x.gain = 16384) &&
      guardEngages (limit24 (scaled sumLeft r.shift)) (limit24 (scaled sumRight r.shift)) x.gain r.ceiling
    then [.guard] else [])

/-- R71: the input meters at a frame instant. At an instant that arrived together with a warm reset taken first no
input meter rises (R78; whether it did is free, log 26). -/
def Engine.metered (e : Engine) : Vector Nat 64 :=
  if e.metersRest then e.inputMeters else Vector.ofFn fun i => max e.inputMeters[i] (e.sample i).natAbs

/-- R61 to R72, R80 to R84: all 24 mixes and the input meters at a frame instant. A pack bus frame still due for the
instant before is never sent: the outputs it would carry are replaced (R115 sends one after each instant; what happens
when none was sent is the model's choice, log 28). -/
def Engine.computeMixes (e : Engine) : Act :=
  ({ e with
      runs := Vector.ofFn fun m =>
        (e.runs[m]).instant (e.tables.mixes[m]).record (e.sumLeft m) (e.sumRight m)
      inputMeters := e.metered
      metersRest := false
      packs := { e.packs with frameDue := true } },
    (List.finRange 24).flatMap fun m =>
      (e.runs[m]).events (e.tables.mixes[m]).record (e.sumLeft m) (e.sumRight m))

/-- R56: every live value moves once the sums have used it. -/
def Engine.moveRamps (e : Engine) : Engine :=
  { e with coefs := Vector.ofFn fun m => Vector.ofFn fun i => ((e.coefs[m])[i]).move }

/-- R61: the whole work of a frame instant. -/
def Engine.frameInstant (turn : Link → Turn) (e : Engine) : Act :=
  ((e.selectFrame turn).andThen Engine.computeMixes).andThen fun e' => (e'.moveRamps, [])

/-- R78, R90: whether the command that waits right behind this one makes a warm reset: a pulse on the reset pin, or the
end of the reply of RESET ENGINE (R167). -/
def State.resetFollows (s : State) : Bool :=
  match s.pending with
  | .warmReset :: _ => true
  | .transmitFrameEnd p :: _ =>
    match (s.port p).line with
    | some (.service r) => r.resetsEngine
    | _ => false
  | _ => false

/-- R78, R90: a port at the end of a frame instant that arrived together with a warm reset or not: a CLIP or GUARD that
began on its idle line at this instant is not to be seen by its console when it did (log 26). -/
def PortState.endInstant (together : Bool) (before after : PortState) : PortState :=
  { after with unseen := together && before.line.isNone && after.line.any Frame.tellsClipOrGuard }

/-- R78, R90: both ports at the end of a frame instant. -/
def State.endInstant (before after : State) : State :=
  let together := before.resetFollows && Config.together before.draws
  { after with
    home := before.home.endInstant together after.home, guest := before.guest.endInstant together after.guest }

/-- R61: FRAME_INSTANT. The turns of the receivers inside the instant are free (log 6), and so is whether a warm reset
that waits right behind it arrived together with it (log 26). -/
def execFrameInstant (s : State) : Host.Outcome State Fault Refusal :=
  if s.engine.powered then
    .next (s.endInstant (State.acted { s with draws := s.draws + 1 } (Engine.frameInstant (Config.receiverTurn s.draws))))
  else .next s

/-! ### Requests of chapter 4 -/

/-- R73: all 112 meters, 64 inputs and then 24 mixes left before right. -/
def Engine.meterBytes (e : Engine) : List Byte :=
  ((List.finRange 64).flatMap fun i => bytes24 e.inputMeters[i]) ++
    (List.finRange 24).flatMap fun m => bytes24 (e.runs[m]).meterLeft ++ bytes24 (e.runs[m]).meterRight

/-- R73: every meter becomes 0. -/
def Engine.clearMeters (e : Engine) : Engine :=
  { e with
    inputMeters := Vector.replicate 64 0
    runs := Vector.ofFn fun m => { e.runs[m] with meterLeft := 0, meterRight := 0 } }

/-- R73: READ METERS. -/
def effectReadMeters (q : Payload) (e : Engine) : Effect :=
  { engine := if yes (Payload.u8 q 0) then e.clearMeters else e
    status := .ok
    clamped := outsideYesNo (Payload.u8 q 0)
    data := e.meterBytes
    events := [] }

/-- R74: the three latches of a mix cleared. -/
def MixRun.clearLatches (x : MixRun) : MixRun := { x with clip := false, near := false, guard := false }

/-- R74: CLEAR LATCHES. -/
def effectClearLatches (q : Payload) (e : Engine) : Effect :=
  Effect.accept
    { e with
      runs := Vector.ofFn fun m =>
        if MixSet.has (Payload.mixSet q 0) m then (e.runs[m]).clearLatches else e.runs[m] }
    false

/-- R76: READ LATCHES. -/
def effectReadLatches (e : Engine) : Effect :=
  Effect.read e
    (bytes24 (MixSet.ofTest fun m => (e.runs[m]).clip).toNat ++
      bytes24 (MixSet.ofTest fun m => (e.runs[m]).near).toNat ++
      bytes24 (MixSet.ofTest fun m => (e.runs[m]).guard).toNat ++
      (List.finRange 24).flatMap fun m => bytes16 (e.runs[m]).gain)

end Sys2Proof.Machine
end

