-- ==== Sys2Proof/Machine/Tables.lean ====
section
/-! DEFINITION. The requests that set and read the mix tables (chapter 2), and READ EFFECTIVE (R60). -/
namespace Sys2Proof.Machine

/-! ### Awaiting recall (R29, R104) -/

/-- The mixes that are awaiting recall: those a load phase has not yet loaded. -/
def Engine.awaiting (e : Engine) : MixSet :=
  match e.library.operation with
  | .recall j =>
    match j.phase with
    | .load awaiting _ _ => awaiting
    | .verify => 0#24
  | _ => 0#24

/-- Whether the input section is awaiting recall. -/
def Engine.inputsAwaiting (e : Engine) : Bool :=
  match e.library.operation with
  | .recall j =>
    match j.phase with
    | .load _ inputs _ => inputs
    | .verify => false
  | _ => false

/-! ### Send requests (2.3) -/

/-- A send as a request writes it, its values clamped (R28). -/
structure SendWrite where
  input : Fin 64
  send : SendRec
  clamped : Bool
  deriving DecidableEq, Repr

/-- R28, R30: input, level, pan and on as a request carries them. -/
def sendWrite (input level pan on : Byte) : Option SendWrite :=
  (ordinal 64 input.toNat).map fun i =>
    { input := i
      send :=
        { level := clampNat 0 232 level.toNat, pan := clampInt (-32) 32 pan.toInt, on := yes on.toNat }
      clamped := outsideNat 0 232 level.toNat || outsideInt (-32) 32 pan.toInt || outsideYesNo on.toNat }

/-- R32: the whole records of a data part; none when any input is a bad index. -/
def sendWrites : List (Byte × Byte × Byte × Byte) → Option (List SendWrite)
  | [] => some []
  | r :: rest =>
    match sendWrite r.1 r.2.1 r.2.2.1 r.2.2.2, sendWrites rest with
    | some w, some l => some (w :: l)
    | _, _ => none

/-- R24, R31: the members of the named mix's link set other than the named mix. -/
def linkMembers (t : Tables) (m : Fin 24) : MixSet :=
  MixSet.ofTest fun m' =>
    decide (m' ≠ m) && (t.mixes[m]).record.linkSet.isSome &&
      decide ((t.mixes[m']).record.linkSet = (t.mixes[m]).record.linkSet)

/-- R31: the members that a broadcast writes. -/
def Engine.broadcastTo (e : Engine) (m : Fin 24) : MixSet := linkMembers e.tables m &&& ~~~ e.awaiting

/-- R31: whether a member of the link set is passed over. -/
def Engine.passesOver (e : Engine) (m : Fin 24) : Bool := decide (linkMembers e.tables m &&& e.awaiting ≠ 0#24)

/-- R30: one send of one mix written whole. -/
def MixTable.putSend (x : MixTable) (w : SendWrite) : MixTable :=
  { x with sends := x.sends.set w.input w.send }

/-- R31: level and on of one send written, its pan kept. -/
def MixTable.putShared (x : MixTable) (w : SendWrite) : MixTable :=
  { x with sends := x.sends.set w.input { w.send with pan := (x.sends[w.input]).pan } }

/-- R30, R31: one send written to the named mix, with its broadcast. -/
def Tables.writeSend (t : Tables) (m : Fin 24) (others : MixSet) (w : SendWrite) : Tables :=
  { t with
    mixes := Vector.ofFn fun m' =>
      if m' = m then (t.mixes[m']).putSend w
      else if MixSet.has others m' then (t.mixes[m']).putShared w
      else t.mixes[m'] }

/-- R32: sends written in the order they are carried. -/
def Tables.writeSends (t : Tables) (m : Fin 24) (others : MixSet) (l : List SendWrite) : Tables :=
  l.foldl (fun acc w => acc.writeSend m others w) t

/-- R51: the pairs that the writing of sends reaches. -/
def reachSends (m : Fin 24) (others : MixSet) (l : List SendWrite) : Fin 24 → Fin 64 → Bool :=
  fun m' i => (decide (m' = m) || MixSet.has others m') && l.any fun w => decide (w.input = i)

/-- R30 to R32: the writing of a list of sends to a mix, with its broadcast, as one change. -/
def effectWriteSends (m : Fin 24) (l : List SendWrite) (e : Engine) : Effect :=
  { engine :=
      Engine.recompute { e with tables := e.tables.writeSends m (e.broadcastTo m) l }
        (reachSends m (e.broadcastTo m) l)
    status := if e.passesOver m then .partly else .ok
    clamped := l.any fun w => w.clamped
    data := bytes24 (BitVec.twoPow 24 m.val ||| e.broadcastTo m).toNat
    events := [] }

/-- R30: SET SEND. -/
def effectSetSend (q : Payload) (e : Engine) : Effect :=
  match ordinal 24 (Payload.u8 q 0),
      sendWrite (Payload.byte q 1) (Payload.byte q 2) (Payload.byte q 3) (Payload.byte q 4) with
  | some m, some w =>
    if MixSet.has e.awaiting m then Effect.refuse e .awaitingRecall else effectWriteSends m [w] e
  | _, _ => Effect.refuse e .badIndex

/-- R32: SET SEND ROW. -/
def effectSetSendRow (q : Payload) (e : Engine) : Effect :=
  match ordinal 24 (Payload.u8 q 0), sendWrites (records4 q.data) with
  | some m, some l =>
    if MixSet.has e.awaiting m then Effect.refuse e .awaitingRecall else effectWriteSends m l e
  | _, _ => Effect.refuse e .badIndex

/-- 11.5: a send record. -/
def SendRec.bytes (i : Fin 64) (x : SendRec) : List Byte :=
  [byteOf (i.val + 1), byteOf x.level, signedByte x.pan, flagByte x.on]

/-- R33: READ SEND ROW. -/
def effectReadSendRow (q : Payload) (e : Engine) : Effect :=
  match ordinal 24 (Payload.u8 q 0) with
  | some m => Effect.read e ((List.finRange 64).flatMap fun i => SendRec.bytes i ((e.tables.mixes[m]).sends[i]))
  | none => Effect.refuse e .badIndex

/-! ### Mix requests (2.4) -/

/-- R28, R34: the mix record after the present fields are written. -/
def mixRecordOf (q : Payload) (linkSet : Option (Fin 8)) (r : MixRec) : MixRec :=
  { master := if Payload.present q 1 0 then clampInt (-120) 20 (Payload.s8 q 2) else r.master
    mute := if Payload.present q 1 1 then yes (Payload.u8 q 3) else r.mute
    shift := if Payload.present q 1 2 then clampInt (-1) 2 (Payload.s8 q 4) else r.shift
    ceiling := if Payload.present q 1 3 then clampNat 1 8388607 (Payload.u24 q 5) else r.ceiling
    release := if Payload.present q 1 4 then clampNat 1 256 (Payload.u16 q 8) else r.release
    dim := if Payload.present q 1 5 then clampInt (-80) 0 (Payload.s8 q 10) else r.dim
    hold := if Payload.present q 1 6 then yes (Payload.u8 q 11) else r.hold
    linkSet := if Payload.present q 1 7 then linkSet else r.linkSet }

/-- R28: whether a present field of SET MIX is clamped. -/
def mixRecordClamped (q : Payload) : Bool :=
  (Payload.present q 1 0 && outsideInt (-120) 20 (Payload.s8 q 2)) ||
  (Payload.present q 1 1 && outsideYesNo (Payload.u8 q 3)) ||
  (Payload.present q 1 2 && outsideInt (-1) 2 (Payload.s8 q 4)) ||
  (Payload.present q 1 3 && outsideNat 1 8388607 (Payload.u24 q 5)) ||
  (Payload.present q 1 4 && outsideNat 1 256 (Payload.u16 q 8)) ||
  (Payload.present q 1 5 && outsideInt (-80) 0 (Payload.s8 q 10)) ||
  (Payload.present q 1 6 && outsideYesNo (Payload.u8 q 11))

/-- R34: the link set a SET MIX carries: read only when present, and then 0 to 8. -/
def mixLinkSet (q : Payload) : Option (Option (Fin 8)) :=
  if Payload.present q 1 7 then ordinalOrNone 8 (Payload.u8 q 12) else some none

/-- R34, R51: SET MIX reaches the targets when master offset, mute or dim is present. -/
def mixReachesTargets (q : Payload) : Bool :=
  Payload.present q 1 0 || Payload.present q 1 1 || Payload.present q 1 5

/-- The mix record of a mix changed, its sends and groups kept. -/
def MixTable.mapRecord (x : MixTable) (f : MixRec → MixRec) : MixTable := { x with record := f x.record }

/-- R34: SET MIX. -/
def effectSetMix (q : Payload) (e : Engine) : Effect :=
  match ordinal 24 (Payload.u8 q 0), mixLinkSet q with
  | some m, some linkSet =>
    if MixSet.has e.awaiting m then Effect.refuse e .awaitingRecall
    else
      Effect.accept
        ((e.modifyMix m fun x => x.mapRecord (mixRecordOf q linkSet)).recompute
          fun m' _ => mixReachesTargets q && decide (m' = m))
        (mixRecordClamped q)
  | _, _ => Effect.refuse e .badIndex

/-- 11.5: the mix record. -/
def MixRec.bytes (r : MixRec) : List Byte :=
  [signedByte r.master, flagByte r.mute, signedByte r.shift] ++ bytes24 r.ceiling ++ bytes16 r.release ++
    [signedByte r.dim, flagByte r.hold, ordinalByte r.linkSet]

/-- R35: READ MIX. -/
def effectReadMix (q : Payload) (e : Engine) : Effect :=
  match ordinal 24 (Payload.u8 q 0) with
  | some m => Effect.read e (e.tables.mixes[m]).record.bytes
  | none => Effect.refuse e .badIndex

/-- R36: SET LINK SET. -/
def effectSetLinkSet (q : Payload) (e : Engine) : Effect :=
  match ordinal 24 (Payload.u8 q 0), ordinalOrNone 8 (Payload.u8 q 1) with
  | some m, some k =>
    if MixSet.has e.awaiting m then Effect.refuse e .awaitingRecall
    else Effect.accept (e.modifyMix m fun x => x.mapRecord fun r => { r with linkSet := k }) false
  | _, _ => Effect.refuse e .badIndex

/-! ### Group requests (2.5) -/

/-- R37: the entries of a member list; none when any is a bad index. -/
def memberInputs : List Byte → Option (List (Fin 64))
  | [] => some []
  | b :: rest =>
    match ordinal 64 b.toNat, memberInputs rest with
    | some i, some l => some (i :: l)
    | _, _ => none

/-- R37: each input number kept at its first occurrence. -/
def collapse : List (Fin 64) → List (Fin 64)
  | [] => []
  | i :: rest => i :: (collapse rest).filter fun j => decide (j ≠ i)

/-- R37: whether an entry is a member of another group of the mix. -/
def groupConflict (x : MixTable) (g : Fin 8) (l : List (Fin 64)) : Bool :=
  (List.finRange 8).any fun g' => decide (g' ≠ g) && l.any fun i => (x.groups[g']).members.contains i

/-- One group of a mix replaced. -/
def MixTable.putGroup (x : MixTable) (g : Fin 8) (y : Group) : MixTable := { x with groups := x.groups.set g y }

/-- R37: SET GROUP. -/
def effectSetGroup (q : Payload) (e : Engine) : Effect :=
  match ordinal 24 (Payload.u8 q 0), ordinal 8 (Payload.u8 q 1), memberInputs q.data with
  | some m, some g, some l =>
    if MixSet.has e.awaiting m then Effect.refuse e .awaitingRecall
    else if groupConflict e.tables.mixes[m] g l then Effect.refuse e .groupConflict
    else
      Effect.accept
        ((e.modifyMix m fun x =>
            x.putGroup g { trim := clampInt (-80) 20 (Payload.s8 q 2), members := collapse l }).recompute
          (reachInputsOf m (((e.tables.mixes[m]).groups[g]).members ++ l)))
        (outsideInt (-80) 20 (Payload.s8 q 2))
  | _, _, _ => Effect.refuse e .badIndex

/-- R38: READ GROUP. -/
def effectReadGroup (q : Payload) (e : Engine) : Effect :=
  match ordinal 24 (Payload.u8 q 0), ordinal 8 (Payload.u8 q 1) with
  | some m, some g =>
    Effect.read e
      ([signedByte ((e.tables.mixes[m]).groups[g]).trim,
          byteOf ((e.tables.mixes[m]).groups[g]).members.length] ++
        ((e.tables.mixes[m]).groups[g]).members.map fun i => byteOf (i.val + 1))
  | _, _ => Effect.refuse e .badIndex

/-! ### Input requests (2.6) -/

/-- R28, R39: the input record after the present fields are written. -/
def inputRecOf (q : Payload) (patch : Option (Fin 64)) (r : InputRec) : InputRec :=
  { patch := if Payload.present q 1 0 then patch else r.patch
    trim := if Payload.present q 1 1 then clampInt (-24) 24 (Payload.s8 q 3) else r.trim
    inverted := if Payload.present q 1 2 then yes (Payload.u8 q 4) else r.inverted
    on := if Payload.present q 1 3 then yes (Payload.u8 q 5) else r.on }

/-- R28: whether a present field of SET INPUT is clamped. -/
def inputRecClamped (q : Payload) : Bool :=
  (Payload.present q 1 1 && outsideInt (-24) 24 (Payload.s8 q 3)) ||
  (Payload.present q 1 2 && outsideYesNo (Payload.u8 q 4)) ||
  (Payload.present q 1 3 && outsideYesNo (Payload.u8 q 5))

/-- R39: the patch source a SET INPUT carries: read only when present, and then 0 to 64. -/
def inputPatch (q : Payload) : Option (Option (Fin 64)) :=
  if Payload.present q 1 0 then ordinalOrNone 64 (Payload.u8 q 2) else some none

/-- R39, R51: the targets are reached when the trim or the on field changes, or the patch between none and a
channel. -/
def inputReachesTargets (before after : InputRec) : Bool :=
  decide (before.trim ≠ after.trim) || decide (before.on ≠ after.on) ||
    decide (before.patch.isNone ≠ after.patch.isNone)

/-- R39: SET INPUT. -/
def effectSetInput (q : Payload) (e : Engine) : Effect :=
  match ordinal 64 (Payload.u8 q 0), inputPatch q with
  | some i, some patch =>
    if e.inputsAwaiting then Effect.refuse e .awaitingRecall
    else
      Effect.accept
        (Engine.recompute
          { e with
            tables := { e.tables with inputs := e.tables.inputs.set i (inputRecOf q patch e.tables.inputs[i]) } }
          fun _ i' =>
            decide (i' = i) && inputReachesTargets e.tables.inputs[i] (inputRecOf q patch e.tables.inputs[i]))
        (inputRecClamped q)
  | _, _ => Effect.refuse e .badIndex

/-- R8, R40: the present mark of an input's patched channel in the most recent delivered frame. -/
def Engine.presentMark (e : Engine) (i : Fin 64) : Bool :=
  match (e.tables.inputs[i]).patch with
  | some c => (e.selector.delivered[c]).isSome
  | none => false

/-- 11.5: an input record. -/
def InputRec.bytes (x : InputRec) (present : Bool) : List Byte :=
  [ordinalByte x.patch, signedByte x.trim, flagByte x.inverted, flagByte x.on, flagByte present]

/-- R40: READ INPUTS. -/
def effectReadInputs (e : Engine) : Effect :=
  Effect.read e
    (((List.finRange 64).flatMap fun i => InputRec.bytes e.tables.inputs[i] (e.presentMark i)) ++
      [ordinalByte e.tables.talkSource])

/-! ### Talk requests (2.7) -/

/-- R41: SET TALK SOURCE. -/
def effectSetTalkSource (q : Payload) (e : Engine) : Effect :=
  match ordinalOrNone 64 (Payload.u8 q 0) with
  | some source =>
    if e.inputsAwaiting then Effect.refuse e .awaitingRecall
    else
      let set : Engine := { e with tables := { e.tables with talkSource := source } }
      Effect.accept (set.recompute (reachTalking e set true)) false
  | none => Effect.refuse e .badIndex

/-- R42: the talk set of a port after a TALK. -/
def talkSetAfter (q : Payload) (old : MixSet) : MixSet :=
  if yes (Payload.u8 q 3) then old ||| Payload.mixSet q 0 else old &&& ~~~ (Payload.mixSet q 0)

/-- R42: TALK. -/
def effectTalk (p : Port) (q : Payload) (e : Engine) : Effect :=
  let set := e.setTalkSet p (talkSetAfter q (e.talkSet p))
  { engine := set.recompute (reachTalking e set false)
    status := .ok
    clamped := outsideYesNo (Payload.u8 q 3)
    data := bytes24 (talkSetAfter q (e.talkSet p)).toNat
    events := [] }

/-! ### Reading the coefficients (R60) -/

/-- 11.5: an effective record. -/
def CoefPair.bytes (c : CoefPair) : List Byte :=
  bytes16 c.left.target ++ bytes16 c.right.target ++ bytes16 c.left.live ++ bytes16 c.right.live

/-- R60: READ EFFECTIVE. -/
def effectReadEffective (q : Payload) (e : Engine) : Effect :=
  match ordinal 24 (Payload.u8 q 0) with
  | some m => Effect.read e ((List.finRange 64).flatMap fun i => CoefPair.bytes ((e.coefs[m])[i]))
  | none => Effect.refuse e .badIndex

end Sys2Proof.Machine
end

