-- ==== Sys2Proof/Machine/Packs.lean ====
section
/-! DEFINITION. The pack bus controller (chapter 7): audio delivery, the sweep with its poll, read and attach phases,
the downstream part, and the requests on pack slots. -/
namespace Sys2Proof.Machine

/-! ### Audio delivery (R115) -/

/-- R115: the pair sent to a slot's address. -/
def Engine.pairFor (e : Engine) (a : Fin 32) : Int × Int :=
  match (e.packs.slots[a]).state, (e.packs.slots[a]).silence, (e.packs.slots[a]).assigned with
  | .online, false, some m => ((e.runs[m]).outLeft, (e.runs[m]).outRight)
  | _, _, _ => (0, 0)

/-- R115: a pack bus frame. -/
def Engine.audioFrame (e : Engine) : AudioFrame := Vector.ofFn fun a => e.pairFor a

/-- 11.7: the 192 bytes of a pack bus frame. -/
def AudioFrame.bytes (f : AudioFrame) : List Byte :=
  f.toList.flatMap fun x => sampleBytes x.1 ++ sampleBytes x.2

/-- R115: one pack bus frame for each frame instant. -/
def Engine.packBusFrame (e : Engine) : Act :=
  if e.packs.frameDue then
    ({ e with packs := { e.packs with frameDue := false, sentAudio := some e.audioFrame } }, [])
  else (e, [])

/-! ### Slot changes -/

/-- R120: an ONLINE slot has not answered for the sixteenth poll in a row. -/
def PackSlot.lose (x : PackSlot) : PackSlot := { x with state := .lost, missRun := 16, held := none }

/-- R126, R131: a slot is freed; its assigned mix is kept. -/
def PackSlot.free (x : PackSlot) : PackSlot :=
  { state := .empty, identity := none, assigned := x.assigned, missRun := 0, target := 0, silence := false,
    held := none }

/-- R126: a clean announce accepted. A new identity starts from the master offset with sound. -/
def PackSlot.attach (x : PackSlot) (id : PackIdentity) : PackSlot :=
  { state := .online, identity := some id, assigned := x.assigned, missRun := 0,
    target := if x.identity = some id then x.target else 0
    silence := if x.identity = some id then x.silence else false
    held := none }

/-- R127: a pack welcomed again. -/
def PackSlot.rewelcome (x : PackSlot) : PackSlot := { x with missRun := 0, held := none }

/-- R128: a garbled window. -/
def PackSlot.garble (x : PackSlot) : PackSlot :=
  match x.state with
  | .online => x
  | _ => { x with state := .conflict, held := none }

/-- R119, R120: one slot's answer to a poll. -/
def PackSlot.poll (x : PackSlot) (alive : Bool) : PackSlot :=
  match x.state with
  | .online => if alive then { x with missRun := 0 } else if 16 ≤ x.missRun + 1 then x.lose
      else { x with missRun := x.missRun + 1 }
  | _ => x

/-! ### The sweep (R118 to R122) -/

/-- 11.7: the alive position of an address. -/
def aliveAt (answers : BitVec 64) (a : Fin 32) : Bool := answers.getLsbD (2 * a.val)

/-- 11.7: the pending position of an address. -/
def pendingAt (answers : BitVec 64) (a : Fin 32) : Bool := answers.getLsbD (2 * a.val + 1)

/-- A set of slots: slot s at bit s - 1. -/
def slotSet (f : Fin 32 → Bool) : BitVec 32 :=
  (List.finRange 32).foldl (fun acc a => if f a then acc ||| BitVec.twoPow 32 a.val else acc) 0#32

/-- R118: a sweep begins; a sweep in progress goes on (log 2). -/
def Engine.sweepStart (e : Engine) : Act :=
  match e.packs.sweep with
  | .idle => ({ e with packs := { e.packs with sweep := .poll } }, [])
  | _ => (e, [])

/-- R119: the pending mark of an address is kept for an ONLINE slot that is alive. -/
def Engine.pendingKept (e : Engine) (answers : BitVec 64) (a : Fin 32) : Bool :=
  decide ((e.packs.slots[a]).state = .online) && aliveAt answers a && pendingAt answers a

/-- R120: one PACK_LOST for each slot that becomes LOST. -/
def Engine.lostEvents (e : Engine) (answers : BitVec 64) : List Event :=
  (List.finRange 32).flatMap fun a =>
    if (e.packs.slots[a]).state = .online ∧
        ((e.packs.slots[a]).poll (aliveAt answers a)).state = .lost then [.packLost] else []

/-- R118 to R120: the poll phase, and the part that follows it: the attach phase when the counter is 0, else the read
phase. The answers of all 32 addresses are applied in one step, so that nothing falls between two slots of a poll (R118
allows it; log 27). -/
def Engine.pollPhase (answers : BitVec 64) (e : Engine) : Act :=
  match e.packs.sweep with
  | .poll =>
    ({ e with
        packs := { e.packs with
          slots := Vector.ofFn fun a => (e.packs.slots[a]).poll (aliveAt answers a)
          pendingMarks := slotSet (e.pendingKept answers)
          sweep := if e.packs.sweepCounter = 0 then .attach 0 else .read } },
      e.lostEvents answers)
  | _ => (e, [])

/-- R121: the addresses in ascending order from the one after the pointer, wrapping from 32 to 1. -/
def searchOrder (pointer : Fin 32) : List (Fin 32) := (List.finRange 32).map fun k => pointer + 1 + k

/-- R121: a slot that the arbiter considers. -/
def Engine.considered (e : Engine) (a : Fin 32) : Bool :=
  decide ((e.packs.slots[a]).state = .online) && e.packs.pendingMarks.getLsbD a.val

/-- R121: the slots the arbiter picks, at most 2. -/
def Engine.picks (e : Engine) : List (Fin 32) := ((searchOrder e.packs.pointer).filter e.considered).take 2

/-- R121: the read phase picks its slots. The pointer moves with the reads (`keyReportRead`). -/
def Engine.readPhase (e : Engine) : Act :=
  match e.packs.sweep with
  | .read =>
    ({ e with packs := { e.packs with sweep := .reading e.picks } }, [])
  | _ => (e, [])

/-- R145: the code of the overflow marker. -/
def overflowCode : Byte := 0xFF

/-- R122, 11.7: whether a key report passes its check: a count of at most 5, a length that agrees with it, and a sum
of 0 modulo 256. -/
def reportGood (bytes : List Byte) : Bool :=
  match bytes with
  | count :: rest =>
    decide (count.toNat ≤ 5) && decide (rest.length = count.toNat + 1) && decide (byteSum bytes = 0#8)
  | [] => false

/-- R122: the codes a read hands on: those of a good report, else a single overflow marker. -/
def reportCodes (report : Option (List Byte)) : List Byte :=
  match report with
  | some bytes => if reportGood bytes then (bytes.drop 1).dropLast else [overflowCode]
  | none => [overflowCode]

/-- R121, R122: the read of the next picked slot completes; a slot no longer ONLINE hands nothing on. With the last read
the pointer takes the address of the last slot picked, which is this one. -/
def Engine.keyReportRead (a : Fin 32) (report : Option (List Byte)) (e : Engine) : Act :=
  match e.packs.sweep with
  | .reading (b :: rest) =>
    if b = a then
      ({ e with
          packs := { e.packs with
            sweep := .reading rest
            pointer := if rest = [] then a else e.packs.pointer
            keyEvents := e.packs.keyEvents ++
              if (e.packs.slots[a]).state = .online then (reportCodes report).map fun c => (a, c) else [] } },
        [])
    else (e, [])
  | _ => (e, [])

/-! ### Attaching packs (R125 to R128) -/

/-- The six bytes of an identity, when there are six. -/
def identityOf (bytes : List Byte) : PackIdentity := Vector.ofFn fun k => bytes.getD k.val 0#8

/-- R125: what an announce window is classified as. -/
inductive WindowOutcome where
  | nothing
  | clean (id : PackIdentity)
  | garbled
  deriving DecidableEq, Repr

/-- R125: one announce of 7 bytes whose sum is 0 modulo 256 is clean; any other signal is garbled. -/
def classify : Received → WindowOutcome
  | .nothing => .nothing
  | .bytes sent =>
    if sent.length = 7 ∧ byteSum sent = 0#8 then .clean (identityOf sent) else .garbled
  | .overlap => .garbled

/-- A message queued for an address (R123). -/
def Engine.queueMessage (e : Engine) (x : PackMessage) (a : Fin 32) : Engine :=
  { e with packs := { e.packs with messages := e.packs.messages ++ [(x, a)] } }

/-- R126: any other slot that holds the identity just accepted is freed. -/
def Engine.forgetElsewhere (e : Engine) (id : PackIdentity) (a : Fin 32) : Engine :=
  { e with
    packs := { e.packs with
      slots := Vector.ofFn fun b =>
        if b ≠ a ∧ (e.packs.slots[b]).identity = some id then (e.packs.slots[b]).free else e.packs.slots[b] } }

/-- R126: a clean announce accepted. -/
def Engine.acceptPack (e : Engine) (id : PackIdentity) (a : Fin 32) : Act :=
  (((e.forgetElsewhere id a).modifyPack a fun x => x.attach id).queueMessage .welcome a, [.packAttach])

/-- R126 to R128: the outcome of a window applied to its slot. -/
def Engine.applyWindow (e : Engine) (a : Fin 32) (w : WindowOutcome) : Act :=
  match w with
  | .nothing => (e, [])
  | .garbled => (e.modifyPack a PackSlot.garble, [.packConflict])
  | .clean id =>
    if (e.packs.slots[a]).state = .online then
      if (e.packs.slots[a]).identity = some id then
        ((e.modifyPack a PackSlot.rewelcome).queueMessage .welcome a, [.packAttach])
      else (e.queueMessage .occupied a, [.packConflict])
    else e.acceptPack id a

/-- R125: the windows are taken in ascending order; the last is followed by the downstream part. -/
def Engine.nextWindow (a : Fin 32) (e : Engine) : Engine :=
  { e with
    packs := { e.packs with
      sweep := if h : a.val + 1 < 32 then .attach ⟨a.val + 1, h⟩ else .downstream } }

/-- R125: the window of one address ends. -/
def Engine.announceWindow (a : Fin 32) (received : Received) (e : Engine) : Act :=
  match e.packs.sweep with
  | .attach b => if b = a then (e.nextWindow a).applyWindow a (classify received) else (e, [])
  | _ => (e, [])

/-! ### The downstream part (R123) -/

/-- R123: the current value of a slot's selected target in its assigned mix; 0 when it is assigned none. -/
def Engine.targetValue (e : Engine) (x : PackSlot) : Int :=
  match x.assigned with
  | none => 0
  | some m =>
    if h : x.target.val = 0 then (e.tables.mixes[m]).record.master
    else ((e.tables.mixes[m]).groups[x.target.val - 1]'(by have := x.target.isLt; omega)).trim

/-- R123: the engineer hold of a slot's assigned mix; off when it is assigned none. -/
def Engine.holdShown (e : Engine) (x : PackSlot) : Bool :=
  match x.assigned with
  | none => false
  | some m => (e.tables.mixes[m]).record.hold

/-- R123: the status record of a slot. -/
def Engine.statusRec (e : Engine) (a : Fin 32) : StatusRec :=
  let x := e.packs.slots[a]
  { slot := a, state := x.state, assigned := x.assigned, target := x.target, value := e.targetValue x,
    hold := e.holdShown x, silence := x.silence }

/-- R123: the downstream part: a status record for every ONLINE slot, and every message queued. The records stand in
ascending address order and the messages in the order in which they were queued; R123 fixes only the order of the
messages to one address (log 29). -/
def Engine.downstream (e : Engine) : Downstream :=
  { records :=
      ((List.finRange 32).filter fun a => decide ((e.packs.slots[a]).state = .online)).map e.statusRec
    messages := e.packs.messages }

/-- R118, R138: whether the downstream part comes next: all windows taken, or all picked slots read and every event of
their reports applied. -/
def PackBus.downstreamNext (b : PackBus) : Bool :=
  match b.sweep with
  | .downstream => true
  | .reading [] => b.keyEvents.isEmpty
  | _ => false

/-- R118, R123: the downstream part is sent, the sweep ends and the counter advances, wrapping from 63 to 0. -/
def Engine.downstreamPart (e : Engine) : Act :=
  if e.packs.downstreamNext then
    ({ e with
        packs := { e.packs with
          sweep := .idle, sweepCounter := e.packs.sweepCounter + 1, pendingMarks := 0#32, messages := [],
          sentDownstream := some e.downstream } },
      [])
  else (e, [])

/-- 11.5: the code of a pack slot state. -/
def PackState.code : PackState → Byte
  | .empty => 0
  | .online => 1
  | .lost => 2
  | .conflict => 3

/-- 11.7: a status record, 7 bytes. -/
def StatusRec.bytes (r : StatusRec) : List Byte :=
  [byteOf (r.slot.val + 1), r.state.code, ordinalByte r.assigned, byteOf r.target.val, signedByte r.value,
    flagByte r.hold, flagByte r.silence]

/-- 11.7: the code of a downstream message. -/
def PackMessage.code : PackMessage → Byte
  | .welcome => 1
  | .occupied => 2
  | .released => 3

/-- 11.7: a downstream message, 2 bytes. -/
def messageBytes (x : PackMessage × Fin 32) : List Byte := [x.1.code, byteOf (x.2.val + 1)]

/-! ### Requests of chapter 7 -/

/-- R130: ASSIGN PACK. -/
def effectAssignPack (q : Payload) (e : Engine) : Effect :=
  match ordinal 32 (Payload.u8 q 0), ordinalOrNone 24 (Payload.u8 q 1) with
  | some a, some m =>
    Effect.accept (e.modifyPack a fun x => { x with assigned := m, target := 0, held := none }) false
  | _, _ => Effect.refuse e .badIndex

/-- R131, R138: a slot freed by its console: an ONLINE slot's pack is to be told, and its events not yet applied are
discarded. -/
def Engine.releaseSlot (a : Fin 32) (e : Engine) : Engine :=
  let told : Engine := if (e.packs.slots[a]).state = .online then e.queueMessage .released a else e
  let freed := told.modifyPack a PackSlot.free
  { freed with packs := { freed.packs with keyEvents := freed.packs.keyEvents.filter fun x => decide (x.1 ≠ a) } }

/-- R131: RELEASE PACK. -/
def effectReleasePack (q : Payload) (e : Engine) : Effect :=
  match ordinal 32 (Payload.u8 q 0) with
  | some a => Effect.accept (e.releaseSlot a) false
  | none => Effect.refuse e .badIndex

/-- 11.5: a pack slot record, 13 bytes. -/
def PackSlot.bytes (a : Fin 32) (x : PackSlot) : List Byte :=
  [byteOf (a.val + 1), x.state.code, flagByte x.identity.isSome] ++
    (x.identity.getD (Vector.replicate 6 0#8)).toList ++
    [ordinalByte x.assigned, byteOf x.missRun, byteOf x.target.val,
      byteOf ((if x.silence then 1 else 0) + (if x.held.isSome then 2 else 0))]

/-- R132: READ PACK TABLE. -/
def effectReadPackTable (e : Engine) : Effect :=
  Effect.read e ((List.finRange 32).flatMap fun a => PackSlot.bytes a e.packs.slots[a])

/-! ### Meanings -/

/-- R115: PACK_BUS_FRAME. -/
def execPackBusFrame (s : State) : Host.Outcome State Fault Refusal := s.act Engine.packBusFrame

/-- R118: SWEEP_START. -/
def execSweepStart (s : State) : Host.Outcome State Fault Refusal := s.act Engine.sweepStart

/-- R119: POLL_PHASE. -/
def execPollPhase (answers : BitVec 64) (s : State) : Host.Outcome State Fault Refusal :=
  s.act (Engine.pollPhase answers)

/-- R121: READ_PHASE. -/
def execReadPhase (s : State) : Host.Outcome State Fault Refusal := s.act Engine.readPhase

/-- R122: KEY_REPORT_READ. -/
def execKeyReportRead (a : Fin 32) (report : Option (List Byte)) (s : State) : Host.Outcome State Fault Refusal :=
  s.act (Engine.keyReportRead a report)

/-- R125: ANNOUNCE_WINDOW. -/
def execAnnounceWindow (a : Fin 32) (received : Received) (s : State) : Host.Outcome State Fault Refusal :=
  s.act (Engine.announceWindow a received)

/-- R123: DOWNSTREAM_PART. -/
def execDownstreamPart (s : State) : Host.Outcome State Fault Refusal := s.act Engine.downstreamPart

end Sys2Proof.Machine
end

