-- ==== Sys2Proof/Machine/Keys.lean ====
section
/-! DEFINITION. The pack key handler and the call list (chapter 8). -/
namespace Sys2Proof.Machine

/-! ### The selected target (R139) -/

/-- R139: whether a target is 0 or a group of the assigned mix whose member list is not empty. -/
def Engine.selectable (e : Engine) (assigned : Option (Fin 24)) (target : Fin 9) : Bool :=
  if h : target.val = 0 then true
  else
    match assigned with
    | none => false
    | some m =>
      !(((e.tables.mixes[m]).groups[target.val - 1]'(by have := target.isLt; omega)).members.isEmpty)

/-- R139: the targets in the order NEXT searches them: upward from the present value, 8 wrapping to 0. -/
def upwardFrom (target : Fin 9) : List (Fin 9) := (List.finRange 9).map fun k => target + 1 + k

/-- R139: the targets in the order PREV searches them: downward from the present value, 0 wrapping to 8. -/
def downwardFrom (target : Fin 9) : List (Fin 9) := (List.finRange 9).map fun k => target - 1 - k

/-- R139: the first selectable target of a search. -/
def Engine.selectFrom (e : Engine) (assigned : Option (Fin 24)) (order : List (Fin 9)) : Fin 9 :=
  (order.find? (e.selectable assigned)).getD 0

/-! ### Steps (R140) -/

/-- R140: a step of a key. -/
def RepeatKey.delta : RepeatKey → Int
  | .up => 1
  | .down => -1

/-- R140: a step of the master offset of a mix; at the end of its range nothing is written or raised. -/
def Engine.stepMaster (e : Engine) (m : Fin 24) (key : RepeatKey) : Act :=
  let old := (e.tables.mixes[m]).record.master
  let new := clampInt (-120) 20 (old + key.delta)
  if new = old then (e, [])
  else
    ((e.modifyMix m fun x => x.mapRecord fun r => { r with master := new }).recompute (reachMix m), [.packAdjust])

/-- R140: a step of the trim of a group of a mix. -/
def Engine.stepGroup (e : Engine) (m : Fin 24) (g : Fin 8) (key : RepeatKey) : Act :=
  let old := (e.tables.mixes[m]).groups[g]
  let new := clampInt (-80) 20 (old.trim + key.delta)
  if new = old.trim then (e, [])
  else
    ((e.modifyMix m fun x => x.putGroup g { old with trim := new }).recompute (reachInputsOf m old.members),
      [.packAdjust])

/-- R26, R140: whether a step of a slot is dropped. -/
def Engine.dropsStep (e : Engine) (x : PackSlot) : Bool :=
  match x.assigned with
  | none => true
  | some m =>
    (e.tables.mixes[m]).record.hold || MixSet.has e.awaiting m || !e.selectable (some m) x.target

/-- R140: one step of a key by a slot, on its selected target in its assigned mix. -/
def Engine.step (a : Fin 32) (key : RepeatKey) (e : Engine) : Act :=
  let x := e.packs.slots[a]
  if e.dropsStep x then (e, [])
  else
    match x.assigned with
    | none => (e, [])
    | some m =>
      if h : x.target.val = 0 then e.stepMaster m key
      else e.stepGroup m ⟨x.target.val - 1, by have := x.target.isLt; omega⟩ key

/-! ### Held keys (R142 to R145) -/

/-- A slot's held-key record set or ended. -/
def Engine.setHeld (a : Fin 32) (h : Option HeldKey) (e : Engine) : Engine :=
  e.modifyPack a fun x => { x with held := h }

/-- R142: a make of UP or DOWN: its step, then a held-key record in DELAY at 400 ms. -/
def Engine.makeRepeating (a : Fin 32) (key : RepeatKey) (e : Engine) : Act :=
  (e.step a key).andThen fun e' => (e'.setHeld a (some { key := key, phase := .delay, time := 400 }), [])

/-- R144: a break of a repeating key ends the record of that key. -/
def Engine.breakRepeating (a : Fin 32) (key : RepeatKey) (e : Engine) : Act :=
  match (e.packs.slots[a]).held with
  | some h => if h.key = key then (e.setHeld a none, []) else (e, [])
  | none => (e, [])

/-- R143: a record expires: the key repeats, and the record enters REPEAT at 100 ms. -/
def Engine.expire (a : Fin 32) (e : Engine) : Act :=
  match (e.packs.slots[a]).held with
  | some h =>
    (e.step a h.key).andThen fun e' => (e'.setHeld a (some { key := h.key, phase := .repeating, time := 100 }), [])
  | none => (e, [])

/-! ### Selection, silence and calls -/

/-- R139: a make of NEXT. -/
def Engine.selectNext (a : Fin 32) (e : Engine) : Act :=
  (e.modifyPack a fun x => { x with target := e.selectFrom x.assigned (upwardFrom x.target) }, [])

/-- R139: a make of PREV. -/
def Engine.selectPrev (a : Fin 32) (e : Engine) : Act :=
  (e.modifyPack a fun x => { x with target := e.selectFrom x.assigned (downwardFrom x.target) }, [])

/-- R146: a make of SILENCE. -/
def Engine.toggleSilence (a : Fin 32) (e : Engine) : Act :=
  (e.modifyPack a fun x => { x with silence := !x.silence }, [])

/-- R147: a make of CALL. -/
def Engine.addCall (a : Fin 32) (e : Engine) : Act :=
  if e.packs.calls.contains a then (e, [])
  else ({ e with packs := { e.packs with calls := e.packs.calls ++ [a] } }, [.call])

/-- R145: an overflow marker. -/
def Engine.overflow (a : Fin 32) (e : Engine) : Act := (e.setHeld a none, [])

/-- R148: READ CALLS. -/
def effectReadCalls (e : Engine) : Effect :=
  Effect.read { e with packs := { e.packs with calls := [] } }
    (byteOf e.packs.calls.length :: e.packs.calls.map fun a => byteOf (a.val + 1))

/-! ### The application of an event (R137, R138) -/

/-- R138: the event at the front of those handed on is applied, when it is the named slot's and carries this code; it
leaves the list, and acts only while its slot is ONLINE (log 17). -/
def Engine.applyEvent (a : Fin 32) (code : Byte) (f : Engine → Act) (e : Engine) : Act :=
  match e.packs.keyEvents with
  | x :: rest =>
    if x = (a, code) then
      let taken : Engine := { e with packs := { e.packs with keyEvents := rest } }
      if (e.packs.slots[a]).state = .online then f taken else (taken, [])
    else (e, [])
  | [] => (e, [])

/-- R137: the code of the break of a make-only key. -/
def MakeOnlyKey.breakCode : MakeOnlyKey → Byte
  | .next => 0x83
  | .prev => 0x84
  | .call => 0x85
  | .silence => 0x86

/-- An event that acts on nothing (R137). -/
def Engine.passOver (e : Engine) : Act := (e, [])

/-! ### Meanings -/

/-- R142: MAKE_OF_UP. -/
def execMakeOfUp (a : Fin 32) (s : State) : Host.Outcome State Fault Refusal :=
  s.act (Engine.applyEvent a 0x01 (Engine.makeRepeating a .up))

/-- R142: MAKE_OF_DOWN. -/
def execMakeOfDown (a : Fin 32) (s : State) : Host.Outcome State Fault Refusal :=
  s.act (Engine.applyEvent a 0x02 (Engine.makeRepeating a .down))

/-- R139: MAKE_OF_NEXT. -/
def execMakeOfNext (a : Fin 32) (s : State) : Host.Outcome State Fault Refusal :=
  s.act (Engine.applyEvent a 0x03 (Engine.selectNext a))

/-- R139: MAKE_OF_PREV. -/
def execMakeOfPrev (a : Fin 32) (s : State) : Host.Outcome State Fault Refusal :=
  s.act (Engine.applyEvent a 0x04 (Engine.selectPrev a))

/-- R147: MAKE_OF_CALL. -/
def execMakeOfCall (a : Fin 32) (s : State) : Host.Outcome State Fault Refusal :=
  s.act (Engine.applyEvent a 0x05 (Engine.addCall a))

/-- R146: MAKE_OF_SILENCE. -/
def execMakeOfSilence (a : Fin 32) (s : State) : Host.Outcome State Fault Refusal :=
  s.act (Engine.applyEvent a 0x06 (Engine.toggleSilence a))

/-- R144: BREAK_OF_UP. -/
def execBreakOfUp (a : Fin 32) (s : State) : Host.Outcome State Fault Refusal :=
  s.act (Engine.applyEvent a 0x81 (Engine.breakRepeating a .up))

/-- R144: BREAK_OF_DOWN. -/
def execBreakOfDown (a : Fin 32) (s : State) : Host.Outcome State Fault Refusal :=
  s.act (Engine.applyEvent a 0x82 (Engine.breakRepeating a .down))

/-- R137: BREAK_OF_MAKE_ONLY_KEY. -/
def execBreakOfMakeOnlyKey (a : Fin 32) (key : MakeOnlyKey) (s : State) : Host.Outcome State Fault Refusal :=
  s.act (Engine.applyEvent a (MakeOnlyKey.breakCode key) Engine.passOver)

/-- R145: OVERFLOW_MARKER. -/
def execOverflowMarker (a : Fin 32) (s : State) : Host.Outcome State Fault Refusal :=
  s.act (Engine.applyEvent a overflowCode (Engine.overflow a))

/-- R137: IGNORED_KEY_CODE. -/
def execIgnoredKeyCode (a : Fin 32) (code : Byte) (s : State) : Host.Outcome State Fault Refusal :=
  s.act (Engine.applyEvent a code Engine.passOver)

/-- R143: HELD_KEY_EXPIRY. -/
def execHeldKeyExpiry (a : Fin 32) (s : State) : Host.Outcome State Fault Refusal := s.act (Engine.expire a)

end Sys2Proof.Machine
end

