-- ==== Sys2Proof/Machine/Scenes.lean ====
section
/-! DEFINITION. The scene library (chapter 6): its requests, the ends of its timed work, and the loading of scenes into
the mix tables. -/
namespace Sys2Proof.Machine

/-! ### The end of an operation (R95, R96) -/

/-- R95, R96: the operation ends with an outcome: the result record takes it, LIBRARY_BUSY turns false, and OP_DONE is
raised. -/
def Engine.endOperation (outcome : ResultOutcome) (e : Engine) : Act :=
  ({ e with
      library := { e.library with
        operation := .idle, result := { e.library.result with outcome := outcome } } },
    [.opDone])

/-- R95: the operation in progress and the result record that its acceptance sets. -/
def Engine.beginOperation (op : Operation) (kind : ResultOp) (slot : Fin 32) (e : Engine) : Engine :=
  { e with
    library := { e.library with
      operation := op
      result := { op := kind, slot := some slot, outcome := .inProgress, mixesLoaded := 0 } } }

/-- R100, R102, R109: a long operation is answered STARTED with no data. -/
def Effect.startedWith (e : Engine) : Effect :=
  { engine := e, status := .started, clamped := false, data := [], events := [] }

/-! ### Names (R100, R112, R178) -/

/-- A space. -/
def space : Byte := 0x20

/-- R112: the name of an empty slot. -/
def blankName : SceneName := Vector.replicate 12 space

/-- R100: a character outside 0x20 to 0x7E is taken as a space. -/
def printable (b : Byte) : Byte := if 0x20 ≤ b.toNat ∧ b.toNat ≤ 0x7E then b else space

/-- R100: the name that STORE SCENE carries. -/
def storedName (q : Payload) : SceneName := Vector.ofFn fun k => printable (Payload.byte q (k.val + 1))

/-- R112: the name a directory entry shows. The bytes of a slot in the erased pattern, while it is UNCHECKED, are not
stated (log 14). -/
def SceneSlot.shownName (x : SceneSlot) : SceneName :=
  match x.image with
  | .written name _ => name
  | .broken name => name
  | .erased => if x.state = .unchecked then Config.erasedName else blankName

/-! ### Verification and degradation (R93, R97, R103, log 11) -/

/-- Memory that has degraded no longer agrees with its check value, and its name reads as given (R103, log 11). -/
def SceneSlot.degrade (x : SceneSlot) (degraded : Option SceneName) : SceneSlot :=
  match degraded with
  | some name => { x with image := .broken name }
  | none => x

/-- R97: what verification finds. -/
def SlotImage.finding : SlotImage → SlotState
  | .erased => .empty
  | .written _ _ => .valid
  | .broken _ => .damaged

/-- R97: a slot after its verification. -/
def SceneSlot.verify (x : SceneSlot) : SceneSlot := { x with state := x.image.finding }

/-! ### Loading (R104, R105) -/

/-- R105: the classes of the class set written into a mix from a scene's mix; other classes keep their values. -/
def MixTable.load (x : MixTable) (classes : ClassSet) (scene : MixTable) : MixTable :=
  { record :=
      { master := if classes.mix then scene.record.master else x.record.master
        mute := if classes.mix then scene.record.mute else x.record.mute
        shift := if classes.mix then scene.record.shift else x.record.shift
        ceiling := if classes.guard then scene.record.ceiling else x.record.ceiling
        release := if classes.guard then scene.record.release else x.record.release
        dim := if classes.mix then scene.record.dim else x.record.dim
        hold := if classes.mix then scene.record.hold else x.record.hold
        linkSet := if classes.mix then scene.record.linkSet else x.record.linkSet }
    sends := if classes.sends then scene.sends else x.sends
    groups := if classes.groups then scene.groups else x.groups }

/-- The scene that a slot holds, when its check value agrees. -/
def SlotImage.scene : SlotImage → Option Tables
  | .written _ contents => some contents
  | _ => none

/-- R105: a scene's classes written into one mix, its 64 inputs not yet recomputed. -/
def Engine.writeMix (j : RecallJob) (m : Fin 24) (e : Engine) : Engine :=
  match (e.library.slots[j.slot]).image.scene with
  | some scene => e.modifyMix m fun x => x.load j.classes scene.mixes[m]
  | none => e

/-- R104: the input records and the talk source of a scene written. -/
def Engine.writeInputs (j : RecallJob) (e : Engine) : Engine :=
  match (e.library.slots[j.slot]).image.scene with
  | some scene => { e with tables := { e.tables with inputs := scene.inputs, talkSource := scene.talkSource } }
  | none => e

/-- R104: a mix leaves the awaiting-recall set and mixes loaded increases. -/
def Engine.markLoaded (j : RecallJob) (awaiting : MixSet) (inputs aborting : Bool) (e : Engine) : Engine :=
  { e with
    library := { e.library with
      operation := .recall { j with phase := .load awaiting inputs aborting }
      result := { e.library.result with mixesLoaded := e.library.result.mixesLoaded + 1 } } }

/-- R104: the lowest mix still awaiting recall: the one whose fetch is in progress. -/
def nextMix (awaiting : MixSet) : Option (Fin 24) := (List.finRange 24).find? fun m => MixSet.has awaiting m

/-- R104, R106, R107: after an item is written: an accepted abort ends the recall, and so does the end of the list. -/
def Engine.afterItem (awaiting : MixSet) (inputs aborting : Bool) (e : Engine) : Act :=
  if aborting then e.endOperation .aborted
  else if awaiting = 0#24 ∧ inputs = false then e.endOperation .done
  else (e, [])

/-- R104: the end of the fetch of one mix. -/
def Engine.loadMix (j : RecallJob) (awaiting : MixSet) (inputs aborting : Bool) (m : Fin 24) (e : Engine) : Act :=
  Engine.afterItem (MixSet.without awaiting m) inputs aborting
    (((e.writeMix j m).recompute (reachMix m)).markLoaded j (MixSet.without awaiting m) inputs aborting)

/-- R104: the end of the fetch of the input section. -/
def Engine.loadInputs (j : RecallJob) (aborting : Bool) (e : Engine) : Act :=
  Engine.endOperation (if aborting then .aborted else .done)
    ((e.writeInputs j).recompute fun _ _ => true)

/-- R104: the load phase begins: every mix of the mix set, and the input section when INPUTS is in the class set,
becomes awaiting recall. With nothing to load the recall ends at once (R102). -/
def Engine.beginLoad (j : RecallJob) (e : Engine) : Act :=
  Engine.afterItem j.mixes j.classes.inputs false
    { e with
      library := { e.library with
        operation := .recall { j with phase := .load j.mixes j.classes.inputs false } } }

/-! ### Requests of chapter 6 -/

/-- R100: STORE SCENE. -/
def effectStoreScene (q : Payload) (e : Engine) : Effect :=
  match ordinal 32 (Payload.u8 q 0) with
  | none => Effect.refuse e .badIndex
  | some k =>
    if e.library.busy then Effect.refuse e .libraryBusy
    else if (e.library.slots[k]).protect then Effect.refuse e .slotProtected
    else Effect.startedWith (e.beginOperation (.store k (storedName q) e.tables) .store k)

/-- R102: RECALL SCENE. -/
def effectRecallScene (q : Payload) (e : Engine) : Effect :=
  match ordinal 32 (Payload.u8 q 0) with
  | none => Effect.refuse e .badIndex
  | some k =>
    if e.library.busy then Effect.refuse e .libraryBusy
    else
      match (e.library.slots[k]).state with
      | .empty => Effect.refuse e .slotEmpty
      | .damaged => Effect.refuse e .slotDamaged
      | _ =>
        Effect.startedWith
          (e.beginOperation
            (.recall { startLoad := false, slot := k, mixes := Payload.mixSet q 1, classes := Payload.classes q 4,
                       phase := .verify })
            .recall k)

/-- R107: ABORT RECALL. -/
def effectAbortRecall (e : Engine) : Effect :=
  match e.library.operation with
  | .recall j =>
    match j.phase with
    | .verify =>
      { engine := (e.endOperation .aborted).1, status := .ok, clamped := false, data := [],
        events := (e.endOperation .aborted).2 }
    | .load awaiting inputs _ =>
      Effect.accept
        { e with
          library := { e.library with operation := .recall { j with phase := .load awaiting inputs true } } }
        false
  | _ => Effect.refuse e .notRecalling

/-- R109: ERASE SCENE. -/
def effectEraseScene (q : Payload) (e : Engine) : Effect :=
  match ordinal 32 (Payload.u8 q 0) with
  | none => Effect.refuse e .badIndex
  | some k =>
    if e.library.busy then Effect.refuse e .libraryBusy
    else if (e.library.slots[k]).protect then Effect.refuse e .slotProtected
    else Effect.startedWith (e.beginOperation (.erase k) .erase k)

/-- R110: PROTECT SCENE. -/
def effectProtectScene (q : Payload) (e : Engine) : Effect :=
  match ordinal 32 (Payload.u8 q 0) with
  | none => Effect.refuse e .badIndex
  | some k =>
    Effect.accept (e.modifySlot k fun x => { x with protect := yes (Payload.u8 q 1) })
      (outsideYesNo (Payload.u8 q 1))

/-- R111: SET START SCENE. -/
def effectSetStartScene (q : Payload) (e : Engine) : Effect :=
  match ordinalOrNone 32 (Payload.u8 q 0) with
  | some k => Effect.accept { e with library := { e.library with startScene := k } } false
  | none => Effect.refuse e .badIndex

/-- 11.5: the code of a slot state. -/
def SlotState.code : SlotState → Byte
  | .unchecked => 0
  | .empty => 1
  | .valid => 2
  | .damaged => 3

/-- 11.5: a directory entry. -/
def SceneSlot.bytes (x : SceneSlot) : List Byte :=
  [x.state.code, flagByte x.protect] ++ x.shownName.toList

/-- R112: READ DIRECTORY. Page p holds slots 8p + 1 to 8p + 8. -/
def effectReadDirectory (q : Payload) (e : Engine) : Effect :=
  if h : Payload.u8 q 0 < 4 then
    Effect.read e
      (((List.finRange 8).flatMap fun k =>
          SceneSlot.bytes (e.library.slots[8 * Payload.u8 q 0 + k.val]'(by omega))) ++
        [ordinalByte e.library.startScene])
  else Effect.refuse e .badIndex

/-- 11.5: the code of an operation. -/
def ResultOp.code : ResultOp → Byte
  | .none => 0
  | .store => 1
  | .recall => 2
  | .erase => 3
  | .startLoad => 4

/-- 11.5: the code of an outcome. -/
def ResultOutcome.code : ResultOutcome → Byte
  | .inProgress => 0
  | .done => 1
  | .aborted => 2
  | .failed => 3
  | .skipped => 4

/-- 11.5: the result record. -/
def ResultRec.bytes (r : ResultRec) : List Byte :=
  [r.op.code, ordinalByte r.slot, r.outcome.code, byteOf r.mixesLoaded]

/-- R113: READ RESULT. -/
def effectReadResult (e : Engine) : Effect := Effect.read e e.library.result.bytes

/-! ### The ends of the library's timed work -/

/-- R101: the slot write ends. -/
def Engine.storeWriteEnd (e : Engine) : Act :=
  match e.library.operation with
  | .store k name contents =>
    (e.modifySlot k fun x => { x with state := .valid, image := .written name contents }).endOperation .done
  | _ => (e, [])

/-- R109: the erase ends. -/
def Engine.eraseEnd (e : Engine) : Act :=
  match e.library.operation with
  | .erase k => (e.modifySlot k fun x => { x with state := .empty, image := .erased }).endOperation .done
  | _ => (e, [])

/-- R103: the verify phase ends. -/
def Engine.recallVerifyEnd (degraded : Option SceneName) (e : Engine) : Act :=
  match e.library.operation with
  | .recall j =>
    match j.phase with
    | .verify =>
      let read := e.modifySlot j.slot fun x => x.degrade degraded
      match (read.library.slots[j.slot]).image.scene with
      | some _ => read.beginLoad j
      | none => (read.modifySlot j.slot fun x => { x with state := .damaged }).endOperation .failed
    | .load _ _ _ => (e, [])
  | _ => (e, [])

/-- R104: the fetch of the next mix ends. -/
def Engine.mixLoad (e : Engine) : Act :=
  match e.library.operation with
  | .recall j =>
    match j.phase with
    | .load awaiting inputs aborting =>
      match nextMix awaiting with
      | some m => e.loadMix j awaiting inputs aborting m
      | none => (e, [])
    | .verify => (e, [])
  | _ => (e, [])

/-- R104: the fetch of the input section ends; it begins once no mix is awaiting recall. -/
def Engine.inputSectionLoad (e : Engine) : Act :=
  match e.library.operation with
  | .recall j =>
    match j.phase with
    | .load awaiting inputs aborting =>
      if awaiting = 0#24 ∧ inputs = true then e.loadInputs j aborting else (e, [])
    | .verify => (e, [])
  | _ => (e, [])

/-- R98: what follows verify-all: no load, a start load of a VALID start scene, or SKIPPED. -/
def Engine.lookAtStartScene (e : Engine) : Act :=
  match e.library.startScene with
  | none => ({ e with library := { e.library with operation := .idle } }, [.opDone])
  | some k =>
    let job : RecallJob :=
      { startLoad := true, slot := k, mixes := MixSet.all, classes := ⟨true, true, true, true, true⟩, phase := .verify }
    if (e.library.slots[k]).state = .valid then
      (e.beginOperation (.recall job) .startLoad k).beginLoad job
    else (e.beginOperation .idle .startLoad k).endOperation .skipped

/-- R97, R98: the reading of one slot during verify-all ends. -/
def Engine.verifySlotDone (degraded : Option SceneName) (e : Engine) : Act :=
  match e.library.operation with
  | .verifyAll k =>
    let found := e.modifySlot k fun x => (x.degrade degraded).verify
    if h : k.val + 1 < 32 then
      ({ found with library := { found.library with operation := .verifyAll ⟨k.val + 1, h⟩ } }, [])
    else found.lookAtStartScene
  | _ => (e, [])

/-- R108: a warm reset ends a recall or start load: at once in the verify phase; in the load phase once the item whose
fetch is in progress is written. The OP_DONE raised is lost to the reset of the notice units. -/
def Engine.endRecallAtReset (e : Engine) : Engine :=
  match e.library.operation with
  | .recall j =>
    match j.phase with
    | .verify => (e.endOperation .aborted).1
    | .load awaiting inputs _ =>
      match nextMix awaiting with
      | some m => (e.loadMix j awaiting inputs true m).1
      | none => if inputs then (e.loadInputs j true).1 else (e.endOperation .aborted).1
  | _ => e

/-- R93, R101, R109: power loss cuts a store or an erase short: its slot is left neither erased nor in agreement. -/
def Engine.cutShort (cutName : SceneName) (e : Engine) : Engine :=
  match e.library.operation with
  | .store k _ _ => e.modifySlot k fun x => { x with image := .broken cutName }
  | .erase k => e.modifySlot k fun x => { x with image := .broken cutName }
  | _ => e

/-! ### Meanings -/

/-- R101: STORE_WRITE_END. -/
def execStoreWriteEnd (s : State) : Host.Outcome State Fault Refusal := s.act Engine.storeWriteEnd

/-- R103: RECALL_VERIFY_END. -/
def execRecallVerifyEnd (degraded : Option SceneName) (s : State) : Host.Outcome State Fault Refusal :=
  s.act (Engine.recallVerifyEnd degraded)

/-- R104: MIX_LOAD. -/
def execMixLoad (s : State) : Host.Outcome State Fault Refusal := s.act Engine.mixLoad

/-- R104: INPUT_SECTION_LOAD. -/
def execInputSectionLoad (s : State) : Host.Outcome State Fault Refusal := s.act Engine.inputSectionLoad

/-- R109: ERASE_END. -/
def execEraseEnd (s : State) : Host.Outcome State Fault Refusal := s.act Engine.eraseEnd

/-- R97: VERIFY_SLOT_DONE. -/
def execVerifySlotDone (degraded : Option SceneName) (s : State) : Host.Outcome State Fault Refusal :=
  s.act (Engine.verifySlotDone degraded)

end Sys2Proof.Machine
end

