-- ==== Sys2Proof/Machine/Resets.lean ====
section
/-! DEFINITION. The three kinds of reset, and the loss of power: port reset (R153, R166), warm reset (R167, R168 and
the reset table of every chapter), and cold reset at power-up (R44 and the same tables). -/
namespace Sys2Proof.Machine

/-! ### Port reset (R166) -/

/-- R159, R166: whether a frame is the reply of the request in service. -/
def Frame.isService : Frame → Bool
  | .service _ => true
  | _ => false

/-- R166: the values a port takes at its port reset; a request in service keeps its reply. -/
def PortState.portReset (x : PortState) : PortState :=
  { receiver := .inBreak, queue := [], service := x.service, wait := none, lost := false, garbled := false,
    line := x.line, unseen := x.unseen, ready := x.ready.filter Frame.isService, unit := NoticeUnit.reset }

/-- R43, R166: the talk set of a port is emptied, and the mixes that stop talking are recomputed. -/
def Engine.dropTalk (p : Port) (e : Engine) : Engine :=
  (e.setTalkSet p 0#24).recompute (reachTalking e (e.setTalkSet p 0#24) false)

/-- R153, R166: LINE_BREAK. A break that has already made its port reset makes no other. -/
def execLineBreak (p : Port) (s : State) : Host.Outcome State Fault Refusal :=
  if s.engine.powered then
    match (s.port p).receiver with
    | .inBreak => .next s
    | _ =>
      .next (((s.setPort p (s.port p).portReset).setEngine (s.engine.dropTalk p)).conclude s.engine [] p [])
  else .next s

/-! ### Warm reset (R167) -/

/-- R19: the selector at a warm reset. -/
def Selector.warmReset (x : Selector) : Selector :=
  { x with missRun := 0, concealCount := 0, primaryTime := 0, lastUsed := Delivered.zero, delivered := Delivered.zero }

/-- R77, R89: latches, meters and guard gain at a warm reset. -/
def MixRun.warmReset (x : MixRun) : MixRun :=
  { x with clip := false, near := false, guard := false, gain := 16384, meterLeft := 0, meterRight := 0 }

/-- R134, R150: a pack slot at a warm reset. -/
def PackSlot.warmReset (x : PackSlot) : PackSlot :=
  { x with
    state := if x.state = .online then .lost else x.state
    missRun := 0, target := 0, silence := false, held := none }

/-- R134, R135, R138, R150: the pack bus and the key handler at a warm reset. -/
def PackBus.warmReset (b : PackBus) : PackBus :=
  { b with
    slots := Vector.ofFn fun a => (b.slots[a]).warmReset
    sweep := .idle, sweepCounter := 0, pointer := 31, pendingMarks := 0#32, messages := [], keyEvents := [],
    calls := [] }

/-- The blocks at a warm reset: a recall ends first (R108), then every block takes its warm reset values, and every
target is recomputed from the tables as they stand (R44, R58). A reset taken before the frame instant that it arrived
together with lets no input meter rise at that instant (R78, log 26). -/
def Engine.warmReset (together : Bool) (e : Engine) : Engine :=
  let ended := e.endRecallAtReset
  Engine.restartRamps
    { ended with
      selector := ended.selector.warmReset
      talkHome := 0#24
      talkGuest := 0#24
      runs := Vector.ofFn fun m => (ended.runs[m]).warmReset
      inputMeters := Vector.replicate 64 0
      metersRest := together
      packs := ended.packs.warmReset
      charge := .home }

/-- R167: the frame on a line at a warm reset is sent whole. The one exception is that of R78 and R90: a CLIP or GUARD
of the frame instant that the reset arrived together with is not seen by any console (log 26). -/
def PortState.keptLine (x : PortState) : Option Frame := if x.unseen then none else x.line

/-- R167, R168: a request stays in service only while its reply is on the line. -/
def PortState.keptService (x : PortState) : Option Request :=
  match x.keptLine with
  | some (.service _) => x.service
  | _ => none

/-- R167, R168: a port at a warm reset; the frame on the line is sent whole. -/
def PortState.warmReset (x : PortState) : PortState :=
  { receiver := .hunting, queue := [], service := x.keptService, wait := none, lost := false, garbled := false,
    line := x.keptLine, unseen := false, ready := [], unit := NoticeUnit.reset }

/-- R78: whether the command that waits right behind this one is a frame instant. -/
def State.instantFollows (s : State) : Bool :=
  match s.pending with
  | .frameInstant :: _ => true
  | _ => false

/-- R167: the warm reset of the whole engine. Whether a frame instant that waits right behind it arrived together with
it is free (R78, log 26). -/
def State.warmReset (s : State) : State :=
  { s with
    engine := s.engine.warmReset (s.instantFollows && Config.together s.draws)
    home := s.home.warmReset
    guest := s.guest.warmReset
    draws := s.draws + 1 }

/-- R167: WARM_RESET, a pulse on the reset pin. -/
def execWarmReset (s : State) : Host.Outcome State Fault Refusal :=
  if s.engine.powered then .next s.warmReset else .next s

/-! ### Power (R44, R93, R167) -/

/-- R7: a receiver after a cold reset; a line that carries a signal is treated as though it had just appeared. -/
def Receiver.coldReset (r : Receiver) : Receiver :=
  { Receiver.reset with signal := r.signal, state := if r.signal then .seeking else .down }

/-- R114: what the nonvolatile memory of a slot keeps through power loss; the state is found anew. -/
def SceneSlot.coldReset (x : SceneSlot) : SceneSlot := { x with state := .unchecked }

/-- R114: the library after a cold reset, verify-all begun. -/
def Library.coldReset (l : Library) : Library :=
  { slots := Vector.ofFn fun k => (l.slots[k]).coldReset, startScene := l.startScene, operation := .verifyAll 0,
    result := ResultRec.reset }

/-- The blocks after a cold reset: the values of State.reset, the lines and the nonvolatile memory as they are. -/
def Engine.coldReset (e : Engine) : Engine :=
  { Engine.reset with
    linkA := e.linkA.coldReset, linkB := e.linkB.coldReset, library := e.library.coldReset }

/-- R44: POWER_UP makes a cold reset; power that is already applied cannot be applied (log 2). -/
def execPowerUp (s : State) : Host.Outcome State Fault Refusal :=
  if s.engine.powered then .next s
  else
    .next
      { s with
        engine := s.engine.coldReset, home := PortState.coldReset, guest := PortState.coldReset }

/-- R93: POWER_LOSS. What is volatile is lost: nothing reads it before the next cold reset sets it (log 18). -/
def execPowerLoss (cutName : SceneName) (s : State) : Host.Outcome State Fault Refusal :=
  if s.engine.powered then .next (s.setEngine { s.engine.cutShort cutName with powered := false })
  else .next s

end Sys2Proof.Machine
end

