-- ==== Sys2Proof/WellFormed.lean ====
section
/-! DEFINITION. Which commands are well formed: the sizes a request body can have on the line (9.1, R152), a code
that UNKNOWN_REQUEST may carry (R157, 11.4), a code that the key table does not list (R137), and an announce window
whose signal carries at least one byte (R125). -/
namespace Sys2Proof

/-- A request body as the receiver keeps it: at most 16 parameter bytes and at most 512 data bytes (9.1). -/
def Payload.wellFormed (q : Payload) : Bool :=
  decide (q.params.length ≤ 16) && decide (q.data.length ≤ 512)

/-- The request codes of the table 11.4. -/
def knownCodes : List Byte :=
  [0x01, 0x02, 0x03, 0x04, 0x05, 0x10, 0x11, 0x12, 0x13, 0x14, 0x15] ++
  [0x20, 0x21, 0x22, 0x23, 0x24, 0x25, 0x26, 0x27, 0x28, 0x29, 0x2A, 0x2B] ++
  [0x30, 0x31, 0x32, 0x33, 0x38, 0x39] ++
  [0x40, 0x41, 0x42, 0x43, 0x44, 0x45, 0x46, 0x47] ++
  [0x50, 0x51, 0x52, 0x53]

/-- The key codes that the table of R137 lists. -/
def listedKeyCodes : List Byte :=
  [0x01, 0x02, 0x03, 0x04, 0x05, 0x06, 0x81, 0x82, 0x83, 0x84, 0x85, 0x86, 0xFF]

/-- A well-formed command. -/
def Instr.wellFormed : Instr → Bool
  | .signalAppears _ | .signalLost _ | .frameArrival _ _ | .frameInstant | .packBusFrame => true
  | .setSourceMode _ q | .readLinkStatus _ q | .setSend _ q | .setSendRow _ q | .readSendRow _ q => q.wellFormed
  | .setMix _ q | .readMix _ q | .setGroup _ q | .readGroup _ q | .setLinkSet _ q | .setInput _ q => q.wellFormed
  | .readInputs _ q | .setTalkSource _ q | .talk _ q | .readEffective _ q | .readMeters _ q => q.wellFormed
  | .clearLatches _ q | .readLatches _ q | .storeScene _ q | .recallScene _ q => q.wellFormed
  | .storeWriteEnd | .recallVerifyEnd _ | .mixLoad | .inputSectionLoad | .eraseEnd | .verifySlotDone _ => true
  | .abortRecall _ q | .eraseScene _ q | .protectScene _ q | .setStartScene _ q => q.wellFormed
  | .readDirectory _ q | .readResult _ q => q.wellFormed
  | .sweepStart | .pollPhase _ | .readPhase | .keyReportRead _ _ | .downstreamPart => true
  | .announceWindow _ r => decide (r ≠ .bytes [])
  | .assignPack _ q | .releasePack _ q | .readPackTable _ q => q.wellFormed
  | .makeOfUp _ | .makeOfDown _ | .makeOfNext _ | .makeOfPrev _ | .makeOfCall _ | .makeOfSilence _ => true
  | .breakOfUp _ | .breakOfDown _ | .breakOfMakeOnlyKey _ _ | .overflowMarker _ => true
  | .ignoredKeyCode _ c => !listedKeyCodes.contains c
  | .heldKeyExpiry _ => true
  | .readCalls _ q => q.wellFormed
  | .receiveByte _ _ _ | .interbyteSilenceTimeout _ | .lineBreak _ | .lineIdle _ | .transmitFrameEnd _ => true
  | .unknownRequest _ c q => !knownCodes.contains c && q.wellFormed
  | .identify _ q | .portStatus _ q | .passCharge _ q | .reclaimCharge _ q | .resetEngine _ q => q.wellFormed
  | .warmReset | .powerUp | .powerLoss _ => true
  | .setNoticeMask _ q | .readNoticeMask _ q | .readReasons _ q | .readStates _ q => q.wellFormed
  | .wait _ q | .cancelWait _ q => q.wellFormed
  | .waitTimeout _ => true

end Sys2Proof
end

