-- ==== Sys2Proof/Machine/Requests.lean ====
section
/-! DEFINITION. The control ports (chapter 9): the request codes and classes (11.4), the status checks (R157), taking
a request from the queue and answering it (R155, R158), the requests of chapter 9, and the meaning of every request
command. A request command is a kept frame completed at a port whose receiver was between frames (log 3). -/
namespace Sys2Proof.Machine

/-! ### Codes and classes (9.5, 11.4) -/

/-- The requests the engine knows (11.4). -/
inductive RequestName where
  | identify
  | portStatus
  | passCharge
  | reclaimCharge
  | resetEngine
  | setNoticeMask
  | readNoticeMask
  | readReasons
  | readStates
  | wait
  | cancelWait
  | setSend
  | setSendRow
  | readSendRow
  | setMix
  | readMix
  | setGroup
  | readGroup
  | setLinkSet
  | setInput
  | readInputs
  | setTalkSource
  | talk
  | readMeters
  | clearLatches
  | readLatches
  | readEffective
  | setSourceMode
  | readLinkStatus
  | storeScene
  | recallScene
  | abortRecall
  | eraseScene
  | protectScene
  | setStartScene
  | readDirectory
  | readResult
  | assignPack
  | releasePack
  | readPackTable
  | readCalls
  deriving DecidableEq, Repr

/-- 11.4: the code of a request. -/
def RequestName.code : RequestName → Byte
  | .identify => 0x01
  | .portStatus => 0x02
  | .passCharge => 0x03
  | .reclaimCharge => 0x04
  | .resetEngine => 0x05
  | .setNoticeMask => 0x10
  | .readNoticeMask => 0x11
  | .readReasons => 0x12
  | .readStates => 0x13
  | .wait => 0x14
  | .cancelWait => 0x15
  | .setSend => 0x20
  | .setSendRow => 0x21
  | .readSendRow => 0x22
  | .setMix => 0x23
  | .readMix => 0x24
  | .setGroup => 0x25
  | .readGroup => 0x26
  | .setLinkSet => 0x27
  | .setInput => 0x28
  | .readInputs => 0x29
  | .setTalkSource => 0x2A
  | .talk => 0x2B
  | .readMeters => 0x30
  | .clearLatches => 0x31
  | .readLatches => 0x32
  | .readEffective => 0x33
  | .setSourceMode => 0x38
  | .readLinkStatus => 0x39
  | .storeScene => 0x40
  | .recallScene => 0x41
  | .abortRecall => 0x42
  | .eraseScene => 0x43
  | .protectScene => 0x44
  | .setStartScene => 0x45
  | .readDirectory => 0x46
  | .readResult => 0x47
  | .assignPack => 0x50
  | .releasePack => 0x51
  | .readPackTable => 0x52
  | .readCalls => 0x53

/-- All the requests of 11.4. -/
def RequestName.all : List RequestName :=
  [.identify, .portStatus, .passCharge, .reclaimCharge, .resetEngine, .setNoticeMask, .readNoticeMask, .readReasons] ++
  [.readStates, .wait, .cancelWait, .setSend, .setSendRow, .readSendRow, .setMix, .readMix, .setGroup, .readGroup] ++
  [.setLinkSet, .setInput, .readInputs, .setTalkSource, .talk, .readMeters, .clearLatches, .readLatches] ++
  [.readEffective, .setSourceMode, .readLinkStatus, .storeScene, .recallScene, .abortRecall, .eraseScene] ++
  [.protectScene, .setStartScene, .readDirectory, .readResult, .assignPack, .releasePack, .readPackTable, .readCalls]

/-- R157: the request that a code names, none for a code the engine does not know. -/
def requestOfCode (code : Byte) : Option RequestName := RequestName.all.find? fun r => decide (r.code = code)

/-- 9.5: the classes of requests. -/
inductive RequestClass where
  | openTo
  | charge
  | home
  deriving DecidableEq, Repr

/-- 11.4: the class of a request. -/
def RequestName.cls : RequestName → RequestClass
  | .passCharge | .setSend | .setSendRow | .setMix | .setGroup | .setLinkSet | .setInput | .setTalkSource => .charge
  | .setSourceMode | .storeScene | .recallScene | .abortRecall | .eraseScene | .assignPack | .releasePack => .charge
  | .reclaimCharge | .resetEngine | .protectScene | .setStartScene => .home
  | .identify | .portStatus | .setNoticeMask | .readNoticeMask | .readReasons | .readStates | .wait => .openTo
  | .cancelWait | .readSendRow | .readMix | .readGroup | .readInputs | .talk | .readMeters => .openTo
  | .clearLatches | .readLatches | .readEffective | .readLinkStatus | .readDirectory | .readResult => .openTo
  | .readPackTable | .readCalls => .openTo

/-- R160: the refusal that the class check gives, none when the class allows the port. -/
def classRefusal (cls : RequestClass) (p : Port) (charge : Port) : Option Status :=
  match cls with
  | .openTo => none
  | .charge => if charge = p then none else some .notInCharge
  | .home => if p = .home then none else some .homeOnly

/-! ### The requests of chapter 9 (R162 to R167) -/

/-- R164: IDENTIFY. -/
def effectIdentify (p : Port) (e : Engine) : Effect :=
  Effect.read e
    (bytes16 0x0C51 ++ bytes16 0x2464 ++
      [byteOf 1, byteOf 64, byteOf 24, byteOf 32, byteOf 32, byteOf 8, byteOf 8, byteOf p.number, byteOf 0])

/-- R165: PORT STATUS. -/
def answerPortStatus (echo : Byte) (e : Engine) (x : PortState) : Answer :=
  portAnswer e x echo .ok [byteOf e.charge.number, byteOf x.queue.length, flagByte x.wait.isSome]

/-- R161: the charge moves to a port; staying there is no change. -/
def Engine.moveCharge (p : Port) (e : Engine) : Act :=
  if e.charge = p then (e, []) else ({ e with charge := p }, [.charge])

/-- R162, R163: a request that moves the charge. -/
def effectMoveCharge (target : Port) (e : Engine) : Effect :=
  { engine := (e.moveCharge target).1, status := .ok, clamped := false, data := [], events := (e.moveCharge target).2 }

/-- R162: PASS CHARGE, taken on the port that holds charge. -/
def effectPassCharge (p : Port) (e : Engine) : Effect := effectMoveCharge p.other e

/-- R163: RECLAIM CHARGE. -/
def effectReclaimCharge (e : Engine) : Effect := effectMoveCharge .home e

/-- R167: RESET ENGINE answers OK; its warm reset follows when that reply has left the line. -/
def effectResetEngine (e : Engine) : Effect := Effect.accept e false

/-! ### Applying a request (R156 to R158) -/

/-- What an accepted class hands to the owning block, and what the block answers. -/
def answerRequest (name : RequestName) (p : Port) (q : Payload) (e : Engine) (x : PortState) : Answer :=
  match name with
  | .identify => (effectIdentify p e).answer name.code x
  | .portStatus => answerPortStatus name.code e x
  | .passCharge => (effectPassCharge p e).answer name.code x
  | .reclaimCharge => (effectReclaimCharge e).answer name.code x
  | .resetEngine => (effectResetEngine e).answer name.code x
  | .setNoticeMask => answerSetNoticeMask q name.code e x
  | .readNoticeMask => answerReadNoticeMask name.code e x
  | .readReasons => answerReadReasons p name.code e x
  | .readStates => answerReadStates p name.code e x
  | .wait => answerWait p q name.code e x
  | .cancelWait => answerCancelWait name.code e x
  | .setSend => (effectSetSend q e).answer name.code x
  | .setSendRow => (effectSetSendRow q e).answer name.code x
  | .readSendRow => (effectReadSendRow q e).answer name.code x
  | .setMix => (effectSetMix q e).answer name.code x
  | .readMix => (effectReadMix q e).answer name.code x
  | .setGroup => (effectSetGroup q e).answer name.code x
  | .readGroup => (effectReadGroup q e).answer name.code x
  | .setLinkSet => (effectSetLinkSet q e).answer name.code x
  | .setInput => (effectSetInput q e).answer name.code x
  | .readInputs => (effectReadInputs e).answer name.code x
  | .setTalkSource => (effectSetTalkSource q e).answer name.code x
  | .talk => (effectTalk p q e).answer name.code x
  | .readMeters => (effectReadMeters q e).answer name.code x
  | .clearLatches => (effectClearLatches q e).answer name.code x
  | .readLatches => (effectReadLatches e).answer name.code x
  | .readEffective => (effectReadEffective q e).answer name.code x
  | .setSourceMode => (effectSetSourceMode q e).answer name.code x
  | .readLinkStatus => (effectReadLinkStatus e).answer name.code x
  | .storeScene => (effectStoreScene q e).answer name.code x
  | .recallScene => (effectRecallScene q e).answer name.code x
  | .abortRecall => (effectAbortRecall e).answer name.code x
  | .eraseScene => (effectEraseScene q e).answer name.code x
  | .protectScene => (effectProtectScene q e).answer name.code x
  | .setStartScene => (effectSetStartScene q e).answer name.code x
  | .readDirectory => (effectReadDirectory q e).answer name.code x
  | .readResult => (effectReadResult e).answer name.code x
  | .assignPack => (effectAssignPack q e).answer name.code x
  | .releasePack => (effectReleasePack q e).answer name.code x
  | .readPackTable => (effectReadPackTable e).answer name.code x
  | .readCalls => (effectReadCalls e).answer name.code x

/-- R157: the status checks in their order: the code, the class, then the request's own. -/
def answerOf (r : Request) (p : Port) (e : Engine) (x : PortState) : Answer :=
  match requestOfCode r.code with
  | none => portAnswer e x r.code .unknownRequest []
  | some name =>
    match classRefusal name.cls p e.charge with
    | some status => portAnswer e x r.code status []
    | none => answerRequest name p r.payload e x

/-- R155, R157, R158: a request taken from the queue is put in service, checked, applied and answered, all at one
instant. -/
def State.applyRequest (s : State) (p : Port) (r : Request) : State :=
  let a := answerOf r p s.engine { s.port p with service := some r }
  ((s.setEngine a.engine).setPort p a.port).conclude s.engine a.events p a.own

/-- R155: the port takes the oldest request when none is in service. -/
def State.takeOne (s : State) (p : Port) : State :=
  match (s.port p).service, (s.port p).queue with
  | none, r :: rest => (s.setPort p { s.port p with queue := rest }).applyRequest p r
  | _, _ => s

/-- R155: the port takes requests until one is in service or the queue is empty; a parked WAIT leaves service at once,
so more than one may be taken. -/
def State.serve (p : Port) : Nat → State → State
  | 0, s => s
  | k + 1, s => State.serve p k (s.takeOne p)

/-- R155: the port serves its queue as far as it can. -/
def State.serveQueue (s : State) (p : Port) : State := State.serve p (s.port p).queue.length s

/-- R154, R155: a kept frame joins the queue, or is discarded with LOST when the queue holds 4; an idle port takes it
at the instant it joins. -/
def State.offerRequest (s : State) (p : Port) (r : Request) : State :=
  if (s.port p).queue.length < 4 then
    (s.setPort p { s.port p with queue := (s.port p).queue ++ [r] }).serveQueue p
  else s.setPort p { s.port p with lost := true }

/-- A request command: its kept frame is completed at the port. In BREAK the receiver receives nothing, and inside
another frame no frame can be completed (R151, R153, log 3). -/
def State.request (s : State) (p : Port) (code : Byte) (q : Payload) : Host.Outcome State Fault Refusal :=
  match s.engine.powered, (s.port p).receiver with
  | true, .hunting => .next (s.offerRequest p { code := code, payload := q })
  | _, _ => .next s

/-! ### Meanings of the request commands -/

/-- R16: SET_SOURCE_MODE. -/
def execSetSourceMode (p : Port) (q : Payload) (s : State) : Host.Outcome State Fault Refusal :=
  s.request p RequestName.setSourceMode.code q

/-- R17: READ_LINK_STATUS. -/
def execReadLinkStatus (p : Port) (q : Payload) (s : State) : Host.Outcome State Fault Refusal :=
  s.request p RequestName.readLinkStatus.code q

/-- R30: SET_SEND. -/
def execSetSend (p : Port) (q : Payload) (s : State) : Host.Outcome State Fault Refusal :=
  s.request p RequestName.setSend.code q

/-- R32: SET_SEND_ROW. -/
def execSetSendRow (p : Port) (q : Payload) (s : State) : Host.Outcome State Fault Refusal :=
  s.request p RequestName.setSendRow.code q

/-- R33: READ_SEND_ROW. -/
def execReadSendRow (p : Port) (q : Payload) (s : State) : Host.Outcome State Fault Refusal :=
  s.request p RequestName.readSendRow.code q

/-- R34: SET_MIX. -/
def execSetMix (p : Port) (q : Payload) (s : State) : Host.Outcome State Fault Refusal :=
  s.request p RequestName.setMix.code q

/-- R35: READ_MIX. -/
def execReadMix (p : Port) (q : Payload) (s : State) : Host.Outcome State Fault Refusal :=
  s.request p RequestName.readMix.code q

/-- R37: SET_GROUP. -/
def execSetGroup (p : Port) (q : Payload) (s : State) : Host.Outcome State Fault Refusal :=
  s.request p RequestName.setGroup.code q

/-- R38: READ_GROUP. -/
def execReadGroup (p : Port) (q : Payload) (s : State) : Host.Outcome State Fault Refusal :=
  s.request p RequestName.readGroup.code q

/-- R36: SET_LINK_SET. -/
def execSetLinkSet (p : Port) (q : Payload) (s : State) : Host.Outcome State Fault Refusal :=
  s.request p RequestName.setLinkSet.code q

/-- R39: SET_INPUT. -/
def execSetInput (p : Port) (q : Payload) (s : State) : Host.Outcome State Fault Refusal :=
  s.request p RequestName.setInput.code q

/-- R40: READ_INPUTS. -/
def execReadInputs (p : Port) (q : Payload) (s : State) : Host.Outcome State Fault Refusal :=
  s.request p RequestName.readInputs.code q

/-- R41: SET_TALK_SOURCE. -/
def execSetTalkSource (p : Port) (q : Payload) (s : State) : Host.Outcome State Fault Refusal :=
  s.request p RequestName.setTalkSource.code q

/-- R42: TALK. -/
def execTalk (p : Port) (q : Payload) (s : State) : Host.Outcome State Fault Refusal :=
  s.request p RequestName.talk.code q

/-- R60: READ_EFFECTIVE. -/
def execReadEffective (p : Port) (q : Payload) (s : State) : Host.Outcome State Fault Refusal :=
  s.request p RequestName.readEffective.code q

/-- R73: READ_METERS. -/
def execReadMeters (p : Port) (q : Payload) (s : State) : Host.Outcome State Fault Refusal :=
  s.request p RequestName.readMeters.code q

/-- R74: CLEAR_LATCHES. -/
def execClearLatches (p : Port) (q : Payload) (s : State) : Host.Outcome State Fault Refusal :=
  s.request p RequestName.clearLatches.code q

/-- R76: READ_LATCHES. -/
def execReadLatches (p : Port) (q : Payload) (s : State) : Host.Outcome State Fault Refusal :=
  s.request p RequestName.readLatches.code q

/-- R100: STORE_SCENE. -/
def execStoreScene (p : Port) (q : Payload) (s : State) : Host.Outcome State Fault Refusal :=
  s.request p RequestName.storeScene.code q

/-- R102: RECALL_SCENE. -/
def execRecallScene (p : Port) (q : Payload) (s : State) : Host.Outcome State Fault Refusal :=
  s.request p RequestName.recallScene.code q

/-- R107: ABORT_RECALL. -/
def execAbortRecall (p : Port) (q : Payload) (s : State) : Host.Outcome State Fault Refusal :=
  s.request p RequestName.abortRecall.code q

/-- R109: ERASE_SCENE. -/
def execEraseScene (p : Port) (q : Payload) (s : State) : Host.Outcome State Fault Refusal :=
  s.request p RequestName.eraseScene.code q

/-- R110: PROTECT_SCENE. -/
def execProtectScene (p : Port) (q : Payload) (s : State) : Host.Outcome State Fault Refusal :=
  s.request p RequestName.protectScene.code q

/-- R111: SET_START_SCENE. -/
def execSetStartScene (p : Port) (q : Payload) (s : State) : Host.Outcome State Fault Refusal :=
  s.request p RequestName.setStartScene.code q

/-- R112: READ_DIRECTORY. -/
def execReadDirectory (p : Port) (q : Payload) (s : State) : Host.Outcome State Fault Refusal :=
  s.request p RequestName.readDirectory.code q

/-- R113: READ_RESULT. -/
def execReadResult (p : Port) (q : Payload) (s : State) : Host.Outcome State Fault Refusal :=
  s.request p RequestName.readResult.code q

/-- R130: ASSIGN_PACK. -/
def execAssignPack (p : Port) (q : Payload) (s : State) : Host.Outcome State Fault Refusal :=
  s.request p RequestName.assignPack.code q

/-- R131: RELEASE_PACK. -/
def execReleasePack (p : Port) (q : Payload) (s : State) : Host.Outcome State Fault Refusal :=
  s.request p RequestName.releasePack.code q

/-- R132: READ_PACK_TABLE. -/
def execReadPackTable (p : Port) (q : Payload) (s : State) : Host.Outcome State Fault Refusal :=
  s.request p RequestName.readPackTable.code q

/-- R148: READ_CALLS. -/
def execReadCalls (p : Port) (q : Payload) (s : State) : Host.Outcome State Fault Refusal :=
  s.request p RequestName.readCalls.code q

/-- R157: UNKNOWN_REQUEST. -/
def execUnknownRequest (p : Port) (code : Byte) (q : Payload) (s : State) : Host.Outcome State Fault Refusal :=
  s.request p code q

/-- R164: IDENTIFY. -/
def execIdentify (p : Port) (q : Payload) (s : State) : Host.Outcome State Fault Refusal :=
  s.request p RequestName.identify.code q

/-- R165: PORT_STATUS. -/
def execPortStatus (p : Port) (q : Payload) (s : State) : Host.Outcome State Fault Refusal :=
  s.request p RequestName.portStatus.code q

/-- R162: PASS_CHARGE. -/
def execPassCharge (p : Port) (q : Payload) (s : State) : Host.Outcome State Fault Refusal :=
  s.request p RequestName.passCharge.code q

/-- R163: RECLAIM_CHARGE. -/
def execReclaimCharge (p : Port) (q : Payload) (s : State) : Host.Outcome State Fault Refusal :=
  s.request p RequestName.reclaimCharge.code q

/-- R167: RESET_ENGINE. -/
def execResetEngine (p : Port) (q : Payload) (s : State) : Host.Outcome State Fault Refusal :=
  s.request p RequestName.resetEngine.code q

/-- R172: SET_NOTICE_MASK. -/
def execSetNoticeMask (p : Port) (q : Payload) (s : State) : Host.Outcome State Fault Refusal :=
  s.request p RequestName.setNoticeMask.code q

/-- R172: READ_NOTICE_MASK. -/
def execReadNoticeMask (p : Port) (q : Payload) (s : State) : Host.Outcome State Fault Refusal :=
  s.request p RequestName.readNoticeMask.code q

/-- R173: READ_REASONS. -/
def execReadReasons (p : Port) (q : Payload) (s : State) : Host.Outcome State Fault Refusal :=
  s.request p RequestName.readReasons.code q

/-- R173: READ_STATES. -/
def execReadStates (p : Port) (q : Payload) (s : State) : Host.Outcome State Fault Refusal :=
  s.request p RequestName.readStates.code q

/-- R174: WAIT. -/
def execWait (p : Port) (q : Payload) (s : State) : Host.Outcome State Fault Refusal :=
  s.request p RequestName.wait.code q

/-- R176: CANCEL_WAIT. -/
def execCancelWait (p : Port) (q : Payload) (s : State) : Host.Outcome State Fault Refusal :=
  s.request p RequestName.cancelWait.code q

end Sys2Proof.Machine
end

