-- ==== Sys2Proof/Machine/Ports.lean ====
section
/-! DEFINITION. The lines of the control ports (chapter 9): receiving bytes, framing tests and discards (R151 to R153),
and the transmitter (R159). -/
namespace Sys2Proof.Machine

/-! ### Gathering a frame (R151, R152) -/

/-- R152: the body length once both of its bytes are gathered. -/
def bodyLength (got : List Byte) : Nat := numberOf ((got.drop 1).take 2)

/-- R152: the parameter length byte of a body. -/
def parameterLength (got : List Byte) : Nat := numberOf ((got.drop 4).take 1)

/-- R152: whether the byte just gathered reveals a frame to be discarded. The bytes are those after the start byte:
the type, two bytes of body length, the body and the check. -/
def revealsDiscard (got : List Byte) : Bool :=
  match got.length with
  | 1 => decide (numberOf got ≠ 1)
  | 2 => decide (530 < numberOf (got.drop 1) * 256)
  | 3 => decide (bodyLength got < 2) || decide (530 < bodyLength got)
  | 5 =>
    decide (16 < parameterLength got) || decide (bodyLength got < parameterLength got + 2) ||
      decide (512 < bodyLength got - 2 - parameterLength got)
  | _ => false

/-- R151: whether the second check byte has arrived. -/
def frameComplete (got : List Byte) : Bool :=
  decide (3 ≤ got.length) && decide (got.length = bodyLength got + 5)

/-- R152: whether the check equals the CRC over the type, the body length and the body. -/
def checkMatches (got : List Byte) : Bool :=
  decide ((crc16 (got.take (bodyLength got + 3))).toNat = numberOf (got.drop (bodyLength got + 3)))

/-- 9.1, 11.2: the request that a kept frame carries. -/
def requestOfFrame (got : List Byte) : Request :=
  let body := (got.drop 3).take (bodyLength got)
  { code := body.headD 0#8
    payload :=
      { params := (body.drop 2).take (parameterLength got), data := body.drop (2 + parameterLength got) } }

/-- R152: a frame is discarded and GARBLED is set; the receiver returns to HUNTING. -/
def PortState.discard (x : PortState) : PortState := { x with receiver := .hunting, garbled := true }

/-- The start byte (9.1). -/
def startByte : Byte := 0xA5

/-- R151, R152: a byte in RECEIVING. -/
def State.gather (s : State) (p : Port) (got : List Byte) : State :=
  if revealsDiscard got then s.setPort p (s.port p).discard
  else if frameComplete got then
    if checkMatches got then
      (s.setPort p { s.port p with receiver := .hunting }).offerRequest p (requestOfFrame got)
    else s.setPort p (s.port p).discard
  else s.setPort p { s.port p with receiver := .receiving got }

/-- R151: RECEIVE_BYTE. -/
def execReceiveByte (p : Port) (byte : Byte) (framingError : Bool) (s : State) : Host.Outcome State Fault Refusal :=
  if s.engine.powered then
    match (s.port p).receiver with
    | .hunting =>
      if !framingError && decide (byte = startByte) then
        .next (s.setPort p { s.port p with receiver := .receiving [] })
      else .next s
    | .receiving got =>
      if framingError then .next (s.setPort p (s.port p).discard) else .next (s.gather p (got ++ [byte]))
    | .inBreak => .next s
  else .next s

/-- R152: INTERBYTE_SILENCE_TIMEOUT. -/
def execInterbyteSilenceTimeout (p : Port) (s : State) : Host.Outcome State Fault Refusal :=
  if s.engine.powered then
    match (s.port p).receiver with
    | .receiving _ => .next (s.setPort p (s.port p).discard)
    | _ => .next s
  else .next s

/-- R153: LINE_IDLE. -/
def execLineIdle (p : Port) (s : State) : Host.Outcome State Fault Refusal :=
  if s.engine.powered then
    match (s.port p).receiver with
    | .inBreak => .next (s.setPort p { s.port p with receiver := .hunting })
    | _ => .next s
  else .next s

/-! ### The transmitter (R155, R159, R167) -/

/-- R159: the frame on the line has left it, and the next ready frame begins. -/
def PortState.lineEnds (x : PortState) : PortState := { x with line := none, unseen := false }.kick

/-- R155, R159, R167: TRANSMIT_FRAME_END. When the reply of the request in service has been sent the port takes the
next request; when it was that of RESET ENGINE the warm reset takes effect. -/
def execTransmitFrameEnd (p : Port) (s : State) : Host.Outcome State Fault Refusal :=
  if s.engine.powered then
    match (s.port p).line with
    | none => .next s
    | some (.service r) =>
      if r.resetsEngine then .next (State.warmReset (s.setPort p { s.port p with line := none, service := none }))
      else .next ((s.setPort p { (s.port p).lineEnds with service := none }).serveQueue p)
    | some _ => .next (s.setPort p (s.port p).lineEnds)
  else .next s

end Sys2Proof.Machine
end

