-- ==== Sys2Proof/Machine/Dispatch.lean ====
section
/-! DEFINITION. The meaning of every command: one arm per row of spec/opcode_table.json. -/
namespace Sys2Proof.Machine

/-- The effect of a command on everything but the queue. -/
def exec (i : Instr) (s : State) : Host.Outcome State Fault Refusal :=
  match i with
  | .signalAppears l => Sys2Proof.Machine.execSignalAppears l s
  | .signalLost l => Sys2Proof.Machine.execSignalLost l s
  | .frameArrival l frame => Sys2Proof.Machine.execFrameArrival l frame s
  | .frameInstant => Sys2Proof.Machine.execFrameInstant s
  | .packBusFrame => Sys2Proof.Machine.execPackBusFrame s
  | .setSourceMode p q => Sys2Proof.Machine.execSetSourceMode p q s
  | .readLinkStatus p q => Sys2Proof.Machine.execReadLinkStatus p q s
  | .setSend p q => Sys2Proof.Machine.execSetSend p q s
  | .setSendRow p q => Sys2Proof.Machine.execSetSendRow p q s
  | .readSendRow p q => Sys2Proof.Machine.execReadSendRow p q s
  | .setMix p q => Sys2Proof.Machine.execSetMix p q s
  | .readMix p q => Sys2Proof.Machine.execReadMix p q s
  | .setGroup p q => Sys2Proof.Machine.execSetGroup p q s
  | .readGroup p q => Sys2Proof.Machine.execReadGroup p q s
  | .setLinkSet p q => Sys2Proof.Machine.execSetLinkSet p q s
  | .setInput p q => Sys2Proof.Machine.execSetInput p q s
  | .readInputs p q => Sys2Proof.Machine.execReadInputs p q s
  | .setTalkSource p q => Sys2Proof.Machine.execSetTalkSource p q s
  | .talk p q => Sys2Proof.Machine.execTalk p q s
  | .readEffective p q => Sys2Proof.Machine.execReadEffective p q s
  | .readMeters p q => Sys2Proof.Machine.execReadMeters p q s
  | .clearLatches p q => Sys2Proof.Machine.execClearLatches p q s
  | .readLatches p q => Sys2Proof.Machine.execReadLatches p q s
  | .storeScene p q => Sys2Proof.Machine.execStoreScene p q s
  | .storeWriteEnd => Sys2Proof.Machine.execStoreWriteEnd s
  | .recallScene p q => Sys2Proof.Machine.execRecallScene p q s
  | .recallVerifyEnd degraded => Sys2Proof.Machine.execRecallVerifyEnd degraded s
  | .mixLoad => Sys2Proof.Machine.execMixLoad s
  | .inputSectionLoad => Sys2Proof.Machine.execInputSectionLoad s
  | .abortRecall p q => Sys2Proof.Machine.execAbortRecall p q s
  | .eraseScene p q => Sys2Proof.Machine.execEraseScene p q s
  | .eraseEnd => Sys2Proof.Machine.execEraseEnd s
  | .protectScene p q => Sys2Proof.Machine.execProtectScene p q s
  | .setStartScene p q => Sys2Proof.Machine.execSetStartScene p q s
  | .readDirectory p q => Sys2Proof.Machine.execReadDirectory p q s
  | .readResult p q => Sys2Proof.Machine.execReadResult p q s
  | .verifySlotDone degraded => Sys2Proof.Machine.execVerifySlotDone degraded s
  | .sweepStart => Sys2Proof.Machine.execSweepStart s
  | .pollPhase answers => Sys2Proof.Machine.execPollPhase answers s
  | .readPhase => Sys2Proof.Machine.execReadPhase s
  | .keyReportRead slot report => Sys2Proof.Machine.execKeyReportRead slot report s
  | .announceWindow slot received => Sys2Proof.Machine.execAnnounceWindow slot received s
  | .downstreamPart => Sys2Proof.Machine.execDownstreamPart s
  | .assignPack p q => Sys2Proof.Machine.execAssignPack p q s
  | .releasePack p q => Sys2Proof.Machine.execReleasePack p q s
  | .readPackTable p q => Sys2Proof.Machine.execReadPackTable p q s
  | .makeOfUp slot => Sys2Proof.Machine.execMakeOfUp slot s
  | .makeOfDown slot => Sys2Proof.Machine.execMakeOfDown slot s
  | .makeOfNext slot => Sys2Proof.Machine.execMakeOfNext slot s
  | .makeOfPrev slot => Sys2Proof.Machine.execMakeOfPrev slot s
  | .makeOfCall slot => Sys2Proof.Machine.execMakeOfCall slot s
  | .makeOfSilence slot => Sys2Proof.Machine.execMakeOfSilence slot s
  | .breakOfUp slot => Sys2Proof.Machine.execBreakOfUp slot s
  | .breakOfDown slot => Sys2Proof.Machine.execBreakOfDown slot s
  | .breakOfMakeOnlyKey slot key => Sys2Proof.Machine.execBreakOfMakeOnlyKey slot key s
  | .overflowMarker slot => Sys2Proof.Machine.execOverflowMarker slot s
  | .ignoredKeyCode slot code => Sys2Proof.Machine.execIgnoredKeyCode slot code s
  | .heldKeyExpiry slot => Sys2Proof.Machine.execHeldKeyExpiry slot s
  | .readCalls p q => Sys2Proof.Machine.execReadCalls p q s
  | .receiveByte p byte framingError => Sys2Proof.Machine.execReceiveByte p byte framingError s
  | .interbyteSilenceTimeout p => Sys2Proof.Machine.execInterbyteSilenceTimeout p s
  | .lineBreak p => Sys2Proof.Machine.execLineBreak p s
  | .lineIdle p => Sys2Proof.Machine.execLineIdle p s
  | .transmitFrameEnd p => Sys2Proof.Machine.execTransmitFrameEnd p s
  | .unknownRequest p code q => Sys2Proof.Machine.execUnknownRequest p code q s
  | .identify p q => Sys2Proof.Machine.execIdentify p q s
  | .portStatus p q => Sys2Proof.Machine.execPortStatus p q s
  | .passCharge p q => Sys2Proof.Machine.execPassCharge p q s
  | .reclaimCharge p q => Sys2Proof.Machine.execReclaimCharge p q s
  | .resetEngine p q => Sys2Proof.Machine.execResetEngine p q s
  | .warmReset => Sys2Proof.Machine.execWarmReset s
  | .powerUp => Sys2Proof.Machine.execPowerUp s
  | .powerLoss cutName => Sys2Proof.Machine.execPowerLoss cutName s
  | .setNoticeMask p q => Sys2Proof.Machine.execSetNoticeMask p q s
  | .readNoticeMask p q => Sys2Proof.Machine.execReadNoticeMask p q s
  | .readReasons p q => Sys2Proof.Machine.execReadReasons p q s
  | .readStates p q => Sys2Proof.Machine.execReadStates p q s
  | .wait p q => Sys2Proof.Machine.execWait p q s
  | .cancelWait p q => Sys2Proof.Machine.execCancelWait p q s
  | .waitTimeout p => Sys2Proof.Machine.execWaitTimeout p s

end Sys2Proof.Machine
end

