-- ==== Sys2Proof/Machine/BeltPack.lean ====
section
/-! DEFINITION. A belt pack, the equipment at the other end of the pack bus (R122, R124). It is no part of State: its
behaviour reaches the engine as the operands of POLL_PHASE, ANNOUNCE_WINDOW and KEY_REPORT_READ (log 19). -/
namespace Sys2Proof.Machine

/-- A pack at one address: whether it counts itself welcomed, whether a released message keeps it from announcing, the
sweeps in a row without a status record, its serial, and the codes it holds, the overflow marker among them. -/
structure BeltPack where
  identity : PackIdentity
  welcomed : Bool
  released : Bool
  /-- 0 to 15 -/
  unheard : Nat
  buffer : List Byte
  deriving DecidableEq, Repr

/-- R124: a pack newly powered or restarted. DESIGN CHOICE (log 30): it holds no key events. -/
def BeltPack.restart (id : PackIdentity) : BeltPack :=
  { identity := id, welcomed := false, released := false, unheard := 0, buffer := [] }

/-- R124: whether the pack announces in its address's window. -/
def BeltPack.announces (x : BeltPack) : Bool := !x.welcomed && !x.released

/-- R125: an announce: the identity, then a byte that makes the sum of all seven 0 modulo 256. -/
def BeltPack.announce (x : BeltPack) : List Byte := x.identity.toList ++ [0#8 - byteSum x.identity.toList]

/-- R125: what the pack alone sends in its window. -/
def BeltPack.window (x : BeltPack) : Received := if x.announces then .bytes x.announce else .nothing

/-- R119: the alive and the pending mark of the pack's poll answer. -/
def BeltPack.pollMarks (x : BeltPack) : Bool × Bool := (x.welcomed, x.welcomed && !x.buffer.isEmpty)

/-- R123, R124: a message addressed to the pack; of two in one downstream part the later leaves it as it is.
DESIGN CHOICE (log 30): the buffer is kept. -/
def BeltPack.hear (x : BeltPack) : PackMessage → BeltPack
  | .welcome => { x with welcomed := true, released := false, unheard := 0 }
  | .occupied => x
  | .released => { x with welcomed := false, released := true, unheard := 0 }

/-- R124: the end of a sweep, given whether it brought a status record; the welcome is dropped at the sixteenth sweep
in a row without one. DESIGN CHOICE (log 30): the buffer is kept. -/
def BeltPack.sweepEnd (x : BeltPack) (status : Bool) : BeltPack :=
  if x.welcomed && !status then
    if 16 ≤ x.unheard + 1 then { x with welcomed := false, unheard := 0 } else { x with unheard := x.unheard + 1 }
  else { x with unheard := 0 }

/-- The key events among the codes held. -/
def keyEventsIn (codes : List Byte) : List Byte := codes.filter fun c => decide (c ≠ overflowCode)

/-- R122: a key event in the pack; with 8 held it is lost, and an overflow marker follows those held. DESIGN CHOICE
(log 30): an event lost while a marker already stands last in the full buffer queues no second one; a pack without a
welcome holds the keys pressed as well. -/
def BeltPack.key (x : BeltPack) (code : Byte) : BeltPack :=
  if (keyEventsIn x.buffer).length < 8 then { x with buffer := x.buffer ++ [code] }
  else if x.buffer.getLast? = some overflowCode then x
  else { x with buffer := x.buffer ++ [overflowCode] }

/-- R122: the codes of the next report, given how many key events it may still carry: key events in their order, then
the overflow marker when it comes next. -/
def reportPart : Nat → List Byte → List Byte
  | _, [] => []
  | k, c :: rest =>
    if c = overflowCode then [c]
    else
      match k with
      | 0 => []
      | k' + 1 => c :: reportPart k' rest

/-- R122, 11.7: the key report of a pack: a count, the codes, and a byte that makes the sum 0 modulo 256. -/
def BeltPack.report (x : BeltPack) : List Byte :=
  let codes := reportPart 4 x.buffer
  let body := byteOf codes.length :: codes
  body ++ [0#8 - byteSum body]

/-- R122: the pack removes what it reports. -/
def BeltPack.reported (x : BeltPack) : BeltPack := { x with buffer := x.buffer.drop (reportPart 4 x.buffer).length }

end Sys2Proof.Machine
end

