-- ==== Sys2Proof/Safety.lean ====
section
/-! DEFINITION. What the statements about the engine speak of: the port and kept frame of a request command, the
conditions on a state under which a command meets its own effect, what a reply or an item leaves at a port, and the
invariants. -/
namespace Sys2Proof.Machine

/-! ### Request commands -/

/-- The port and the kept frame of a request command, with the code of 11.4; none for any other command. -/
def requestOf : Instr → Option (Port × Request)
  | .setSourceMode p q => some (p, ⟨0x38, q⟩)
  | .readLinkStatus p q => some (p, ⟨0x39, q⟩)
  | .setSend p q => some (p, ⟨0x20, q⟩)
  | .setSendRow p q => some (p, ⟨0x21, q⟩)
  | .readSendRow p q => some (p, ⟨0x22, q⟩)
  | .setMix p q => some (p, ⟨0x23, q⟩)
  | .readMix p q => some (p, ⟨0x24, q⟩)
  | .setGroup p q => some (p, ⟨0x25, q⟩)
  | .readGroup p q => some (p, ⟨0x26, q⟩)
  | .setLinkSet p q => some (p, ⟨0x27, q⟩)
  | .setInput p q => some (p, ⟨0x28, q⟩)
  | .readInputs p q => some (p, ⟨0x29, q⟩)
  | .setTalkSource p q => some (p, ⟨0x2A, q⟩)
  | .talk p q => some (p, ⟨0x2B, q⟩)
  | .readEffective p q => some (p, ⟨0x33, q⟩)
  | .readMeters p q => some (p, ⟨0x30, q⟩)
  | .clearLatches p q => some (p, ⟨0x31, q⟩)
  | .readLatches p q => some (p, ⟨0x32, q⟩)
  | .storeScene p q => some (p, ⟨0x40, q⟩)
  | .recallScene p q => some (p, ⟨0x41, q⟩)
  | .abortRecall p q => some (p, ⟨0x42, q⟩)
  | .eraseScene p q => some (p, ⟨0x43, q⟩)
  | .protectScene p q => some (p, ⟨0x44, q⟩)
  | .setStartScene p q => some (p, ⟨0x45, q⟩)
  | .readDirectory p q => some (p, ⟨0x46, q⟩)
  | .readResult p q => some (p, ⟨0x47, q⟩)
  | .assignPack p q => some (p, ⟨0x50, q⟩)
  | .releasePack p q => some (p, ⟨0x51, q⟩)
  | .readPackTable p q => some (p, ⟨0x52, q⟩)
  | .readCalls p q => some (p, ⟨0x53, q⟩)
  | .unknownRequest p c q => some (p, ⟨c, q⟩)
  | .identify p q => some (p, ⟨0x01, q⟩)
  | .portStatus p q => some (p, ⟨0x02, q⟩)
  | .passCharge p q => some (p, ⟨0x03, q⟩)
  | .reclaimCharge p q => some (p, ⟨0x04, q⟩)
  | .resetEngine p q => some (p, ⟨0x05, q⟩)
  | .setNoticeMask p q => some (p, ⟨0x10, q⟩)
  | .readNoticeMask p q => some (p, ⟨0x11, q⟩)
  | .readReasons p q => some (p, ⟨0x12, q⟩)
  | .readStates p q => some (p, ⟨0x13, q⟩)
  | .wait p q => some (p, ⟨0x14, q⟩)
  | .cancelWait p q => some (p, ⟨0x15, q⟩)
  | .signalAppears _ | .signalLost _ | .frameArrival _ _ | .frameInstant | .packBusFrame | .storeWriteEnd
  | .recallVerifyEnd _ | .mixLoad | .inputSectionLoad | .eraseEnd | .verifySlotDone _ | .sweepStart
  | .pollPhase _ | .readPhase | .keyReportRead _ _ | .announceWindow _ _ | .downstreamPart | .makeOfUp _
  | .makeOfDown _ | .makeOfNext _ | .makeOfPrev _ | .makeOfCall _ | .makeOfSilence _ | .breakOfUp _
  | .breakOfDown _ | .breakOfMakeOnlyKey _ _ | .overflowMarker _ | .ignoredKeyCode _ _ | .heldKeyExpiry _
  | .receiveByte _ _ _ | .interbyteSilenceTimeout _ | .lineBreak _ | .lineIdle _ | .transmitFrameEnd _
  | .warmReset | .powerUp | .powerLoss _ | .waitTimeout _ => none

/-! ### Conditions on a state -/

/-- R159: a port with nothing on its line has no frame waiting. -/
abbrev PortState.settled (x : PortState) : Prop := x.line = none → x.ready = []

/-- Both ports are settled. -/
abbrev State.settled (s : State) : Prop := s.home.settled ∧ s.guest.settled

/-- The condition under which a request of port p is taken at the instant its frame is completed (R151, R155): the
power is on, the receiver is between frames, nothing is queued and nothing is in service. -/
abbrev State.idleAt (s : State) (p : Port) : Prop :=
  s.engine.powered = true ∧ (s.port p).receiver = .hunting ∧ (s.port p).queue = [] ∧ (s.port p).service = none ∧
    s.settled

/-! ### What a reply leaves at its port -/

/-- R159: a frame that becomes ready begins on an idle line, and waits behind the others on a busy one. -/
def PortState.withFrame (x : PortState) (f : Frame) : PortState :=
  match x.line with
  | none => { x with line := some f }
  | some _ => { x with ready := x.ready ++ [f] }

/-- R158: the reply that a port builds to a request: its flags carry LOST and GARBLED as they stand. -/
def PortState.replyTo (x : PortState) (r : Request) (status : Status) (clamped : Bool) (data : List Byte) : Reply :=
  { echo := r.code, status := status, lost := x.lost, garbled := x.garbled, clamped := clamped, data := data }

/-- R155, R158: the port once a request is in service and its reply is built: both flags are clear, and everything
else at the port is as it was. -/
def PortState.replied (x : PortState) (r : Request) (status : Status) (clamped : Bool) (data : List Byte) : PortState :=
  PortState.withFrame { x with service := some r, lost := false, garbled := false }
    (.service (x.replyTo r status clamped data))

/-- The state once port p has answered a request, the blocks being e: the other port is as it was, and the model's
counter of free choices has advanced by one (log 7). -/
def State.replied (s : State) (p : Port) (r : Request) (e : Engine) (status : Status) (clamped : Bool)
    (data : List Byte) : State :=
  { (s.setEngine e).setPort p ((s.port p).replied r status clamped data) with draws := s.draws + 1 }

/-- A port with its receiver and its queue replaced. -/
def PortState.withQueue (x : PortState) (receiver : PortReceiver) (queue : List Request) : PortState :=
  { x with receiver := receiver, queue := queue }

/-- The state with the receiver and the queue of a port replaced. -/
def State.withQueue (s : State) (p : Port) (receiver : PortReceiver) (queue : List Request) : State :=
  s.setPort p ((s.port p).withQueue receiver queue)

/-- R155, R159: port p once the reply of its request in service has left the line, before it takes another: the next
ready frame has begun. Its queue is set aside and its receiver is between frames, as a request command finds them. -/
def State.freed (s : State) (p : Port) : State :=
  s.setPort p { s.port p with
    receiver := .hunting, queue := [], service := none, line := (s.port p).ready.head?, unseen := false
    ready := (s.port p).ready.tail }

/-! ### Stage frames and the frame instant -/

/-- 11.6: the bytes of a stage frame before its check value. -/
def StageFrame.checked (f : StageFrame) : List Byte :=
  bytes16 f.number.toNat ++ [byteOf f.samples.length] ++ f.samples.flatMap sampleBytes

/-- 11.6, R1: the bytes of a stage frame as a line carries them. -/
def StageFrame.bytes (f : StageFrame) : List Byte := f.checked ++ bytes16 (crc16 f.checked).toNat

/-- R1, 0.6: what a good frame may hold: 1 to 64 samples of 24 bits. -/
abbrev StageFrame.carriable (f : StageFrame) : Prop :=
  1 ≤ f.samples.length ∧ f.samples.length ≤ 64 ∧ ∀ x ∈ f.samples, -8388608 ≤ x ∧ x ≤ 8388607

/-- R15: the conditions under which the revert check returns to link A. -/
abbrev Engine.mayRevert (e : Engine) : Prop :=
  e.selector.mode = .auto ∧ e.selector.autoRevert = true ∧ e.selector.active = .b ∧ 96000 ≤ e.selector.primaryTime ∧
    e.linkA.fresh = true

/-- R5: a receiver that leaves LOCKED at the frame instant that comes next. -/
abbrev Receiver.leaving (r : Receiver) : Prop := r.state = .locked ∧ r.fresh = false ∧ 8 ≤ r.missRun + 1

/-- R8: a frame in 64-channel form: the channels above its count are absent. -/
def StageFrame.spread (f : StageFrame) : Delivered := Vector.ofFn fun c => f.samples[c.val]?

/-- R62: the sample of an input in a delivered frame: 0 for an absent channel and for no patch. -/
def sampleIn (d : Delivered) (r : InputRec) : Int :=
  match r.patch with
  | none => 0
  | some c => (d[c]).getD 0

/-- R64: the accumulator of one side of a mix, from the delivered frame, the inputs and the live coefficients. -/
def mixSum (d : Delivered) (inputs : Vector InputRec 64) (live : Fin 64 → Nat) : Int :=
  ((List.finRange 64).map fun i =>
    (if (inputs[i]).inverted = true then -1 else 1) * sampleIn d inputs[i] * (live i : Int)).sum

/-! ### What a change of the tables leaves in the coefficients -/

/-- R51, R52: the pairs that a change reaches are recomputed from the tables and talk sets as they stand after it, and
every other pair keeps its targets, live values and steps. -/
def Engine.Retargets (before after : Engine) (reach : Fin 24 → Fin 64 → Bool) : Prop :=
  ∀ m i, (after.coefs[m])[i] =
    if reach m i = true then ((before.coefs[m])[i]).retarget (deriveTargets after.tables after.onAir m i)
    else (before.coefs[m])[i]

/-! ### Sends written -/

/-- R28: a value brought to the nearest end of its range. -/
abbrev within (lo hi x : Int) : Int := max lo (min hi x)

/-- 0.6: the number by which a request names a thing counted from 1, or 0 for none. -/
def numberFor (x : Option (Fin n)) : Nat :=
  match x with
  | none => 0
  | some k => k.val + 1

/-- R28, R30: a send as four carried bytes write it: level 0 to 232, pan -32 to 32, on or off. -/
def sendOf (r : Byte × Byte × Byte × Byte) : SendRec :=
  { level := min 232 r.2.1.toNat, pan := within (-32) 32 r.2.2.1.toInt, on := decide (1 ≤ r.2.2.2.toNat) }

/-- R28: whether a carried send is out of a range. -/
def sendOutside (r : Byte × Byte × Byte × Byte) : Bool :=
  decide (232 < r.2.1.toNat) || decide (r.2.2.1.toInt < -32) || decide (32 < r.2.2.1.toInt) ||
    decide (1 < r.2.2.2.toNat)

/-- R24, R31: a mix of the same link set as the named one, other than the named one. -/
abbrev Tables.linked (t : Tables) (m m' : Fin 24) : Prop :=
  m' ≠ m ∧ (t.mixes[m]).record.linkSet ≠ none ∧ (t.mixes[m']).record.linkSet = (t.mixes[m]).record.linkSet

/-- R30 to R32, R51: the blocks once sends of mix m have been written with their broadcast: for each input the last
record that names it stands, whole in the named mix and with its pan kept in every other mix written; records, groups,
the inputs no record names and the mixes not written keep their values, and the pairs written are recomputed. -/
structure Engine.SendsWritten (before after : Engine) (m : Fin 24) (records : List (Byte × Byte × Byte × Byte))
    (written : MixSet) : Prop where
  blocks : after = { before with tables := after.tables, coefs := after.coefs }
  tables : after.tables = { before.tables with mixes := after.tables.mixes }
  kept : ∀ m' : Fin 24, after.tables.mixes[m'] =
    { before.tables.mixes[m'] with sends := (after.tables.mixes[m']).sends }
  reached : ∀ m' : Fin 24, written.getLsbD m'.val = true ↔
    m' = m ∨ (before.tables.linked m m' ∧ MixSet.has before.awaiting m' = false)
  last : ∀ l r l', records = l ++ r :: l' → (∀ r' ∈ l', r'.1 ≠ r.1) → ∀ i : Fin 64, r.1.toNat = i.val + 1 →
    ((after.tables.mixes[m]).sends[i]) = sendOf r ∧
      ∀ m' : Fin 24, m' ≠ m → written.getLsbD m'.val = true →
        ((after.tables.mixes[m']).sends[i]) = { sendOf r with pan := ((before.tables.mixes[m']).sends[i]).pan }
  others : ∀ (m' : Fin 24) (i : Fin 64),
    written.getLsbD m'.val = false ∨ (∀ r ∈ records, r.1.toNat ≠ i.val + 1) →
      ((after.tables.mixes[m']).sends[i]) = ((before.tables.mixes[m']).sends[i])
  targets : Engine.Retargets before after fun m' i =>
    written.getLsbD m'.val && records.any fun r => decide (r.1.toNat = i.val + 1)

/-! ### A run of bytes -/

/-- The state after one byte without a framing error on the receive line of port p. -/
def State.afterByte (p : Port) (s : State) (b : Byte) : State :=
  match exec (.receiveByte p b false) s with
  | .next t => t
  | _ => s

/-! ### What items leave at a port (R169 to R175) -/

/-- An item has been recorded, or has been reported in a notice block on its way to the console. -/
def PortState.Told (x : PortState) (i : Item) : Prop :=
  x.unit.occurred.has i = true ∨
    ∃ b : NoticeBlock, b.items.has i = true ∧
      (Frame.attention b ∈ x.outgoing ∨
        ∃ r : Reply, r.status = .met ∧ r.data = b.bytes ∧ Frame.parked r ∈ x.outgoing)

/-- The frames that port y has beyond those of port x, when those of x keep their places. -/
def PortState.newFrames (x y : PortState) : List Frame := y.outgoing.drop x.outgoing.length

/-- R170: an armed unit has no reasons, and every item that has occurred and that the mask names is a reason. -/
abbrev NoticeUnit.Orderly (u : NoticeUnit) : Prop :=
  (u.armed = true → u.reasons = ItemSet.empty) ∧
    ∀ i, u.mask.has i = true → u.occurred.has i = true → u.reasons.has i = true

/-- What is kept at a port x when these items have reached it, and at most frames besides: the receiver, the queue and
the mask are as they were, every frame keeps its place, every item is told, nothing else has occurred, and the parked
wait stands or has been answered MET. -/
structure PortState.Tells (items : List Item) (x y : PortState) : Prop where
  receiver : y.receiver = x.receiver
  queue : y.queue = x.queue
  mask : y.unit.mask = x.unit.mask
  sent : x.outgoing <+: y.outgoing
  told : ∀ i ∈ items, y.Told i
  occurred : ∀ i, y.unit.occurred.has i = true → x.unit.occurred.has i = true ∨ i ∈ items
  reasons : ∀ i, y.unit.reasons.has i = true → x.unit.reasons.has i = true ∨ x.unit.mask.has i = true
  armed : y.unit.armed = true → x.unit.armed = true
  parked : y.wait = x.wait ∨
    (y.wait = none ∧ ∃ r : Reply, r.status = .met ∧ Frame.parked r ∈ x.newFrames y)

/-- R170, R171, R175: what these items bring about at a port x whose unit is orderly. -/
structure PortState.Acts (items : List Item) (x y : PortState) : Prop where
  orderly : x.unit.Orderly → y.unit.Orderly
  /-- with no wait parked, an armed unit whose mask names an item is disarmed, the item is a reason, and an attention
  frame has been made ready that carries such an item (the first one; others join the reasons) -/
  reported : x.unit.Orderly → x.unit.armed = true → x.wait = none → ∀ i ∈ items, x.unit.mask.has i = true →
    y.unit.armed = false ∧ y.unit.reasons.has i = true ∧
      ∃ (b : NoticeBlock) (j : Item), Frame.attention b ∈ x.newFrames y ∧ j ∈ items ∧ x.unit.mask.has j = true ∧
        b.items.has j = true
  /-- a unit none of whose masked items arrives stays armed -/
  quiet : x.unit.Orderly → x.unit.armed = true → (∀ i ∈ items, x.unit.mask.has i = false) → y.unit.armed = true
  /-- a parked wait whose condition names an item outside the mask is answered MET, and with an empty mask its block
  carries an item that the condition names -/
  met : x.unit.Orderly → ∀ w, x.wait = some w →
    (∃ i ∈ items, w.condition.names i = true ∧ x.unit.mask.has i = false) →
      y.wait = none ∧ ∃ r : Reply, r.status = .met ∧ Frame.parked r ∈ x.newFrames y ∧
        (x.unit.mask = ItemSet.empty → ∃ (b : NoticeBlock) (i : Item), i ∈ items ∧ w.condition.names i = true ∧
          b.items.has i = true ∧ r.data = b.bytes)
  /-- a parked wait whose condition names none of the items stays parked -/
  stays : ∀ w, x.wait = some w → (∀ i ∈ items, w.condition.names i = false) → y.wait = some w

/-- What a port has heard when these items have reached it. -/
structure PortState.Hears (items : List Item) (x y : PortState) : Prop extends PortState.Tells items x y,
  PortState.Acts items x y

/-- The items that a change of the blocks brings to port p: the events raised and the rises (R169). -/
def itemsFor (before after : Engine) (events : List Event) (p : Port) : List Item :=
  events.map Item.event ++ (rises before after p).map Item.rise

/-- A command without a reply has changed the blocks to e and raised these events: both ports hear of the events and of
the rises, and keep the request in service; LOST and GARBLED stand where no parked wait was there to carry them. -/
structure State.Raises (s : State) (e : Engine) (events : List Event) (t : State) : Prop where
  engine : t.engine = e
  pending : t.pending = s.pending
  hears : ∀ p, PortState.Hears (itemsFor s.engine e events p) (s.port p) (t.port p)
  service : ∀ p, (t.port p).service = (s.port p).service
  flags : ∀ p, (s.port p).wait = none →
    (t.port p).lost = (s.port p).lost ∧ (t.port p).garbled = (s.port p).garbled

/-- A request of port p has changed the blocks to e, raised these events and been answered: as `State.Raises`, and the
reply stands among the frames of port p, whose request is in service. -/
structure State.Answers (s : State) (p : Port) (r : Request) (e : Engine) (events : List Event) (status : Status)
    (clamped : Bool) (data : List Byte) (t : State) : Prop where
  engine : t.engine = e
  pending : t.pending = s.pending
  hears : ∀ p', PortState.Hears (itemsFor s.engine e events p') (s.port p') (t.port p')
  service : (t.port p).service = some r
  cleared : (t.port p).lost = false ∧ (t.port p).garbled = false
  reply : ∃ y : Reply, Frame.service y ∈ (t.port p).outgoing ∧ y.echo = r.code ∧ y.status = status ∧
    y.clamped = clamped ∧ y.data = data ∧
    ((s.port p).wait = none → y.lost = (s.port p).lost ∧ y.garbled = (s.port p).garbled)
  otherService : (t.port p.other).service = (s.port p.other).service
  otherFlags : (s.port p.other).wait = none →
    (t.port p.other).lost = (s.port p.other).lost ∧ (t.port p.other).garbled = (s.port p.other).garbled

/-! ### Invariants -/

/-- R45 to R53, R56, R83: every target is the one that the tables and the talk sets give, no live value is above the
largest coefficient, and no guard gain is above unity. -/
structure Engine.LevelsFollow (e : Engine) : Prop where
  targets : ∀ (m : Fin 24) (i : Fin 64), ((e.coefs[m])[i]).left.target = (deriveTargets e.tables e.onAir m i).1 ∧
    ((e.coefs[m])[i]).right.target = (deriveTargets e.tables e.onAir m i).2
  live : ∀ (m : Fin 24) (i : Fin 64), ((e.coefs[m])[i]).left.live ≤ 65226 ∧ ((e.coefs[m])[i]).right.live ≤ 65226
  gains : ∀ m : Fin 24, (e.runs[m]).gain ≤ 16384

/-- A sample of 24 bits (0.6). -/
abbrev sample24 (x : Int) : Prop := -8388608 ≤ x ∧ x ≤ 8388607

/-- R3 to R6: the runs, the count and the slips of a receiver are in their ranges; only a LOCKED link holds a frame, and
one that a good frame may be; and a fresh holder holds one. -/
structure Receiver.Lawful (r : Receiver) : Prop where
  goodRun : r.goodRun ≤ 3
  missRun : r.missRun ≤ 7
  count : r.lastCount ≤ 64
  slips : r.slips ≤ 65535
  held : ∀ f, r.held = some f → r.state = .locked ∧ f.carriable
  fresh : r.fresh = true → r.held ≠ none

/-- R8, R11, R13, R14: the counts of the selector are in their ranges, and both frames it keeps carry samples of 24
bits. -/
structure Selector.Lawful (x : Selector) : Prop where
  missRun : x.missRun ≤ 255
  concealCount : x.concealCount ≤ 255
  primaryTime : x.primaryTime ≤ 96000
  lastUsed : ∀ (c : Fin 64) (v : Int), x.lastUsed[c] = some v → sample24 v
  delivered : ∀ (c : Fin 64) (v : Int), x.delivered[c] = some v → sample24 v

/-- Both receivers and the selector. -/
structure Engine.StagesLawful (e : Engine) : Prop where
  links : ∀ l, (e.receiver l).Lawful
  selector : e.selector.Lawful

/-- R21 to R23: the tables of one mix are in their ranges, no member list names an input twice, and no input is a
member of two groups. -/
structure MixTable.Lawful (x : MixTable) : Prop where
  master : -120 ≤ x.record.master ∧ x.record.master ≤ 20
  shift : -1 ≤ x.record.shift ∧ x.record.shift ≤ 2
  ceiling : 1 ≤ x.record.ceiling ∧ x.record.ceiling ≤ 8388607
  release : 1 ≤ x.record.release ∧ x.record.release ≤ 256
  dim : -80 ≤ x.record.dim ∧ x.record.dim ≤ 0
  sends : ∀ i : Fin 64, (x.sends[i]).level ≤ 232 ∧ -32 ≤ (x.sends[i]).pan ∧ (x.sends[i]).pan ≤ 32
  trims : ∀ g : Fin 8, -80 ≤ (x.groups[g]).trim ∧ (x.groups[g]).trim ≤ 20
  once : ∀ g : Fin 8, (x.groups[g]).members.Nodup
  apart : ∀ (g g' : Fin 8) (i : Fin 64), i ∈ (x.groups[g]).members → i ∈ (x.groups[g']).members → g = g'

/-- R20, R21 to R23: every input and every mix of the tables. -/
structure Tables.Lawful (t : Tables) : Prop where
  inputs : ∀ i : Fin 64, -24 ≤ (t.inputs[i]).trim ∧ (t.inputs[i]).trim ≤ 24
  mixes : ∀ m : Fin 24, (t.mixes[m]).Lawful

/-- R92, R100: the tables, every scene in a slot and the staging copy of a store are lawful. -/
structure Engine.TablesLawful (e : Engine) : Prop where
  tables : e.tables.Lawful
  scenes : ∀ (k : Fin 32) (name : SceneName) (contents : Tables), (e.library.slots[k]).image = .written name contents → contents.Lawful
  staging : ∀ k name contents, e.library.operation = .store k name contents → contents.Lawful

/-- R117, R119, R121, R142, R147: an ONLINE or LOST slot has an identity and an EMPTY one has none; no identity is in
two slots; an ONLINE slot has missed at most 15 polls in a row and no slot more than 16; only an ONLINE slot has a
held-key record; a sweep reads at most two slots; and no slot calls twice. -/
structure PackBus.Lawful (b : PackBus) : Prop where
  present : ∀ a : Fin 32, (b.slots[a]).state = .online ∨ (b.slots[a]).state = .lost → (b.slots[a]).identity ≠ none
  absent : ∀ a : Fin 32, (b.slots[a]).state = .empty → (b.slots[a]).identity = none
  unique : ∀ a a' : Fin 32, (b.slots[a]).identity ≠ none → (b.slots[a]).identity = (b.slots[a']).identity → a = a'
  misses : ∀ a : Fin 32, (b.slots[a]).missRun ≤ 16 ∧ ((b.slots[a]).state = .online → (b.slots[a]).missRun ≤ 15)
  held : ∀ a : Fin 32, (b.slots[a]).held ≠ none → (b.slots[a]).state = .online
  picked : ∀ l, b.sweep = .reading l → l.length ≤ 2
  calls : b.calls.Nodup

/-- R154, R155, R159, R170: a port holds at most 4 requests, none while nothing is in service; its reply to the request
in service is the one such frame it has; nothing waits for an idle line; and its notice unit is orderly (R170). -/
structure PortState.Served (x : PortState) : Prop where
  queue : x.queue.length ≤ 4
  taken : x.service = none → x.queue = []
  reply : x.outgoing.countP Frame.isService = if x.service = none then 0 else 1
  settled : x.settled
  unit : x.unit.Orderly

/-- R78, R90, R167: a frame is marked as not to be seen only while it tells a CLIP or a GUARD and the command right
behind makes a warm reset (log 26). -/
def State.MarksLawful (s : State) : Prop :=
  ∀ p, (s.port p).unseen = true →
    s.engine.powered = true ∧ s.resetFollows = true ∧ (s.port p).line.any Frame.tellsClipOrGuard = true

end Sys2Proof.Machine
end

