-- ==== Sys2Proof/Certificates/Slice0/Obligations.lean ====
section
/-! DEFINITION. The statements for the provers. -/

section

open Sys2Proof Sys2Proof.Machine

/-! ### The queue of commands -/

/-- The command at the front of the queue is taken and applied; with an empty queue the block idles (log 1). The names
by which the statements speak of the parts of a state: its engine, its two ports, and the receivers and talk sets. -/
def Obligations.StepTakesFrontCommand : Prop :=
  (∀ (s : State) (e : Engine) (x : PortState), s.setEngine e = { s with engine := e } ∧
    s.port .home = s.home ∧ s.port .guest = s.guest ∧
    s.setPort .home x = { s with home := x } ∧ s.setPort .guest x = { s with guest := x }) ∧
  (∀ (e : Engine) (r : Receiver), e.receiver .a = e.linkA ∧ e.receiver .b = e.linkB ∧
    e.setReceiver .a r = { e with linkA := r } ∧ e.setReceiver .b r = { e with linkB := r } ∧
    e.talkSet .home = e.talkHome ∧ e.talkSet .guest = e.talkGuest) ∧
  (Port.home.other = .guest ∧ Port.guest.other = .home ∧ Link.a.other = .b ∧ Link.b.other = .a) ∧
  (∀ x : PortState, x.outgoing = x.line.toList ++ x.ready) ∧
  (∀ (s : State) (c : Instr) (rest : List Instr), s.pending = c :: rest → step s = exec c { s with pending := rest }) ∧
    ∀ s : State, s.pending = [] → step s = .next s

/-! ### Control ports (chapter 9) -/

/-- R154: a kept frame completed behind a request in service joins the queue at its end while the queue holds fewer
than 4, and is discarded with LOST while it holds 4; nothing else changes. -/
def Obligations.KeptFrameJoinsQueueOrIsLost : Prop :=
  ∀ (c : Instr) (p : Port) (r v : Request) (s : State),
    requestOf c = some (p, r) → s.engine.powered = true → (s.port p).receiver = .hunting →
    (s.port p).service = some v →
      ((s.port p).queue.length < 4 →
        exec c s = .next (s.setPort p { s.port p with queue := (s.port p).queue ++ [r] })) ∧
      ((s.port p).queue.length = 4 → exec c s = .next (s.setPort p { s.port p with lost := true }))

/-- R157: a request whose code is none of the table 11.4 is refused before any of its bytes beyond the code is looked
at. -/
def Obligations.UnknownRequestRefused : Prop :=
  ∀ (s : State) (p : Port) (code : Byte) (q : Payload), s.idleAt p →
    code ∉ ([0x01, 0x02, 0x03, 0x04, 0x05, 0x10, 0x11, 0x12, 0x13, 0x14, 0x15, 0x20, 0x21, 0x22, 0x23, 0x24, 0x25, 0x26,
      0x27, 0x28, 0x29, 0x2A, 0x2B, 0x30, 0x31, 0x32, 0x33, 0x38, 0x39, 0x40, 0x41, 0x42, 0x43, 0x44, 0x45, 0x46, 0x47,
      0x50, 0x51, 0x52, 0x53] : List Byte) →
    exec (.unknownRequest p code q) s =
      .next (s.replied p { code := code, payload := q } s.engine .unknownRequest false [])

/-- R157, R160: the class of a request is checked against the charge as it stands when the port takes it. The codes of
class C and of class H are those of 11.4. A request is taken as its frame is completed, or from the queue when the reply
before it has left the line: a class C request that was queued while its port held charge is then refused. -/
def Obligations.ClassCheckedAtTaking : Prop :=
  (∀ (c : Instr) (p : Port) (r : Request) (s : State), requestOf c = some (p, r) → s.idleAt p →
    (r.code ∈ ([0x03, 0x20, 0x21, 0x23, 0x25, 0x27, 0x28, 0x2A, 0x38, 0x40, 0x41, 0x42, 0x43, 0x50, 0x51] : List Byte) →
      s.engine.charge ≠ p → exec c s = .next (s.replied p r s.engine .notInCharge false [])) ∧
    (r.code ∈ ([0x04, 0x05, 0x44, 0x45] : List Byte) → p = .guest →
      exec c s = .next (s.replied p r s.engine .homeOnly false []))) ∧
  ∀ (s : State) (p : Port) (y : Reply) (r : Request) (rest : List Request), s.engine.powered = true → s.settled →
    (s.port p).line = some (.service y) → (y.echo ≠ 0x05 ∨ y.status ≠ .ok) → (s.port p).queue = r :: rest →
    (r.code ∈ ([0x03, 0x20, 0x21, 0x23, 0x25, 0x27, 0x28, 0x2A, 0x38, 0x40, 0x41, 0x42, 0x43, 0x50, 0x51] : List Byte) →
      s.engine.charge ≠ p →
      exec (.transmitFrameEnd p) s =
        .next (((s.freed p).replied p r s.engine .notInCharge false []).withQueue p (s.port p).receiver rest)) ∧
    (r.code ∈ ([0x04, 0x05, 0x44, 0x45] : List Byte) → p = .guest →
      exec (.transmitFrameEnd p) s =
        .next (((s.freed p).replied p r s.engine .homeOnly false []).withQueue p (s.port p).receiver rest))

/-- R164, R165: IDENTIFY and PORT STATUS on a port that takes the request as it arrives. -/
def Obligations.IdentifyAndPortStatus : Prop :=
  ∀ (s : State) (p : Port) (q : Payload), s.idleAt p →
    exec (.identify p q) s =
        .next (s.replied p { code := 0x01, payload := q } s.engine .ok false
          [0x0C, 0x51, 0x24, 0x64, 1, 64, 24, 32, 32, 8, 8, (match p with | .home => 0 | .guest => 1), 0]) ∧
      exec (.portStatus p q) s =
        .next (s.replied p { code := 0x02, payload := q } s.engine .ok false
          [(match s.engine.charge with | .home => 0 | .guest => 1), 0, flagByte (s.port p).wait.isSome])

/-- R161 to R163: PASS CHARGE moves the charge to the other port, and RECLAIM CHARGE to the home port; each change
raises CHARGE, HOLD_CHARGE rises in the new holder's unit alone, and a reclaim by the holder changes nothing. -/
def Obligations.ChargeMoves : Prop :=
  (∀ (s : State) (p : Port) (q : Payload), s.idleAt p → s.engine.charge = p →
    ∃ t, exec (.passCharge p q) s = .next t ∧
      s.Answers p { code := 0x03, payload := q } { s.engine with charge := p.other } [.charge] .ok false [] t ∧
      rises s.engine { s.engine with charge := p.other } p.other = [.holdCharge] ∧
      rises s.engine { s.engine with charge := p.other } p = []) ∧
  (∀ (s : State) (q : Payload), s.idleAt .home → s.engine.charge = .guest →
    ∃ t, exec (.reclaimCharge .home q) s = .next t ∧
      s.Answers .home { code := 0x04, payload := q } { s.engine with charge := .home } [.charge] .ok false [] t ∧
      rises s.engine { s.engine with charge := .home } .home = [.holdCharge] ∧
      rises s.engine { s.engine with charge := .home } .guest = []) ∧
  ∀ (s : State) (q : Payload), s.idleAt .home → s.engine.charge = .home →
    exec (.reclaimCharge .home q) s = .next (s.replied .home { code := 0x04, payload := q } s.engine .ok false [])

/-- R167: RESET ENGINE of port 0 is answered OK first and stays in service; when the last byte of that reply has left
the line, the warm reset takes effect, the same that a pulse on the reset pin makes. -/
def Obligations.ResetEngineAfterItsReply : Prop :=
  (∀ (s : State) (q : Payload), s.idleAt .home →
    exec (.resetEngine .home q) s = .next (s.replied .home { code := 0x05, payload := q } s.engine .ok false [])) ∧
  ∀ (s : State) (p : Port) (y : Reply), s.engine.powered = true → (s.port p).line = some (.service y) →
    y.echo = 0x05 → y.status = .ok →
    exec (.transmitFrameEnd p) s = exec .warmReset (s.setPort p { s.port p with line := none, service := none })

/-- R151 to R153: what a receiver does at one byte. In HUNTING the byte 0xA5 begins a frame and every other byte is
passed over; in BREAK nothing is received. In RECEIVING a byte is gathered unless it is one that drops the frame, with
GARBLED: a framing error; a type that is not REQUEST; a body length outside 2 to 530; a parameter length above 16 or
above the body bytes that follow it; a body that leaves more than 512 bytes to the data part; a second check byte that
does not agree with the check of the type, the body length and the body. A first length byte of 3 or more drops the
frame already, since no second one brings the length back to 530 (the model's reading of R152, log 13). A frame whose
check agrees is kept, which `FrameOnLineIsRequest` says whole. -/
def Obligations.BytesAtReceiver : Prop :=
  ∀ (s : State) (p : Port) (b : Byte) (bad : Bool) (dropped : Prop) (gathered : List Byte → Prop),
    s.engine.powered = true →
    (dropped ↔ exec (.receiveByte p b bad) s =
      .next (s.setPort p { s.port p with receiver := .hunting, garbled := true })) →
    (∀ got, gathered got ↔ exec (.receiveByte p b bad) s =
      .next (s.setPort p { s.port p with receiver := .receiving got })) →
    ((s.port p).receiver = .inBreak → exec (.receiveByte p b bad) s = .next s) ∧
    ((s.port p).receiver = .hunting →
      (b = 0xA5 → bad = false → gathered []) ∧
      (b ≠ 0xA5 ∨ bad = true → exec (.receiveByte p b bad) s = .next s)) ∧
    ∀ got, (s.port p).receiver = .receiving got →
      (bad = true → dropped) ∧
      (bad = false →
        (got = [] → (b ≠ 0x01 → dropped) ∧ (b = 0x01 → gathered [b])) ∧
        (∀ kind, got = [kind] → (3 ≤ b.toNat → dropped) ∧ (b.toNat < 3 → gathered [kind, b])) ∧
        (∀ kind high, got = [kind, high] →
          (high.toNat * 256 + b.toNat < 2 ∨ 530 < high.toNat * 256 + b.toNat → dropped) ∧
          (2 ≤ high.toNat * 256 + b.toNat → high.toNat * 256 + b.toNat ≤ 530 → gathered [kind, high, b])) ∧
        ∀ (kind high low : Byte) (body : List Byte) (length : Nat), got = kind :: high :: low :: body →
          length = high.toNat * 256 + low.toNat → 2 ≤ length → length ≤ 530 →
          (body.length = 1 →
            (16 < b.toNat ∨ length < b.toNat + 2 ∨ 512 + b.toNat + 2 < length → dropped) ∧
            (b.toNat ≤ 16 → b.toNat + 2 ≤ length → length ≤ 512 + b.toNat + 2 → gathered (got ++ [b]))) ∧
          (body.length ≠ 1 → body.length ≤ length → gathered (got ++ [b])) ∧
          ∀ (whole : List Byte) (check : Byte), body = whole ++ [check] → whole.length = length →
            (crc16 (kind :: high :: low :: whole)).toNat ≠ check.toNat * 256 + b.toNat → dropped)

/-- R151, R152, R154, 9.1: the bytes of a whole REQUEST frame, received one by one on a port that was between frames,
have the effect of the request command that names the frame.

11.2: the frame is start, type, body length, body and check. R156, R178: how a block reads the parameters: a missing
byte as zero, a field of two or three bytes with its most significant byte first, a signed one in two's complement, a
set of mixes with mix 1 at bit 0 of its last byte, a set of events with the events of 11.3 at the low eleven bits of its
two bytes and the positions above them ignored, a set of states as its byte, and a present set bit by bit. -/
def Obligations.FrameOnLineIsRequest : Prop :=
  (∀ (q : Payload) (k : Nat) (byte : Nat → Byte),
    (∀ n, (∀ b, q.params[n]? = some b → byte n = b) ∧ (q.params.length ≤ n → byte n = 0)) →
      Payload.byte q k = byte k ∧ Payload.u8 q k = (byte k).toNat ∧
      Payload.u16 q k = (byte k).toNat * 256 + (byte (k + 1)).toNat ∧
      Payload.u24 q k = (byte k).toNat * 65536 + (byte (k + 1)).toNat * 256 + (byte (k + 2)).toNat ∧
      ((byte k).toNat < 128 → Payload.s8 q k = (byte k).toNat) ∧
      (128 ≤ (byte k).toNat → Payload.s8 q k = (byte k).toNat - 256) ∧
      (∀ m : Fin 24, (Payload.mixSet q k).getLsbD m.val = (byte (k + 2 - m.val / 8)).getLsbD (m.val % 8)) ∧
      (∀ n : Fin 11, (Payload.events q k).getLsbD n.val = (byte (k + 1 - n.val / 8)).getLsbD (n.val % 8)) ∧
      Payload.states q k = byte k ∧ ∀ bit, Payload.present q k bit = (byte k).getLsbD bit) ∧
  (∀ body : List Byte, body.length ≤ 530 → ∃ high low check0 check1 : Byte,
    high.toNat * 256 + low.toNat = body.length ∧
    check0.toNat * 256 + check1.toNat = (crc16 ([0x01, high, low] ++ body)).toNat ∧
    controlFrame 0x01 body = [0xA5, 0x01, high, low] ++ body ++ [check0, check1]) ∧
  ∀ (s : State) (c : Instr) (p : Port) (r : Request), requestOf c = some (p, r) →
    r.payload.params.length ≤ 16 → r.payload.data.length ≤ 512 → s.engine.powered = true → (s.port p).receiver = .hunting →
    exec c s =
      .next ((controlFrame 0x01 ([r.code, byteOf r.payload.params.length] ++ r.payload.params ++ r.payload.data)).foldl
        (State.afterByte p) s)

/-- R152, R153: a silence of 1 ms inside a frame discards it with GARBLED, and the line's return to idle ends BREAK; in
any other state of the receiver neither changes anything. -/
def Obligations.SilenceAndIdleLine : Prop :=
  ∀ (s : State) (p : Port), s.engine.powered = true →
    (∀ got, (s.port p).receiver = .receiving got →
      exec (.interbyteSilenceTimeout p) s =
        .next (s.setPort p { s.port p with receiver := .hunting, garbled := true })) ∧
    ((s.port p).receiver = .hunting ∨ (s.port p).receiver = .inBreak →
      exec (.interbyteSilenceTimeout p) s = .next s) ∧
    ((s.port p).receiver = .inBreak →
      exec (.lineIdle p) s = .next (s.setPort p { s.port p with receiver := .hunting })) ∧
    ((s.port p).receiver ≠ .inBreak → exec (.lineIdle p) s = .next s)

/-- R155, R159: when a frame has left the line the next ready frame begins. The end of any other frame leaves service
as it is. The end of the reply of the request in service lets the port take the next request, if the queue holds one: it
leaves the queue and has the effect that its request command has at the same port with an empty queue and its receiver
between frames. Only a WAIT that is parked leaves service at once, and the port then takes the request behind it. PORT
STATUS alone sees the queue: its reply carries how many requests are left in it. That the end of a frame on an idle line
changes nothing is the model's choice (log 2). -/
def Obligations.FrameEndServesNext : Prop :=
  ∀ (s : State) (p : Port), s.engine.powered = true →
    (∀ f, (s.port p).line = some f → (∀ y, f ≠ .service y) →
      exec (.transmitFrameEnd p) s =
        .next (s.setPort p { s.port p with
          line := (s.port p).ready.head?, unseen := false, ready := (s.port p).ready.tail })) ∧
    (∀ y, (s.port p).line = some (.service y) → (y.echo ≠ 0x05 ∨ y.status ≠ .ok) →
      ((s.port p).queue = [] → exec (.transmitFrameEnd p) s =
        .next (s.setPort p { s.port p with
          line := (s.port p).ready.head?, unseen := false, ready := (s.port p).ready.tail, service := none })) ∧
      ∀ (r : Request) (rest : List Request) (c : Instr), (s.port p).queue = r :: rest → requestOf c = some (p, r) →
        ∃ u, exec c (s.freed p) = .next u ∧
          (r.code = 0x02 → s.settled → exec (.transmitFrameEnd p) s =
            .next (((s.freed p).replied p r s.engine .ok false
              [(match s.engine.charge with | .home => 0 | .guest => 1), byteOf rest.length,
                flagByte (s.port p).wait.isSome]).withQueue p (s.port p).receiver rest)) ∧
          (r.code ≠ 0x02 → (u.port p).service = some r →
            exec (.transmitFrameEnd p) s = .next (u.withQueue p (s.port p).receiver rest)) ∧
          (r.code ≠ 0x02 → (u.port p).service ≠ some r → r.code = 0x14 ∧ (u.port p).wait ≠ none ∧
            (rest = [] → exec (.transmitFrameEnd p) s = .next (u.withQueue p (s.port p).receiver [])) ∧
            ∀ (r' : Request) (rest' : List Request) (c' : Instr), rest = r' :: rest' → requestOf c' = some (p, r') →
              ∃ v, exec c' u = .next v ∧ (v.port p).service = some r' ∧
                (r'.code = 0x02 → s.settled → exec (.transmitFrameEnd p) s =
                  .next ((u.replied p r' u.engine .ok false
                    [(match s.engine.charge with | .home => 0 | .guest => 1), byteOf rest'.length, 1]).withQueue p
                      (s.port p).receiver rest')) ∧
                (r'.code ≠ 0x02 →
                  exec (.transmitFrameEnd p) s = .next (v.withQueue p (s.port p).receiver rest')))) ∧
    ((s.port p).line = none → exec (.transmitFrameEnd p) s = .next s)

/-- R43, R153, R166: a break of 10 ms makes a port reset: the queue, the parked wait, both flags and the notice unit of
that port are cleared, its talk set is emptied with the mixes that stop talking recomputed, a request in service keeps
its reply, a frame on the line is sent whole and any other frame not begun is discarded; the other port and every other
block are as they were. A break that goes on makes no second reset. R25: a mix is talking when either talk set holds it
and there is a talk source. -/
def Obligations.LineBreakResetsPort : Prop :=
  (∀ (t : Tables) (air : MixSet) (m : Fin 24),
    talking t air m = (air.getLsbD m.val && decide (t.talkSource ≠ none))) ∧
  (∀ e : Engine, e.onAir = e.talkHome ||| e.talkGuest) ∧
  (∀ r : Reply, Frame.isService (.service r) = true ∧ Frame.isService (.parked r) = false) ∧
  (∀ b : NoticeBlock, Frame.isService (.attention b) = false) ∧
  ∀ (s : State) (p : Port), s.engine.powered = true → s.settled →
    ((s.port p).receiver = .inBreak → exec (.lineBreak p) s = .next s) ∧
    ((s.port p).receiver ≠ .inBreak →
      ∃ e : Engine,
        exec (.lineBreak p) s =
          .next ((s.setEngine e).setPort p
            { receiver := .inBreak, queue := [], service := (s.port p).service, wait := none, lost := false,
              garbled := false, line := (s.port p).line, unseen := (s.port p).unseen,
              ready := (s.port p).ready.filter Frame.isService,
              unit := { occurred := ⟨0#11, 0#8⟩, mask := ⟨0#11, 0#8⟩, reasons := ⟨0#11, 0#8⟩, armed := true } }) ∧
        e.talkSet p = 0#24 ∧ e.talkSet p.other = s.engine.talkSet p.other ∧
        e = { s.engine with talkHome := e.talkHome, talkGuest := e.talkGuest, coefs := e.coefs } ∧
        Engine.Retargets s.engine e fun m _ =>
          talking s.engine.tables s.engine.onAir m != talking s.engine.tables e.onAir m)

/-! ### Notices and waits (chapter 10) -/

/-- R18, R94, R133, R149, R161, R172, R173, R179: READ NOTICE MASK and READ STATES return the unit's mask with its
armed flag, and its occurred set with the levels, and change nothing; READ REASONS returns the reasons with the levels,
takes the reasons out of the occurred set, empties them and arms the unit. The levels and the items stand at their bits
of 11.3, and a rise is a state that was false and is true (R169). -/
def Obligations.NoticeReads : Prop :=
  (∀ x : ItemSet,
    [Event.clip, .guard, .packAttach, .packLost, .packConflict, .packAdjust, .call, .sourceChange, .linkDown, .opDone,
        .charge].map (fun e => x.has (.event e)) = (List.range 11).map x.events.getLsbD ∧
      [Level.holdCharge, .libraryBusy, .aLocked, .bLocked, .onB, .concealing, .anyLost, .callsWaiting].map
        (fun l => x.has (.rise l)) = (List.range 8).map x.rises.getLsbD) ∧
  (∀ (e : Engine) (p : Port),
    (List.range 8).map (e.levels p).getLsbD =
      [decide (e.charge = p), decide (e.library.operation ≠ .idle),
        decide (e.linkA.state = .locked), decide (e.linkB.state = .locked),
        decide (e.selector.active = .b), decide (e.selector.concealCount ≠ 0),
        decide (∃ a : Fin 32, (e.packs.slots[a]).state = .lost), decide (e.packs.calls ≠ [])]) ∧
  (∀ (before after : Engine) (p : Port) (l : Level),
    l ∈ rises before after p ↔
      (before.levels p).getLsbD l.bit = false ∧ (after.levels p).getLsbD l.bit = true) ∧
  ([Level.holdCharge, .libraryBusy, .aLocked, .bLocked, .onB, .concealing, .anyLost, .callsWaiting].map Level.bit =
    List.range 8) ∧
  ∀ (s : State) (p : Port) (q : Payload), s.idleAt p →
    exec (.readNoticeMask p q) s =
        .next (s.replied p { code := 0x11, payload := q } s.engine .ok false
          (bytes16 (s.port p).unit.mask.events.toNat ++
            [(s.port p).unit.mask.rises, flagByte (s.port p).unit.armed])) ∧
      exec (.readStates p q) s =
        .next (s.replied p { code := 0x13, payload := q } s.engine .ok false
          (bytes16 (s.port p).unit.occurred.events.toNat ++
            [(s.port p).unit.occurred.rises, s.engine.levels p])) ∧
      exec (.readReasons p q) s =
        .next (State.replied
          (s.setPort p { s.port p with unit := {
            mask := (s.port p).unit.mask, reasons := ItemSet.empty, armed := true,
            occurred := (s.port p).unit.occurred.diff (s.port p).unit.reasons } })
          p { code := 0x12, payload := q } s.engine .ok false
          (bytes16 (s.port p).unit.reasons.events.toNat ++ [(s.port p).unit.reasons.rises, s.engine.levels p]))

/-- R172: SET NOTICE MASK replaces the mask and arms the unit when the new mask is not empty. The items that have
occurred and that the new mask names then join the reasons, which are not pruned; if the unit is armed and the reasons
are not empty, one attention frame carries them, the unit is disarmed and they leave the occurred set. The reply is OK
with no data, and reply and attention both stand among the port's frames.

R158, 11.2: the bytes of the frames that the engine sends. A reply, of a request in service or of a parked wait, is a
REPLY frame: start, type 0x02, body length, then echo, status code, flags with LOST at bit 0, GARBLED at bit 1 and
CLAMPED at bit 2, and the data, then the check. An attention is an ATTENTION frame of type 0x03 with a notice block of
events, rises and levels, 10 bytes long. R178: a number is sent most significant byte first, yes as 1 and no as 0. -/
def Obligations.SetNoticeMaskUpdates : Prop :=
  (∀ n : Nat, (byteOf n).toNat = n % 256 ∧ bytes16 n = [byteOf (n / 256), byteOf n] ∧
    bytes24 n = [byteOf (n / 65536), byteOf (n / 256), byteOf n]) ∧ flagByte true = 1 ∧ flagByte false = 0 ∧
  ([Status.ok, .started, .partly, .met, .timedOut, .cancelled, .unknownRequest, .notInCharge, .homeOnly, .badIndex,
      .awaitingRecall, .libraryBusy, .slotEmpty, .slotDamaged, .slotProtected, .waitBusy, .noWait, .groupConflict,
      .notRecalling].map Status.code =
    [0x00, 0x01, 0x02, 0x03, 0x04, 0x05, 0x10, 0x11, 0x12, 0x13, 0x14, 0x15, 0x16, 0x17, 0x18, 0x19, 0x1A, 0x1B,
      0x1C]) ∧
  (∀ r : Reply, r.data.length ≤ 512 → ∃ (flags high low check0 check1 : Byte) (body : List Byte),
    flags.toNat = r.lost.toNat + 2 * r.garbled.toNat + 4 * r.clamped.toNat ∧
    body = [r.echo, r.status.code, flags] ++ r.data ∧ high.toNat * 256 + low.toNat = body.length ∧
    check0.toNat * 256 + check1.toNat = (crc16 ([0x02, high, low] ++ body)).toNat ∧
    Frame.bytes (.service r) = [0xA5, 0x02, high, low] ++ body ++ [check0, check1] ∧
    Frame.bytes (.parked r) = [0xA5, 0x02, high, low] ++ body ++ [check0, check1]) ∧
  (∀ b : NoticeBlock, ∃ (events0 events1 check0 check1 : Byte),
    events0.toNat * 256 + events1.toNat = b.items.events.toNat ∧
    check0.toNat * 256 + check1.toNat =
      (crc16 [0x03, 0x00, 0x04, events0, events1, b.items.rises, b.levels]).toNat ∧
    Frame.bytes (.attention b) =
      [0xA5, 0x03, 0x00, 0x04, events0, events1, b.items.rises, b.levels, check0, check1]) ∧
  ∀ (s : State) (p : Port) (q : Payload), s.idleAt p →
    ∀ mask reasons : ItemSet, mask = { events := Payload.events q 0, rises := Payload.states q 2 } →
      reasons = (s.port p).unit.reasons.union (mask.inter (s.port p).unit.occurred) →
      ∀ armed : Bool, armed = ((s.port p).unit.armed || decide (mask ≠ ItemSet.empty)) →
      ∃ t, exec (.setNoticeMask p q) s = .next t ∧ t.engine = s.engine ∧ t.pending = s.pending ∧
        t.port p.other = s.port p.other ∧ (t.port p).receiver = .hunting ∧ (t.port p).queue = [] ∧
        (t.port p).service = some { code := 0x10, payload := q } ∧ (t.port p).wait = (s.port p).wait ∧
        (t.port p).lost = false ∧ (t.port p).garbled = false ∧
        (t.port p).unit.mask = mask ∧ (t.port p).unit.reasons = reasons ∧
        (armed = true ∧ reasons ≠ ItemSet.empty →
          (t.port p).unit.armed = false ∧
          (t.port p).unit.occurred = (s.port p).unit.occurred.diff reasons ∧
          ((t.port p).outgoing = (s.port p).outgoing ++
              [.service ((s.port p).replyTo { code := 0x10, payload := q } .ok false []),
                .attention { items := reasons, levels := s.engine.levels p }] ∨
            (t.port p).outgoing = (s.port p).outgoing ++
              [.attention { items := reasons, levels := s.engine.levels p },
                .service ((s.port p).replyTo { code := 0x10, payload := q } .ok false [])])) ∧
        (armed = false ∨ reasons = ItemSet.empty →
          (t.port p).unit.armed = armed ∧ (t.port p).unit.occurred = (s.port p).unit.occurred ∧
          (t.port p).outgoing = (s.port p).outgoing ++
            [.service ((s.port p).replyTo { code := 0x10, payload := q } .ok false [])])

/-- R174, R175: a WAIT is refused with WAIT_BUSY while another is parked. Otherwise it is met at once when a state of
its condition is true or an item of it stands in the occurred set: those items leave the occurred set and the reasons,
and the reply MET carries them with the levels. Otherwise it is parked with its timeout, and leaves service with no
reply. -/
def Obligations.WaitParksOrIsMet : Prop :=
  ∀ (s : State) (p : Port) (q : Payload), s.idleAt p →
    ∀ c : Condition, c = { events := Payload.events q 0, states := Payload.states q 2 } →
      ∀ found : ItemSet, found = c.items.inter (s.port p).unit.occurred →
      (∀ w, (s.port p).wait = some w →
        exec (.wait p q) s = .next (s.replied p { code := 0x14, payload := q } s.engine .waitBusy false [])) ∧
      ((s.port p).wait = none → (c.states &&& s.engine.levels p ≠ 0#8 ∨ found ≠ ItemSet.empty) →
        exec (.wait p q) s =
          .next (State.replied
            (s.setPort p { s.port p with unit := {
              mask := (s.port p).unit.mask, armed := (s.port p).unit.armed,
              occurred := (s.port p).unit.occurred.diff found
              reasons := (s.port p).unit.reasons.diff found } })
            p { code := 0x14, payload := q } s.engine .met false
            (bytes16 found.events.toNat ++ [found.rises, s.engine.levels p]))) ∧
      ((s.port p).wait = none → c.states &&& s.engine.levels p = 0#8 → found = ItemSet.empty →
        exec (.wait p q) s =
          .next (s.setPort p { s.port p with wait := some { condition := c, timeout := Payload.u16 q 3 } }))

/-- R176: CANCEL WAIT with no wait parked is refused with NO_WAIT; with one it empties the cell, and CANCELLED goes
before OK; LOST and GARBLED are carried by the first of the two (log 25). -/
def Obligations.CancelWaitAnswersBoth : Prop :=
  ∀ (s : State) (p : Port) (q : Payload), s.idleAt p →
    ((s.port p).wait = none →
      exec (.cancelWait p q) s = .next (s.replied p { code := 0x15, payload := q } s.engine .noWait false [])) ∧
    (∀ w, (s.port p).wait = some w →
      ∃ t, exec (.cancelWait p q) s = .next t ∧ t.engine = s.engine ∧ t.pending = s.pending ∧
        t.port p.other = s.port p.other ∧ (t.port p).wait = none ∧ (t.port p).unit = (s.port p).unit ∧
        (t.port p).receiver = .hunting ∧ (t.port p).queue = [] ∧
        (t.port p).service = some { code := 0x15, payload := q } ∧
        (t.port p).lost = false ∧ (t.port p).garbled = false ∧
        (t.port p).outgoing = (s.port p).outgoing ++
          [.parked { echo := 0x14, status := .cancelled, lost := (s.port p).lost, garbled := (s.port p).garbled,
                     clamped := false, data := [] },
            .service { echo := 0x15, status := .ok, lost := false, garbled := false, clamped := false, data := [] }])

/-- R176: a parked wait whose timeout runs out is answered TIMED_OUT with a block of no items and the levels; its cell
becomes empty and nothing is consumed. Without a parked wait, or with one that has no timeout, there is no such moment
(log 2). -/
def Obligations.WaitTimeoutAnswers : Prop :=
  ∀ (s : State) (p : Port), s.engine.powered = true → s.settled →
    (∀ w, (s.port p).wait = some w → w.timeout ≠ 0 →
      exec (.waitTimeout p) s =
        .next { s.setPort p (PortState.withFrame { s.port p with wait := none, lost := false, garbled := false }
            (.parked { echo := 0x14, status := .timedOut, lost := (s.port p).lost, garbled := (s.port p).garbled,
                       clamped := false, data := [0, 0, 0, s.engine.levels p] })) with
          draws := s.draws + 1 }) ∧
    (∀ w, (s.port p).wait = some w → w.timeout = 0 → exec (.waitTimeout p) s = .next s) ∧
    ((s.port p).wait = none → exec (.waitTimeout p) s = .next s)

/-- R170, R171: an item that reaches a unit whose port has no wait parked enters the occurred set. If the mask names it
and the unit is armed, an attention frame is made ready with the reasons, which leave the occurred set, and the unit is
disarmed; a disarmed unit makes no attention frame ready, whatever reaches it, and keeps the item. The sets of items
are what their names say, a condition names its events and the rises of its states (R175), and a notice block is carried
as events, rises and levels (11.3). -/
def Obligations.ItemAtNoticeUnit : Prop :=
  (∀ (x y : ItemSet) (i j : Item), (x.union y).has i = (x.has i || y.has i) ∧
    (x.inter y).has i = (x.has i && y.has i) ∧ (x.diff y).has i = (x.has i && !y.has i) ∧
    (ItemSet.single i).has j = decide (i = j) ∧ ItemSet.empty.has i = false) ∧
  (∀ x y : ItemSet, (∀ i, x.has i = y.has i) → x = y) ∧
  (∀ (c : Condition) (i : Item), c.items = { events := c.events, rises := c.states } ∧ c.names i = c.items.has i) ∧
  (∀ b : NoticeBlock, b.bytes = bytes16 b.items.events.toNat ++ [b.items.rises, b.levels]) ∧
  ∀ (x : PortState) (i : Item) (first : Bool) (levels : BitVec 8), x.wait = none →
    ∀ occurred reasons : ItemSet, occurred = x.unit.occurred.union (ItemSet.single i) →
      reasons = x.unit.reasons.union (x.unit.mask.inter occurred) →
      (x.unit.armed = true → reasons ≠ ItemSet.empty →
        x.arrive i first levels =
          { x with
            ready := x.ready ++ [.attention { items := reasons, levels := levels }]
            unit := { mask := x.unit.mask, reasons := reasons, armed := false, occurred := occurred.diff reasons } }) ∧
      (x.unit.armed = false ∨ reasons = ItemSet.empty →
        x.arrive i first levels =
          { x with
            unit := { mask := x.unit.mask, reasons := reasons, armed := x.unit.armed, occurred := occurred } })

/-- R175: an item that reaches an armed unit whose mask names it, with no reasons before, and whose port has a parked
wait whose condition it meets. Attention first: an attention frame reports it, it stays in the reasons, leaves the
occurred set, and the unit is disarmed; a wait that names it as an event stays parked, and a wait that names the true
state whose rise it is is met and consumes nothing of it: MET's block holds only what of the condition had occurred
before, which the item is not of. Wait first: MET carries it, it never enters the reasons, no attention reports it, and
the unit stays armed where, as here, nothing else that has occurred is masked. -/
def Obligations.AttentionAndWaitOrders : Prop :=
  ∀ (x : PortState) (i : Item) (w : ParkedWait) (levels : BitVec 8), x.wait = some w → w.condition.names i = true →
    x.unit.armed = true → x.unit.mask.has i = true → x.unit.reasons = ItemSet.empty →
    x.unit.mask.inter x.unit.occurred = ItemSet.empty →
    ∀ (earlier found : ItemSet) (met : ItemSet → Frame), earlier = w.condition.items.inter x.unit.occurred →
      found = earlier.union (ItemSet.single i) →
      (∀ items, met items =
        .parked { echo := 0x14, status := .met, lost := x.lost, garbled := x.garbled, clamped := false,
                  data := bytes16 items.events.toNat ++ [items.rises, levels] }) →
      ((x.arrive i false levels).unit.occurred.has i = false ∧ (x.arrive i false levels).unit.armed = false ∧
        (x.arrive i false levels).unit.reasons.has i = true ∧ earlier.has i = false ∧
        (∀ e, i = .event e →
          x.arrive i false levels =
            { x with
              ready := x.ready ++ [.attention { items := ItemSet.single i, levels := levels }]
              unit := { mask := x.unit.mask, reasons := ItemSet.single i, armed := false
                        occurred := x.unit.occurred } }) ∧
        (∀ l, i = .rise l → levels.getLsbD l.bit = true →
          x.arrive i false levels =
            { x with
              wait := none, lost := false, garbled := false
              ready := x.ready ++ [.attention { items := ItemSet.single i, levels := levels }, met earlier]
              unit := { mask := x.unit.mask, reasons := ItemSet.single i, armed := false
                        occurred := x.unit.occurred.diff earlier } })) ∧
      found.has i = true ∧
        x.arrive i true levels =
          { x with
            wait := none, lost := false, garbled := false
            ready := x.ready ++ [met found]
            unit := { mask := x.unit.mask, reasons := ItemSet.empty, armed := true
                      occurred := x.unit.occurred.diff earlier } }

/-! ### Stage links and input selection (chapter 1) -/

/-- R2: signal on a line. Appearing on a line in DOWN it makes the link SEEKING; lost in SEEKING or LOCKED it makes the
link DOWN, and from LOCKED the holder is emptied, both runs become 0 and LINK_DOWN is raised. The last frame number
becomes absent (log 23); count and slips are kept. While the power is off only the line changes (log 18). -/
def Obligations.LinkSignals : Prop :=
  ∀ (s : State) (l : Link) (r : Receiver), s.settled → r = s.engine.receiver l →
    (s.engine.powered = true →
      (r.state = .down → exec (.signalAppears l) s = .next (s.setEngine (s.engine.setReceiver l
        { r with signal := true, state := .seeking, goodRun := 0, lastNumber := none }))) ∧
      (r.state ≠ .down →
        exec (.signalAppears l) s = .next (s.setEngine (s.engine.setReceiver l { r with signal := true }))) ∧
      (r.state = .down →
        exec (.signalLost l) s = .next (s.setEngine (s.engine.setReceiver l { r with signal := false }))) ∧
      (r.state = .seeking → exec (.signalLost l) s = .next (s.setEngine (s.engine.setReceiver l
        { r with signal := false, state := .down, goodRun := 0, lastNumber := none }))) ∧
      (r.state = .locked → ∃ t, exec (.signalLost l) s = .next t ∧
        s.Raises (s.engine.setReceiver l
          { r with signal := false, state := .down, held := none, fresh := false, missRun := 0, goodRun := 0,
                   lastNumber := none }) [.linkDown] t)) ∧
    (s.engine.powered = false →
      exec (.signalAppears l) s = .next (s.setEngine (s.engine.setReceiver l { r with signal := true })) ∧
      exec (.signalLost l) s = .next (s.setEngine (s.engine.setReceiver l { r with signal := false })))

/-- R1, R3, R4, 11.6: a delimited sequence of bytes that is no good frame changes nothing, and none changes a link in
DOWN. A good frame in SEEKING extends the run when it follows the last number and restarts it otherwise; the fourth in
a row locks the link and enters the holder fresh. In LOCKED every good frame enters the holder fresh; one that does
not follow counts a slip, up to 65,535. The check is the CRC of R1: from all ones, each byte most significant bit
first, by the polynomial x^16 + x^12 + x^5 + 1; a sample is carried as three bytes, most significant first. -/
def Obligations.FrameArrivals : Prop :=
  (∀ x : Int, ∃ h m l : Byte, sampleBytes x = [h, m, l] ∧ h ++ m ++ l = BitVec.ofInt 24 x) ∧
  (crc16 [] = 0xFFFF ∧ ∀ (bytes : List Byte) (b : Byte),
    crc16 (bytes ++ [b]) =
      [7, 6, 5, 4, 3, 2, 1, 0].foldl
        (fun (c : BitVec 16) k => if c.getLsbD 15 = b.getLsbD k then c <<< 1 else (c <<< 1) ^^^ 0x1021#16) (crc16 bytes)) ∧
  ∀ (s : State) (l : Link) (r : Receiver), s.engine.powered = true → s.settled → r = s.engine.receiver l →
    (∀ bytes, (∀ f : StageFrame, f.carriable → bytes ≠ f.bytes) → exec (.frameArrival l bytes) s = .next s) ∧
    ∀ f : StageFrame, f.carriable →
      (r.state = .down → exec (.frameArrival l f.bytes) s = .next s) ∧
      (r.state = .seeking → ∀ run,
        run = (if 1 ≤ r.goodRun ∧ r.lastNumber = some (f.number - 1#16) then r.goodRun + 1 else 1) →
        (run < 4 → exec (.frameArrival l f.bytes) s = .next (s.setEngine (s.engine.setReceiver l
          { r with goodRun := run, lastNumber := some f.number, lastCount := f.samples.length }))) ∧
        (4 ≤ run → ∃ t, exec (.frameArrival l f.bytes) s = .next t ∧
          s.Raises (s.engine.setReceiver l
            { r with state := .locked, slips := 0, missRun := 0, goodRun := 0, held := some f, fresh := true,
                     lastNumber := some f.number, lastCount := f.samples.length }) [] t)) ∧
      (r.state = .locked → exec (.frameArrival l f.bytes) s = .next (s.setEngine (s.engine.setReceiver l
        { r with
          slips := if r.lastNumber = some (f.number - 1#16) then r.slips else min 65535 (r.slips + 1)
          missRun := 0, held := some f, fresh := true, lastNumber := some f.number
          lastCount := f.samples.length })))

/-- R5, R6: a receiver at a frame instant. In LOCKED without a good frame since the last instant its miss run counts,
and at the eighth miss the link leaves for SEEKING and LINK_DOWN reaches both units; every fresh mark is clear
afterwards, and nothing else of a receiver changes. -/
def Obligations.InstantAtReceivers : Prop :=
  ∀ (s : State) (l : Link) (r : Receiver), s.engine.powered = true → r = s.engine.receiver l →
    ∃ t, exec .frameInstant s = .next t ∧
      (r.leaving →
        t.engine.receiver l =
          { r with state := .seeking, held := none, missRun := 0, goodRun := 0, lastNumber := none } ∧
        ∀ p, (t.port p).Told (.event .linkDown)) ∧
      (r.state = .locked → r.fresh = false → r.missRun + 1 < 8 →
        t.engine.receiver l = { r with missRun := r.missRun + 1 }) ∧
      (r.fresh = true ∨ r.state ≠ .locked → t.engine.receiver l = { r with fresh := false })

/-- R8, R10, R13: where the revert check does not apply, a fresh frame of the active link is delivered and used, with
both counts 0; without one, where the miss rule moves nothing, the miss run and the conceal count go up to at most 255,
the last used frame is delivered twice and then the zero frame. Mode, flag and active link are kept. -/
def Obligations.InstantDeliversOrConceals : Prop :=
  ∀ (s : State) (x : Selector) (r : Receiver), s.engine.powered = true → x = s.engine.selector →
    r = s.engine.receiver x.active → ¬ s.engine.mayRevert →
    ∃ t, exec .frameInstant s = .next t ∧
      (∀ f, r.fresh = true → r.held = some f →
        t.engine.selector =
          { x with missRun := 0, concealCount := 0, lastUsed := f.spread, delivered := f.spread,
                   primaryTime := t.engine.selector.primaryTime }) ∧
      (r.fresh = false →
        x.mode ≠ .auto ∨ x.missRun + 1 < 3 ∨ (s.engine.receiver x.active.other).state ≠ .locked →
        ∀ n, n = min 255 (x.concealCount + 1) →
          t.engine.selector =
            { x with missRun := min 255 (x.missRun + 1), concealCount := n
                     delivered := if n ≤ 2 then x.lastUsed else Delivered.zero
                     primaryTime := t.engine.selector.primaryTime })

/-- R9, R11, R12, R14, R15: in AUTO, at the third miss or later with the other link LOCKED, that link becomes active
with the miss run 0 and SOURCE_CHANGE; its fresh frame is delivered, or the gap concealed with the count carried on.
When the other link leaves LOCKED at this same instant either order may be taken. Where the revert conditions hold, A's
fresh frame is delivered and A is active. The primary-locked time counts while B is active and A locked; a departure of
A at this instant may be taken before or after it. -/
def Obligations.FailoverAndRevert : Prop :=
  ∀ (s : State) (x : Selector) (o : Receiver), s.engine.powered = true → x = s.engine.selector →
    o = s.engine.receiver x.active.other →
    ∃ t y, exec .frameInstant s = .next t ∧ y = t.engine.selector ∧
      (x.mode = .auto → ¬ s.engine.mayRevert → (s.engine.receiver x.active).fresh = false → 3 ≤ x.missRun + 1 →
        o.state = .locked →
        ∀ n, n = min 255 (x.concealCount + 1) →
        (∀ f, o.fresh = true → o.held = some f →
          y = { x with active := x.active.other, missRun := 0, concealCount := 0, lastUsed := f.spread,
                       delivered := f.spread, primaryTime := y.primaryTime } ∧
          ∀ p, (t.port p).Told (.event .sourceChange)) ∧
        (o.fresh = false →
          (y = { x with active := x.active.other, missRun := 0, concealCount := n
                        delivered := if n ≤ 2 then x.lastUsed else Delivered.zero, primaryTime := y.primaryTime } ∧
            ∀ p, (t.port p).Told (.event .sourceChange)) ∨
          (o.leaving ∧
            y = { x with missRun := min 255 (x.missRun + 1), concealCount := n
                         delivered := if n ≤ 2 then x.lastUsed else Delivered.zero
                         primaryTime := y.primaryTime }))) ∧
      (s.engine.mayRevert → ∀ f, s.engine.linkA.held = some f →
        y = { x with active := .a, missRun := 0, concealCount := 0, lastUsed := f.spread, delivered := f.spread,
                     primaryTime := 0 } ∧
        ∀ p, (t.port p).Told (.event .sourceChange)) ∧
      (¬ s.engine.linkA.leaving →
        y.primaryTime =
          if y.active = .b ∧ s.engine.linkA.state = .locked then min 96000 (x.primaryTime + 1) else 0) ∧
      (s.engine.linkA.leaving → y.active = .b → y.primaryTime = 0 ∨ y.primaryTime = min 96000 (x.primaryTime + 1)) ∧
      (y.active = .a → y.primaryTime = 0)

/-- R16, R17: SET SOURCE MODE from the port in charge sets mode and flag; a forced link that is not active becomes
active at once, its miss run 0, with SOURCE_CHANGE; a mode above 2 is refused. READ LINK STATUS returns the record of
11.5 and changes nothing. -/
def Obligations.SourceModeAndLinkStatus : Prop :=
  ∀ (s : State) (p : Port) (q : Payload), s.idleAt p →
    (s.engine.charge = p →
      (2 < Payload.u8 q 0 →
        exec (.setSourceMode p q) s = .next (s.replied p ⟨0x38, q⟩ s.engine .badIndex false [])) ∧
      ∀ (mode : SourceMode) (x : Selector),
        (Payload.u8 q 0 = 0 ∧ mode = .auto) ∨ (Payload.u8 q 0 = 1 ∧ mode = .forceA) ∨
          (Payload.u8 q 0 = 2 ∧ mode = .forceB) →
        x = { s.engine.selector with mode := mode, autoRevert := decide (1 ≤ Payload.u8 q 1) } →
        ((mode = .auto ∨ (mode = .forceA ∧ x.active = .a) ∨ (mode = .forceB ∧ x.active = .b)) →
          exec (.setSourceMode p q) s =
            .next (s.replied p ⟨0x38, q⟩ { s.engine with selector := x } .ok (decide (1 < Payload.u8 q 1)) [])) ∧
        ((mode = .forceA ∧ x.active = .b) ∨ (mode = .forceB ∧ x.active = .a) →
          ∃ t, exec (.setSourceMode p q) s = .next t ∧
            s.Answers p ⟨0x38, q⟩
              { s.engine with selector := { x with active := x.active.other, missRun := 0 } } [.sourceChange] .ok
              (decide (1 < Payload.u8 q 1)) [] t)) ∧
    exec (.readLinkStatus p q) s =
      .next (s.replied p ⟨0x39, q⟩ s.engine .ok false
        ([s.engine.linkA, s.engine.linkB].flatMap (fun r =>
            (match r.state with | .down => 0 | .seeking => 1 | .locked => 2) ::
              (bytes16 r.slips ++ [byteOf r.lastCount])) ++
          [(match s.engine.selector.mode with | .auto => 0 | .forceA => 1 | .forceB => 2),
            flagByte s.engine.selector.autoRevert,
            (match s.engine.selector.active with | .a => 0 | .b => 1),
            flagByte (decide (s.engine.selector.concealCount ≠ 0))]))

/-! ### The mix computation and the ear guard (chapters 4 and 5) -/

/-- R61, R62, R64, R66, R68, R69, R71, R72, R80 to R83: every mix at a frame instant, from the frame delivered at it,
the input and mix records, and the live coefficients from before its ramp movement: both sums, the headroom shift with
its rounding, the near and clip latches, the 24-bit limit, the ear guard with its gain and latch, the outputs and the
meters; and the input meters, which rise unless the instant arrived together with a warm reset taken before it (R78;
`metersRest`, log 26). -/
def Obligations.InstantComputesMixes : Prop :=
  ∀ s : State, s.engine.powered = true →
    ∃ t, exec .frameInstant s = .next t ∧
      (s.engine.metersRest = false → ∀ i : Fin 64, t.engine.inputMeters[i] = max s.engine.inputMeters[i]
        (sampleIn t.engine.selector.delivered s.engine.tables.inputs[i]).natAbs) ∧
      (s.engine.metersRest = true → t.engine.inputMeters = s.engine.inputMeters) ∧ t.engine.metersRest = false ∧
      ∀ m : Fin 24, ∀ (x y : MixRun) (r : MixRec) (vL vR l e : Int) (peak gain : Nat),
        x = s.engine.runs[m] → y = t.engine.runs[m] → r = (s.engine.tables.mixes[m]).record →
        vL = scaled (mixSum t.engine.selector.delivered s.engine.tables.inputs fun i => ((s.engine.coefs[m])[i]).left.live)
          r.shift →
        vR = scaled (mixSum t.engine.selector.delivered s.engine.tables.inputs fun i => ((s.engine.coefs[m])[i]).right.live)
          r.shift →
        l = max (-8388608) (min 8388607 vL) → e = max (-8388608) (min 8388607 vR) →
        peak = max (roundHalfEven (l * x.gain) 16384).natAbs (roundHalfEven (e * x.gain) 16384).natAbs →
        gain = (if r.ceiling < peak then r.ceiling * 16384 / max l.natAbs e.natAbs else x.gain) →
        y.near = (x.near || decide (4194304 ≤ vL.natAbs) || decide (4194304 ≤ vR.natAbs)) ∧
        y.clip = (x.clip || decide (vL ≠ l) || decide (vR ≠ e)) ∧
        y.guard = (x.guard || decide (r.ceiling < peak)) ∧
        y.gain = (if r.ceiling < peak then gain else min 16384 (x.gain + r.release)) ∧
        y.outLeft = roundHalfEven (l * gain) 16384 ∧ y.outRight = roundHalfEven (e * gain) 16384 ∧
        y.meterLeft = max x.meterLeft y.outLeft.natAbs ∧ y.meterRight = max x.meterRight y.outRight.natAbs

/-- R56, R61, R70, R84 and the frame of FRAME_INSTANT: every live value moves toward its target by its step and stops
there; tables, talk sets, library, charge and pack slots are kept, and a pack bus frame is due. The events are LINK_DOWN
for a departure, SOURCE_CHANGE for a change of link, CLIP for a clip latch set from clear, and GUARD exactly for
an engagement from unity, whatever the guard latch, and no others. A frame is marked as not to be seen by its console
only if it tells a CLIP or a GUARD, began on an idle line at the instant, and a warm reset waits right behind; whether
it then is is free (log 26). -/
def Obligations.InstantMovesRampsAndRaises : Prop :=
  ((∀ r : Reply, Frame.tellsClipOrGuard (.service r) = false) ∧
    (∀ r : Reply, r.status ≠ .met → Frame.tellsClipOrGuard (.parked r) = false) ∧
    ∀ b : NoticeBlock, Frame.tellsClipOrGuard (.attention b) = (b.items.has (.event .clip) || b.items.has (.event .guard)) ∧
      ∀ r : Reply, r.status = .met → r.data = b.bytes →
        Frame.tellsClipOrGuard (.parked r) = (b.items.has (.event .clip) || b.items.has (.event .guard))) ∧
  (∀ s : State, s.resetFollows = true ↔ ∃ rest, s.pending = .warmReset :: rest ∨
    ∃ p r, s.pending = .transmitFrameEnd p :: rest ∧ (s.port p).line = some (.service r) ∧ r.echo = 0x05 ∧
      r.status = .ok) ∧
  ∀ s : State, s.engine.powered = true →
    ∃ t events, exec .frameInstant s = .next t ∧ s.Raises t.engine events t ∧
      t.engine =
        { s.engine with linkA := t.engine.linkA, linkB := t.engine.linkB, selector := t.engine.selector
                        coefs := t.engine.coefs, runs := t.engine.runs, inputMeters := t.engine.inputMeters
                        metersRest := false
                        packs := { s.engine.packs with frameDue := true } } ∧
      (∀ (m : Fin 24) (i : Fin 64),
        ((t.engine.coefs[m])[i]).left = ((s.engine.coefs[m])[i]).left.move ∧
        ((t.engine.coefs[m])[i]).right = ((s.engine.coefs[m])[i]).right.move) ∧
      (.linkDown ∈ events ↔ ∃ l, (s.engine.receiver l).leaving) ∧
      (.sourceChange ∈ events ↔ t.engine.selector.active ≠ s.engine.selector.active) ∧
      (.clip ∈ events ↔ ∃ m : Fin 24, (s.engine.runs[m]).clip = false ∧ (t.engine.runs[m]).clip = true) ∧
      (.guard ∈ events ↔ ∃ m : Fin 24, (s.engine.runs[m]).gain = 16384 ∧ (t.engine.runs[m]).gain < 16384) ∧
      (∀ p, (t.port p).unseen = true →
        (s.port p).line = none ∧ (∃ f, (t.port p).line = some f ∧ f.tellsClipOrGuard = true) ∧
        s.resetFollows = true) ∧
      ∀ e ∈ events, e = .linkDown ∨ e = .sourceChange ∨ e = .clip ∨ e = .guard

/-- R66, R67: an accumulator divided by 2^(14 + h): the magnitude is rounded to the nearest integer, an exact half to
the even neighbour, and the sign is that of the accumulator. The ear guard divides by 16,384 in the same way (R80). -/
def Obligations.ConvergentRounding : Prop :=
  (∀ x : Int, roundHalfEven x 16384 = scaled x 0) ∧
  ∀ (acc h : Int) (k : Nat), (h = -1 ∧ k = 13) ∨ (h = 0 ∧ k = 14) ∨ (h = 1 ∧ k = 15) ∨ (h = 2 ∧ k = 16) →
    ∀ quotient remainder : Nat, acc.natAbs = quotient * 2 ^ k + remainder → remainder < 2 ^ k →
      (scaled acc h).natAbs =
          (if remainder < 2 ^ k / 2 then quotient
          else if 2 ^ k / 2 < remainder then quotient + 1
          else if quotient % 2 = 0 then quotient else quotient + 1) ∧
        (0 ≤ acc → 0 ≤ scaled acc h) ∧ (acc ≤ 0 → scaled acc h ≤ 0)

/-- R65: with samples of 24 bits and live coefficients of 16 bits the magnitude of every accumulator is less than
2^45. Every state that keeps the stage links and the selector lawful delivers such samples (`StepKeepsLevels`). -/
def Obligations.AccumulatorBound : Prop :=
  ∀ (d : Delivered) (inputs : Vector InputRec 64) (live : Fin 64 → Nat),
    (∀ (c : Fin 64) (x : Int), d[c] = some x → -8388608 ≤ x ∧ x ≤ 8388607) → (∀ i, live i ≤ 65535) →
      (mixSum d inputs live).natAbs < 2 ^ 45

/-- R79, R81, R83: at every frame instant each output of each mix has a magnitude of at most the mix's ceiling, the
guard gain stays within 16,384, and an engagement, whether or not the guard latch was set before it, leaves a gain below
the one it replaces. -/
def Obligations.OutputsWithinCeiling : Prop :=
  ∀ s : State, s.engine.powered = true →
    ∃ t, exec .frameInstant s = .next t ∧
      ∀ (m : Fin 24) (k : Nat), k = (s.engine.tables.mixes[m]).record.ceiling →
        (t.engine.runs[m]).outLeft.natAbs ≤ k ∧ (t.engine.runs[m]).outRight.natAbs ≤ k ∧
        ((s.engine.runs[m]).gain ≤ 16384 → (t.engine.runs[m]).gain ≤ 16384) ∧
        ∀ (x : MixRun) (r : MixRec) (l e : Int), x = s.engine.runs[m] → r = (s.engine.tables.mixes[m]).record →
          l = max (-8388608) (min 8388607 (scaled
            (mixSum t.engine.selector.delivered s.engine.tables.inputs fun i => ((s.engine.coefs[m])[i]).left.live)
            r.shift)) →
          e = max (-8388608) (min 8388607 (scaled
            (mixSum t.engine.selector.delivered s.engine.tables.inputs fun i => ((s.engine.coefs[m])[i]).right.live)
            r.shift)) →
          k < max (roundHalfEven (l * x.gain) 16384).natAbs (roundHalfEven (e * x.gain) 16384).natAbs →
          (t.engine.runs[m]).gain < x.gain ∧ (t.engine.runs[m]).guard = true

/-- R73, R74, R76: READ METERS returns the 64 input meters and the 48 side meters and, with a clear value, leaves them
0; CLEAR LATCHES clears the three latches of the mixes it names; READ LATCHES returns the three sets of latches and the
24 guard gains. Nothing else of the blocks changes. -/
def Obligations.MeterAndLatchRequests : Prop :=
  ∀ (s : State) (p : Port) (q : Payload), s.idleAt p → ∀ data,
    data = ((List.finRange 64).flatMap fun i => bytes24 s.engine.inputMeters[i]) ++
      ((List.finRange 24).flatMap fun m =>
        bytes24 (s.engine.runs[m]).meterLeft ++ bytes24 (s.engine.runs[m]).meterRight) →
    (Payload.u8 q 0 = 0 →
      exec (.readMeters p q) s = .next (s.replied p ⟨0x30, q⟩ s.engine .ok false data)) ∧
    (1 ≤ Payload.u8 q 0 →
      exec (.readMeters p q) s =
        .next (s.replied p ⟨0x30, q⟩
          { s.engine with
            inputMeters := Vector.replicate 64 0
            runs := s.engine.runs.map fun x => { x with meterLeft := 0, meterRight := 0 } }
          .ok (decide (1 < Payload.u8 q 0)) data)) ∧
    (∃ runs : Vector MixRun 24,
      exec (.clearLatches p q) s = .next (s.replied p ⟨0x31, q⟩ { s.engine with runs := runs } .ok false []) ∧
      ∀ m : Fin 24, runs[m] =
        if (Payload.mixSet q 0).getLsbD m.val = true then
          { s.engine.runs[m] with clip := false, near := false, guard := false }
        else s.engine.runs[m]) ∧
    ∃ clips nears guards : BitVec 24,
      exec (.readLatches p q) s =
        .next (s.replied p ⟨0x32, q⟩ s.engine .ok false
          (bytes24 clips.toNat ++ bytes24 nears.toNat ++ bytes24 guards.toNat ++
            (List.finRange 24).flatMap fun m => bytes16 (s.engine.runs[m]).gain)) ∧
      ∀ m : Fin 24, clips.getLsbD m.val = (s.engine.runs[m]).clip ∧ nears.getLsbD m.val = (s.engine.runs[m]).near ∧
        guards.getLsbD m.val = (s.engine.runs[m]).guard

/-! ### Level derivation and ramps (chapter 3) -/

/-- R45 to R48, R50: the two targets of a pair. A pair is silent when its input is off or patched to none, or when,
outside the talk override, its send is off, its level 0 or its mix muted. Otherwise the effective level is the sum of
the five terms, 0 or less gives 0, above 232 is held at 232, and the coefficient of the code is split by the pan. -/
def Obligations.DerivedTargets : Prop :=
  ∀ (t : Tables) (air : MixSet) (m : Fin 24) (i : Fin 64) (x : MixTable) (input : InputRec) (send : SendRec)
    (talks source : Bool) (trim : Int),
    x = t.mixes[m] → input = t.inputs[i] → send = x.sends[i] →
    talks = (air.getLsbD m.val && decide (t.talkSource ≠ none)) → source = (talks && decide (t.talkSource = some i)) →
    (∀ g : Fin 8, i ∈ (x.groups[g]).members → trim = (x.groups[g]).trim) →
    ((∀ g : Fin 8, i ∉ (x.groups[g]).members) → trim = 0) →
    (input.on = false ∨ input.patch = none ∨
        (source = false ∧ (send.on = false ∨ send.level = 0 ∨ x.record.mute = true)) →
      deriveTargets t air m i = (0, 0)) ∧
    (input.on = true → input.patch ≠ none →
      (source = true ∨ (send.on = true ∧ send.level ≠ 0 ∧ x.record.mute = false)) →
      ∀ sum : Int,
        sum = (if source = true ∧ send.level = 0 then 208 else (send.level : Int)) + input.trim + trim +
          x.record.master + (if talks = true ∧ source = false then x.record.dim else 0) →
        (sum ≤ 0 → deriveTargets t air m i = (0, 0)) ∧
        (0 < sum → ∀ c : Nat, c = coefficient (min sum 232).toNat →
          (send.pan = 0 → deriveTargets t air m i = (c, c)) ∧
          (0 < send.pan → send.pan ≤ 32 →
            deriveTargets t air m i = ((((c : Int) * (32 - send.pan) + 16) / 32).toNat, c)) ∧
          (send.pan < 0 → -32 ≤ send.pan →
            deriveTargets t air m i = (c, (((c : Int) * (32 + send.pan) + 16) / 32).toNat))))

/-- R49: each entry C of the coefficient table, for level codes 1 to 232, is 16,384 x 10^((L - 208)/40) rounded to the
nearest integer with an exact half rounded up: both sides of (2C - 1)/2 at most that value, and that value below
(2C + 1)/2, are raised to the 40th power. The table never decreases and ends at 65,226. -/
def Obligations.CoefficientTable : Prop :=
  (∀ code : Nat, 1 ≤ code → code ≤ 232 →
    (coefficient code = 0 ∨
      (2 * coefficient code - 1) ^ 40 * 10 ^ 208 ≤ (2 * 16384) ^ 40 * 10 ^ code) ∧
    (2 * 16384) ^ 40 * 10 ^ code < (2 * coefficient code + 1) ^ 40 * 10 ^ 208 ∧
    (code < 232 → coefficient code ≤ coefficient (code + 1))) ∧
  coefficient 232 = 65226

/-- R52, R55 to R57: a target that changes sets the step from the distance to the live value as it stands; one that does
not change leaves the side alone. R56: at a frame instant a live value below its target rises by the step or to the
target, whichever is less, and any other falls by the step or to the target, whichever is greater; target and step are
kept. From any live value the movement stays between that value and the target, and stands at the target from the 64th
frame instant on. -/
def Obligations.RampReachesTarget : Prop :=
  (∀ c : Coef, (c.live < c.target → c.move =
      { target := c.target, live := min (c.live + c.step) c.target, step := c.step }) ∧
    (c.target ≤ c.live → c.move =
      { target := c.target, live := max (c.live - c.step) c.target, step := c.step })) ∧
  (∀ (c : CoefPair) (target : Nat × Nat),
    c.retarget target = { left := c.left.retarget target.1, right := c.right.retarget target.2 }) ∧
  ∀ (c : Coef) (target : Nat),
    (target = c.target → c.retarget target = c) ∧
    (target ≠ c.target → ∀ d, d = c.retarget target →
      d = { target := target, live := c.live
            step := max 1 ((max target c.live - min target c.live + 63) / 64) } ∧
      (∀ k, min c.live target ≤ (Nat.repeat Coef.move k d).live ∧
        (Nat.repeat Coef.move k d).live ≤ max c.live target) ∧
      ∀ k, 64 ≤ k → (Nat.repeat Coef.move k d).live = target)

/-! ### The mix tables (chapter 2) -/

/-- R24, R28 to R32, R51: SET SEND and SET SEND ROW from the port in charge. A mix or an input out of range refuses the
whole request, then a mix awaiting recall. Otherwise every whole record is written with its broadcast; the reply is
PARTIAL when a member of the link set was passed over, and carries the set of mixes written and CLAMPED. -/
def Obligations.SendRequestsBroadcast : Prop :=
  ∀ (c : Instr) (code : Byte) (s : State) (p : Port) (q : Payload) (records : List (Byte × Byte × Byte × Byte)),
    s.idleAt p → s.engine.charge = p →
    (c = .setSend p q ∧ code = 0x20 ∧
        records = [(Payload.byte q 1, Payload.byte q 2, Payload.byte q 3, Payload.byte q 4)]) ∨
      (c = .setSendRow p q ∧ code = 0x21 ∧ ∃ rest, rest.length < 4 ∧
        q.data = (records.flatMap fun r => [r.1, r.2.1, r.2.2.1, r.2.2.2]) ++ rest) →
    ((Payload.u8 q 0 = 0 ∨ 24 < Payload.u8 q 0 ∨ ∃ r ∈ records, r.1.toNat = 0 ∨ 64 < r.1.toNat) →
      exec c s = .next (s.replied p ⟨code, q⟩ s.engine .badIndex false [])) ∧
    ∀ m : Fin 24, Payload.u8 q 0 = m.val + 1 → (∀ r ∈ records, 1 ≤ r.1.toNat ∧ r.1.toNat ≤ 64) →
      (MixSet.has s.engine.awaiting m = true →
        exec c s = .next (s.replied p ⟨code, q⟩ s.engine .awaitingRecall false [])) ∧
      (MixSet.has s.engine.awaiting m = false → ∃ e status written,
        exec c s = .next (s.replied p ⟨code, q⟩ e status (records.any sendOutside) (bytes24 written.toNat)) ∧
        Engine.SendsWritten s.engine e m records written ∧
        ((∃ m', s.engine.tables.linked m m' ∧ MixSet.has s.engine.awaiting m' = true) → status = .partly) ∧
        ((∀ m', s.engine.tables.linked m m' → MixSet.has s.engine.awaiting m' = false) → status = .ok))

/-- R28, R29, R34, R36, R51: SET MIX writes the present fields, each brought into its range, and reaches the mix's
targets when master offset, mute or dim is present; SET LINK SET writes the link set alone and reaches none. Either is
refused for a mix or a link set out of range, then for a mix awaiting recall. -/
def Obligations.MixRequests : Prop :=
  ∀ (s : State) (p : Port) (q : Payload), s.idleAt p → s.engine.charge = p →
    ((Payload.u8 q 0 = 0 ∨ 24 < Payload.u8 q 0 ∨ (Payload.present q 1 7 = true ∧ 8 < Payload.u8 q 12)) →
      exec (.setMix p q) s = .next (s.replied p ⟨0x23, q⟩ s.engine .badIndex false [])) ∧
    ((Payload.u8 q 0 = 0 ∨ 24 < Payload.u8 q 0 ∨ 8 < Payload.u8 q 1) →
      exec (.setLinkSet p q) s = .next (s.replied p ⟨0x27, q⟩ s.engine .badIndex false [])) ∧
    ∀ (m : Fin 24) (x : MixTable) (k : Option (Fin 8)), Payload.u8 q 0 = m.val + 1 → x = s.engine.tables.mixes[m] →
      (Payload.u8 q 1 = numberFor k →
        (MixSet.has s.engine.awaiting m = true →
          exec (.setLinkSet p q) s = .next (s.replied p ⟨0x27, q⟩ s.engine .awaitingRecall false [])) ∧
        (MixSet.has s.engine.awaiting m = false →
          exec (.setLinkSet p q) s = .next (s.replied p ⟨0x27, q⟩
            { s.engine with tables := { s.engine.tables with
              mixes := s.engine.tables.mixes.set m { x with record := { x.record with linkSet := k } } } } .ok false
            []))) ∧
      (Payload.present q 1 7 = false ∨ Payload.u8 q 12 = numberFor k →
        (MixSet.has s.engine.awaiting m = true →
          exec (.setMix p q) s = .next (s.replied p ⟨0x23, q⟩ s.engine .awaitingRecall false [])) ∧
        (MixSet.has s.engine.awaiting m = false → ∃ (r : MixRec) (e : Engine),
          exec (.setMix p q) s = .next (s.replied p ⟨0x23, q⟩ e .ok
            ((Payload.present q 1 0 && decide (Payload.s8 q 2 < -120 ∨ 20 < Payload.s8 q 2)) ||
              (Payload.present q 1 1 && decide (1 < Payload.u8 q 3)) ||
              (Payload.present q 1 2 && decide (Payload.s8 q 4 < -1 ∨ 2 < Payload.s8 q 4)) ||
              (Payload.present q 1 3 && decide (Payload.u24 q 5 = 0 ∨ 8388607 < Payload.u24 q 5)) ||
              (Payload.present q 1 4 && decide (Payload.u16 q 8 = 0 ∨ 256 < Payload.u16 q 8)) ||
              (Payload.present q 1 5 && decide (Payload.s8 q 10 < -80 ∨ 0 < Payload.s8 q 10)) ||
              (Payload.present q 1 6 && decide (1 < Payload.u8 q 11))) []) ∧
          r = { master := if Payload.present q 1 0 then within (-120) 20 (Payload.s8 q 2) else x.record.master
                mute := if Payload.present q 1 1 then decide (Payload.u8 q 3 ≠ 0) else x.record.mute
                shift := if Payload.present q 1 2 then within (-1) 2 (Payload.s8 q 4) else x.record.shift
                ceiling := if Payload.present q 1 3 then max 1 (min 8388607 (Payload.u24 q 5)) else x.record.ceiling
                release := if Payload.present q 1 4 then max 1 (min 256 (Payload.u16 q 8)) else x.record.release
                dim := if Payload.present q 1 5 then within (-80) 0 (Payload.s8 q 10) else x.record.dim
                hold := if Payload.present q 1 6 then decide (Payload.u8 q 11 ≠ 0) else x.record.hold
                linkSet := if Payload.present q 1 7 then k else x.record.linkSet } ∧
          e = { s.engine with
                coefs := e.coefs
                tables := { s.engine.tables with
                  mixes := s.engine.tables.mixes.set m { x with record := r } } } ∧
          Engine.Retargets s.engine e fun m' _ =>
            decide (m' = m) && (Payload.present q 1 0 || Payload.present q 1 1 || Payload.present q 1 5)))

/-- R28, R29, R37, R51: SET GROUP is refused for a mix, a group or an entry out of range, then for a mix awaiting
recall, then for an entry held by another group of the mix. Otherwise the trim is brought into its range, the list
keeps each input at its first occurrence, and the inputs of the old and of the new list are recomputed in that mix. -/
def Obligations.GroupRequest : Prop :=
  ∀ (s : State) (p : Port) (q : Payload), s.idleAt p → s.engine.charge = p →
    ((Payload.u8 q 0 = 0 ∨ 24 < Payload.u8 q 0 ∨ Payload.u8 q 1 = 0 ∨ 8 < Payload.u8 q 1 ∨
        ∃ b ∈ q.data, b.toNat = 0 ∨ 64 < b.toNat) →
      exec (.setGroup p q) s = .next (s.replied p ⟨0x25, q⟩ s.engine .badIndex false [])) ∧
    ∀ (m : Fin 24) (g : Fin 8) (l : List (Fin 64)) (x : MixTable), Payload.u8 q 0 = m.val + 1 →
      Payload.u8 q 1 = g.val + 1 → q.data.map BitVec.toNat = l.map (fun i => i.val + 1) → x = s.engine.tables.mixes[m] →
      (MixSet.has s.engine.awaiting m = true →
        exec (.setGroup p q) s = .next (s.replied p ⟨0x25, q⟩ s.engine .awaitingRecall false [])) ∧
      (MixSet.has s.engine.awaiting m = false →
        ((∃ g' : Fin 8, g' ≠ g ∧ ∃ i ∈ l, i ∈ (x.groups[g']).members) →
          exec (.setGroup p q) s = .next (s.replied p ⟨0x25, q⟩ s.engine .groupConflict false [])) ∧
        ((∀ g' : Fin 8, g' ≠ g → ∀ i ∈ l, i ∉ (x.groups[g']).members) → ∃ e : Engine,
          exec (.setGroup p q) s = .next (s.replied p ⟨0x25, q⟩ e .ok
            (decide (Payload.s8 q 2 < -80 ∨ 20 < Payload.s8 q 2)) []) ∧
          e = { s.engine with
                coefs := e.coefs
                tables := { s.engine.tables with
                  mixes := s.engine.tables.mixes.set m { x with
                    groups := x.groups.set g ⟨within (-80) 20 (Payload.s8 q 2), l.eraseDups⟩ } } } ∧
          Engine.Retargets s.engine e fun m' i =>
            decide (m' = m) && decide (i ∈ (x.groups[g]).members ∨ i ∈ l)))

/-- R20, R28, R29, R39, R51: SET INPUT is refused for an input or a patch out of range, then while the input section is
awaiting recall. Otherwise it writes the present fields; the input is recomputed in every mix when trim or on changes,
or patch between none and a channel. -/
def Obligations.InputRequest : Prop :=
  ∀ (s : State) (p : Port) (q : Payload), s.idleAt p → s.engine.charge = p →
    ((Payload.u8 q 0 = 0 ∨ 64 < Payload.u8 q 0 ∨ (Payload.present q 1 0 = true ∧ 64 < Payload.u8 q 2)) →
      exec (.setInput p q) s = .next (s.replied p ⟨0x28, q⟩ s.engine .badIndex false [])) ∧
    ∀ (i : Fin 64) (patch : Option (Fin 64)) (x y : InputRec), Payload.u8 q 0 = i.val + 1 →
      (Payload.present q 1 0 = false ∨ Payload.u8 q 2 = numberFor patch) →
      x = s.engine.tables.inputs[i] →
      y = { patch := if Payload.present q 1 0 then patch else x.patch
            trim := if Payload.present q 1 1 then within (-24) 24 (Payload.s8 q 3) else x.trim
            inverted := if Payload.present q 1 2 then decide (Payload.u8 q 4 ≠ 0) else x.inverted
            on := if Payload.present q 1 3 then decide (Payload.u8 q 5 ≠ 0) else x.on } →
      (s.engine.inputsAwaiting = true →
        exec (.setInput p q) s = .next (s.replied p ⟨0x28, q⟩ s.engine .awaitingRecall false [])) ∧
      (s.engine.inputsAwaiting = false → ∃ e : Engine,
        exec (.setInput p q) s = .next (s.replied p ⟨0x28, q⟩ e .ok
          ((Payload.present q 1 1 && decide (Payload.s8 q 3 < -24 ∨ 24 < Payload.s8 q 3)) ||
            (Payload.present q 1 2 && decide (1 < Payload.u8 q 4)) ||
            (Payload.present q 1 3 && decide (1 < Payload.u8 q 5))) []) ∧
        e = { s.engine with
              coefs := e.coefs
              tables := { s.engine.tables with inputs := s.engine.tables.inputs.set i y } } ∧
        Engine.Retargets s.engine e fun _ i' =>
          decide (i' = i) && decide (x.trim ≠ y.trim ∨ x.on ≠ y.on ∨ (x.patch = none ↔ y.patch ≠ none)))

/-- R25, R29, R41, R42, R51: SET TALK SOURCE from the port in charge writes the talk source and recomputes every mix
whose talking changes or that talks after it; TALK of either port adds mixes to that port's talk set or removes them,
recomputes every mix whose talking changes, and returns the set; the other port's set is kept. -/
def Obligations.TalkRequests : Prop :=
  ∀ (s : State) (p : Port) (q : Payload), s.idleAt p →
    (s.engine.charge = p →
      (64 < Payload.u8 q 0 →
        exec (.setTalkSource p q) s = .next (s.replied p ⟨0x2A, q⟩ s.engine .badIndex false [])) ∧
      ∀ source : Option (Fin 64), Payload.u8 q 0 = numberFor source →
        (s.engine.inputsAwaiting = true →
          exec (.setTalkSource p q) s = .next (s.replied p ⟨0x2A, q⟩ s.engine .awaitingRecall false [])) ∧
        (s.engine.inputsAwaiting = false → ∃ e : Engine,
          exec (.setTalkSource p q) s = .next (s.replied p ⟨0x2A, q⟩ e .ok false []) ∧
          e = { s.engine with coefs := e.coefs, tables := { s.engine.tables with talkSource := source } } ∧
          Engine.Retargets s.engine e fun m _ =>
            ((s.engine.talkHome ||| s.engine.talkGuest).getLsbD m.val && decide (s.engine.tables.talkSource ≠ none)) !=
                ((s.engine.talkHome ||| s.engine.talkGuest).getLsbD m.val && decide (source ≠ none)) ||
              ((s.engine.talkHome ||| s.engine.talkGuest).getLsbD m.val && decide (source ≠ none)))) ∧
    ∀ air : MixSet,
      air = (if Payload.u8 q 3 = 0 then s.engine.talkSet p &&& ~~~ (Payload.mixSet q 0)
        else s.engine.talkSet p ||| Payload.mixSet q 0) →
      ∃ e : Engine,
        exec (.talk p q) s =
          .next (s.replied p ⟨0x2B, q⟩ e .ok (decide (1 < Payload.u8 q 3)) (bytes24 air.toNat)) ∧
        e = { s.engine with
              coefs := e.coefs
              talkHome := if p = .home then air else s.engine.talkHome
              talkGuest := if p = .guest then air else s.engine.talkGuest } ∧
        Engine.Retargets s.engine e fun m _ =>
          decide (s.engine.tables.talkSource ≠ none) &&
            ((s.engine.talkHome ||| s.engine.talkGuest).getLsbD m.val != (e.talkHome ||| e.talkGuest).getLsbD m.val)

/-- R33, R35, R38, R40, R60 with the layouts of 11.5: the reads of the mix tables and of the coefficients return what
they hold, change nothing, and refuse a mix or a group out of range. -/
def Obligations.TableReads : Prop :=
  ∀ (s : State) (p : Port) (q : Payload), s.idleAt p →
    ((Payload.u8 q 0 = 0 ∨ 24 < Payload.u8 q 0) →
      exec (.readSendRow p q) s = .next (s.replied p ⟨0x22, q⟩ s.engine .badIndex false []) ∧
      exec (.readMix p q) s = .next (s.replied p ⟨0x24, q⟩ s.engine .badIndex false []) ∧
      exec (.readGroup p q) s = .next (s.replied p ⟨0x26, q⟩ s.engine .badIndex false []) ∧
      exec (.readEffective p q) s = .next (s.replied p ⟨0x33, q⟩ s.engine .badIndex false [])) ∧
    (Payload.u8 q 1 = 0 ∨ 8 < Payload.u8 q 1 →
      exec (.readGroup p q) s = .next (s.replied p ⟨0x26, q⟩ s.engine .badIndex false [])) ∧
    (∀ (m : Fin 24) (x : MixTable), Payload.u8 q 0 = m.val + 1 → x = s.engine.tables.mixes[m] →
      exec (.readSendRow p q) s = .next (s.replied p ⟨0x22, q⟩ s.engine .ok false
        ((List.finRange 64).flatMap fun i =>
          [byteOf (i.val + 1), byteOf (x.sends[i]).level, BitVec.ofInt 8 (x.sends[i]).pan,
            if (x.sends[i]).on = true then 1 else 0])) ∧
      exec (.readMix p q) s = .next (s.replied p ⟨0x24, q⟩ s.engine .ok false
        ([BitVec.ofInt 8 x.record.master, if x.record.mute = true then 1 else 0, BitVec.ofInt 8 x.record.shift] ++
          bytes24 x.record.ceiling ++ bytes16 x.record.release ++
          [BitVec.ofInt 8 x.record.dim, if x.record.hold = true then 1 else 0,
            byteOf (numberFor x.record.linkSet)])) ∧
      exec (.readEffective p q) s = .next (s.replied p ⟨0x33, q⟩ s.engine .ok false
        ((List.finRange 64).flatMap fun i =>
          bytes16 ((s.engine.coefs[m])[i]).left.target ++ bytes16 ((s.engine.coefs[m])[i]).right.target ++
            bytes16 ((s.engine.coefs[m])[i]).left.live ++ bytes16 ((s.engine.coefs[m])[i]).right.live)) ∧
      ∀ g : Fin 8, Payload.u8 q 1 = g.val + 1 →
        exec (.readGroup p q) s = .next (s.replied p ⟨0x26, q⟩ s.engine .ok false
          ([BitVec.ofInt 8 (x.groups[g]).trim, byteOf (x.groups[g]).members.length] ++
            (x.groups[g]).members.map fun i => byteOf (i.val + 1)))) ∧
    exec (.readInputs p q) s = .next (s.replied p ⟨0x29, q⟩ s.engine .ok false
      (((List.finRange 64).flatMap fun i : Fin 64 =>
          [byteOf (numberFor (s.engine.tables.inputs[i]).patch),
            BitVec.ofInt 8 (s.engine.tables.inputs[i]).trim,
            if (s.engine.tables.inputs[i]).inverted = true then 1 else 0,
            if (s.engine.tables.inputs[i]).on = true then 1 else 0,
            match (s.engine.tables.inputs[i]).patch with
            | none => 0
            | some c => if (s.engine.selector.delivered[c]).isSome = true then 1 else 0]) ++
        [byteOf (numberFor s.engine.tables.talkSource)]))

/-! ### The scene library (chapter 6) -/

/-- R94 to R96, R100, R101, R109: STORE SCENE and ERASE SCENE from the port in charge are refused for a slot out of
range, then while an operation is in progress, then for a protected slot. Otherwise the reply is STARTED, the result
record is the operation's, and a store has taken the whole scene state and the name into the staging copy, characters
outside 0x20 to 0x7E as spaces. At the end of a store the slot holds the staging copy and is VALID, at the end of an
erase it is in the erased pattern and EMPTY; its protect flag is kept, the outcome is DONE, the library is no longer
busy, and OP_DONE is raised. -/
def Obligations.StoreAndErase : Prop :=
  (∀ (s : State) (p : Port) (q : Payload) (lib : Library), s.idleAt p → s.engine.charge = p → lib = s.engine.library →
      ((Payload.u8 q 0 = 0 ∨ 32 < Payload.u8 q 0) →
        exec (.storeScene p q) s = .next (s.replied p ⟨0x40, q⟩ s.engine .badIndex false []) ∧
        exec (.eraseScene p q) s = .next (s.replied p ⟨0x43, q⟩ s.engine .badIndex false [])) ∧
      ∀ k : Fin 32, Payload.u8 q 0 = k.val + 1 →
        (lib.operation ≠ .idle →
          exec (.storeScene p q) s = .next (s.replied p ⟨0x40, q⟩ s.engine .libraryBusy false []) ∧
          exec (.eraseScene p q) s = .next (s.replied p ⟨0x43, q⟩ s.engine .libraryBusy false [])) ∧
        (lib.operation = .idle → (lib.slots[k]).protect = true →
          exec (.storeScene p q) s = .next (s.replied p ⟨0x40, q⟩ s.engine .slotProtected false []) ∧
          exec (.eraseScene p q) s = .next (s.replied p ⟨0x43, q⟩ s.engine .slotProtected false [])) ∧
        (lib.operation = .idle → (lib.slots[k]).protect = false →
          (∃ t, exec (.storeScene p q) s = .next t ∧
            s.Answers p ⟨0x40, q⟩
              { s.engine with
                library := { lib with
                  operation := .store k
                    (Vector.ofFn fun j : Fin 12 =>
                      if 0x20 ≤ Payload.u8 q (j.val + 1) ∧ Payload.u8 q (j.val + 1) ≤ 0x7E then Payload.byte q (j.val + 1)
                      else 0x20)
                    s.engine.tables
                  result := ⟨.store, some k, .inProgress, 0⟩ } }
              [] .started false [] t) ∧
          ∃ t, exec (.eraseScene p q) s = .next t ∧
            s.Answers p ⟨0x43, q⟩
              { s.engine with
                library := { lib with operation := .erase k, result := ⟨.erase, some k, .inProgress, 0⟩ } }
              [] .started false [] t)) ∧
  ∀ (s : State) (k : Fin 32) (lib : Library), s.engine.powered = true → lib = s.engine.library →
      (∀ name contents, lib.operation = .store k name contents → ∃ t, exec .storeWriteEnd s = .next t ∧
        s.Raises
          { s.engine with
            library := { lib with
              slots := lib.slots.set k ⟨.valid, (lib.slots[k]).protect, .written name contents⟩
              operation := .idle, result := { lib.result with outcome := .done } } }
          [.opDone] t) ∧
      (lib.operation = .erase k → ∃ t, exec .eraseEnd s = .next t ∧
        s.Raises
          { s.engine with
            library := { lib with
              slots := lib.slots.set k ⟨.empty, (lib.slots[k]).protect, .erased⟩
              operation := .idle, result := { lib.result with outcome := .done } } }
          [.opDone] t)

/-- R94, R95, R102, R107: RECALL SCENE from the port in charge is refused for a slot out of range, then while an
operation is in progress, then for an EMPTY or a DAMAGED slot; of a VALID slot it starts the verify phase. ABORT RECALL
is refused when no recall or start load is in progress; it ends one in its verify phase at once with ABORTED, and marks
one in its load phase to end at the write of the next item. -/
def Obligations.RecallAndAbort : Prop :=
  ∀ (s : State) (p : Port) (q : Payload) (lib : Library), s.idleAt p → s.engine.charge = p → lib = s.engine.library →
    ((Payload.u8 q 0 = 0 ∨ 32 < Payload.u8 q 0) →
      exec (.recallScene p q) s = .next (s.replied p ⟨0x41, q⟩ s.engine .badIndex false [])) ∧
    (∀ k : Fin 32, Payload.u8 q 0 = k.val + 1 →
      (lib.operation ≠ .idle →
        exec (.recallScene p q) s = .next (s.replied p ⟨0x41, q⟩ s.engine .libraryBusy false [])) ∧
      (lib.operation = .idle →
        ((lib.slots[k]).state = .empty →
          exec (.recallScene p q) s = .next (s.replied p ⟨0x41, q⟩ s.engine .slotEmpty false [])) ∧
        ((lib.slots[k]).state = .damaged →
          exec (.recallScene p q) s = .next (s.replied p ⟨0x41, q⟩ s.engine .slotDamaged false [])) ∧
        ((lib.slots[k]).state = .valid → ∃ t, exec (.recallScene p q) s = .next t ∧
          s.Answers p ⟨0x41, q⟩
            { s.engine with
              library := { lib with
                operation := .recall
                  { startLoad := false, slot := k, mixes := BitVec.ofNat 24 (Payload.u24 q 1)
                    classes := ⟨Payload.present q 4 0, Payload.present q 4 1, Payload.present q 4 2,
                      Payload.present q 4 3, Payload.present q 4 4⟩
                    phase := .verify }
                result := ⟨.recall, some k, .inProgress, 0⟩ } }
            [] .started false [] t))) ∧
    ((∀ j, lib.operation ≠ .recall j) →
      exec (.abortRecall p q) s = .next (s.replied p ⟨0x42, q⟩ s.engine .notRecalling false [])) ∧
    ∀ j, lib.operation = .recall j →
      (j.phase = .verify → ∃ t, exec (.abortRecall p q) s = .next t ∧
        s.Answers p ⟨0x42, q⟩
          { s.engine with
            library := { lib with operation := .idle, result := { lib.result with outcome := .aborted } } }
          [.opDone] .ok false [] t) ∧
      ∀ awaiting inputs aborting, j.phase = .load awaiting inputs aborting →
        exec (.abortRecall p q) s = .next (s.replied p ⟨0x42, q⟩
          { s.engine with
            library := { lib with operation := .recall { j with phase := .load awaiting inputs true } } } .ok false [])

/-- R102, R103, R106: the end of a verify phase. A slot whose contents agree goes on to the load phase, in which every
mix of the mix set, and the input section with INPUTS, is awaiting recall; with nothing to load the recall ends DONE.
A slot that does not agree becomes DAMAGED and the recall ends FAILED. The tables are not touched. That the input
section alone is awaiting recall too, though R104 loads it at once, is the model's reading (log 12); that memory found
degraded in the reading, and the name it then shows, are operands of the command is the model's choice (log 11).
R29, R103, R104: the mixes awaiting recall, and whether the input section is, are those of the load phase; in a verify
phase and with any other operation or none, nothing is awaiting recall. -/
def Obligations.RecallVerifyEnds : Prop :=
  (∀ (e : Engine) (j : RecallJob), e.library.operation = .recall j →
    (∀ awaiting inputs aborting, j.phase = .load awaiting inputs aborting →
      e.awaiting = awaiting ∧ e.inputsAwaiting = inputs) ∧
    (j.phase = .verify → e.awaiting = 0#24 ∧ e.inputsAwaiting = false)) ∧
  (∀ e : Engine, (∀ j, e.library.operation ≠ .recall j) → e.awaiting = 0#24 ∧ e.inputsAwaiting = false) ∧
  (∀ (mixes : MixSet) (m : Fin 24), MixSet.has mixes m = mixes.getLsbD m.val) ∧
  ∀ (s : State) (j : RecallJob) (degraded : Option SceneName) (lib : Library) (x : SceneSlot),
    s.engine.powered = true → s.settled → lib = s.engine.library → lib.operation = .recall j → j.phase = .verify →
    x = lib.slots[j.slot] →
    ((∃ name contents, degraded = none ∧ x.image = .written name contents) →
      ((j.mixes ≠ 0#24 ∨ j.classes.inputs = true) →
        exec (.recallVerifyEnd degraded) s = .next (s.setEngine
          { s.engine with
            library := { lib with operation := .recall { j with phase := .load j.mixes j.classes.inputs false } } })) ∧
      (j.mixes = 0#24 → j.classes.inputs = false → ∃ t, exec (.recallVerifyEnd degraded) s = .next t ∧
        s.Raises
          { s.engine with library := { lib with operation := .idle, result := { lib.result with outcome := .done } } }
          [.opDone] t)) ∧
    ∀ y : SceneSlot, y.state = .damaged → y.protect = x.protect →
      (degraded = none → (∀ name contents, x.image ≠ .written name contents) → y.image = x.image →
        ∃ t, exec (.recallVerifyEnd degraded) s = .next t ∧
          s.Raises
            { s.engine with
              library := { lib with
                slots := lib.slots.set j.slot y, operation := .idle
                result := { lib.result with outcome := .failed } } }
            [.opDone] t) ∧
      ∀ name, degraded = some name → y.image = .broken name →
        ∃ t, exec (.recallVerifyEnd degraded) s = .next t ∧
          s.Raises
            { s.engine with
              library := { lib with
                slots := lib.slots.set j.slot y, operation := .idle
                result := { lib.result with outcome := .failed } } }
            [.opDone] t

/-- R53, R104 to R107: the load of the lowest mix awaiting recall writes the classes of the class set into it, all of
its inputs are recomputed, it leaves the awaiting-recall set and counts in mixes loaded. The load of the input section,
once no mix is awaiting recall, writes the input records and the talk source, and every pair is recomputed. The recall
ends at the last item with DONE, or at any item with ABORTED once an abort has been accepted, and raises OP_DONE. -/
def Obligations.RecallLoads : Prop :=
  (∀ (x y : MixTable) (classes : ClassSet), x.load classes y =
    { record :=
        { master := if classes.mix = true then y.record.master else x.record.master
          mute := if classes.mix = true then y.record.mute else x.record.mute
          shift := if classes.mix = true then y.record.shift else x.record.shift
          ceiling := if classes.guard = true then y.record.ceiling else x.record.ceiling
          release := if classes.guard = true then y.record.release else x.record.release
          dim := if classes.mix = true then y.record.dim else x.record.dim
          hold := if classes.mix = true then y.record.hold else x.record.hold
          linkSet := if classes.mix = true then y.record.linkSet else x.record.linkSet }
      sends := if classes.sends = true then y.sends else x.sends
      groups := if classes.groups = true then y.groups else x.groups }) ∧
  ∀ (s : State) (j : RecallJob) (awaiting : MixSet) (inputs aborting : Bool) (name : SceneName) (scene : Tables)
    (lib : Library), s.engine.powered = true → lib = s.engine.library → lib.operation = .recall j →
    j.phase = .load awaiting inputs aborting → (lib.slots[j.slot]).image = .written name scene →
    (∀ (m : Fin 24) (x y : MixTable) (rest : MixSet) (ended : Bool), awaiting.getLsbD m.val = true →
      (∀ m' < m, awaiting.getLsbD m'.val = false) → x = s.engine.tables.mixes[m] → y = scene.mixes[m] →
      rest = awaiting &&& ~~~ (BitVec.twoPow 24 m.val) → ended = (aborting || (decide (rest = 0#24) && !inputs)) →
      ∃ (e : Engine) (t : State),
        exec .mixLoad s = .next t ∧ s.Raises e (if ended = true then [.opDone] else []) t ∧
        e = { s.engine with
              coefs := e.coefs
              tables := { s.engine.tables with
                mixes := s.engine.tables.mixes.set m (x.load j.classes y) }
              library := { lib with
                operation := if ended then .idle else .recall { j with phase := .load rest inputs aborting }
                result := { lib.result with
                  mixesLoaded := lib.result.mixesLoaded + 1
                  outcome := if aborting then .aborted else if ended then .done else lib.result.outcome } } } ∧
        Engine.Retargets s.engine e fun m' _ => decide (m' = m)) ∧
    (awaiting = 0#24 → inputs = true → ∃ (e : Engine) (t : State),
      exec .inputSectionLoad s = .next t ∧ s.Raises e [.opDone] t ∧
      e = { s.engine with
            coefs := e.coefs
            tables := { s.engine.tables with inputs := scene.inputs, talkSource := scene.talkSource }
            library := { lib with
              operation := .idle, result := { lib.result with outcome := if aborting then .aborted else .done } } } ∧
      Engine.Retargets s.engine e fun _ _ => true)

/-- R96 to R98: the end of the reading of a slot in verify-all sets its state: EMPTY in the erased pattern, VALID when
the check value agrees, else DAMAGED. After slot 32 the library looks at the start scene: with none OP_DONE is raised;
a VALID one is loaded at once, all mixes and all classes; any other gives SKIPPED with OP_DONE. That memory found
degraded in the reading, and the name it then shows, are operands of the command is the model's choice (log 11). -/
def Obligations.VerifyAllAndStartScene : Prop :=
  ∀ (s : State) (k : Fin 32) (degraded : Option SceneName) (lib : Library) (x y : SceneSlot)
    (slots : Vector SceneSlot 32), s.engine.powered = true → s.settled → lib = s.engine.library →
    lib.operation = .verifyAll k → x = lib.slots[k] → slots = lib.slots.set k y → y.protect = x.protect →
    y.image = (match degraded with | none => x.image | some name => .broken name) →
    (y.image = .erased → y.state = .empty) →
    (∀ name contents, y.image = .written name contents → y.state = .valid) →
    (∀ name, y.image = .broken name → y.state = .damaged) →
    (∀ next : Fin 32, next.val = k.val + 1 →
      exec (.verifySlotDone degraded) s = .next (s.setEngine
        { s.engine with library := { lib with slots := slots, operation := .verifyAll next } })) ∧
    (k.val = 31 →
      (lib.startScene = none → ∃ t, exec (.verifySlotDone degraded) s = .next t ∧
        s.Raises { s.engine with library := { lib with slots := slots, operation := .idle } } [.opDone] t) ∧
      ∀ start, lib.startScene = some start →
        ((slots[start]).state = .valid →
          exec (.verifySlotDone degraded) s = .next (s.setEngine
            { s.engine with
              library := { lib with
                slots := slots
                operation := .recall
                  { startLoad := true, slot := start, mixes := BitVec.allOnes 24
                    classes := ⟨true, true, true, true, true⟩
                    phase := .load (BitVec.allOnes 24) true false }
                result := ⟨.startLoad, some start, .inProgress, 0⟩ } })) ∧
        ((slots[start]).state ≠ .valid → ∃ t, exec (.verifySlotDone degraded) s = .next t ∧
          s.Raises
            { s.engine with
              library := { lib with
                slots := slots, operation := .idle, result := ⟨.startLoad, some start, .skipped, 0⟩ } }
            [.opDone] t))

/-- R110 to R113 with the layouts of 11.5: PROTECT SCENE and SET START SCENE from the home port, and the two reads of
the library. The name of an erased slot is 12 spaces, except while the slot is UNCHECKED, where the manual states no
name (log 14). -/
def Obligations.SlotSettingsAndReads : Prop :=
  ∀ (s : State) (p : Port) (q : Payload) (lib : Library), s.idleAt p → lib = s.engine.library →
    (p = .home →
      ((Payload.u8 q 0 = 0 ∨ 32 < Payload.u8 q 0) →
        exec (.protectScene p q) s = .next (s.replied p ⟨0x44, q⟩ s.engine .badIndex false [])) ∧
      (∀ k : Fin 32, Payload.u8 q 0 = k.val + 1 →
        exec (.protectScene p q) s = .next (s.replied p ⟨0x44, q⟩
          { s.engine with
            library := { lib with
              slots := lib.slots.set k { lib.slots[k] with protect := decide (Payload.u8 q 1 ≠ 0) } } } .ok
          (decide (1 < Payload.u8 q 1)) [])) ∧
      (32 < Payload.u8 q 0 →
        exec (.setStartScene p q) s = .next (s.replied p ⟨0x45, q⟩ s.engine .badIndex false [])) ∧
      ∀ start : Option (Fin 32), Payload.u8 q 0 = numberFor start →
        exec (.setStartScene p q) s = .next (s.replied p ⟨0x45, q⟩
          { s.engine with library := { lib with startScene := start } } .ok false [])) ∧
    (3 < Payload.u8 q 0 →
      exec (.readDirectory p q) s = .next (s.replied p ⟨0x46, q⟩ s.engine .badIndex false [])) ∧
    (∀ (page : Fin 4) (code : SlotState → Byte), Payload.u8 q 0 = page.val →
      code .unchecked = 0 → code .empty = 1 → code .valid = 2 → code .damaged = 3 →
      ∃ names : Fin 32 → SceneName,
        (∀ k name contents, (lib.slots[k]).image = .written name contents → names k = name) ∧
        (∀ k name, (lib.slots[k]).image = .broken name → names k = name) ∧
        (∀ k, (lib.slots[k]).image = .erased → (lib.slots[k]).state ≠ .unchecked →
          names k = Vector.replicate 12 0x20) ∧
        exec (.readDirectory p q) s = .next (s.replied p ⟨0x46, q⟩ s.engine .ok false
          (((List.finRange 32).filter fun k => decide (k.val / 8 = page.val)).flatMap (fun k =>
              [code (lib.slots[k]).state, if (lib.slots[k]).protect = true then 1 else 0] ++ (names k).toList) ++
            [byteOf (numberFor lib.startScene)]))) ∧
    ∀ (op : ResultOp → Byte) (outcome : ResultOutcome → Byte), op .none = 0 → op .store = 1 → op .recall = 2 →
      op .erase = 3 → op .startLoad = 4 → outcome .inProgress = 0 → outcome .done = 1 → outcome .aborted = 2 →
      outcome .failed = 3 → outcome .skipped = 4 →
      exec (.readResult p q) s = .next (s.replied p ⟨0x47, q⟩ s.engine .ok false
        [op lib.result.op, byteOf (numberFor lib.result.slot), outcome lib.result.outcome,
          byteOf lib.result.mixesLoaded])

/-! ### The pack bus (chapter 7) -/

/-- R115, R118, R123: a pack bus frame carries to each address the outputs of its slot's mix while the slot is ONLINE,
assigned and not silenced, else zeros. The downstream part, sent once all windows are taken or all picked slots read
and their events applied, carries a status record for every ONLINE slot and every message queued; it ends the sweep,
and the counter advances modulo 64. That the marks of the sweep end with it is the model's reading (log 22), and the
order of the records, by address, and of the messages, as queued, its choice (log 29).

11.7: an audio frame is 192 bytes, for each address in order a left and a right sample of 3 signed bytes, most
significant first. A status record is 7 bytes: address, state, assigned mix, selected target, signed target value,
engineer hold and silence flag. A downstream message is its code and the address. -/
def Obligations.AudioAndDownstream : Prop :=
  (∀ frame : AudioFrame, frame.bytes.length = 192 ∧
    ∀ a : Fin 32, ∃ h m l h' m' l' : Byte,
      (frame.bytes.drop (6 * a.val)).take 6 = [h, m, l, h', m', l'] ∧
      h ++ m ++ l = BitVec.ofInt 24 frame[a].1 ∧ h' ++ m' ++ l' = BitVec.ofInt 24 frame[a].2) ∧
  (∀ (r : StatusRec) (state : PackState → Byte), state .empty = 0 → state .online = 1 → state .lost = 2 →
    state .conflict = 3 →
      r.bytes = [byteOf (r.slot.val + 1), state r.state, byteOf (numberFor r.assigned), byteOf r.target.val,
        BitVec.ofInt 8 r.value, if r.hold = true then 1 else 0, if r.silence = true then 1 else 0]) ∧
  (∀ a : Fin 32, messageBytes (.welcome, a) = [0x01, byteOf (a.val + 1)] ∧
    messageBytes (.occupied, a) = [0x02, byteOf (a.val + 1)] ∧
    messageBytes (.released, a) = [0x03, byteOf (a.val + 1)]) ∧
  ∀ (s : State) (packs : PackBus), s.engine.powered = true → s.settled → packs = s.engine.packs →
    (packs.frameDue = true → ∃ frame : AudioFrame,
      exec .packBusFrame s = .next (s.setEngine
        { s.engine with packs := { packs with frameDue := false, sentAudio := some frame } }) ∧
      ∀ (a : Fin 32) (x : PackSlot), x = packs.slots[a] →
        (∀ m, x.state = .online → x.assigned = some m → x.silence = false →
          frame[a] = ((s.engine.runs[m]).outLeft, (s.engine.runs[m]).outRight)) ∧
        (x.state ≠ .online ∨ x.assigned = none ∨ x.silence = true → frame[a] = (0, 0))) ∧
    (packs.sweep = .downstream ∨ (packs.sweep = .reading [] ∧ packs.keyEvents = []) →
      ∃ (part : Downstream) (counter : Fin 64),
        exec .downstreamPart s = .next (s.setEngine
          { s.engine with
            packs := { packs with
              sweep := .idle, sweepCounter := counter, pendingMarks := 0#32, messages := []
              sentDownstream := some part } }) ∧
        counter.val = (packs.sweepCounter.val + 1) % 64 ∧ part.messages = packs.messages ∧
        part.records.map (fun r => r.slot) =
          (List.finRange 32).filter (fun a => decide ((packs.slots[a]).state = .online)) ∧
        ∀ r ∈ part.records, ∀ x : PackSlot, x = packs.slots[r.slot] →
          r.state = .online ∧ r.assigned = x.assigned ∧ r.target = x.target ∧ r.silence = x.silence ∧
          (x.assigned = none → r.value = 0 ∧ r.hold = false) ∧
          ∀ m, x.assigned = some m →
            r.hold = (s.engine.tables.mixes[m]).record.hold ∧
            (x.target.val = 0 → r.value = (s.engine.tables.mixes[m]).record.master) ∧
            ∀ g : Fin 8, x.target.val = g.val + 1 → r.value = ((s.engine.tables.mixes[m]).groups[g]).trim)

/-- R118 to R120, 11.7: a sweep begins with its poll. In the poll an ONLINE slot that is alive has its miss run cleared
and keeps its pending mark, one that is not alive counts a miss and becomes LOST at the sixteenth with PACK_LOST, and
every other slot is left alone. An attach phase follows when the counter is 0, else a read phase. That the answers of
all addresses are applied in one step is the model's choice (log 27). -/
def Obligations.SweepAndPoll : Prop :=
  ∀ (s : State) (packs : PackBus), s.engine.powered = true → s.settled → packs = s.engine.packs →
    (packs.sweep = .idle →
      exec .sweepStart s = .next (s.setEngine { s.engine with packs := { packs with sweep := .poll } })) ∧
    ∀ answers : BitVec 64, packs.sweep = .poll → ∃ (e : Engine) (t : State) (lost : Nat),
      exec (.pollPhase answers) s = .next t ∧ s.Raises e (List.replicate lost .packLost) t ∧
      lost = (List.finRange 32).countP (fun a => decide ((packs.slots[a]).state = .online) &&
        !answers.getLsbD (2 * a.val) && decide (15 ≤ (packs.slots[a]).missRun)) ∧
      e = { s.engine with
            packs := { packs with
              slots := e.packs.slots, pendingMarks := e.packs.pendingMarks
              sweep := if packs.sweepCounter.val = 0 then .attach 0 else .read } } ∧
      ∀ (a : Fin 32) (x y : PackSlot), x = packs.slots[a] → y = e.packs.slots[a] →
        (x.state ≠ .online → y = x ∧ e.packs.pendingMarks.getLsbD a.val = false) ∧
        (x.state = .online → answers.getLsbD (2 * a.val) = true →
          y = { x with missRun := 0 } ∧ e.packs.pendingMarks.getLsbD a.val = answers.getLsbD (2 * a.val + 1)) ∧
        (x.state = .online → answers.getLsbD (2 * a.val) = false →
          e.packs.pendingMarks.getLsbD a.val = false ∧
          (x.missRun < 15 → y = { x with missRun := x.missRun + 1 }) ∧
          (15 ≤ x.missRun → y = { x with state := .lost, missRun := 16, held := none }))

/-- R121, R122, 11.7: the arbiter picks at most two of the ONLINE slots with a pending mark, those that come first from
the address after the pointer, wrapping. With the last of their reads the pointer takes the address of the last one;
with none picked it keeps its value. The read of a picked slot hands on the codes of a good report, and a single
overflow marker for a bad or missing one; nothing for a slot no longer ONLINE. -/
def Obligations.ArbiterAndReports : Prop :=
  ∀ (s : State) (packs : PackBus) (distance : Fin 32 → Nat), s.engine.powered = true → s.settled →
    packs = s.engine.packs → (∀ a, distance a = (a.val + 31 - packs.pointer.val) % 32) →
    (packs.sweep = .read → ∃ picked : List (Fin 32),
      exec .readPhase s = .next (s.setEngine
        { s.engine with packs := { packs with sweep := .reading picked } }) ∧
      picked.Pairwise (fun a b => distance a < distance b) ∧
      picked.length = min 2 ((List.finRange 32).countP fun a =>
        decide ((packs.slots[a]).state = .online) && packs.pendingMarks.getLsbD a.val) ∧
      (∀ a ∈ picked, (packs.slots[a]).state = .online ∧ packs.pendingMarks.getLsbD a.val = true) ∧
      ∀ a, (packs.slots[a]).state = .online → packs.pendingMarks.getLsbD a.val = true → a ∉ picked →
        ∀ b ∈ picked, distance b < distance a) ∧
    ∀ (a : Fin 32) (rest : List (Fin 32)) (report : Option (List Byte)) (good : List Byte → Prop),
      packs.sweep = .reading (a :: rest) →
      (∀ codes, good codes ↔ ∃ count check, report = some (count :: (codes ++ [check])) ∧ codes.length ≤ 5 ∧
        count.toNat = codes.length ∧ ((count :: (codes ++ [check])).map BitVec.toNat).sum % 256 = 0) →
      ∃ handed : List (Fin 32 × Byte),
        exec (.keyReportRead a report) s = .next (s.setEngine
          { s.engine with
            packs := { packs with
              sweep := .reading rest, pointer := if rest = [] then a else packs.pointer
              keyEvents := packs.keyEvents ++ handed } }) ∧
        ((packs.slots[a]).state ≠ .online → handed = []) ∧
        ((packs.slots[a]).state = .online →
          (∀ codes, good codes → handed = codes.map fun c => (a, c)) ∧
          ((∀ codes, ¬ good codes) → handed = [(a, 0xFF)]))

/-- R117, R125 to R128, R133: the outcome of an announce window at its slot. The windows are taken in ascending order,
and the downstream part follows the last. -/
def Obligations.WindowOutcomes : Prop :=
  ∀ (s : State) (packs : PackBus) (a : Fin 32) (x : PackSlot) (received : Received) (sweep : SweepPart)
    (clean : PackIdentity → Prop), s.engine.powered = true → s.settled → packs = s.engine.packs →
    packs.sweep = .attach a → x = packs.slots[a] → (∀ b, b.val = a.val + 1 → sweep = .attach b) →
    (a.val = 31 → sweep = .downstream) →
    (∀ id, clean id ↔ ∃ check, received = .bytes (id.toList ++ [check]) ∧
      ((id.toList ++ [check]).map BitVec.toNat).sum % 256 = 0) →
    (received = .nothing →
      exec (.announceWindow a received) s =
        .next (s.setEngine { s.engine with packs := { packs with sweep := sweep } })) ∧
    (received ≠ .nothing → (∀ id, ¬ clean id) → ∃ t, exec (.announceWindow a received) s = .next t ∧
      s.Raises
        { s.engine with
          packs := { packs with
            sweep := sweep
            slots := packs.slots.set a (if x.state = .online then x else { x with state := .conflict, held := none }) } }
        [.packConflict] t) ∧
    ∀ id, clean id →
      (x.state ≠ .online → ∃ (slots : Vector PackSlot 32) (t : State),
        exec (.announceWindow a received) s = .next t ∧
        s.Raises
          { s.engine with
            packs := { packs with sweep := sweep, slots := slots, messages := packs.messages ++ [(.welcome, a)] } }
          [.packAttach] t ∧
        slots[a] =
          { state := .online, identity := some id, assigned := x.assigned, missRun := 0
            target := if x.identity = some id then x.target else 0
            silence := if x.identity = some id then x.silence else false, held := none } ∧
        ∀ b, b ≠ a → slots[b] =
          if (packs.slots[b]).identity = some id then
            { state := .empty, identity := none, assigned := (packs.slots[b]).assigned, missRun := 0, target := 0
              silence := false, held := none }
          else packs.slots[b]) ∧
      (x.state = .online → x.identity = some id → ∃ t, exec (.announceWindow a received) s = .next t ∧
        s.Raises
          { s.engine with
            packs := { packs with
              sweep := sweep, slots := packs.slots.set a { x with missRun := 0, held := none }
              messages := packs.messages ++ [(.welcome, a)] } }
          [.packAttach] t) ∧
      (x.state = .online → x.identity ≠ some id → ∃ t, exec (.announceWindow a received) s = .next t ∧
        s.Raises
          { s.engine with packs := { packs with sweep := sweep, messages := packs.messages ++ [(.occupied, a)] } }
          [.packConflict] t)

/-- R130 to R132, R138, R148 with the layouts of 11.5: ASSIGN PACK and RELEASE PACK from the port in charge, READ PACK
TABLE, and READ CALLS, which empties the call list that it returns. -/
def Obligations.PackAndCallRequests : Prop :=
  ∀ (s : State) (p : Port) (q : Payload) (packs : PackBus), s.idleAt p → packs = s.engine.packs →
    (s.engine.charge = p →
      (Payload.u8 q 0 = 0 ∨ 32 < Payload.u8 q 0 →
        exec (.assignPack p q) s = .next (s.replied p ⟨0x50, q⟩ s.engine .badIndex false []) ∧
        exec (.releasePack p q) s = .next (s.replied p ⟨0x51, q⟩ s.engine .badIndex false [])) ∧
      (24 < Payload.u8 q 1 →
        exec (.assignPack p q) s = .next (s.replied p ⟨0x50, q⟩ s.engine .badIndex false [])) ∧
      ∀ (a : Fin 32) (x : PackSlot), Payload.u8 q 0 = a.val + 1 → x = packs.slots[a] →
        (∀ m : Option (Fin 24), Payload.u8 q 1 = numberFor m →
          exec (.assignPack p q) s = .next (s.replied p ⟨0x50, q⟩
            { s.engine with
              packs := { packs with slots := packs.slots.set a { x with assigned := m, target := 0, held := none } } }
            .ok false [])) ∧
        exec (.releasePack p q) s = .next (s.replied p ⟨0x51, q⟩
          { s.engine with
            packs := { packs with
              slots := packs.slots.set a
                { state := .empty, identity := none, assigned := x.assigned, missRun := 0, target := 0
                  silence := false, held := none }
              messages := packs.messages ++ (if x.state = .online then [(.released, a)] else [])
              keyEvents := packs.keyEvents.filter fun event => decide (event.1 ≠ a) } } .ok false [])) ∧
    (∀ code : PackState → Byte, code .empty = 0 → code .online = 1 → code .lost = 2 → code .conflict = 3 →
      exec (.readPackTable p q) s = .next (s.replied p ⟨0x52, q⟩ s.engine .ok false
        ((List.finRange 32).flatMap fun a =>
          [byteOf (a.val + 1), code (packs.slots[a]).state, if (packs.slots[a]).identity = none then 0 else 1] ++
            ((packs.slots[a]).identity.getD (Vector.replicate 6 0)).toList ++
            [byteOf (numberFor (packs.slots[a]).assigned), byteOf (packs.slots[a]).missRun,
              byteOf (packs.slots[a]).target.val,
              byteOf ((if (packs.slots[a]).silence = true then 1 else 0) +
                if (packs.slots[a]).held = none then 0 else 2)]))) ∧
    exec (.readCalls p q) s = .next (s.replied p ⟨0x53, q⟩ { s.engine with packs := { packs with calls := [] } } .ok
      false (byteOf packs.calls.length :: packs.calls.map fun a => byteOf (a.val + 1)))

/-! ### Pack keys and the call list (chapter 8) -/

/-- R140, R142, R143: a make of UP or DOWN, the event at the front of those handed on, or the expiry of a held-key
record makes one step of its key. The step is dropped when the slot is assigned none, the mix is in engineer hold or
awaiting recall, or the selected group is empty; at the end of the range it changes nothing; otherwise the value moves
by one, its pairs are recomputed and PACK_ADJUST is raised. The record is then in DELAY at 400 ms after a make, and in
REPEAT at 100 ms after an expiry. -/
def Obligations.KeySteps : Prop :=
  ∀ (s : State) (c : Instr) (a : Fin 32) (x : PackSlot) (key : RepeatKey) (rest : List (Fin 32 × Byte))
    (held : HeldKey) (packs after : PackBus) (delta : Int), s.engine.powered = true → s.settled →
    packs = s.engine.packs → x = packs.slots[a] → x.state = .online → delta = (if key = .up then 1 else -1) →
    (c = .makeOfUp a ∧ key = .up ∧ packs.keyEvents = (a, 0x01) :: rest ∧ held = ⟨.up, .delay, 400⟩) ∨
      (c = .makeOfDown a ∧ key = .down ∧ packs.keyEvents = (a, 0x02) :: rest ∧ held = ⟨.down, .delay, 400⟩) ∨
      (c = .heldKeyExpiry a ∧ (∃ phase time, x.held = some ⟨key, phase, time⟩) ∧ rest = packs.keyEvents ∧
        held = ⟨key, .repeating, 100⟩) →
    after = { packs with keyEvents := rest, slots := packs.slots.set a { x with held := some held } } →
    (x.assigned = none → exec c s = .next (s.setEngine { s.engine with packs := after })) ∧
    ∀ (m : Fin 24) (y : MixTable), x.assigned = some m → y = s.engine.tables.mixes[m] →
      (y.record.hold = true ∨ MixSet.has s.engine.awaiting m = true →
        exec c s = .next (s.setEngine { s.engine with packs := after })) ∧
      (y.record.hold = false → MixSet.has s.engine.awaiting m = false →
        (x.target.val = 0 → ∀ new, new = within (-120) 20 (y.record.master + delta) →
          (new = y.record.master → exec c s = .next (s.setEngine { s.engine with packs := after })) ∧
          (new ≠ y.record.master → ∃ (e : Engine) (t : State), exec c s = .next t ∧ s.Raises e [.packAdjust] t ∧
            e = { s.engine with
                  coefs := e.coefs, packs := after
                  tables := { s.engine.tables with
                    mixes := s.engine.tables.mixes.set m { y with record := { y.record with master := new } } } } ∧
            Engine.Retargets s.engine e fun m' _ => decide (m' = m))) ∧
        ∀ (g : Fin 8) (group : Group), x.target.val = g.val + 1 → group = y.groups[g] →
          (group.members = [] → exec c s = .next (s.setEngine { s.engine with packs := after })) ∧
          (group.members ≠ [] → ∀ new, new = within (-80) 20 (group.trim + delta) →
            (new = group.trim → exec c s = .next (s.setEngine { s.engine with packs := after })) ∧
            (new ≠ group.trim → ∃ (e : Engine) (t : State), exec c s = .next t ∧ s.Raises e [.packAdjust] t ∧
              e = { s.engine with
                    coefs := e.coefs, packs := after
                    tables := { s.engine.tables with
                      mixes := s.engine.tables.mixes.set m
                        { y with groups := y.groups.set g { group with trim := new } } } } ∧
              Engine.Retargets s.engine e fun m' i => decide (m' = m) && decide (i ∈ group.members))))

/-- R137 to R139, R144 to R147: every other key event at the front of those handed on. NEXT and PREV move the selected
target to the first of 0 and the groups of the assigned mix that are not empty; SILENCE toggles the flag; CALL adds the
slot to the call list once; a break of a repeating key ends the record of that key, an overflow marker ends any record,
and every other code acts on nothing. An event of a slot that is not ONLINE leaves the list and acts on nothing. -/
def Obligations.OtherKeyEvents : Prop :=
  ∀ (s : State) (a : Fin 32) (x : PackSlot) (code : Byte) (rest : List (Fin 32 × Byte)) (packs : PackBus)
    (selects : Fin 9 → Prop) (put : PackSlot → Engine), s.engine.powered = true → s.settled → packs = s.engine.packs →
    x = packs.slots[a] → packs.keyEvents = (a, code) :: rest →
    (∀ t, selects t ↔ t.val = 0 ∨ ∃ (m : Fin 24) (g : Fin 8), x.assigned = some m ∧ t.val = g.val + 1 ∧
      ((s.engine.tables.mixes[m]).groups[g]).members ≠ []) →
    (∀ y, put y = { s.engine with packs := { packs with keyEvents := rest, slots := packs.slots.set a y } }) →
    (x.state ≠ .online →
      (code = 0x01 → exec (.makeOfUp a) s = .next (s.setEngine (put x))) ∧
      (code = 0x02 → exec (.makeOfDown a) s = .next (s.setEngine (put x))) ∧
      (code = 0x03 → exec (.makeOfNext a) s = .next (s.setEngine (put x))) ∧
      (code = 0x04 → exec (.makeOfPrev a) s = .next (s.setEngine (put x))) ∧
      (code = 0x05 → exec (.makeOfCall a) s = .next (s.setEngine (put x))) ∧
      (code = 0x06 → exec (.makeOfSilence a) s = .next (s.setEngine (put x))) ∧
      (code = 0x81 → exec (.breakOfUp a) s = .next (s.setEngine (put x))) ∧
      (code = 0x82 → exec (.breakOfDown a) s = .next (s.setEngine (put x))) ∧
      (code = 0xFF → exec (.overflowMarker a) s = .next (s.setEngine (put x)))) ∧
    (code = 0x83 → exec (.breakOfMakeOnlyKey a .next) s = .next (s.setEngine (put x))) ∧
    (code = 0x84 → exec (.breakOfMakeOnlyKey a .prev) s = .next (s.setEngine (put x))) ∧
    (code = 0x85 → exec (.breakOfMakeOnlyKey a .call) s = .next (s.setEngine (put x))) ∧
    (code = 0x86 → exec (.breakOfMakeOnlyKey a .silence) s = .next (s.setEngine (put x))) ∧
    ((code = 0x00 ∨ (0x07 ≤ code.toNat ∧ code.toNat ≤ 0x80) ∨ (0x87 ≤ code.toNat ∧ code.toNat ≤ 0xFE)) →
      exec (.ignoredKeyCode a code) s = .next (s.setEngine (put x))) ∧
    (x.state = .online →
      (code = 0x03 → ∃ (t : Fin 9) (d : Nat), exec (.makeOfNext a) s = .next (s.setEngine (put { x with target := t })) ∧
        1 ≤ d ∧ d ≤ 9 ∧ t.val = (x.target.val + d) % 9 ∧ selects t ∧
        ∀ u k, 1 ≤ k → k < d → u.val = (x.target.val + k) % 9 → ¬ selects u) ∧
      (code = 0x04 → ∃ (t : Fin 9) (d : Nat), exec (.makeOfPrev a) s = .next (s.setEngine (put { x with target := t })) ∧
        1 ≤ d ∧ d ≤ 9 ∧ t.val = (x.target.val + 9 - d) % 9 ∧ selects t ∧
        ∀ u k, 1 ≤ k → k < d → u.val = (x.target.val + 9 - k) % 9 → ¬ selects u) ∧
      (code = 0x05 →
        (a ∈ packs.calls → exec (.makeOfCall a) s = .next (s.setEngine (put x))) ∧
        (a ∉ packs.calls → ∃ t, exec (.makeOfCall a) s = .next t ∧
          s.Raises
            { s.engine with packs := { packs with keyEvents := rest, calls := packs.calls ++ [a] } } [.call] t)) ∧
      (code = 0x06 → exec (.makeOfSilence a) s = .next (s.setEngine (put { x with silence := !x.silence }))) ∧
      (code = 0x81 → exec (.breakOfUp a) s = .next (s.setEngine
        (put { x with held := if x.held.map (fun h => h.key) = some .up then none else x.held }))) ∧
      (code = 0x82 → exec (.breakOfDown a) s = .next (s.setEngine
        (put { x with held := if x.held.map (fun h => h.key) = some .down then none else x.held }))) ∧
      (code = 0xFF → exec (.overflowMarker a) s = .next (s.setEngine (put { x with held := none }))))

/-! ### Resets and invariants -/

/-- R19, R44, R58, R77, R78, R89, R90, R108, R134, R150, R161, R167, R168: the warm reset. The power, the receivers,
the source mode, the active link, the settings and the nonvolatile memory are kept; a recall ends first, ABORTED, with
the item being fetched written; every target follows from the tables and ramps up from 0; both ports take their reset
values, and the frame on the line is sent whole, unless it is marked as telling a CLIP or GUARD of the frame instant that
arrived together with the reset and was taken right before it, which no console sees (R78, R90). When a frame instant
waits right behind the reset it may have arrived together with it, and no input meter then rises at it (R78). Whether
two arrived together is free (log 26). That the outputs and the pack bus frame due are kept is the model's choice
(log 16). -/
def Obligations.WarmReset : Prop :=
  ∀ (s : State) (lib : Library), s.engine.powered = true → lib = s.engine.library →
    ∃ (e : Engine) (home guest : PortState),
      (∀ x y : PortState, ((x = s.home ∧ y = home) ∨ (x = s.guest ∧ y = guest)) →
        ∀ line : Option Frame, line = (if x.unseen = true then none else x.line) → y =
          { receiver := .hunting, queue := [], service := if line.any Frame.isService = true then x.service else none
            wait := none, lost := false, garbled := false, line := line, unseen := false, ready := []
            unit := { occurred := ⟨0#11, 0#8⟩, mask := ⟨0#11, 0#8⟩, reasons := ⟨0#11, 0#8⟩, armed := true } }) ∧
      exec .warmReset s = .next { s with engine := e, home := home, guest := guest, draws := s.draws + 1 } ∧
      e = { s.engine with
            selector := { s.engine.selector with
              missRun := 0, concealCount := 0, primaryTime := 0, lastUsed := Vector.replicate 64 none
              delivered := Vector.replicate 64 none }
            tables := e.tables, talkHome := 0#24, talkGuest := 0#24, coefs := e.coefs, runs := e.runs
            inputMeters := Vector.replicate 64 0, metersRest := e.metersRest
            library := e.library, charge := .home
            packs := { s.engine.packs with
              slots := e.packs.slots, sweep := .idle, sweepCounter := 0, pointer := 31, pendingMarks := 0#32
              messages := [], keyEvents := [], calls := [] } } ∧
      (e.metersRest = true → ∃ rest, s.pending = .frameInstant :: rest) ∧
      (∀ m : Fin 24, e.runs[m] = { s.engine.runs[m] with
        clip := false, near := false, guard := false, gain := 16384, meterLeft := 0, meterRight := 0 }) ∧
      (∀ a : Fin 32, e.packs.slots[a] = { s.engine.packs.slots[a] with
        state := if (s.engine.packs.slots[a]).state = .online then .lost else (s.engine.packs.slots[a]).state
        missRun := 0, target := 0, silence := false, held := none }) ∧
      (∀ (m : Fin 24) (i : Fin 64) (l r : Nat), (l, r) = deriveTargets e.tables 0#24 m i → (e.coefs[m])[i] =
        { left := { target := l, live := 0, step := max 1 ((l + 63) / 64) }
          right := { target := r, live := 0, step := max 1 ((r + 63) / 64) } }) ∧
      ((∀ j, lib.operation ≠ .recall j) → e.tables = s.engine.tables ∧ e.library = lib) ∧
      ∀ j, lib.operation = .recall j → ∃ loaded,
        e.library = { lib with
          operation := .idle, result := { lib.result with outcome := .aborted, mixesLoaded := loaded } } ∧
        (j.phase = .verify → e.tables = s.engine.tables ∧ loaded = lib.result.mixesLoaded) ∧
        ∀ awaiting inputs aborting name scene, j.phase = .load awaiting inputs aborting →
          (lib.slots[j.slot]).image = .written name scene →
          (∀ m : Fin 24, awaiting.getLsbD m.val = true → (∀ m' < m, awaiting.getLsbD m'.val = false) →
            e.tables = { s.engine.tables with
              mixes := s.engine.tables.mixes.set m ((s.engine.tables.mixes[m]).load j.classes scene.mixes[m]) } ∧
            loaded = lib.result.mixesLoaded + 1) ∧
          (awaiting = 0#24 → loaded = lib.result.mixesLoaded ∧
            (inputs = true →
              e.tables = { s.engine.tables with inputs := scene.inputs, talkSource := scene.talkSource }) ∧
            (inputs = false → e.tables = s.engine.tables))

/-- R7, R44, R93, R101, R109, R114, R168: the loss of power leaves the slot of a store or an erase in progress neither
erased nor in agreement, and every other slot as it was. POWER UP makes a cold reset: everything takes its reset value,
but for the signal on the stage lines and the nonvolatile memory, and verify-all begins at slot 1. That what is
volatile stays as it was while the power is off is the model's choice (log 18); the name that a slot cut short shows is
an operand of the command (log 11). -/
def Obligations.PowerLossAndPowerUp : Prop :=
  ∀ (s : State) (cutName : SceneName) (lib : Library), lib = s.engine.library →
    (s.engine.powered = true →
      (∀ k, (lib.operation = .erase k ∨ ∃ name contents, lib.operation = .store k name contents) →
        exec (.powerLoss cutName) s = .next (s.setEngine
          { s.engine with
            powered := false
            library := { lib with slots := lib.slots.set k { lib.slots[k] with image := .broken cutName } } })) ∧
      ((∀ k, lib.operation ≠ .erase k) → (∀ k name contents, lib.operation ≠ .store k name contents) →
        exec (.powerLoss cutName) s = .next (s.setEngine { s.engine with powered := false }))) ∧
    (s.engine.powered = false → ∃ (a b : Receiver) (slots : Vector SceneSlot 32),
      exec .powerUp s = .next { State.reset with
        draws := s.draws, pending := s.pending
        engine := { State.reset.engine with
          linkA := a, linkB := b
          library := { State.reset.engine.library with slots := slots, startScene := lib.startScene } } } ∧
      (∀ k : Fin 32, slots[k] = { lib.slots[k] with state := .unchecked }) ∧
      (s.engine.linkA.signal = false → a = State.reset.engine.linkA) ∧
      (s.engine.linkA.signal = true → a = { State.reset.engine.linkA with signal := true, state := .seeking }) ∧
      (s.engine.linkB.signal = false → b = State.reset.engine.linkB) ∧
      (s.engine.linkB.signal = true → b = { State.reset.engine.linkB with signal := true, state := .seeking }))

/-- R7, R19 to R25, R44, R58, R77, R89, R91, R95, R114, R134, R150, R161, R168, R177: the reset state, and the
invariants at it. That the stage lines carry no signal, that the part has its factory memory, that verify-all has begun
and that outputs and frames are absent are the model's choices (log 8, 15, 16). -/
def Obligations.ResetState : Prop :=
  State.reset.engine.LevelsFollow ∧ State.reset.engine.StagesLawful ∧ State.reset.engine.TablesLawful ∧
    State.reset.engine.packs.Lawful ∧
    (∀ p, (State.reset.port p).Served) ∧ State.reset.MarksLawful ∧
    ∀ e : Engine, e = State.reset.engine →
      e.powered = true ∧ e.charge = .home ∧ e.talkHome = 0#24 ∧ e.talkGuest = 0#24 ∧
      (∀ l, e.receiver l = ⟨false, .down, 0, 0, none, 0, 0, none, false⟩) ∧
      e.selector = ⟨.auto, true, .a, 0, 0, 0, Vector.replicate 64 none, Vector.replicate 64 none⟩ ∧
      e.tables.talkSource = none ∧ (∀ i : Fin 64, e.tables.inputs[i] = ⟨some i, 0, false, true⟩) ∧
      (∀ m : Fin 24, (e.tables.mixes[m]).record = ⟨0, false, 0, 8388607, 16, -40, false, none⟩ ∧
        (∀ i : Fin 64, (e.tables.mixes[m]).sends[i] = ⟨0, 0, true⟩) ∧ (∀ g : Fin 8, (e.tables.mixes[m]).groups[g] = ⟨0, []⟩) ∧
        (∀ i : Fin 64, (e.coefs[m])[i] = ⟨⟨0, 0, 1⟩, ⟨0, 0, 1⟩⟩) ∧
        e.runs[m] = ⟨false, false, false, 16384, 0, 0, 0, 0⟩) ∧
      (∀ i : Fin 64, e.inputMeters[i] = 0) ∧ e.metersRest = false ∧
      (∀ k : Fin 32, e.library.slots[k] = ⟨.unchecked, false, .erased⟩) ∧ e.library.startScene = none ∧
      e.library.operation = .verifyAll 0 ∧ e.library.result = ⟨.none, none, .done, 0⟩ ∧
      (∀ a : Fin 32, (e.packs.slots[a]).assigned = none ↔ 24 ≤ a.val) ∧
      (∀ (a : Fin 32) (m : Fin 24), a.val = m.val → e.packs.slots[a] = ⟨.empty, none, some m, 0, 0, false, none⟩) ∧
      (∀ a : Fin 32, 24 ≤ a.val → e.packs.slots[a] = ⟨.empty, none, none, 0, 0, false, none⟩) ∧
      e.packs.sweep = .idle ∧ e.packs.sweepCounter = 0 ∧ e.packs.pointer = 31 ∧ e.packs.pendingMarks = 0#32 ∧
      e.packs.messages = [] ∧ e.packs.keyEvents = [] ∧ e.packs.calls = [] ∧
      e.packs.frameDue = false ∧ e.packs.sentAudio = none ∧ e.packs.sentDownstream = none ∧
      ∀ p, State.reset.port p =
        { receiver := .hunting, queue := [], service := none, wait := none, lost := false, garbled := false
          line := none, unseen := false, ready := []
          unit := { occurred := ⟨0#11, BitVec.twoPow 8 (Level.bit .libraryBusy)⟩, mask := ⟨0#11, 0#8⟩
                    reasons := ⟨0#11, 0#8⟩, armed := true } }

/-- R45 to R53, R56, R58, R80 to R83: whatever command is taken, every target goes on following from the tables and the
talk sets, no live value passes the largest coefficient and no guard gain passes unity. R3 to R6, R8, R11, R13, R14,
0.6: the runs, counts and slips of both receivers and of the selector stay in their ranges, only a LOCKED link holds a
frame, a fresh holder holds one, and every sample held, used or delivered is one of 24 bits. -/
def Obligations.StepKeepsLevels : Prop :=
  (∀ s t : State, s.engine.LevelsFollow → step s = .next t → t.engine.LevelsFollow) ∧
    ∀ s t : State, s.engine.StagesLawful → step s = .next t → t.engine.StagesLawful

/-- R20 to R23, R28, R37, R92, R100, R105: whatever command is taken, the tables, the scenes and the staging copy keep
their ranges and the group law. -/
def Obligations.StepKeepsTables : Prop :=
  ∀ s t : State, s.engine.TablesLawful → step s = .next t → t.engine.TablesLawful

/-- R117, R119, R120, R126, R142, R144, R147: whatever command is taken, the pack slots keep the identity law, their
miss runs and held-key records, a sweep reads at most two slots, and no slot stands twice in the call list. -/
def Obligations.StepKeepsPacks : Prop :=
  ∀ s t : State, s.engine.packs.Lawful → step s = .next t → t.engine.packs.Lawful

/-- R154, R155, R159, R170: whatever command is taken, each port holds at most 4 requests, serves its queue whenever
nothing is in service, has one reply under way for the request in service and none otherwise, leaves no frame waiting
for an idle line, and has an orderly notice unit: armed, it has no reasons, and what has occurred and is masked is a
reason. R78, R90, R167: a frame on a line is marked as not to be seen only while it tells a CLIP or a GUARD and the
command right behind makes a warm reset, so no command comes between, and every other frame a reset sends whole. -/
def Obligations.StepKeepsPorts : Prop :=
  (∀ s t : State, (∀ p, (s.port p).Served) → step s = .next t → ∀ p, (t.port p).Served) ∧
    ∀ s t : State, s.MarksLawful → step s = .next t → t.MarksLawful

end
end

