-- ==== Sys2Proof/Laws/State.lean ====
section
/-! SUPPORT. What each update of State does to each of its fields, and how updates of ports commute. -/
namespace Sys2Proof.Machine

@[simp] theorem Port.other_other (p : Port) : p.other.other = p := by cases p <;> rfl

@[simp] theorem Port.other_ne (p : Port) : p.other ≠ p := by cases p <;> decide

@[simp] theorem Port.ne_other (p : Port) : p ≠ p.other := by cases p <;> decide

theorem Port.eq_or_other (p p' : Port) : p' = p ∨ p' = p.other := by cases p <;> cases p' <;> simp [Port.other]

@[simp] theorem State.port_home (s : State) : s.port .home = s.home := rfl

@[simp] theorem State.port_guest (s : State) : s.port .guest = s.guest := rfl

@[simp] theorem State.setPort_engine (s : State) (p : Port) (x : PortState) : (s.setPort p x).engine = s.engine := by
  cases p <;> rfl

@[simp] theorem State.setPort_draws (s : State) (p : Port) (x : PortState) : (s.setPort p x).draws = s.draws := by
  cases p <;> rfl

@[simp] theorem State.setPort_pending (s : State) (p : Port) (x : PortState) : (s.setPort p x).pending = s.pending := by
  cases p <;> rfl

@[simp] theorem State.setPort_port (s : State) (p : Port) (x : PortState) : (s.setPort p x).port p = x := by
  cases p <;> rfl

@[simp] theorem State.setPort_port_other (s : State) (p : Port) (x : PortState) :
    (s.setPort p x).port p.other = s.port p.other := by cases p <;> rfl

@[simp] theorem State.setPort_other_port (s : State) (p : Port) (x : PortState) :
    (s.setPort p.other x).port p = s.port p := by cases p <;> rfl

@[simp] theorem State.setPort_setPort (s : State) (p : Port) (x y : PortState) :
    (s.setPort p x).setPort p y = s.setPort p y := by cases p <;> rfl

@[simp] theorem State.setPort_self (s : State) (p : Port) : s.setPort p (s.port p) = s := by cases p <;> rfl

theorem State.setPort_of_eq {s : State} {p : Port} {x : PortState} (h : x = s.port p) : s.setPort p x = s := by
  subst h; simp

@[simp] theorem State.setPort_other_self (s : State) (p : Port) (x : PortState) :
    (s.setPort p x).setPort p.other (s.port p.other) = s.setPort p x := by cases p <;> rfl

@[simp] theorem State.setEngine_engine (s : State) (e : Engine) : (s.setEngine e).engine = e := rfl

@[simp] theorem State.setEngine_port (s : State) (e : Engine) (p : Port) : (s.setEngine e).port p = s.port p := by
  cases p <;> rfl

@[simp] theorem State.setEngine_home (s : State) (e : Engine) : (s.setEngine e).home = s.home := rfl

@[simp] theorem State.setEngine_guest (s : State) (e : Engine) : (s.setEngine e).guest = s.guest := rfl

@[simp] theorem State.setEngine_draws (s : State) (e : Engine) : (s.setEngine e).draws = s.draws := rfl

@[simp] theorem State.setEngine_pending (s : State) (e : Engine) : (s.setEngine e).pending = s.pending := rfl

@[simp] theorem State.setEngine_self (s : State) : s.setEngine s.engine = s := rfl

@[simp] theorem State.setEngine_setEngine (s : State) (e e' : Engine) :
    (s.setEngine e).setEngine e' = s.setEngine e' := rfl

theorem State.setPort_setEngine (s : State) (p : Port) (x : PortState) (e : Engine) :
    (s.setPort p x).setEngine e = (s.setEngine e).setPort p x := by cases p <;> rfl

/-- Two states with the same blocks, ports, counter and queue are equal. -/
theorem State.ext_ports {s t : State} (e : s.engine = t.engine) (p : ∀ p, s.port p = t.port p)
    (d : s.draws = t.draws) (q : s.pending = t.pending) : s = t := by
  cases s; cases t
  have h := p .home
  have g := p .guest
  simp_all

@[simp] theorem Engine.setReceiver_receiver (e : Engine) (l : Link) (r : Receiver) :
    (e.setReceiver l r).receiver l = r := by cases l <;> rfl

@[simp] theorem Engine.setReceiver_receiver_other (e : Engine) (l : Link) (r : Receiver) :
    (e.setReceiver l r).receiver l.other = e.receiver l.other := by cases l <;> rfl

@[simp] theorem Engine.setReceiver_self (e : Engine) (l : Link) : e.setReceiver l (e.receiver l) = e := by
  cases l <;> rfl

@[simp] theorem Engine.setReceiver_selector (e : Engine) (l : Link) (r : Receiver) :
    (e.setReceiver l r).selector = e.selector := by cases l <;> rfl

@[simp] theorem Engine.setReceiver_tables (e : Engine) (l : Link) (r : Receiver) :
    (e.setReceiver l r).tables = e.tables := by cases l <;> rfl

@[simp] theorem Engine.setReceiver_coefs (e : Engine) (l : Link) (r : Receiver) :
    (e.setReceiver l r).coefs = e.coefs := by cases l <;> rfl

@[simp] theorem Engine.setReceiver_runs (e : Engine) (l : Link) (r : Receiver) :
    (e.setReceiver l r).runs = e.runs := by cases l <;> rfl

@[simp] theorem Engine.setReceiver_inputMeters (e : Engine) (l : Link) (r : Receiver) :
    (e.setReceiver l r).inputMeters = e.inputMeters := by cases l <;> rfl

@[simp] theorem Engine.setReceiver_metersRest (e : Engine) (l : Link) (r : Receiver) :
    (e.setReceiver l r).metersRest = e.metersRest := by cases l <;> rfl

@[simp] theorem Engine.setReceiver_library (e : Engine) (l : Link) (r : Receiver) :
    (e.setReceiver l r).library = e.library := by cases l <;> rfl

@[simp] theorem Engine.setReceiver_packs (e : Engine) (l : Link) (r : Receiver) :
    (e.setReceiver l r).packs = e.packs := by cases l <;> rfl

@[simp] theorem Engine.setReceiver_charge (e : Engine) (l : Link) (r : Receiver) :
    (e.setReceiver l r).charge = e.charge := by cases l <;> rfl

@[simp] theorem Engine.setReceiver_powered (e : Engine) (l : Link) (r : Receiver) :
    (e.setReceiver l r).powered = e.powered := by cases l <;> rfl

@[simp] theorem Engine.setReceiver_talkHome (e : Engine) (l : Link) (r : Receiver) :
    (e.setReceiver l r).talkHome = e.talkHome := by cases l <;> rfl

@[simp] theorem Engine.setReceiver_talkGuest (e : Engine) (l : Link) (r : Receiver) :
    (e.setReceiver l r).talkGuest = e.talkGuest := by cases l <;> rfl

@[simp] theorem Engine.setTalkSet_talkSet (e : Engine) (p : Port) (t : MixSet) :
    (e.setTalkSet p t).talkSet p = t := by cases p <;> rfl

@[simp] theorem Engine.setTalkSet_talkSet_other (e : Engine) (p : Port) (t : MixSet) :
    (e.setTalkSet p t).talkSet p.other = e.talkSet p.other := by cases p <;> rfl

@[simp] theorem Engine.setTalkSet_tables (e : Engine) (p : Port) (t : MixSet) :
    (e.setTalkSet p t).tables = e.tables := by cases p <;> rfl

@[simp] theorem Engine.setTalkSet_coefs (e : Engine) (p : Port) (t : MixSet) :
    (e.setTalkSet p t).coefs = e.coefs := by cases p <;> rfl

@[simp] theorem Engine.setTalkSet_library (e : Engine) (p : Port) (t : MixSet) :
    (e.setTalkSet p t).library = e.library := by cases p <;> rfl

@[simp] theorem Engine.setTalkSet_packs (e : Engine) (p : Port) (t : MixSet) :
    (e.setTalkSet p t).packs = e.packs := by cases p <;> rfl

@[simp] theorem Engine.setTalkSet_runs (e : Engine) (p : Port) (t : MixSet) :
    (e.setTalkSet p t).runs = e.runs := by cases p <;> rfl

end Sys2Proof.Machine
end

