-- ==== Sys2Proof/Laws/Notices.lean ====
section
/-! SUPPORT. What the notice units and the transmitters can do: sets of items, the start of a frame, the arrival of an
item, and the delivery of all that one command brings to the ports. -/
namespace Sys2Proof.Machine

/-! ### Sets of items -/

theorem Event.bit_inj {e e' : Event} : e.bit = e'.bit ↔ e = e' := by cases e <;> cases e' <;> decide

theorem Level.bit_inj {x x' : Level} : x.bit = x'.bit ↔ x = x' := by cases x <;> cases x' <;> decide

@[simp] theorem ItemSet.has_empty (i : Item) : ItemSet.empty.has i = false := by cases i <;> simp [ItemSet.has, ItemSet.empty]

@[simp] theorem ItemSet.has_union (x y : ItemSet) (i : Item) : (x.union y).has i = (x.has i || y.has i) := by
  cases i <;> simp [ItemSet.has, ItemSet.union]

@[simp] theorem ItemSet.has_inter (x y : ItemSet) (i : Item) : (x.inter y).has i = (x.has i && y.has i) := by
  cases i <;> simp [ItemSet.has, ItemSet.inter]

theorem Event.bit_lt (e : Event) : e.bit < 11 := by cases e <;> decide

theorem Level.bit_lt (x : Level) : x.bit < 8 := by cases x <;> decide

@[simp] theorem ItemSet.has_diff (x y : ItemSet) (i : Item) : (x.diff y).has i = (x.has i && !y.has i) := by
  cases i with
  | event e => simp [ItemSet.has, ItemSet.diff, Event.bit_lt]
  | rise l => simp [ItemSet.has, ItemSet.diff, Level.bit_lt]

@[simp] theorem ItemSet.has_single (i j : Item) : (ItemSet.single i).has j = decide (i = j) := by
  cases i <;> cases j <;> simp [ItemSet.has, ItemSet.single, BitVec.getLsbD_twoPow]
  · rename_i a b; cases a <;> cases b <;> decide
  · rename_i a b; cases a <;> cases b <;> decide

/-! ### The transmitter -/

@[simp] theorem PortState.kick_outgoing (x : PortState) : x.kick.outgoing = x.outgoing := by
  unfold PortState.kick PortState.outgoing; split <;> simp_all

theorem PortState.kick_of_settled {x : PortState} (h : x.settled) : x.kick = x := by
  unfold PortState.kick; split <;> simp_all [PortState.settled]

theorem PortState.kick_settled (x : PortState) : x.kick.settled := by
  unfold PortState.kick PortState.settled; split <;> simp_all
  intro h; cases hr : x.ready <;> simp_all

@[simp] theorem PortState.kick_receiver (x : PortState) : x.kick.receiver = x.receiver := by
  unfold PortState.kick; split <;> rfl

@[simp] theorem PortState.kick_queue (x : PortState) : x.kick.queue = x.queue := by
  unfold PortState.kick; split <;> rfl

@[simp] theorem PortState.kick_service (x : PortState) : x.kick.service = x.service := by
  unfold PortState.kick; split <;> rfl

@[simp] theorem PortState.kick_wait (x : PortState) : x.kick.wait = x.wait := by
  unfold PortState.kick; split <;> rfl

@[simp] theorem PortState.kick_lost (x : PortState) : x.kick.lost = x.lost := by
  unfold PortState.kick; split <;> rfl

@[simp] theorem PortState.kick_garbled (x : PortState) : x.kick.garbled = x.garbled := by
  unfold PortState.kick; split <;> rfl

@[simp] theorem PortState.kick_unit (x : PortState) : x.kick.unit = x.unit := by
  unfold PortState.kick; split <;> rfl

/-- On a settled port a frame made ready and started is `withFrame`. -/
theorem PortState.kick_ready {x : PortState} (h : x.settled) (f : Frame) :
    PortState.kick { x with ready := x.ready ++ [f] } = x.withFrame f := by
  unfold PortState.kick PortState.withFrame
  cases hl : x.line with
  | none => simp [h hl]
  | some g => simp

/-! ### One item at a port -/

theorem ItemSet.ext_has {x y : ItemSet} (h : ∀ i, x.has i = y.has i) : x = y := by
  have e : x.events = y.events := by
    apply BitVec.eq_of_getLsbD_eq
    intro k hk
    have : ∃ e : Event, e.bit = k := by
      have : ∀ k : Fin 11, ∃ e : Event, e.bit = k.val := by
        intro k
        match k with
        | 0 => exact ⟨.clip, rfl⟩
        | 1 => exact ⟨.guard, rfl⟩
        | 2 => exact ⟨.packAttach, rfl⟩
        | 3 => exact ⟨.packLost, rfl⟩
        | 4 => exact ⟨.packConflict, rfl⟩
        | 5 => exact ⟨.packAdjust, rfl⟩
        | 6 => exact ⟨.call, rfl⟩
        | 7 => exact ⟨.sourceChange, rfl⟩
        | 8 => exact ⟨.linkDown, rfl⟩
        | 9 => exact ⟨.opDone, rfl⟩
        | 10 => exact ⟨.charge, rfl⟩
      exact this ⟨k, hk⟩
    obtain ⟨e, rfl⟩ := this
    exact h (.event e)
  have r : x.rises = y.rises := by
    apply BitVec.eq_of_getLsbD_eq
    intro k hk
    have : ∃ e : Level, e.bit = k := by
      have : ∀ k : Fin 8, ∃ e : Level, e.bit = k.val := by
        intro k
        match k with
        | 0 => exact ⟨.holdCharge, rfl⟩
        | 1 => exact ⟨.libraryBusy, rfl⟩
        | 2 => exact ⟨.aLocked, rfl⟩
        | 3 => exact ⟨.bLocked, rfl⟩
        | 4 => exact ⟨.onB, rfl⟩
        | 5 => exact ⟨.concealing, rfl⟩
        | 6 => exact ⟨.anyLost, rfl⟩
        | 7 => exact ⟨.callsWaiting, rfl⟩
      exact this ⟨k, hk⟩
    obtain ⟨e, rfl⟩ := this
    exact h (.rise e)
  cases x; cases y; simp_all

theorem ItemSet.has_of_eq_empty {x : ItemSet} (h : x = ItemSet.empty) (i : Item) : x.has i = false := by rw [h]; simp

theorem ItemSet.eq_empty {x : ItemSet} (h : ∀ i, x.has i = false) : x = ItemSet.empty := ItemSet.ext_has fun i => by simp [h]

theorem ItemSet.isEmpty_false {x : ItemSet} {i : Item} (h : x.has i = true) : x.isEmpty = false := by
  unfold ItemSet.isEmpty
  simp only [decide_eq_false_iff_not]
  rintro rfl
  simp at h

/-- A new frame stays new when more frames follow. -/
theorem PortState.newFrames_mono {x y z : PortState} {f : Frame} (h : f ∈ x.newFrames y) (s : y.outgoing <+: z.outgoing) :
    f ∈ x.newFrames z := by
  obtain ⟨l, hl⟩ := s
  unfold PortState.newFrames at h ⊢
  rw [← hl, List.drop_append]
  simp [h]

/-- A frame that follows all others is new. -/
theorem PortState.newFrames_last {x y z : PortState} {f : Frame} (s : x.outgoing <+: y.outgoing)
    (h : z.outgoing = y.outgoing ++ [f]) : f ∈ x.newFrames z := by
  unfold PortState.newFrames
  rw [h, List.drop_append_of_le_length s.length_le]
  simp

theorem PortState.tells_refl (x : PortState) : PortState.Tells [] x x :=
  { receiver := rfl, queue := rfl, mask := rfl, sent := List.prefix_rfl, told := by simp,
    occurred := fun i h => .inl h, reasons := fun i h => .inl h, armed := id, parked := .inl rfl }

/-- A longer list of the same items. -/
theorem PortState.Tells.congr {l l' : List Item} {x y : PortState} (h : PortState.Tells l x y)
    (e : ∀ i, i ∈ l ↔ i ∈ l') : PortState.Tells l' x y :=
  { h with
    told := fun i hi => h.told i ((e i).2 hi)
    occurred := fun i hi => (h.occurred i hi).imp id (e i).1 }

theorem PortState.Tells.kick {l : List Item} {x y : PortState} (h : PortState.Tells l x y) :
    PortState.Tells l x y.kick :=
  { receiver := by simp [h.receiver], queue := by simp [h.queue], mask := by simp [h.mask], sent := by simpa using h.sent
    told := fun i hi => by
      have := h.told i hi
      unfold PortState.Told at this ⊢
      simpa using this
    occurred := fun i hi => h.occurred i (by simpa using hi)
    reasons := fun i hi => h.reasons i (by simpa using hi)
    armed := fun hi => h.armed (by simpa using hi)
    parked := by simpa [PortState.newFrames] using h.parked }

/-- A frame added behind the others keeps what a port has heard. -/
theorem PortState.Told.add {y : PortState} {i : Item} (h : y.Told i) (z : PortState)
    (o : y.outgoing <+: z.outgoing)
    (u : y.unit.occurred.has i = true → z.Told i) : z.Told i := by
  rcases h with h | ⟨b, hb, h⟩
  · exact u h
  · refine .inr ⟨b, hb, ?_⟩
    rcases h with h | ⟨r, h1, h2, h3⟩
    · exact .inl (o.subset h)
    · exact .inr ⟨r, h1, h2, o.subset h3⟩

theorem PortState.Tells.record {l : List Item} {x y : PortState} (h : PortState.Tells l x y) (i : Item) :
    PortState.Tells (i :: l) x (y.record i) :=
  { receiver := h.receiver, queue := h.queue, mask := h.mask, sent := h.sent
    told := fun j hj => by
      rcases List.mem_cons.1 hj with rfl | hj
      · left; simp [PortState.record]
      · exact (h.told j hj).add _ List.prefix_rfl fun hu => .inl (by simp [PortState.record, hu])
    occurred := fun j hj => by
      simp [PortState.record] at hj
      rcases hj with hj | rfl
      · exact (h.occurred j hj).imp id (List.mem_cons_of_mem _)
      · exact .inr (List.mem_cons_self ..)
    reasons := h.reasons, armed := h.armed, parked := h.parked }

theorem PortState.outgoing_ready (x : PortState) (f : Frame) (u : NoticeUnit) :
    PortState.outgoing { x with ready := x.ready ++ [f], unit := u } = x.outgoing ++ [f] := by
  simp [PortState.outgoing, List.append_assoc]

theorem PortState.Tells.update {l : List Item} {x y : PortState} (h : PortState.Tells l x y) (levels : BitVec 8) :
    PortState.Tells l x (y.update levels) := by
  have newReasons : ∀ i, (y.unit.reasons.union (y.unit.mask.inter y.unit.occurred)).has i = true →
      x.unit.reasons.has i = true ∨ x.unit.mask.has i = true := by
    intro i hi
    simp only [ItemSet.has_union, ItemSet.has_inter, Bool.or_eq_true, Bool.and_eq_true] at hi
    rcases hi with hi | hi
    · exact h.reasons i hi
    · right; rw [← h.mask]; exact hi.1
  unfold PortState.update
  dsimp only
  generalize y.unit.reasons.union (y.unit.mask.inter y.unit.occurred) = reasons at newReasons
  split
  · have out := PortState.outgoing_ready y (.attention { items := reasons, levels := levels })
      { y.unit with reasons := reasons, armed := false, occurred := y.unit.occurred.diff reasons }
    exact
    { receiver := h.receiver, queue := h.queue, mask := h.mask
      sent := by rw [out]; exact h.sent.trans (List.prefix_append _ _)
      told := fun i hi => by
        refine (h.told i hi).add _ (by rw [out]; exact List.prefix_append _ _) fun hu => ?_
        cases hr : reasons.has i with
        | true => exact .inr ⟨{ items := reasons, levels := levels }, hr, .inl (by rw [out]; simp)⟩
        | false => exact .inl (by simp only [ItemSet.has_diff, hu, hr]; rfl)
      occurred := fun i hi => by simp only [ItemSet.has_diff, Bool.and_eq_true] at hi; exact h.occurred i hi.1
      reasons := newReasons
      armed := fun hi => by simp at hi
      parked := by
        rcases h.parked with hp | ⟨hp, r, h1, h2⟩
        · exact .inl hp
        · exact .inr ⟨hp, r, h1, PortState.newFrames_mono h2 (by rw [out]; exact List.prefix_append _ _)⟩ }
  · exact { h with reasons := newReasons }

theorem PortState.outgoing_sendReply (x : PortState) (f : Frame) : (x.sendReply f).outgoing = x.outgoing ++ [f] := by
  simp [PortState.outgoing, PortState.sendReply, List.append_assoc]

/-- The items a wait consumes leave the occurred set, and each stands in the block of its MET. -/
theorem PortState.Tells.meet {l : List Item} {x y : PortState} (h : PortState.Tells l x y) (c : Condition)
    (levels : BitVec 8) : PortState.Tells l x (y.meet c levels) := by
  have out : (y.meet c levels).outgoing =
      y.outgoing ++ [.parked (y.reply waitCode .met false
        (NoticeBlock.bytes { items := y.consumable c, levels := levels }))] := by
    simp [PortState.meet, PortState.outgoing, PortState.sendReply, PortState.consume, List.append_assoc]
  exact
  { receiver := h.receiver, queue := h.queue, mask := h.mask
    sent := by rw [out]; exact h.sent.trans (List.prefix_append _ _)
    told := fun i hi => by
      refine (h.told i hi).add _ (by rw [out]; exact List.prefix_append _ _) fun hu => ?_
      by_cases hr : (y.consumable c).has i = true
      · exact .inr ⟨⟨y.consumable c, levels⟩, hr,
          .inr ⟨y.reply waitCode .met false (NoticeBlock.bytes ⟨y.consumable c, levels⟩), rfl, rfl, by
            rw [out]; simp⟩⟩
      · refine .inl ?_
        simp only [PortState.meet, PortState.sendReply, PortState.consume, ItemSet.has_diff, hu]
        simp_all
    occurred := fun i hi => by
      simp only [PortState.meet, PortState.sendReply, PortState.consume, ItemSet.has_diff, Bool.and_eq_true] at hi
      exact h.occurred i hi.1
    reasons := fun i hi => by
      simp only [PortState.meet, PortState.sendReply, PortState.consume, ItemSet.has_diff, Bool.and_eq_true] at hi
      exact h.reasons i hi.1
    armed := h.armed
    parked := .inr ⟨rfl, y.reply waitCode .met false (NoticeBlock.bytes ⟨y.consumable c, levels⟩), rfl,
      PortState.newFrames_last h.sent out⟩ }

theorem PortState.Tells.offer {l : List Item} {x y : PortState} (h : PortState.Tells l x y) (i : Item)
    (levels : BitVec 8) : PortState.Tells l x (y.offer i levels) := by
  unfold PortState.offer
  split
  · split
    · exact h.meet _ levels
    · exact h
  · exact h

/-- R170, R175: an item that arrives is told, whichever of the wait and the attention is taken first. -/
theorem PortState.Tells.arrive {l : List Item} {x y : PortState} (h : PortState.Tells l x y) (i : Item) (w : Bool)
    (levels : BitVec 8) : PortState.Tells (i :: l) x (y.arrive i w levels) := by
  unfold PortState.arrive
  split
  · exact ((h.record i).offer i levels).update levels
  · exact ((h.record i).update levels).offer i levels

theorem PortState.Tells.reply {l : List Item} {x y : PortState} (h : PortState.Tells l x y) (r : Reply) :
    PortState.Tells l x (y.sendReply (.service r)) :=
  { receiver := h.receiver, queue := h.queue, mask := h.mask
    sent := by rw [PortState.outgoing_sendReply]; exact h.sent.trans (List.prefix_append _ _)
    told := fun i hi => (h.told i hi).add _
      (by rw [PortState.outgoing_sendReply]; exact List.prefix_append _ _) fun hu => .inl hu
    occurred := h.occurred, reasons := h.reasons, armed := h.armed
    parked := by
      rcases h.parked with hp | ⟨hp, r', h1, h2⟩
      · exact .inl hp
      · exact .inr ⟨hp, r', h1,
          PortState.newFrames_mono h2 (by rw [PortState.outgoing_sendReply]; exact List.prefix_append _ _)⟩ }

/-! ### The service and the flags of a port while items arrive -/

@[simp] theorem PortState.record_service (x : PortState) (i : Item) : (x.record i).service = x.service := rfl

@[simp] theorem PortState.update_service (x : PortState) (levels : BitVec 8) :
    (x.update levels).service = x.service := by unfold PortState.update; dsimp only; split <;> rfl

@[simp] theorem PortState.offer_service (x : PortState) (i : Item) (levels : BitVec 8) :
    (x.offer i levels).service = x.service := by
  unfold PortState.offer; split
  · split <;> rfl
  · rfl

@[simp] theorem PortState.arrive_service (x : PortState) (i : Item) (w : Bool) (levels : BitVec 8) :
    (x.arrive i w levels).service = x.service := by
  unfold PortState.arrive; split <;> simp

@[simp] theorem PortState.update_wait (x : PortState) (levels : BitVec 8) :
    (x.update levels).wait = x.wait := by unfold PortState.update; dsimp only; split <;> rfl

@[simp] theorem PortState.update_lost (x : PortState) (levels : BitVec 8) :
    (x.update levels).lost = x.lost := by unfold PortState.update; dsimp only; split <;> rfl

@[simp] theorem PortState.update_garbled (x : PortState) (levels : BitVec 8) :
    (x.update levels).garbled = x.garbled := by unfold PortState.update; dsimp only; split <;> rfl

/-- With no wait parked an item meets none. -/
theorem PortState.arrive_noWait {x : PortState} (h : x.wait = none) (i : Item) (w : Bool) (levels : BitVec 8) :
    x.arrive i w levels = (x.record i).update levels := by
  have h1 : (x.record i).offer i levels = x.record i := by
    unfold PortState.offer; rw [show (x.record i).wait = none from h]
  have h2 : ((x.record i).update levels).offer i levels = (x.record i).update levels := by
    unfold PortState.offer; rw [PortState.update_wait, show (x.record i).wait = none from h]
  unfold PortState.arrive; split
  · rw [h1]
  · rw [h2]

/-! ### What items bring about at a port (`Acts`) -/

@[simp] theorem PortState.record_mask (x : PortState) (i : Item) : (x.record i).unit.mask = x.unit.mask := rfl

@[simp] theorem PortState.update_mask (x : PortState) (levels : BitVec 8) :
    (x.update levels).unit.mask = x.unit.mask := by unfold PortState.update; dsimp only; split <;> rfl

/-- R170: whatever the unit was, an update leaves it orderly. -/
theorem PortState.update_orderly (x : PortState) (levels : BitVec 8) : (x.update levels).unit.Orderly := by
  unfold PortState.update
  dsimp only
  split
  · refine ⟨fun h => (by cases h), fun i hm ho => ?_⟩
    have out : ((x.unit.occurred.diff (x.unit.reasons.union (x.unit.mask.inter x.unit.occurred))).has i) = true := ho
    rw [ItemSet.has_diff, Bool.and_eq_true] at out
    have masked : x.unit.mask.has i = true := hm
    simp [out.1, masked] at out
  · rename_i h
    refine ⟨fun ha => ?_, fun i hm ho => ?_⟩
    · have armed : x.unit.armed = true := ha
      rw [armed, Bool.true_and] at h
      simpa [ItemSet.isEmpty] using h
    · have occurred : x.unit.occurred.has i = true := ho
      have masked : x.unit.mask.has i = true := hm
      simp [occurred, masked]

/-- R175: consumed items leave an orderly unit orderly. -/
theorem PortState.meet_orderly {x : PortState} (h : x.unit.Orderly) (c : Condition) (levels : BitVec 8) :
    (x.meet c levels).unit.Orderly := by
  refine ⟨fun ha => ?_, fun i hm ho => ?_⟩
  · have := h.1 ha
    simp only [PortState.meet, PortState.sendReply, PortState.consume, this]
    exact ItemSet.eq_empty fun i => by simp
  · simp only [PortState.meet, PortState.sendReply, PortState.consume, ItemSet.has_diff, Bool.and_eq_true] at hm ho ⊢
    exact ⟨h.2 i hm ho.1, ho.2⟩

theorem PortState.offer_orderly {x : PortState} (h : x.unit.Orderly) (i : Item) (levels : BitVec 8) :
    (x.offer i levels).unit.Orderly := by
  unfold PortState.offer
  split
  · split
    · exact PortState.meet_orderly h _ _
    · exact h
  · exact h

/-- R170, R175: an item leaves the unit orderly, whatever it was. -/
theorem PortState.arrive_orderly (x : PortState) (i : Item) (w : Bool) (levels : BitVec 8) :
    (x.arrive i w levels).unit.Orderly := by
  unfold PortState.arrive
  split
  · exact PortState.update_orderly _ _
  · exact PortState.offer_orderly (PortState.update_orderly _ _) _ _

/-- R175: an item that the condition does not name leaves the parked wait alone. -/
theorem PortState.offer_unnamed {x : PortState} {w : ParkedWait} (hw : x.wait = some w) {i : Item}
    (h : w.condition.names i = false) (levels : BitVec 8) : x.offer i levels = x := by
  unfold PortState.offer
  rw [hw]
  simp [h]

/-- R175: an item that the condition names and that stands in the occurred set meets the wait. -/
theorem PortState.offer_named {x : PortState} {w : ParkedWait} (hw : x.wait = some w) {i : Item}
    (h : w.condition.names i = true) (ho : x.unit.occurred.has i = true) (levels : BitVec 8) :
    x.offer i levels = x.meet w.condition levels := by
  unfold PortState.offer
  rw [hw]
  simp [h, ho]

/-- R170: an update whose reasons come out empty makes no frame ready. -/
theorem PortState.update_quiet {x : PortState}
    (h : ∀ i, (x.unit.reasons.has i || x.unit.mask.has i && x.unit.occurred.has i) = false) (levels : BitVec 8) :
    x.update levels = { x with unit := { x.unit with reasons := ItemSet.empty } } := by
  have : x.unit.reasons.union (x.unit.mask.inter x.unit.occurred) = ItemSet.empty :=
    ItemSet.eq_empty fun i => by simpa using h i
  unfold PortState.update
  simp [this, ItemSet.isEmpty]

/-- R170: an item outside the mask, at an armed and orderly unit, adds no reason. -/
theorem PortState.record_quiet {x : PortState} (h : x.unit.Orderly) (ha : x.unit.armed = true) {i : Item}
    (hm : x.unit.mask.has i = false) (j : Item) :
    ((x.record i).unit.reasons.has j || (x.record i).unit.mask.has j && (x.record i).unit.occurred.has j) = false := by
  have hr := ItemSet.has_of_eq_empty (h.1 ha)
  simp only [PortState.record, hr, ItemSet.has_union, ItemSet.has_single, Bool.false_or, Bool.and_eq_false_iff,
    Bool.or_eq_false_iff]
  cases hj : x.unit.mask.has j with
  | false => exact .inl rfl
  | true =>
    refine .inr ⟨?_, by simp only [decide_eq_false_iff_not]; rintro rfl; rw [hm] at hj; cases hj⟩
    cases ho : x.unit.occurred.has j with
    | false => rfl
    | true => rw [← hr j]; exact (h.2 j hj ho).symm

/-- R170: an item outside the mask stays in the occurred set of an orderly unit that is updated. -/
theorem PortState.update_occurred {x : PortState} (h : x.unit.Orderly) {i : Item} (hm : x.unit.mask.has i = false)
    (levels : BitVec 8) : ((x.record i).update levels).unit.occurred.has i = true := by
  cases ha : x.unit.armed with
  | true =>
    rw [PortState.update_quiet (PortState.record_quiet h ha hm)]
    simp [PortState.record]
  | false =>
    unfold PortState.update
    simp [PortState.record, ha]

/-- R170: an item of the mask at a unit makes an attention frame ready when the unit is armed, and is a reason. -/
theorem PortState.update_masked {x : PortState} {i : Item} (hm : x.unit.mask.has i = true) (levels : BitVec 8) :
    ((x.record i).update levels).unit.armed = false ∧ ((x.record i).update levels).unit.reasons.has i = true ∧
      (x.unit.armed = true → ∃ b : NoticeBlock, b.items.has i = true ∧
        ((x.record i).update levels).outgoing = x.outgoing ++ [.attention b]) := by
  have hi : ((x.record i).unit.reasons.union ((x.record i).unit.mask.inter (x.record i).unit.occurred)).has i = true := by
    simp [PortState.record, hm]
  have he := ItemSet.isEmpty_false hi
  unfold PortState.update
  simp only [he, Bool.not_false, Bool.and_true]
  split
  · exact ⟨rfl, hi, fun _ => ⟨⟨_, levels⟩, hi, PortState.outgoing_ready (x.record i) _ _⟩⟩
  · rename_i ha
    have ha : x.unit.armed = false := by simpa [PortState.record] using ha
    exact ⟨ha, hi, fun h => by rw [ha] at h; cases h⟩

/-- A disarmed unit with no wait parked gathers reasons and stays disarmed. -/
theorem PortState.update_disarmed {x : PortState} (ha : x.unit.armed = false) (levels : BitVec 8) :
    (x.update levels).unit.armed = false ∧
      ∀ i, x.unit.reasons.has i = true → (x.update levels).unit.reasons.has i = true := by
  unfold PortState.update
  simp [ha]
  intro i h
  exact .inl h

theorem PortState.update_grows (x : PortState) (levels : BitVec 8) : x.outgoing <+: (x.update levels).outgoing := by
  unfold PortState.update
  dsimp only
  split
  · rw [PortState.outgoing_ready]; exact List.prefix_append _ _
  · exact List.prefix_rfl

theorem PortState.meet_outgoing (x : PortState) (c : Condition) (levels : BitVec 8) :
    (x.meet c levels).outgoing =
      x.outgoing ++ [.parked (x.reply waitCode .met false
        (NoticeBlock.bytes { items := x.consumable c, levels := levels }))] := by
  simp [PortState.meet, PortState.outgoing, PortState.sendReply, PortState.consume, List.append_assoc]

theorem PortState.offer_grows (x : PortState) (i : Item) (levels : BitVec 8) :
    x.outgoing <+: (x.offer i levels).outgoing := by
  unfold PortState.offer
  split
  · split
    · rw [PortState.meet_outgoing]; exact List.prefix_append _ _
    · exact List.prefix_rfl
  · exact List.prefix_rfl

theorem PortState.arrive_grows (x : PortState) (i : Item) (w : Bool) (levels : BitVec 8) :
    x.outgoing <+: (x.arrive i w levels).outgoing := by
  unfold PortState.arrive
  split
  · exact (PortState.offer_grows (x.record i) i levels).trans (PortState.update_grows _ _)
  · exact (PortState.update_grows (x.record i) levels).trans (PortState.offer_grows _ _ _)

/-- R175: an item that the condition names and the mask does not, at an orderly unit: the wait is met and its block
carries the item, whichever of the wait and the attention is taken first. -/
theorem PortState.arrive_met {x : PortState} (h : x.unit.Orderly) {w : ParkedWait} (hw : x.wait = some w) {i : Item}
    (hn : w.condition.names i = true) (hm : x.unit.mask.has i = false) (first : Bool) (levels : BitVec 8) :
    (x.arrive i first levels).wait = none ∧ ∃ (r : Reply) (b : NoticeBlock), r.status = .met ∧ r.data = b.bytes ∧
      b.items.has i = true ∧ Frame.parked r ∈ x.newFrames (x.arrive i first levels) := by
  have carries : ∀ y : PortState, y.unit.occurred.has i = true → (y.consumable w.condition).has i = true := by
    intro y hy
    simp only [PortState.consumable, ItemSet.has_inter, hy, Bool.and_true]
    exact hn
  unfold PortState.arrive
  split
  · have ho : (x.record i).unit.occurred.has i = true := by simp [PortState.record]
    rw [PortState.offer_named (x := x.record i) hw hn ho]
    refine ⟨by rw [PortState.update_wait]; rfl, PortState.reply (x.record i) waitCode .met false (NoticeBlock.bytes ⟨PortState.consumable _ w.condition, levels⟩),
      ⟨PortState.consumable _ w.condition, levels⟩, rfl, rfl, carries _ ho, ?_⟩
    exact PortState.newFrames_mono (PortState.newFrames_last (x := x) (y := x.record i) List.prefix_rfl
      (PortState.meet_outgoing ..)) (PortState.update_grows _ _)
  · have ho := PortState.update_occurred h hm levels
    rw [PortState.offer_named (x := (x.record i).update levels) (by rw [PortState.update_wait]; exact hw) hn ho]
    refine ⟨rfl, PortState.reply ((x.record i).update levels) waitCode .met false (NoticeBlock.bytes ⟨PortState.consumable _ w.condition, levels⟩),
      ⟨PortState.consumable _ w.condition, levels⟩, rfl, rfl, carries _ ho, ?_⟩
    exact PortState.newFrames_last (y := (x.record i).update levels) (PortState.update_grows (x.record i) levels)
      (PortState.meet_outgoing ..)

theorem PortState.acts_refl (x : PortState) : PortState.Acts [] x x :=
  { orderly := id, reported := by simp, quiet := fun _ h _ => h, met := by simp, stays := fun _ h _ => h }

/-- A longer list of the same items. -/
theorem PortState.Acts.congr {l l' : List Item} {x y : PortState} (h : PortState.Acts l x y)
    (e : ∀ i, i ∈ l ↔ i ∈ l') : PortState.Acts l' x y := by
  refine { orderly := h.orderly, reported := fun o a w i hi m => ?_, quiet := fun o a m => ?_, met := fun o w hw => ?_,
           stays := fun w hw m => ?_ }
  · obtain ⟨h1, h2, b, j, h3, h4, h5⟩ := h.reported o a w i ((e i).2 hi) m
    exact ⟨h1, h2, b, j, h3, (e j).1 h4, h5⟩
  · exact h.quiet o a fun i hi => m i ((e i).1 hi)
  · rintro ⟨i, hi, m⟩
    obtain ⟨h1, r, h2, h3, h4⟩ := h.met o w hw ⟨i, (e i).2 hi, m⟩
    exact ⟨h1, r, h2, h3, fun hm => by
      obtain ⟨b, j, h5, h6⟩ := h4 hm
      exact ⟨b, j, (e j).1 h5, h6⟩⟩
  · exact h.stays w hw fun i hi => m i ((e i).1 hi)

/-- A change of a port that adds frames and leaves the unit and the wait alone keeps what items have brought about. -/
theorem PortState.Acts.frames {l : List Item} {x y z : PortState} (h : PortState.Acts l x y) (u : z.unit = y.unit)
    (w : z.wait = y.wait) (o : y.outgoing <+: z.outgoing) : PortState.Acts l x z := by
  refine { orderly := fun ho => u ▸ h.orderly ho, reported := fun ho ha hw i hi m => ?_, quiet := fun ho ha m => ?_,
           met := fun ho v hw hi => ?_, stays := fun v hw m => ?_ }
  · obtain ⟨h1, h2, b, j, h3, h4⟩ := h.reported ho ha hw i hi m
    rw [u]
    exact ⟨h1, h2, b, j, PortState.newFrames_mono h3 o, h4⟩
  · rw [u]; exact h.quiet ho ha m
  · obtain ⟨h1, r, h2, h3, h4⟩ := h.met ho v hw hi
    rw [w]
    exact ⟨h1, r, h2, PortState.newFrames_mono h3 o, h4⟩
  · rw [w]; exact h.stays v hw m

/-- R170, R175: one more item. -/
theorem PortState.Acts.arrive {l : List Item} {x y : PortState} (h : PortState.Acts l x y) (t : PortState.Tells l x y)
    (i : Item) (first : Bool) (levels : BitVec 8) : PortState.Acts (i :: l) x (y.arrive i first levels) := by
  have grows := PortState.arrive_grows y i first levels
  refine { orderly := fun _ => PortState.arrive_orderly .., reported := fun ho ha hw j hj m => ?_,
           quiet := fun ho ha m => ?_, met := fun ho w hw hn => ?_, stays := fun w hw m => ?_ }
  · have yw : y.wait = none := by
      rcases t.parked with p | p
      · rw [p, hw]
      · exact p.1
    rw [PortState.arrive_noWait yw] at grows ⊢
    by_cases earlier : ∃ k ∈ l, x.unit.mask.has k = true
    · obtain ⟨k, hk, mk⟩ := earlier
      obtain ⟨d, _, b, n, hb, hn, rest⟩ := h.reported ho ha hw k hk mk
      obtain ⟨d', keep⟩ := PortState.update_disarmed (x := y.record i) d levels
      refine ⟨d', ?_, b, n, PortState.newFrames_mono hb grows, List.mem_cons_of_mem _ hn, rest⟩
      rcases List.mem_cons.1 hj with rfl | hj
      · exact (PortState.update_masked (x := y) (by rw [t.mask]; exact m) levels).2.1
      · exact keep j (h.reported ho ha hw j hj m).2.1
    · have none' : ∀ k ∈ l, x.unit.mask.has k = false := fun k hk => by
        cases hm : x.unit.mask.has k with
        | false => rfl
        | true => exact absurd ⟨k, hk, hm⟩ earlier
      have hj : j = i := by
        rcases List.mem_cons.1 hj with e | hj
        · exact e
        · rw [none' j hj] at m; cases m
      subst hj
      obtain ⟨h1, h2, h3⟩ := PortState.update_masked (x := y) (by rw [t.mask]; exact m) levels
      obtain ⟨b, hb, hf⟩ := h3 (h.quiet ho ha none')
      exact ⟨h1, h2, b, j, PortState.newFrames_last t.sent hf, List.mem_cons_self .., m, hb⟩
  · have mi : y.unit.mask.has i = false := by rw [t.mask]; exact m i (List.mem_cons_self ..)
    have ya := h.quiet ho ha fun k hk => m k (List.mem_cons_of_mem _ hk)
    have quiet := PortState.record_quiet (h.orderly ho) ya mi
    have offerArmed : ∀ z : PortState, (z.offer i levels).unit.armed = z.unit.armed := by
      intro z; unfold PortState.offer; split
      · split <;> rfl
      · rfl
    unfold PortState.arrive
    split
    · have : ∀ j, (((y.record i).offer i levels).unit.reasons.has j ||
          ((y.record i).offer i levels).unit.mask.has j && ((y.record i).offer i levels).unit.occurred.has j) = false := by
        intro j
        have q := quiet j
        unfold PortState.offer
        split
        · split
          · simp only [PortState.meet, PortState.sendReply, PortState.consume, ItemSet.has_diff]
            revert q
            cases (y.record i).unit.reasons.has j <;> cases (y.record i).unit.mask.has j <;>
              cases (y.record i).unit.occurred.has j <;> simp
          · exact q
        · exact q
      rw [PortState.update_quiet this]
      exact (offerArmed _).trans ya
    · rw [offerArmed, PortState.update_quiet quiet]
      exact ya
  · by_cases earlier : ∃ k ∈ l, w.condition.names k = true ∧ x.unit.mask.has k = false
    · obtain ⟨h1, r, h2, h3, h4⟩ := h.met ho w hw earlier
      refine ⟨by rw [PortState.arrive_noWait h1, PortState.update_wait]; exact h1, r, h2,
        PortState.newFrames_mono h3 grows, fun hm => ?_⟩
      obtain ⟨b, j, h5, h6⟩ := h4 hm
      exact ⟨b, j, List.mem_cons_of_mem _ h5, h6⟩
    · obtain ⟨j, hj, hjn, hjm⟩ := hn
      have hj : j = i := by
        rcases List.mem_cons.1 hj with e | hj
        · exact e
        · exact absurd ⟨j, hj, hjn, hjm⟩ earlier
      subst hj
      rcases t.parked with p | ⟨p, r, h2, h3⟩
      · obtain ⟨h1, r, b, h2, h3, h4, h5⟩ := PortState.arrive_met (h.orderly ho) (p.trans hw) hjn
          (by rw [t.mask]; exact hjm) first levels
        refine ⟨h1, r, h2, ?_, fun _ => ⟨b, j, List.mem_cons_self .., hjn, h4, h3⟩⟩
        obtain ⟨m, hm⟩ := t.sent
        unfold PortState.newFrames at h5 ⊢
        have : y.outgoing.length = x.outgoing.length + m.length := by rw [← hm]; simp
        rw [this] at h5
        exact (List.drop_sublist_drop_left _ (Nat.le_add_right _ _)).subset h5
      · refine ⟨by rw [PortState.arrive_noWait p, PortState.update_wait]; exact p, r, h2,
          PortState.newFrames_mono h3 grows, fun hm => ?_⟩
        have : y.wait = some w := h.stays w hw fun k hk => by
          cases hk' : w.condition.names k with
          | false => rfl
          | true => exact absurd ⟨k, hk, hk', by rw [hm]; simp⟩ earlier
        rw [p] at this; cases this
  · have yw := h.stays w hw fun k hk => m k (List.mem_cons_of_mem _ hk)
    have mi := m i (List.mem_cons_self ..)
    unfold PortState.arrive
    split
    · rw [PortState.offer_unnamed (x := y.record i) yw mi, PortState.update_wait]; exact yw
    · rw [PortState.offer_unnamed (x := (y.record i).update levels) (by rw [PortState.update_wait]; exact yw) mi,
        PortState.update_wait]
      exact yw

/-! ### What a port has heard -/

theorem PortState.hears_refl (x : PortState) : PortState.Hears [] x x := ⟨PortState.tells_refl x, PortState.acts_refl x⟩

/-- A longer list of the same items. -/
theorem PortState.Hears.congr {l l' : List Item} {x y : PortState} (h : PortState.Hears l x y)
    (e : ∀ i, i ∈ l ↔ i ∈ l') : PortState.Hears l' x y := ⟨h.toTells.congr e, h.toActs.congr e⟩

theorem PortState.Hears.kick {l : List Item} {x y : PortState} (h : PortState.Hears l x y) :
    PortState.Hears l x y.kick :=
  ⟨h.toTells.kick, h.toActs.frames (by simp) (by simp) (by simp)⟩

theorem PortState.Hears.reply {l : List Item} {x y : PortState} (h : PortState.Hears l x y) (r : Reply) :
    PortState.Hears l x (y.sendReply (.service r)) :=
  ⟨h.toTells.reply r, h.toActs.frames rfl rfl (by rw [PortState.outgoing_sendReply]; exact List.prefix_append _ _)⟩

/-- R170, R175: an item that arrives is told and acted on, whichever of the wait and the attention is taken first. -/
theorem PortState.Hears.arrive {l : List Item} {x y : PortState} (h : PortState.Hears l x y) (i : Item) (w : Bool)
    (levels : BitVec 8) : PortState.Hears (i :: l) x (y.arrive i w levels) :=
  ⟨h.toTells.arrive i w levels, h.toActs.arrive h.toTells i w levels⟩

/-- What has been heard does not depend on the request in service, nor on the flags. -/
theorem PortState.Hears.of_same {l : List Item} {x x' y : PortState} (h : PortState.Hears l x y)
    (r : x'.receiver = x.receiver) (q : x'.queue = x.queue) (u : x'.unit = x.unit) (o : x'.outgoing = x.outgoing)
    (w : x'.wait = x.wait) : PortState.Hears l x' y := by
  have n : x'.newFrames y = x.newFrames y := by unfold PortState.newFrames; rw [o]
  refine ⟨{ receiver := by rw [r, h.receiver], queue := by rw [q, h.queue], mask := by rw [u, h.mask]
            sent := by rw [o]; exact h.sent, told := h.told, occurred := by rw [u]; exact h.occurred
            reasons := by rw [u]; exact h.reasons, armed := by rw [u]; exact h.armed
            parked := by rw [w, n]; exact h.parked },
          { orderly := by rw [u]; exact h.orderly, reported := by rw [u, w, n]; exact h.reported
            quiet := by rw [u]; exact h.quiet, met := by rw [u, w, n]; exact h.met
            stays := by rw [w]; exact h.stays }⟩

/-! ### The levels at their positions (11.3) -/

theorem eight_bits : ∀ a b c d e f g h : Bool, (List.range 8).map
    (BitVec.getLsbD (w := 8) (BitVec.ofBoolListLE [a, b, c, d, e, f, g, h])) = [a, b, c, d, e, f, g, h] := by decide

theorem Engine.levels_bits (e : Engine) (p : Port) :
    (List.range 8).map (e.levels p).getLsbD = Level.all.map (e.level p) :=
  eight_bits (e.level p .holdCharge) (e.level p .libraryBusy) (e.level p .aLocked) (e.level p .bLocked)
    (e.level p .onB) (e.level p .concealing) (e.level p .anyLost) (e.level p .callsWaiting)

theorem Engine.levels_bit (e : Engine) (p : Port) (l : Level) : (e.levels p).getLsbD l.bit = e.level p l := by
  have h := e.levels_bits p
  simp only [List.range, List.range.loop, List.map_cons, List.map_nil, Level.all, List.cons.injEq, and_true] at h
  obtain ⟨h0, h1, h2, h3, h4, h5, h6, h7⟩ := h
  cases l <;> assumption

/-- R169: the rises are the states that were false and are true. -/
theorem mem_rises (before after : Engine) (p : Port) (l : Level) :
    l ∈ rises before after p ↔
      (before.levels p).getLsbD l.bit = false ∧ (after.levels p).getLsbD l.bit = true := by
  have all : l ∈ Level.all := by cases l <;> decide
  rw [Engine.levels_bit, Engine.levels_bit, rises, List.mem_filter]
  simp [all]

end Sys2Proof.Machine
end

