-- ==== Sys2Proof/Laws/Delivery.lean ====
section
/-! SUPPORT. What the end of a command leaves: `conclude`, `act` and the taking of a request, each with one lemma that
says everything it can do. -/
namespace Sys2Proof.Machine

/-! ### The free order of blocks -/

theorem insertAt_perm (x : α) (n : Nat) (l : List α) : (insertAt x n l).Perm (x :: l) := by
  induction n generalizing l with
  | zero => cases l <;> exact .refl _
  | succ n ih =>
    cases l with
    | nil => exact .refl _
    | cons y l => exact (List.Perm.cons y (ih l)).trans (List.Perm.swap ..)

theorem arrange_perm (n : Nat) (l : List α) : (arrange n l).Perm l := by
  induction l generalizing n with
  | nil => exact .refl _
  | cons x l ih => exact (insertAt_perm ..).trans (.cons x (ih _))

@[simp] theorem arrange_nil (n : Nat) : arrange n ([] : List α) = [] := rfl

@[simp] theorem arrange_single (n : Nat) (x : α) : arrange n [x] = [x] := by
  simp [arrange, insertAt, Nat.mod_one]

theorem mem_arrange (n : Nat) (l : List α) (x : α) : x ∈ arrange n l ↔ x ∈ l := (arrange_perm n l).mem_iff

/-! ### Happenings that are items or replies -/

/-- The items among happenings. -/
def itemsAmong (hs : List Happening) : List Item :=
  hs.filterMap fun h => match h with
    | .item i => some i
    | _ => none

/-- A happening that is an item or the reply of the request in service. -/
def Happening.plain : Happening → Bool
  | .item _ => true
  | .reply .. => true
  | _ => false

theorem mem_itemsAmong {hs : List Happening} {i : Item} : i ∈ itemsAmong hs ↔ .item i ∈ hs := by
  induction hs with
  | nil => simp [itemsAmong]
  | cons h hs ih => cases h <;> simp_all [itemsAmong]

theorem PortState.run_hears (w : Nat → Bool) (levels : BitVec 8) (hs : List Happening) (plain : ∀ h ∈ hs, h.plain = true)
    (k : Nat) (l : List Item) (x0 x : PortState) (h : PortState.Hears l x0 x) :
    PortState.Hears (itemsAmong hs ++ l) x0 (PortState.run w levels k hs x) := by
  induction hs generalizing k l x with
  | nil => simpa [itemsAmong, PortState.run] using h
  | cons a hs ih =>
    have rest : ∀ h ∈ hs, h.plain = true := fun b hb => plain b (List.mem_cons_of_mem _ hb)
    have ha := plain a (List.mem_cons_self ..)
    cases a with
    | item i =>
      refine (ih rest (k + 1) (i :: l) _ (h.arrive i (w k) levels)).congr fun j => ?_
      simp [itemsAmong]
      grind
    | reply e st c d =>
      refine (ih rest (k + 1) l _ (h.reply _)).congr fun j => ?_
      simp [itemsAmong]
    | cancelled => simp [Happening.plain] at ha
    | timedOut => simp [Happening.plain] at ha
    | update => simp [Happening.plain] at ha

theorem PortState.run_service (w : Nat → Bool) (levels : BitVec 8) (hs : List Happening)
    (plain : ∀ h ∈ hs, h.plain = true) (k : Nat) (x : PortState) :
    (PortState.run w levels k hs x).service = x.service := by
  induction hs generalizing k x with
  | nil => rfl
  | cons a hs ih =>
    have rest : ∀ h ∈ hs, h.plain = true := fun b hb => plain b (List.mem_cons_of_mem _ hb)
    have ha := plain a (List.mem_cons_self ..)
    cases a <;> simp_all [PortState.run, PortState.happen, Happening.plain, PortState.sendReply]

/-- Items leave both flags of a port with no parked wait as they were. -/
theorem PortState.run_flags (w : Nat → Bool) (levels : BitVec 8) (hs : List Happening)
    (items : ∀ h ∈ hs, ∃ i, h = .item i) (k : Nat) (x : PortState) (hw : x.wait = none) :
    (PortState.run w levels k hs x).lost = x.lost ∧ (PortState.run w levels k hs x).garbled = x.garbled := by
  induction hs generalizing k x with
  | nil => exact ⟨rfl, rfl⟩
  | cons a hs ih =>
    obtain ⟨i, rfl⟩ := items a (List.mem_cons_self ..)
    have rest : ∀ h ∈ hs, ∃ i, h = .item i := fun b hb => items b (List.mem_cons_of_mem _ hb)
    have step := PortState.arrive_noWait hw i (w k) levels
    have := ih rest (k + 1) (x.arrive i (w k) levels) (by rw [step]; simpa [PortState.record] using hw)
    simp only [PortState.run, PortState.happen]
    rw [this.1, this.2, step]
    simp [PortState.record]

/-- Items met with the flags clear leave them clear. -/
theorem PortState.happen_clear (x : PortState) (w : Bool) (levels : BitVec 8) (i : Item)
    (h : x.lost = false ∧ x.garbled = false) :
    (x.arrive i w levels).lost = false ∧ (x.arrive i w levels).garbled = false := by
  have meet : ∀ (y : PortState), y.lost = false ∧ y.garbled = false →
      (y.offer i levels).lost = false ∧ (y.offer i levels).garbled = false := by
    intro y hy
    unfold PortState.offer
    split
    · split
      · exact ⟨rfl, rfl⟩
      · exact hy
    · exact hy
  unfold PortState.arrive
  split
  · have := meet (x.record i) h
    simpa using this
  · exact meet _ (by simpa [PortState.record] using h)

theorem PortState.run_clear (w : Nat → Bool) (levels : BitVec 8) (hs : List Happening)
    (plain : ∀ h ∈ hs, h.plain = true) (k : Nat) (x : PortState) (h : x.lost = false ∧ x.garbled = false) :
    (PortState.run w levels k hs x).lost = false ∧ (PortState.run w levels k hs x).garbled = false := by
  induction hs generalizing k x with
  | nil => exact h
  | cons a hs ih =>
    have rest : ∀ h ∈ hs, h.plain = true := fun b hb => plain b (List.mem_cons_of_mem _ hb)
    have ha := plain a (List.mem_cons_self ..)
    cases a with
    | item i => exact ih rest _ _ (PortState.happen_clear x _ _ i h)
    | reply e st c d => exact ih rest _ _ ⟨rfl, rfl⟩
    | cancelled => simp [Happening.plain] at ha
    | timedOut => simp [Happening.plain] at ha
    | update => simp [Happening.plain] at ha

theorem PortState.run_append (w : Nat → Bool) (levels : BitVec 8) (hs gs : List Happening) (k : Nat) (x : PortState) :
    PortState.run w levels k (hs ++ gs) x = PortState.run w levels (k + hs.length) gs (PortState.run w levels k hs x) := by
  induction hs generalizing k x with
  | nil => simp [PortState.run]
  | cons a hs ih => simp only [List.cons_append, PortState.run, ih, List.length_cons]; congr 1; omega

/-! ### The delivery of a command's blocks to one port -/

@[simp] theorem State.deliver_engine (s : State) (p : Port) (blocks : List (List Happening)) :
    (s.deliver p blocks).engine = s.engine := by cases blocks <;> simp [State.deliver]

@[simp] theorem State.deliver_pending (s : State) (p : Port) (blocks : List (List Happening)) :
    (s.deliver p blocks).pending = s.pending := by cases blocks <;> simp [State.deliver]

@[simp] theorem State.deliver_other (s : State) (p : Port) (blocks : List (List Happening)) :
    (s.deliver p blocks).port p.other = s.port p.other := by
  cases blocks with
  | nil => simp [State.deliver]
  | cons b bs => cases p <;> rfl

@[simp] theorem State.deliver_from_other (s : State) (p : Port) (blocks : List (List Happening)) :
    (s.deliver p.other blocks).port p = s.port p := by
  have := State.deliver_other s p.other blocks
  simpa using this

/-- What a port is left with once its blocks are delivered: the happenings of the blocks, in an order that keeps each
block together, and then the start of the next frame. -/
theorem State.deliver_port (s : State) (p : Port) (blocks : List (List Happening)) :
    ∃ (w : Nat → Bool) (order : List (List Happening)), order.Perm blocks ∧
      (s.deliver p blocks).port p = ((s.port p).run w (s.engine.levels p) 0 order.flatten).kick := by
  cases blocks with
  | nil => exact ⟨fun _ => true, [], .refl _, by simp [State.deliver, PortState.run]⟩
  | cons b bs =>
    refine ⟨Config.waitFirst s.draws, arrange (Config.order s.draws) (b :: bs), arrange_perm .., ?_⟩
    cases p <;> rfl

@[simp] theorem State.conclude_engine (s : State) (before : Engine) (events : List Event) (p : Port)
    (own : List (List Happening)) : (s.conclude before events p own).engine = s.engine := by simp [State.conclude]

@[simp] theorem State.conclude_pending (s : State) (before : Engine) (events : List Event) (p : Port)
    (own : List (List Happening)) : (s.conclude before events p own).pending = s.pending := by simp [State.conclude]

theorem State.conclude_port (s : State) (before : Engine) (events : List Event) (p : Port)
    (own : List (List Happening)) :
    (s.conclude before events p own).port p =
      (s.deliver p (own ++ itemBlocks before s.engine events p)).port p := by simp [State.conclude]

theorem State.conclude_other (s : State) (before : Engine) (events : List Event) (p : Port)
    (own : List (List Happening)) :
    (s.conclude before events p own).port p.other =
      ((s.deliver p (own ++ itemBlocks before s.engine events p)).deliver p.other
        (itemBlocks before s.engine events p.other)).port p.other := rfl

theorem itemBlocks_mem {before after : Engine} {events : List Event} {p : Port} {hs : List Happening} :
    hs ∈ itemBlocks before after events p ↔ ∃ i ∈ itemsFor before after events p, hs = [.item i] := by
  simp only [itemBlocks, itemsFor, List.mem_append, List.mem_map]
  constructor
  · rintro (⟨e, he, rfl⟩ | ⟨x, hx, rfl⟩)
    · exact ⟨_, .inl ⟨e, he, rfl⟩, rfl⟩
    · exact ⟨_, .inr ⟨x, hx, rfl⟩, rfl⟩
  · rintro ⟨i, (⟨e, he, rfl⟩ | ⟨x, hx, rfl⟩), rfl⟩
    · exact .inl ⟨e, he, rfl⟩
    · exact .inr ⟨x, hx, rfl⟩

theorem itemBlocks_flatten {before after : Engine} {events : List Event} {p : Port} {h : Happening} :
    h ∈ (itemBlocks before after events p).flatten ↔ ∃ i ∈ itemsFor before after events p, h = .item i := by
  rw [List.mem_flatten]
  constructor
  · rintro ⟨hs, hm, hh⟩
    obtain ⟨i, hi, rfl⟩ := itemBlocks_mem.1 hm
    exact ⟨i, hi, by simpa using hh⟩
  · rintro ⟨i, hi, rfl⟩
    exact ⟨_, itemBlocks_mem.2 ⟨i, hi, rfl⟩, by simp⟩

/-- A port that only items reach. -/
theorem State.deliver_items (s : State) (p : Port) {before after : Engine} {events : List Event} :
    PortState.Hears (itemsFor before after events p) (s.port p)
        ((s.deliver p (itemBlocks before after events p)).port p) ∧
      ((s.deliver p (itemBlocks before after events p)).port p).service = (s.port p).service ∧
      ((s.port p).wait = none →
        ((s.deliver p (itemBlocks before after events p)).port p).lost = (s.port p).lost ∧
          ((s.deliver p (itemBlocks before after events p)).port p).garbled = (s.port p).garbled) := by
  obtain ⟨w, order, perm, eq⟩ := State.deliver_port s p (itemBlocks before after events p)
  have mem : ∀ h, h ∈ order.flatten ↔ ∃ i ∈ itemsFor before after events p, h = .item i := fun h => by
    rw [perm.flatten.mem_iff, itemBlocks_flatten]
  have items : ∀ h ∈ order.flatten, ∃ i, h = .item i := fun h hh => by
    obtain ⟨i, _, rfl⟩ := (mem h).1 hh; exact ⟨i, rfl⟩
  have plain : ∀ h ∈ order.flatten, h.plain = true := fun h hh => by
    obtain ⟨i, rfl⟩ := items h hh; rfl
  rw [eq]
  refine ⟨?_, by simp [PortState.run_service _ _ _ plain], fun hw => ?_⟩
  · refine ((PortState.run_hears w _ _ plain 0 [] _ _ (PortState.hears_refl _)).congr fun i => ?_).kick
    simp [mem_itemsAmong, mem]
  · simpa using PortState.run_flags w _ _ items 0 (s.port p) hw

/-- R169, R170: a command without a reply of its own raises its events and rises at both ports. -/
theorem State.conclude_raises (s : State) (e : Engine) (events : List Event) (p : Port) :
    s.Raises e events ((s.setEngine e).conclude s.engine events p []) := by
  have own := State.deliver_items (s.setEngine e) p (before := s.engine) (after := e) (events := events)
  have oth := State.deliver_items
    ((s.setEngine e).deliver p (itemBlocks s.engine e events p)) p.other (before := s.engine) (after := e) (events := events)
  simp only [State.deliver_other, State.setEngine_port] at own oth
  refine ⟨by simp, by simp, fun p' => ?_, fun p' => ?_, fun p' => ?_⟩ <;>
    rcases Port.eq_or_other p p' with rfl | rfl <;>
    simp only [State.conclude_port, State.conclude_other, List.nil_append, State.setEngine_engine]
  · exact own.1
  · exact oth.1
  · exact own.2.1
  · exact oth.2.1
  · exact own.2.2
  · exact oth.2.2

/-- R158, R159, R170: a request that is answered when it is taken, its events and rises told at both ports. -/
theorem State.conclude_answers (s : State) (p : Port) (r : Request) (e : Engine) (events : List Event) (st : Status)
    (cl : Bool) (da : List Byte) :
    s.Answers p r e events st cl da
      (((s.setEngine e).setPort p { s.port p with service := some r }).conclude s.engine events p
        [[.reply r.code st cl da]]) := by
  generalize hs' : (s.setEngine e).setPort p { s.port p with service := some r } = s'
  have he : s'.engine = e := by rw [← hs']; simp
  have hp : s'.port p = { s.port p with service := some r } := by rw [← hs']; simp
  have hq : s'.pending = s.pending := by rw [← hs']; simp
  have ho : s'.port p.other = s.port p.other := by rw [← hs']; simp
  obtain ⟨w, order, perm, eq⟩ := State.deliver_port s' p ([[.reply r.code st cl da]] ++ itemBlocks s.engine e events p)
  have oth := State.deliver_items
    (s'.deliver p ([[.reply r.code st cl da]] ++ itemBlocks s.engine e events p)) p.other
    (before := s.engine) (after := e) (events := events)
  simp only [State.deliver_other, ho] at oth
  have mem : ∀ h, h ∈ order.flatten ↔ h = .reply r.code st cl da ∨ ∃ i ∈ itemsFor s.engine e events p, h = .item i :=
    fun h => by
      rw [perm.flatten.mem_iff, List.flatten_append, List.mem_append, itemBlocks_flatten]
      simp
  have plain : ∀ h ∈ order.flatten, h.plain = true := fun h hh => by
    rcases (mem h).1 hh with rfl | ⟨i, _, rfl⟩ <;> rfl
  have hearsOwn : PortState.Hears (itemsFor s.engine e events p) (s.port p)
      ((s'.port p).run w (s'.engine.levels p) 0 order.flatten).kick := by
    have := (PortState.run_hears w (s'.engine.levels p) _ plain 0 [] (s'.port p) _ (PortState.hears_refl _)).kick
    rw [hp] at this ⊢
    refine (this.of_same (x' := s.port p) rfl rfl rfl rfl rfl).congr fun i => ?_
    simp [mem_itemsAmong, mem]
  -- the reply's place among the happenings
  have hin : [Happening.reply r.code st cl da] ∈ order := by rw [perm.mem_iff]; simp
  obtain ⟨l, m, rfl⟩ := List.append_of_mem hin
  have hfl : (l ++ [Happening.reply r.code st cl da] :: m).flatten =
      l.flatten ++ (Happening.reply r.code st cl da :: m.flatten) := by simp
  have permItems : (l ++ m).Perm (itemBlocks s.engine e events p) := by
    have h1 : ([Happening.reply r.code st cl da] :: (l ++ m)).Perm
        ([Happening.reply r.code st cl da] :: itemBlocks s.engine e events p) :=
      (List.perm_middle.symm).trans (by simpa using perm)
    exact (List.perm_cons _).1 h1
  have itemsL : ∀ h ∈ l.flatten, ∃ i, h = .item i := fun h hh => by
    have : h ∈ (itemBlocks s.engine e events p).flatten := by
      rw [← permItems.flatten.mem_iff]; simp [hh]
    obtain ⟨i, _, rfl⟩ := itemBlocks_flatten.1 this; exact ⟨i, rfl⟩
  have plainM : ∀ h ∈ m.flatten, h.plain = true := fun h hh => plain h (by rw [hfl]; simp [hh])
  generalize hx : PortState.run w (s'.engine.levels p) 0 l.flatten (s'.port p) = x at *
  have runEq : (s'.port p).run w (s'.engine.levels p) 0 (l ++ [Happening.reply r.code st cl da] :: m).flatten =
      PortState.run w (s'.engine.levels p) (l.flatten.length + 1) m.flatten
        (x.sendReply (.service (x.reply r.code st cl da))) := by
    rw [hfl, PortState.run_append, hx]; simp [PortState.run, PortState.happen]
  have cleared := PortState.run_clear w (s'.engine.levels p) m.flatten plainM (l.flatten.length + 1)
    (x.sendReply (.service (x.reply r.code st cl da))) ⟨rfl, rfl⟩
  have sentM := (PortState.run_hears w (s'.engine.levels p) m.flatten plainM (l.flatten.length + 1) []
    (x.sendReply (.service (x.reply r.code st cl da))) _ (PortState.hears_refl _)).sent
  have serv : (PortState.run w (s'.engine.levels p) 0 (l ++ [Happening.reply r.code st cl da] :: m).flatten
      (s'.port p)).service = some r := by rw [PortState.run_service _ _ _ plain, hp]
  have flagsL := PortState.run_flags w (s'.engine.levels p) l.flatten itemsL 0 (s'.port p)
  have hrest : ∀ p', PortState.Hears (itemsFor s.engine e events p') (s.port p')
      ((s'.conclude s.engine events p [[.reply r.code st cl da]]).port p') := by
    intro p'
    rcases Port.eq_or_other p p' with rfl | rfl
    · rw [State.conclude_port, he, eq]; exact hearsOwn
    · rw [State.conclude_other, he]; exact oth.1
  refine ⟨by simp [he], by simp [hq], hrest, ?_, ?_, ⟨x.reply r.code st cl da, ?_, rfl, rfl, rfl, rfl, ?_⟩, ?_, ?_⟩
  · rw [State.conclude_port, he, eq]; simpa using serv
  · rw [State.conclude_port, he, eq, runEq]; simpa using cleared
  · rw [State.conclude_port, he, eq, runEq, PortState.kick_outgoing]
    exact sentM.subset (by rw [PortState.outgoing_sendReply]; simp)
  · intro hw
    rw [hp] at flagsL
    have := flagsL (by simpa using hw)
    rw [hp] at hx
    rw [hx] at this
    exact this
  · rw [State.conclude_other, he]; exact oth.2.1
  · rw [State.conclude_other, he]; exact oth.2.2

/-! ### Commands that raise nothing -/

theorem itemBlocks_nil {before after : Engine} {p : Port} (h : rises before after p = []) :
    itemBlocks before after [] p = [] := by simp [itemBlocks, h]

/-- No state turns true where none that is true after was false before. -/
theorem rises_nil {before after : Engine} {p : Port} (h : ∀ x, after.level p x = true → before.level p x = true) :
    rises before after p = [] := by
  simp only [rises, List.filter_eq_nil_iff, Bool.and_eq_true, Bool.not_eq_true', not_and]
  intro x _ hb ha
  rw [h x ha] at hb
  cases hb

@[simp] theorem rises_self (e : Engine) (p : Port) : rises e e p = [] := rises_nil fun _ h => h

/-- The levels are read from these blocks alone. -/
theorem Engine.level_congr {e e' : Engine} (charge : e'.charge = e.charge) (busy : e'.library.busy = e.library.busy)
    (a : e'.linkA.state = e.linkA.state) (b : e'.linkB.state = e.linkB.state)
    (active : e'.selector.active = e.selector.active) (conceal : e'.selector.concealCount = e.selector.concealCount)
    (lost : e'.packs.anyLost = e.packs.anyLost) (calls : e'.packs.calls = e.packs.calls) (p : Port) (x : Level) :
    e'.level p x = e.level p x := by
  cases x <;> simp [Engine.level, *]

theorem rises_of_level {e e' : Engine} {p : Port} (h : ∀ x, e'.level p x = e.level p x) : rises e e' p = [] :=
  rises_nil fun x hx => by rwa [h x] at hx

theorem PortState.settled_of {s : State} (h : s.settled) (p : Port) : (s.port p).settled := by
  cases p
  · exact h.1
  · exact h.2

theorem State.deliver_nothing (s : State) (p : Port) (h : (s.port p).settled) : s.deliver p [] = s := by
  simp [State.deliver, PortState.kick_of_settled h]

/-- A command that raises nothing and sends nothing leaves both ports as they were. -/
theorem State.conclude_nothing {s : State} (h : s.settled) {before : Engine}
    (rise : ∀ p, rises before s.engine p = []) (p : Port) : s.conclude before [] p [] = s := by
  simp only [State.conclude, itemBlocks_nil (rise _), List.append_nil]
  rw [State.deliver_nothing _ _ (PortState.settled_of h p), State.deliver_nothing _ _ (PortState.settled_of h p.other)]

/-- A request that raises nothing: its reply is the only thing that happens. -/
theorem State.conclude_replied {s : State} (h : s.settled) (p : Port) (r : Request) (e : Engine) (st : Status)
    (cl : Bool) (da : List Byte) (rise : ∀ p, rises s.engine e p = []) :
    ((s.setEngine e).setPort p { s.port p with service := some r }).conclude s.engine [] p
      [[.reply r.code st cl da]] = s.replied p r e st cl da := by
  have hs := PortState.settled_of h p
  have he : (((s.setEngine e).setPort p { s.port p with service := some r }).engine) = e := by simp
  simp only [State.conclude, he, itemBlocks_nil (rise _), List.append_nil]
  rw [State.deliver_nothing _ p.other (by simpa using PortState.settled_of h p.other)]
  simp only [State.deliver, arrange_single, List.flatten_cons, List.flatten_nil, List.append_nil,
    PortState.run, PortState.happen, State.setPort_port, State.setPort_setPort]
  have frame : PortState.kick (PortState.sendReply { s.port p with service := some r }
      (.service (PortState.reply { s.port p with service := some r } r.code st cl da))) =
      (s.port p).replied r st cl da :=
    PortState.kick_ready (x := { s.port p with service := some r, lost := false, garbled := false }) hs _
  rw [frame]
  cases p <;> rfl

@[simp] theorem State.acted_engine (s : State) (f : Engine → Act) : (s.acted f).engine = (f s.engine).1 := by
  simp [State.acted]

theorem State.acted_raises (s : State) (f : Engine → Act) : s.Raises (f s.engine).1 (f s.engine).2 (s.acted f) :=
  State.conclude_raises s _ _ .home

theorem State.act_raises {s : State} (h : s.engine.powered = true) (f : Engine → Act) :
    ∃ t, s.act f = .next t ∧ s.Raises (f s.engine).1 (f s.engine).2 t := by
  exact ⟨_, by simp only [State.act, h, if_true], State.acted_raises s f⟩

theorem State.act_silent {s : State} (h : s.engine.powered = true) (hs : s.settled) {f : Engine → Act} {e : Engine}
    (eq : f s.engine = (e, [])) (rise : ∀ p, rises s.engine e p = []) : s.act f = .next (s.setEngine e) := by
  simp only [State.act, State.acted, h, if_true, eq]
  rw [State.conclude_nothing (s := s.setEngine e) hs rise]

/-! ### Taking a request -/

theorem State.serve_done (p : Port) (s : State) (h : (s.port p).queue = []) (k : Nat) : State.serve p k s = s := by
  induction k with
  | zero => rfl
  | succ k ih =>
    have : s.takeOne p = s := by unfold State.takeOne; split <;> simp_all
    simp only [State.serve, this, ih]

theorem State.serve_busy (p : Port) (s : State) (r : Request) (h : (s.port p).service = some r) (k : Nat) :
    State.serve p k s = s := by
  induction k with
  | zero => rfl
  | succ k ih =>
    have : s.takeOne p = s := by unfold State.takeOne; split <;> simp_all
    simp only [State.serve, this, ih]

/-- R155: an idle port takes a kept request at the instant it joins. -/
theorem State.offerRequest_idle {s : State} {p : Port} (q : (s.port p).queue = []) (v : (s.port p).service = none)
    (r : Request) : s.offerRequest p r = s.applyRequest p r := by
  unfold State.offerRequest State.serveQueue
  simp only [q, List.length_nil, List.nil_append, State.setPort_port,
    List.length_cons, Nat.zero_add, State.serve]
  rw [if_pos (by decide)]
  unfold State.takeOne
  simp only [State.setPort_port, v, State.setPort_setPort]
  rw [State.setPort_of_eq]
  rw [← q, ← v]

theorem exec_request {c : Instr} {p : Port} {r : Request} (h : requestOf c = some (p, r)) (s : State) :
    exec c s = s.request p r.code r.payload := by
  cases c <;> simp only [requestOf, Option.some.injEq, Prod.mk.injEq, reduceCtorEq] at h <;>
    obtain ⟨rfl, rfl⟩ := h <;> rfl

theorem exec_request_idle {c : Instr} {p : Port} {r : Request} (h : requestOf c = some (p, r)) {s : State}
    (i : s.idleAt p) : exec c s = .next (s.applyRequest p r) := by
  obtain ⟨hp, hr, hq, hv, _⟩ := i
  rw [exec_request h]
  simp only [State.request, hp, hr]
  rw [State.offerRequest_idle hq hv]

/-- A request that acts on the blocks and raises nothing. -/
theorem exec_replied {c : Instr} {p : Port} {r : Request} (h : requestOf c = some (p, r)) {s : State}
    (i : s.idleAt p) (f : Effect)
    (a : answerOf r p s.engine { s.port p with service := some r } =
      f.answer r.code { s.port p with service := some r })
    (ev : f.events = []) (rise : ∀ p, rises s.engine f.engine p = []) :
    exec c s = .next (s.replied p r f.engine f.status f.clamped f.data) := by
  rw [exec_request_idle h i]
  unfold State.applyRequest
  rw [a]
  simp only [Effect.answer, ev]
  rw [State.conclude_replied i.2.2.2.2 p r f.engine f.status f.clamped f.data rise]

/-- A request that acts on the blocks. -/
theorem exec_answers {c : Instr} {p : Port} {r : Request} (h : requestOf c = some (p, r)) {s : State}
    (i : s.idleAt p) (f : Effect)
    (a : answerOf r p s.engine { s.port p with service := some r } =
      f.answer r.code { s.port p with service := some r }) :
    ∃ t, exec c s = .next t ∧ s.Answers p r f.engine f.events f.status f.clamped f.data t := by
  rw [exec_request_idle h i]
  refine ⟨_, rfl, ?_⟩
  unfold State.applyRequest
  rw [a]
  exact State.conclude_answers s p r f.engine f.events f.status f.clamped f.data

end Sys2Proof.Machine
end

