-- ==== Sys2Proof/Laws/Instant.lean ====
section
/-! SUPPORT. The frame instant: what the receivers and the selector come to, whatever the turns of the receivers, and
the sums of a mix. -/
namespace Sys2Proof.Machine

/-! ### The receivers -/

/-- A receiver after its own work at a frame instant. -/
def Receiver.worked (r : Receiver) : Receiver := r.instant (!r.fresh)

theorem Receiver.worked_leaving {r : Receiver} (h : r.leaving) : r.worked = r.leaveLocked .seeking := by
  obtain ⟨a, b, c⟩ := h
  simp only [Receiver.worked, Receiver.instant, a, b, Bool.not_false]
  rw [if_pos c]

theorem Receiver.worked_missing {r : Receiver} (a : r.state = .locked) (b : r.fresh = false) (c : r.missRun + 1 < 8) :
    r.worked = { r with missRun := r.missRun + 1 } := by
  simp only [Receiver.worked, Receiver.instant, a, b, Bool.not_false]
  rw [if_neg (by omega)]

theorem Receiver.worked_kept {r : Receiver} (h : r.fresh = true ∨ r.state ≠ .locked) : r.worked = r := by
  unfold Receiver.worked Receiver.instant
  rcases h with h | h
  · rw [h]; cases r.state <;> rfl
  · cases hs : r.state <;> simp_all

/-- Either the link leaves LOCKED, or its state, holder and mark are kept. -/
theorem Receiver.worked_cases (r : Receiver) :
    (r.leaving ∧ r.worked = r.leaveLocked .seeking) ∨
      (¬ r.leaving ∧ r.worked.state = r.state ∧ r.worked.fresh = r.fresh ∧ r.worked.held = r.held) := by
  by_cases h : r.leaving
  · exact .inl ⟨h, Receiver.worked_leaving h⟩
  · refine .inr ⟨h, ?_⟩
    by_cases a : r.fresh = true ∨ r.state ≠ .locked
    · rw [Receiver.worked_kept a]; exact ⟨rfl, rfl, rfl⟩
    · simp only [not_or, Bool.not_eq_true, Decidable.not_not] at a
      have c : r.missRun + 1 < 8 := by
        rcases Nat.lt_or_ge (r.missRun + 1) 8 with c | c
        · exact c
        · exact absurd ⟨a.2, a.1, c⟩ h
      rw [Receiver.worked_missing a.2 a.1 c]; exact ⟨rfl, rfl, rfl⟩

@[simp] theorem Receiver.worked_freshFrame (r : Receiver) : r.worked.freshFrame = r.freshFrame := by
  rcases r.worked_cases with ⟨h, e⟩ | ⟨_, _, f, g⟩
  · rw [e]; simp [Receiver.freshFrame, Receiver.leaveLocked, h.2.1]
  · simp [Receiver.freshFrame, f, g]

theorem Receiver.worked_locked {r : Receiver} (h : r.worked.state = .locked) : r.state = .locked ∧ ¬ r.leaving := by
  rcases r.worked_cases with ⟨_, e⟩ | ⟨n, s, _⟩
  · rw [e] at h; simp [Receiver.leaveLocked] at h
  · exact ⟨by rw [← s]; exact h, n⟩

theorem linkDownOf_worked (r : Receiver) : Event.linkDown ∈ linkDownOf r r.worked ↔ r.leaving := by
  unfold linkDownOf
  rcases r.worked_cases with ⟨h, e⟩ | ⟨n, s, _⟩
  · have hs := h.1
    refine ⟨fun _ => h, fun _ => ?_⟩
    rw [if_pos ⟨hs, by rw [e]; simp [Receiver.leaveLocked]⟩]; simp
  · rw [if_neg (fun x => x.2 (s.trans x.1))]; simp [n]

theorem Receiver.stale_instant (r : Receiver) :
    Receiver.instant { r with fresh := false } (!r.fresh) = { r.worked with fresh := false } := by
  unfold Receiver.worked Receiver.instant
  cases hs : r.state <;> cases r.fresh <;> simp [hs]
  split <;> simp [Receiver.leaveLocked]

theorem linkDownOf_stale (r r' : Receiver) :
    linkDownOf { r with fresh := false } { r' with fresh := false } = linkDownOf r r' := rfl

theorem linkDownOf_only {r r' : Receiver} {e : Event} (h : e ∈ linkDownOf r r') : e = .linkDown := by
  unfold linkDownOf at h; split at h <;> simp_all

/-- The receivers' work at one turn. -/
theorem Engine.receiversAt_eq (now : Turn) (turn : Link → Turn) (missed : Link → Bool) (e : Engine) :
    e.receiversAt now turn missed =
      ({ e with
          linkA := if turn .a = now then e.linkA.instant (missed .a) else e.linkA
          linkB := if turn .b = now then e.linkB.instant (missed .b) else e.linkB },
        (if turn .a = now then linkDownOf e.linkA (e.linkA.instant (missed .a)) else []) ++
          (if turn .b = now then linkDownOf e.linkB (e.linkB.instant (missed .b)) else [])) := by
  unfold Engine.receiversAt Act.andThen Act.start Engine.receiverInstant
  by_cases ha : turn .a = now <;> by_cases hb : turn .b = now <;>
    simp [ha, hb, Engine.receiver, Engine.setReceiver]

/-! ### The selector -/

/-- The selector once a frame is used (R10). -/
def Selector.used (x : Selector) (f : StageFrame) : Selector :=
  { x with missRun := 0, concealCount := 0, lastUsed := f.spread, delivered := f.spread }

/-- The selector once a gap is concealed (R13). -/
def Selector.concealed (x : Selector) : Selector :=
  { x with
    concealCount := min 255 (x.concealCount + 1)
    delivered := if min 255 (x.concealCount + 1) ≤ 2 then x.lastUsed else Delivered.zero }

/-- The selector once another link is active (R9). -/
def Selector.switched (x : Selector) : Selector := { x with active := x.active.other, missRun := 0 }

/-- Whether the revert check returns to A, given A's fresh frame (R15). -/
def Selector.reverts (x : Selector) (a : Option StageFrame) : Bool :=
  decide (x.mode = .auto) && x.autoRevert && decide (x.active = .b) && decide (96000 ≤ x.primaryTime) && a.isSome

/-- The delivery stage with the miss rule and concealment (R10, R11, R13). -/
def Selector.delivers (x : Selector) (fresh : Link → Option StageFrame) (locked : Link → Bool) :
    Selector × List Event :=
  match fresh x.active with
  | some f => (x.used f, [])
  | none =>
    if x.mode = .auto ∧ 3 ≤ x.missRun + 1 ∧ locked x.active.other = true then
      match fresh x.active.other with
      | some f => (x.switched.used f, [.sourceChange])
      | none => (x.switched.concealed, [.sourceChange])
    else ({ x with missRun := min 255 (x.missRun + 1) }.concealed, [])

/-- The first three stages of the selector's work. -/
def Selector.chooses (x : Selector) (fresh : Link → Option StageFrame) (locked : Link → Bool) :
    Selector × List Event :=
  if x.reverts (fresh .a) then
    ((x.switched.delivers fresh locked).1, .sourceChange :: (x.switched.delivers fresh locked).2)
  else x.delivers fresh locked

theorem Selector.delivers_kept (x : Selector) (fresh : Link → Option StageFrame) (locked : Link → Bool) :
    (x.delivers fresh locked).1.mode = x.mode ∧ (x.delivers fresh locked).1.autoRevert = x.autoRevert ∧
      (x.delivers fresh locked).1.primaryTime = x.primaryTime := by
  unfold Selector.delivers
  repeat' split
  all_goals exact ⟨rfl, rfl, rfl⟩

theorem Selector.chooses_kept (x : Selector) (fresh : Link → Option StageFrame) (locked : Link → Bool) :
    (x.chooses fresh locked).1.mode = x.mode ∧ (x.chooses fresh locked).1.autoRevert = x.autoRevert ∧
      (x.chooses fresh locked).1.primaryTime = x.primaryTime := by
  unfold Selector.chooses
  split
  · exact Selector.delivers_kept x.switched fresh locked
  · exact Selector.delivers_kept x fresh locked

theorem Engine.failsOver_eq (e : Engine) :
    e.countMiss.failsOver = true ↔
      (e.selector.mode = .auto ∧ 3 ≤ e.selector.missRun + 1 ∧
        decide ((e.receiver e.selector.active.other).state = .locked) = true) := by
  have hr : ∀ l, e.countMiss.receiver l = e.receiver l := fun l => by cases l <;> rfl
  unfold Engine.failsOver
  rw [hr, Bool.and_eq_true, Bool.and_eq_true, decide_eq_true_iff, decide_eq_true_iff]
  have : e.countMiss.selector.missRun = min 255 (e.selector.missRun + 1) := rfl
  rw [this]
  constructor
  · rintro ⟨⟨a, b⟩, c⟩; exact ⟨a, by omega, c⟩
  · rintro ⟨a, b, c⟩; exact ⟨⟨a, by omega⟩, c⟩

@[simp] theorem Link.other_ne (l : Link) : l ≠ l.other := by cases l <;> decide

theorem Engine.deliverOrMiss_eq (e : Engine) :
    e.deliverOrMiss =
      ({ e with selector := (e.selector.delivers (fun l => (e.receiver l).freshFrame)
          (fun l => decide ((e.receiver l).state = .locked))).1 },
        (e.selector.delivers (fun l => (e.receiver l).freshFrame)
          (fun l => decide ((e.receiver l).state = .locked))).2) := by
  have hr : ∀ (x : Selector) l, Engine.receiver { e with selector := x } l = e.receiver l := fun x l => by
    cases l <;> rfl
  unfold Engine.deliverOrMiss Selector.delivers
  generalize hfr : (e.receiver e.selector.active).freshFrame = fa
  simp only [hfr]
  cases fa with
  | some f => rfl
  | none =>
    simp only []
    by_cases h : e.countMiss.failsOver = true
    · rw [if_pos h, if_pos ((Engine.failsOver_eq e).1 h)]
      have hs : Engine.setActive e.selector.active.other e.countMiss =
          ({ e with selector := { e.countMiss.selector with active := e.selector.active.other, missRun := 0 } },
            [.sourceChange]) := by
        unfold Engine.setActive
        rw [if_neg (show ¬ e.countMiss.selector.active = e.selector.active.other from Link.other_ne _)]
        rfl
      rw [hs]
      simp only [Engine.useOrConceal, hr]
      generalize hfo : (e.receiver e.selector.active.other).freshFrame = fo
      cases fo <;> simp only [Engine.useFrame, Engine.conceal, Selector.switched, Selector.used, Selector.concealed,
        Engine.countMiss] <;> rfl
    · rw [if_neg h, if_neg (fun x => h ((Engine.failsOver_eq e).2 x))]; rfl

theorem Engine.revertCheck_eq (e : Engine) :
    e.revertCheck =
      if e.selector.reverts e.linkA.freshFrame then ({ e with selector := e.selector.switched }, [.sourceChange])
      else (e, []) := by
  unfold Engine.revertCheck
  have : e.reverts = e.selector.reverts e.linkA.freshFrame := rfl
  rw [this]
  by_cases h : e.selector.reverts e.linkA.freshFrame = true
  · rw [if_pos h, if_pos h]
    have hb : e.selector.active = .b := by
      simp only [Selector.reverts, Bool.and_eq_true, decide_eq_true_eq] at h; exact h.1.1.2
    simp [Engine.setActive, hb, Selector.switched, Link.other]
  · rw [if_neg h, if_neg h]

/-- The first three stages together. -/
theorem Engine.revertDeliver_eq (e : Engine) :
    Act.andThen e.revertCheck Engine.deliverOrMiss =
      ({ e with selector := (e.selector.chooses (fun l => (e.receiver l).freshFrame)
          (fun l => decide ((e.receiver l).state = .locked))).1 },
        (e.selector.chooses (fun l => (e.receiver l).freshFrame)
          (fun l => decide ((e.receiver l).state = .locked))).2) := by
  rw [Engine.revertCheck_eq]
  unfold Selector.chooses
  have ha : e.linkA.freshFrame = (e.receiver .a).freshFrame := rfl
  rw [ha]
  by_cases h : e.selector.reverts (e.receiver .a).freshFrame = true
  · rw [if_pos h, if_pos h]
    simp only [Act.andThen, Engine.deliverOrMiss_eq]
    have hr : ∀ l, Engine.receiver { e with selector := e.selector.switched } l = e.receiver l := by
      intro l; cases l <;> rfl
    simp only [hr, List.singleton_append]
  · rw [if_neg h, if_neg h]
    simp only [Act.andThen, Engine.deliverOrMiss_eq, List.nil_append]

/-- R5, R6, R10 to R15: the blocks after the selector's work, whatever the turns of the receivers. The failover test and
the closing stage each read a link state from before or after the receiver's own work, as the turns have it. -/
theorem Engine.selectFrame_eq (turn : Link → Turn) (e : Engine) :
    ∃ (atTest : Link → Bool) (aLocked : Bool) (events : List Event),
      (∀ l, atTest l = decide ((e.receiver l).state = .locked) ∨ atTest l = decide ((e.receiver l).worked.state = .locked)) ∧
      (aLocked = decide (e.linkA.state = .locked) ∨ aLocked = decide (e.linkA.worked.state = .locked)) ∧
      (∀ ev, ev ∈ events ↔ ev ∈ (e.selector.chooses (fun l => (e.receiver l).freshFrame) atTest).2 ∨
        ev ∈ linkDownOf e.linkA e.linkA.worked ∨ ev ∈ linkDownOf e.linkB e.linkB.worked) ∧
      e.selectFrame turn =
        ({ e with
            linkA := { e.linkA.worked with fresh := false }
            linkB := { e.linkB.worked with fresh := false }
            selector := { (e.selector.chooses (fun l => (e.receiver l).freshFrame) atTest).1 with
              primaryTime :=
                if (e.selector.chooses (fun l => (e.receiver l).freshFrame) atTest).1.active = .b ∧ aLocked = true then
                  min 96000 (e.selector.primaryTime + 1)
                else 0 } }, events) := by
  have wa : e.linkA.instant (!e.linkA.fresh) = e.linkA.worked := rfl
  have wb : e.linkB.instant (!e.linkB.fresh) = e.linkB.worked := rfl
  have ra : e.receiver .a = e.linkA := rfl
  have rb : e.receiver .b = e.linkB := rfl
  generalize hat : (fun l => decide ((if turn l = .beforeSelector then (e.receiver l).worked else e.receiver l).state = .locked)) = atTest
  -- the engine once the receivers of the first turn have worked
  generalize he1 : ({ e with
    linkA := if turn .a = .beforeSelector then e.linkA.worked else e.linkA
    linkB := if turn .b = .beforeSelector then e.linkB.worked else e.linkB } : Engine) = e1
  have r1 : ∀ l, e1.receiver l = if turn l = .beforeSelector then (e.receiver l).worked else e.receiver l := by
    intro l; rw [← he1]; cases l <;> rfl
  have f1 : (fun l => (e1.receiver l).freshFrame) = fun l => (e.receiver l).freshFrame := by
    funext l; rw [r1]; split <;> simp
  have k1 : (fun l => decide ((e1.receiver l).state = .locked)) = atTest := by
    rw [← hat]; funext l; rw [r1]
  have s1 : e1.selector = e.selector := by rw [← he1]
  have mid := Engine.revertDeliver_eq e1
  rw [f1, k1, s1] at mid
  have keep := (e.selector.chooses_kept (fun l => (e.receiver l).freshFrame) atTest).2.2
  generalize hc : e.selector.chooses (fun l => (e.receiver l).freshFrame) atTest = c at mid keep
  have whole : e.selectFrame turn =
      ((((((Engine.receiversAt .beforeSelector turn (fun l => !(e.receiver l).fresh) e).1.revertCheck).andThen
        Engine.deliverOrMiss).andThen
        (Engine.receiversAt .beforeClosing turn (fun l => !(e.receiver l).fresh))).andThen
        fun e' => (Act.start e'.closing).andThen (Engine.receiversAt .afterClosing turn (fun l => !(e.receiver l).fresh))).1,
       (Engine.receiversAt .beforeSelector turn (fun l => !(e.receiver l).fresh) e).2 ++
       (((((Engine.receiversAt .beforeSelector turn (fun l => !(e.receiver l).fresh) e).1.revertCheck).andThen
        Engine.deliverOrMiss).andThen
        (Engine.receiversAt .beforeClosing turn (fun l => !(e.receiver l).fresh))).andThen
        fun e' => (Act.start e'.closing).andThen (Engine.receiversAt .afterClosing turn (fun l => !(e.receiver l).fresh))).2) := by
    simp only [Engine.selectFrame, Act.andThen, Act.start, List.nil_append, List.append_assoc]
  have first : (Engine.receiversAt .beforeSelector turn (fun l => !(e.receiver l).fresh) e).1 = e1 := by
    rw [Engine.receiversAt_eq, ← he1]; simp only [ra, rb, wa, wb]
  rw [first, mid] at whole
  refine ⟨atTest, decide ((if turn .a = .afterClosing then e.linkA else e.linkA.worked).state = .locked),
    (e.selectFrame turn).2,
    fun l => by rw [← hat]; by_cases h : turn l = .beforeSelector <;> simp [h],
    by by_cases h : turn .a = .afterClosing <;> simp [h], ?_, Prod.ext ?_ rfl⟩
  · intro ev
    rw [whole, hc]
    simp only [Act.andThen, Act.start, Engine.receiversAt_eq, Engine.closing, ← he1, ra, rb]
    rcases ha : turn .a with _ | _ | _ <;> rcases hb : turn .b with _ | _ | _ <;>
      simp [wa, wb, Receiver.stale_instant, linkDownOf_stale, or_comm, or_left_comm, or_assoc]
  · rw [whole, hc]
    simp only [Act.andThen, Act.start, Engine.receiversAt_eq, Engine.closing, ← he1, ra, rb]
    rcases ha : turn .a with _ | _ | _ <;> rcases hb : turn .b with _ | _ | _ <;>
      simp [wa, wb, Receiver.stale_instant, keep]

/-! ### The whole frame instant -/

/-- What the selector's work leaves, in the blocks e, of the blocks before: the receivers, the selector and the events. -/
structure Engine.Selected (before e : Engine) (atTest : Link → Bool) (aLocked : Bool) (events : List Event) : Prop where
  test : ∀ l, atTest l = decide ((before.receiver l).state = .locked) ∨
    atTest l = decide ((before.receiver l).worked.state = .locked)
  closing : aLocked = decide (before.linkA.state = .locked) ∨ aLocked = decide (before.linkA.worked.state = .locked)
  raised : ∀ ev, ev ∈ events ↔ ev ∈ (before.selector.chooses (fun l => (before.receiver l).freshFrame) atTest).2 ∨
    ev ∈ linkDownOf before.linkA before.linkA.worked ∨ ev ∈ linkDownOf before.linkB before.linkB.worked
  blocks : e = { before with
    linkA := { before.linkA.worked with fresh := false }
    linkB := { before.linkB.worked with fresh := false }
    selector := { (before.selector.chooses (fun l => (before.receiver l).freshFrame) atTest).1 with
      primaryTime :=
        if (before.selector.chooses (fun l => (before.receiver l).freshFrame) atTest).1.active = .b ∧ aLocked = true then
          min 96000 (before.selector.primaryTime + 1)
        else 0 } }

theorem State.endInstant_port (before after : State) (p : Port) :
    (before.endInstant after).port p =
      (before.port p).endInstant (before.resetFollows && Config.together before.draws) (after.port p) := by
  cases p <;> rfl

/-- R78, R90: the mark that the end of a frame instant sets at the ports takes nothing from what they have heard. -/
theorem State.Raises.endInstant (before : State) {s u : State} {e : Engine} {events : List Event}
    (h : s.Raises e events u) : s.Raises e events (before.endInstant u) := by
  have port := State.endInstant_port before u
  refine ⟨h.engine, h.pending, fun p => ?_, fun p => by rw [port]; exact h.service p, fun p => by rw [port]; exact h.flags p⟩
  rw [port]
  have k := h.hears p
  exact ⟨⟨k.receiver, k.queue, k.mask, k.sent, k.told, k.occurred, k.reasons, k.armed, k.parked⟩,
    ⟨k.orderly, k.reported, k.quiet, k.met, k.stays⟩⟩

/-- R61: a frame instant: the selector's work, the mixes, and the ramps. -/
theorem exec_frameInstant {s : State} (h : s.engine.powered = true) :
    ∃ (e : Engine) (atTest : Link → Bool) (aLocked : Bool) (events : List Event) (t : State),
      Engine.Selected s.engine e atTest aLocked events ∧ exec .frameInstant s = .next t ∧
        t.engine = e.computeMixes.1.moveRamps ∧ s.Raises t.engine (events ++ e.computeMixes.2) t := by
  obtain ⟨atTest, aLocked, events, h1, h2, h3, h4⟩ := Engine.selectFrame_eq (Config.receiverTurn s.draws) s.engine
  have hr := State.acted_raises { s with draws := s.draws + 1 } (Engine.frameInstant (Config.receiverTurn s.draws))
  generalize hu : State.acted { s with draws := s.draws + 1 } (Engine.frameInstant (Config.receiverTurn s.draws)) = u at hr
  generalize he : (Engine.selectFrame (Config.receiverTurn s.draws) s.engine).1 = e
  have hf : Engine.frameInstant (Config.receiverTurn s.draws) s.engine =
      (e.computeMixes.1.moveRamps, events ++ e.computeMixes.2) := by
    rw [← he]
    simp only [Engine.frameInstant, Act.andThen, List.append_nil]
    rw [h4]
  have hf' : Engine.frameInstant (Config.receiverTurn s.draws) ({ s with draws := s.draws + 1 } : State).engine =
      (e.computeMixes.1.moveRamps, events ++ e.computeMixes.2) := hf
  rw [hf'] at hr
  have raised := State.Raises.endInstant s hr
  have engine : (s.endInstant u).engine = e.computeMixes.1.moveRamps := hr.engine
  refine ⟨e, atTest, aLocked, events, s.endInstant u, ⟨h1, h2, h3, ?_⟩, ?_, engine, ?_⟩
  · rw [← he, h4]
  · simp only [exec, execFrameInstant, h, if_true, hu]
  · rw [engine]
    have hp : ∀ p, ({ s with draws := s.draws + 1 } : State).port p = s.port p := fun p => by cases p <;> rfl
    exact ⟨raised.engine, raised.pending, fun p => by have := raised.hears p; rwa [hp] at this,
      fun p => by rw [raised.service p, hp], fun p => by have := raised.flags p; rwa [hp] at this⟩

/-- R78, R90: the frames that a frame instant marks as not to be seen. -/
theorem exec_frameInstant_unseen {s t : State} (h : s.engine.powered = true) (e : exec .frameInstant s = .next t)
    (p : Port) :
    (t.port p).unseen = (s.resetFollows && Config.together s.draws && (s.port p).line.isNone &&
      (t.port p).line.any Frame.tellsClipOrGuard) := by
  simp only [exec, execFrameInstant, h, if_true] at e
  cases e
  rw [State.endInstant_port]
  rfl

@[simp] theorem Engine.computeMixes_receiver (e : Engine) (l : Link) :
    (e.computeMixes.1.moveRamps).receiver l = e.receiver l := by
  cases l <;> simp only [Engine.moveRamps, Engine.computeMixes, Engine.receiver]

@[simp] theorem Engine.computeMixes_selector (e : Engine) : (e.computeMixes.1.moveRamps).selector = e.selector := by
  simp only [Engine.moveRamps, Engine.computeMixes]

@[simp] theorem Engine.computeMixes_linkA (e : Engine) : (e.computeMixes.1.moveRamps).linkA = e.linkA := by
  simp only [Engine.moveRamps, Engine.computeMixes]

@[simp] theorem Engine.computeMixes_linkB (e : Engine) : (e.computeMixes.1.moveRamps).linkB = e.linkB := by
  simp only [Engine.moveRamps, Engine.computeMixes]

theorem Engine.computeMixes_run (e : Engine) (m : Fin 24) :
    (e.computeMixes.1.moveRamps).runs[m] =
      (e.runs[m]).instant (e.tables.mixes[m]).record (e.sumLeft m) (e.sumRight m) := by
  simp [Engine.moveRamps, Engine.computeMixes]

theorem Engine.computeMixes_meters (e : Engine) : (e.computeMixes.1.moveRamps).inputMeters = e.metered := by
  simp [Engine.moveRamps, Engine.computeMixes]

theorem Engine.computeMixes_meter (e : Engine) (h : e.metersRest = false) (i : Fin 64) :
    (e.computeMixes.1.moveRamps).inputMeters[i] = max e.inputMeters[i] (e.sample i).natAbs := by
  simp [Engine.computeMixes_meters, Engine.metered, h]

theorem Engine.computeMixes_coef (e : Engine) (m : Fin 24) (i : Fin 64) :
    ((e.computeMixes.1.moveRamps).coefs[m])[i] = ((e.coefs[m])[i]).move := by
  simp [Engine.moveRamps, Engine.computeMixes]

/-- The blocks that the mixes and the ramps leave as they were. -/
theorem Engine.computeMixes_rest (e : Engine) :
    e.computeMixes.1.moveRamps =
      { e with
        coefs := e.computeMixes.1.moveRamps.coefs, runs := e.computeMixes.1.moveRamps.runs
        inputMeters := e.computeMixes.1.moveRamps.inputMeters, metersRest := false, packs := { e.packs with frameDue := true } } := by
  simp only [Engine.moveRamps, Engine.computeMixes]

/-- The blocks that the selector's work leaves as they were. -/
theorem Engine.Selected.rest {before e : Engine} {atTest : Link → Bool} {aLocked : Bool} {events : List Event}
    (h : Engine.Selected before e atTest aLocked events) :
    e = { before with linkA := e.linkA, linkB := e.linkB, selector := e.selector } := by
  rw [h.blocks]

theorem Engine.Selected.kept {before e : Engine} {atTest : Link → Bool} {aLocked : Bool} {events : List Event}
    (h : Engine.Selected before e atTest aLocked events) :
    e.powered = before.powered ∧ e.tables = before.tables ∧ e.talkHome = before.talkHome ∧
      e.talkGuest = before.talkGuest ∧ e.coefs = before.coefs ∧ e.runs = before.runs ∧
      e.inputMeters = before.inputMeters ∧ e.metersRest = before.metersRest ∧ e.library = before.library ∧ e.packs = before.packs ∧
      e.charge = before.charge := by
  rw [h.blocks]; exact ⟨rfl, rfl, rfl, rfl, rfl, rfl, rfl, rfl, rfl, rfl, rfl⟩

theorem Engine.Selected.receiver {before e : Engine} {atTest : Link → Bool} {aLocked : Bool} {events : List Event}
    (h : Engine.Selected before e atTest aLocked events) (l : Link) :
    e.receiver l = { (before.receiver l).worked with fresh := false } := by
  rw [h.blocks]; cases l <;> rfl

theorem Engine.Selected.selector {before e : Engine} {atTest : Link → Bool} {aLocked : Bool} {events : List Event}
    (h : Engine.Selected before e atTest aLocked events) :
    e.selector = { (before.selector.chooses (fun l => (before.receiver l).freshFrame) atTest).1 with
      primaryTime :=
        if (before.selector.chooses (fun l => (before.receiver l).freshFrame) atTest).1.active = .b ∧ aLocked = true then
          min 96000 (before.selector.primaryTime + 1)
        else 0 } := by
  rw [h.blocks]

/-- R62: the sample of an input. -/
theorem Engine.sample_eq (e : Engine) (i : Fin 64) : e.sample i = sampleIn e.selector.delivered e.tables.inputs[i] := by
  unfold Engine.sample sampleIn
  cases (e.tables.inputs[i]).patch <;> rfl

theorem accumulate_eq (f : Fin 64 → Int) : accumulate f = ((List.finRange 64).map f).sum := by
  unfold accumulate
  have : ∀ (l : List (Fin 64)) (a : Int), l.foldl (fun acc i => acc + f i) a = a + (l.map f).sum := by
    intro l
    induction l with
    | nil => intro a; simp
    | cons x l ih => intro a; simp only [List.foldl_cons, ih, List.map_cons, List.sum_cons]; omega
  rw [this]; simp

theorem Engine.sumLeft_eq (e : Engine) (m : Fin 24) :
    e.sumLeft m = mixSum e.selector.delivered e.tables.inputs fun i => ((e.coefs[m])[i]).left.live := by
  unfold Engine.sumLeft mixSum
  rw [accumulate_eq]
  congr 1
  apply List.map_congr_left
  intro i _
  unfold product
  rw [Engine.sample_eq]
  split <;> simp_all [Int.neg_mul]

theorem Engine.sumRight_eq (e : Engine) (m : Fin 24) :
    e.sumRight m = mixSum e.selector.delivered e.tables.inputs fun i => ((e.coefs[m])[i]).right.live := by
  unfold Engine.sumRight mixSum
  rw [accumulate_eq]
  congr 1
  apply List.map_congr_left
  intro i _
  unfold product
  rw [Engine.sample_eq]
  split <;> simp_all [Int.neg_mul]

/-- What an item raised by a command leaves at every port. -/
theorem State.Raises.told {s t : State} {e : Engine} {events : List Event} (h : s.Raises e events t) {ev : Event}
    (m : ev ∈ events) (p : Port) : (t.port p).Told (.event ev) :=
  (h.hears p).told _ (by unfold itemsFor; simp [m])

end Sys2Proof.Machine
end

