-- ==== Sys2Proof/Laws/Audio.lean ====
section
/-! SUPPORT. The delivery law and the mix engine at a frame instant: rounding, the guard and the ramps. -/
namespace Sys2Proof.Machine

theorem Selector.reverts_of_notMayRevert {e : Engine} (h : ¬ e.mayRevert) : e.selector.reverts
    (e.receiver .a).freshFrame = false := by
  cases hr : e.selector.reverts (e.receiver .a).freshFrame
  · rfl
  · exfalso; apply h
    simp only [Selector.reverts, Bool.and_eq_true, decide_eq_true_eq] at hr
    obtain ⟨⟨⟨⟨a, b⟩, c⟩, d⟩, f⟩ := hr
    refine ⟨a, b, c, d, ?_⟩
    simp only [Receiver.freshFrame, Engine.receiver] at f
    cases hf : e.linkA.fresh <;> simp_all

theorem Engine.Selected.at_locked {b e : Engine} {at' al ev} (h : Engine.Selected b e at' al ev) {l : Link} :
    ((b.receiver l).state ≠ .locked → at' l = false) ∧ ((b.receiver l).state = .locked → ¬ (b.receiver l).leaving → at' l = true) := by
  have h1 := h.test l
  constructor
  · intro hn
    rcases h1 with h1 | h1 <;> rw [h1]
    · simpa using hn
    · simp only [decide_eq_false_iff_not]; exact fun hw => hn (Receiver.worked_locked hw).1
  · intro hl hn
    rcases h1 with h1 | h1 <;> rw [h1]
    · simpa using hl
    · rcases (b.receiver l).worked_cases with ⟨hh, _⟩ | ⟨_, hh, _⟩
      · exact absurd hh hn
      · simpa [hh] using hl

theorem Link.other_of_b (x : Link) : x = .b → x.other = .a := by rintro rfl; rfl

theorem limit24_eq (v : Int) : limit24 v = max (-8388608) (min 8388607 v) := by
  unfold limit24 clampInt; split
  · omega
  · split <;> omega

theorem isClipped_eq (v : Int) : isClipped v = decide (v ≠ limit24 v) := by
  rw [limit24_eq]
  unfold isClipped outsideInt
  rw [Bool.eq_iff_iff]; simp only [Bool.or_eq_true, decide_eq_true_eq]; omega

theorem CoefPair.move_sides (c : CoefPair) : c.move.left = c.left.move ∧ c.move.right = c.right.move := ⟨rfl, rfl⟩

theorem natAbs_sum_le (f : Fin 64 → Int) (B : Nat) (h : ∀ i, (f i).natAbs ≤ B) (l : List (Fin 64)) :
    ((l.map f).sum).natAbs ≤ l.length * B := by
  induction l with
  | nil => simp
  | cons x l ih =>
    have := h x
    simp only [List.map_cons, List.sum_cons, List.length_cons, Nat.add_mul, Nat.one_mul]
    omega

theorem roundMagnitude_le {a d k : Nat} (hd : 0 < d) (h : a ≤ k * d) : roundMagnitude a d ≤ k := by
  have hq : a / d ≤ k := by
    calc a / d ≤ k * d / d := Nat.div_le_div_right h
      _ = k := Nat.mul_div_cancel _ hd
  unfold roundMagnitude
  dsimp only
  rcases Nat.lt_or_ge (a / d) k with h1 | h1
  · repeat' split
    all_goals omega
  · have he : a / d = k := by omega
    have : a % d = 0 := by
      have := Nat.div_add_mod a d
      rw [he] at this
      have : d * k + a % d ≤ k * d := by omega
      rw [Nat.mul_comm] at this; omega
    rw [this, if_pos (by omega)]; omega

theorem roundHalfEven_natAbs (x : Int) (d : Nat) : (roundHalfEven x d).natAbs = roundMagnitude x.natAbs d := by
  unfold roundHalfEven; split <;> simp

theorem natAbs_le_ceiling (l r : Int) (K : Nat) (v : Int) (hv : v.natAbs ≤ max l.natAbs r.natAbs) :
    (roundHalfEven (v * (K * 16384 / max l.natAbs r.natAbs : Nat)) 16384).natAbs ≤ K := by
  rw [roundHalfEven_natAbs]
  refine roundMagnitude_le (by norm_num) ?_
  rw [Int.natAbs_mul]
  simp only [Int.natAbs_natCast]
  calc v.natAbs * (K * 16384 / max l.natAbs r.natAbs) ≤ max l.natAbs r.natAbs * (K * 16384 / max l.natAbs r.natAbs) := Nat.mul_le_mul_right _ hv
    _ ≤ K * 16384 := Nat.mul_div_le _ _

theorem gain_lt_of_over (l r : Int) (g K : Nat) (h : K < max (roundHalfEven (l * g) 16384).natAbs (roundHalfEven
    (r * g) 16384).natAbs) :
    K * 16384 / max l.natAbs r.natAbs < g := by
  rw [roundHalfEven_natAbs, roundHalfEven_natAbs, Int.natAbs_mul, Int.natAbs_mul] at h
  simp only [Int.natAbs_natCast] at h
  have key : ∀ v : Nat, K < roundMagnitude (v * g) 16384 → K * 16384 < v * g := by
    intro v hv
    by_contra hc
    exact absurd (roundMagnitude_le (k := K) (by norm_num) (by omega : v * g ≤ K * 16384)) (by omega)
  have h2 : K * 16384 < max l.natAbs r.natAbs * g := by
    rcases Nat.le_total (roundMagnitude (l.natAbs * g) 16384) (roundMagnitude (r.natAbs * g) 16384) with hh | hh
    · rw [Nat.max_eq_right hh] at h
      exact Nat.lt_of_lt_of_le (key _ h) (Nat.mul_le_mul_right _ (Nat.le_max_right _ _))
    · rw [Nat.max_eq_left hh] at h
      exact Nat.lt_of_lt_of_le (key _ h) (Nat.mul_le_mul_right _ (Nat.le_max_left _ _))
  rw [Nat.div_lt_iff_lt_mul]
  · rw [Nat.mul_comm g]; exact h2
  · rcases Nat.eq_zero_or_pos (max l.natAbs r.natAbs) with h0 | h0
    · rw [h0] at h2; simp at h2
    · exact h0

/-- R81, R83: the gain held after a frame instant lies below unity, from unity, exactly when the guard engages. -/
theorem gainHeld_lt_unity (l f : Int) (r : MixRec) :
    gainHeld l f 16384 r < 16384 ↔ guardEngages l f 16384 r.ceiling = true := by
  unfold gainHeld
  split
  · rename_i h
    simp only [h, iff_true]
    exact gain_lt_of_over l f 16384 r.ceiling (by simpa [guardEngages, peakOf, applyGain] using h)
  · rename_i h
    exact ⟨fun x => absurd x (by simp [releasedGain]), fun x => absurd x h⟩

/-- R70, R84: what one mix raises at a frame instant. -/
theorem Engine.mix_events (e : Engine) (m : Fin 24) :
    let r := (e.tables.mixes[m]).record
    let x := e.runs[m]
    let y := (e.computeMixes.1.moveRamps).runs[m]
    (Event.clip ∈ x.events r (e.sumLeft m) (e.sumRight m) ↔ x.clip = false ∧ y.clip = true) ∧
    (Event.guard ∈ x.events r (e.sumLeft m) (e.sumRight m) ↔ x.gain = 16384 ∧ y.gain < 16384) ∧
    ∀ ev ∈ x.events r (e.sumLeft m) (e.sumRight m), ev = .clip ∨ ev = .guard := by
  intro r x y
  have hy : y = x.instant r (e.sumLeft m) (e.sumRight m) := Engine.computeMixes_run e m
  rw [hy]
  generalize e.sumLeft m = l
  generalize e.sumRight m = f
  have hgain : x.gain = 16384 → (gainHeld (limit24 (scaled l r.shift)) (limit24 (scaled f r.shift)) x.gain r < 16384 ↔
      guardEngages (limit24 (scaled l r.shift)) (limit24 (scaled f r.shift)) x.gain r.ceiling = true) := fun h => by
    rw [h]; exact gainHeld_lt_unity _ _ r
  simp only [MixRun.events, MixRun.instant]
  generalize gainHeld (limit24 (scaled l r.shift)) (limit24 (scaled f r.shift)) x.gain r = held at *
  generalize isClipped (scaled l r.shift) = c1
  generalize isClipped (scaled f r.shift) = c2
  generalize guardEngages (limit24 (scaled l r.shift)) (limit24 (scaled f r.shift)) x.gain r.ceiling = g at *
  generalize x.clip = xc
  by_cases h : x.gain = 16384 <;> cases c1 <;> cases c2 <;> cases g <;> cases xc <;> simp_all

theorem Selector.chooses_change (x : Selector) (fresh : Link → Option StageFrame) (locked : Link → Bool) :
    (Event.sourceChange ∈ (x.chooses fresh locked).2 ↔ (x.chooses fresh locked).1.active ≠ x.active) ∧
    ∀ ev ∈ (x.chooses fresh locked).2, ev = .sourceChange := by
  have del : ∀ y : Selector, (Event.sourceChange ∈ (y.delivers fresh locked).2 ↔ (y.delivers fresh locked).1.active ≠ y.active) ∧
      ∀ ev ∈ (y.delivers fresh locked).2, ev = .sourceChange := by
    intro y
    have hne : y.active.other ≠ y.active := by cases y.active <;> decide
    unfold Selector.delivers
    split
    · simp [Selector.used]
    · split
      · split <;> simp [Selector.used, Selector.switched, Selector.concealed, hne]
      · simp [Selector.concealed]
  unfold Selector.chooses
  split
  · rename_i h
    have hb : x.active = .b := by
      simp only [Selector.reverts, Bool.and_eq_true, decide_eq_true_eq] at h; exact h.1.1.2
    have ha : ∃ f, fresh .a = some f := by
      simp only [Selector.reverts, Bool.and_eq_true, decide_eq_true_eq] at h; exact Option.isSome_iff_exists.1 h.2
    obtain ⟨f, hf⟩ := ha
    have hs : x.switched.active = .a := by simp [Selector.switched, hb, Link.other]
    have : x.switched.delivers fresh locked = (x.switched.used f, []) := by
      unfold Selector.delivers; rw [hs, hf]
    rw [this]
    simp [Selector.used, hs, hb]
  · exact del x

theorem groupTrim_of_member (x : MixTable) (i : Fin 64) (trim : Int)
  (h1 : ∀ g : Fin 8, i ∈ (x.groups[g]).members → trim = (x.groups[g]).trim)
  (h2 : (∀ g : Fin 8, i ∉ (x.groups[g]).members) → trim = 0) : groupTrim x i = trim := by
  unfold groupTrim
  split
  · rename_i g hg
    have hm := List.mem_of_find?_eq_some hg
    have hp := List.find?_some hg
    obtain ⟨k, hk, rfl⟩ := List.mem_iff_getElem.1 hm
    have hk' : k < 8 := by simpa using hk
    rw [Vector.getElem_toList] at hp ⊢
    exact (h1 ⟨k, hk'⟩ (by simpa using hp)).symm
  · rename_i hg
    rw [List.find?_eq_none] at hg
    refine (h2 fun g hi => ?_).symm
    refine hg (x.groups[g]) ?_ (by simpa using hi)
    exact List.mem_iff_getElem.2 ⟨g.val, by simp, by simp⟩

theorem Coef.move_facts (c : Coef) : c.move.target = c.target ∧ c.move.step = c.step ∧
   (c.live ≤ c.target → c.move.live = min (c.live + c.step) c.target) ∧ (c.target ≤ c.live → c.move.live = max (c.live - c.step) c.target) := by
  unfold Coef.move
  split
  · exact ⟨rfl, rfl, fun _ => rfl, fun h => by omega⟩
  · exact ⟨rfl, rfl, fun h => by simp; omega, fun _ => rfl⟩

theorem Coef.move_repeat (c : Coef) (k : Nat) :
    (Nat.repeat Coef.move k c).target = c.target ∧ (Nat.repeat Coef.move k c).step = c.step ∧
    (c.live ≤ c.target → (Nat.repeat Coef.move k c).live = min (c.live + k * c.step) c.target) ∧
    (c.target ≤ c.live → (Nat.repeat Coef.move k c).live = max (c.live - k * c.step) c.target) := by
  induction k with
  | zero => refine ⟨rfl, rfl, fun h => ?_, fun h => ?_⟩ <;> simp [Nat.repeat] <;> omega
  | succ k ih =>
    obtain ⟨a, b, d, e⟩ := ih
    obtain ⟨a', b', d', e'⟩ := Coef.move_facts (Nat.repeat Coef.move k c)
    simp only [Nat.repeat]
    refine ⟨by rw [a', a], by rw [b', b], fun h => ?_, fun h => ?_⟩
    · have := d h
      rw [d' (by rw [this, a]; omega), this, a, b, Nat.add_mul]; omega
    · have := e h
      rw [e' (by rw [this, a]; omega), this, a, b, Nat.add_mul]; omega

end Sys2Proof.Machine
end

