-- ==== Sys2Proof/Laws/Requests.lean ====
section
/-! SUPPORT. What the taking of a request comes to for each class, and what a chosen command leaves behind. -/
namespace Sys2Proof.Machine

@[simp] theorem requestOfCode_code (n : RequestName) : requestOfCode n.code = some n := by cases n <;> decide

/-- R157: a code the engine knows is that of its name. -/
theorem requestOfCode_some {c : Byte} {n : RequestName} (h : requestOfCode c = some n) : n.code = c := by
  unfold requestOfCode at h
  have := List.find?_some h
  simpa using this

theorem requestOfCode_none {c : Byte} (h : knownCodes.contains c = false) : requestOfCode c = none := by
  unfold requestOfCode
  rw [List.find?_eq_none]
  intro n _
  simp only [decide_eq_true_eq]
  rintro rfl
  revert h
  cases n <;> decide

/-- R157, R160: a request of a class that its port may send goes to the block that owns it. -/
theorem answerOf_allowed {r : Request} {p : Port} {e : Engine} {x : PortState} {n : RequestName}
    (code : requestOfCode r.code = some n) (cls : classRefusal n.cls p e.charge = none) :
    answerOf r p e x = answerRequest n p r.payload e x := by
  simp [answerOf, code, cls]

theorem Answer.eq_replied {s : State} {p : Port} {r : Request} (i : s.idleAt p) (x : PortState) (st : Status)
    (da : List Byte) (a : answerOf r p s.engine { s.port p with service := some r } =
      portAnswer s.engine { x with service := some r } r.code st da)
    (line : x.line = (s.port p).line) (ready : x.ready = (s.port p).ready) :
    s.applyRequest p r = State.replied (s.setPort p x) p r s.engine st false da := by
  have hs : (s.setPort p x).settled := by
    have h1 := PortState.settled_of i.2.2.2.2 .home
    have h2 := PortState.settled_of i.2.2.2.2 .guest
    cases p
    · exact ⟨fun h => by simpa [State.setPort, ready] using h1 (by rw [← h]; simpa [State.setPort] using line.symm),
        by simpa [State.setPort] using h2⟩
    · exact ⟨by simpa [State.setPort] using h1,
        fun h => by simpa [State.setPort, ready] using h2 (by rw [← h]; simpa [State.setPort] using line.symm)⟩
  have := State.conclude_replied hs p r s.engine st false da (fun _ => by simp)
  unfold State.applyRequest
  rw [a]
  simp only [portAnswer]
  rw [← this]
  simp [State.setPort_setEngine]

/-- A request that acts on its own port alone and is answered. -/
theorem exec_portReplied {c : Instr} {p : Port} {r : Request} (h : requestOf c = some (p, r)) {s : State}
    (i : s.idleAt p) (x : PortState) (st : Status) (da : List Byte)
    (a : answerOf r p s.engine { s.port p with service := some r } =
      portAnswer s.engine { x with service := some r } r.code st da)
    (line : x.line = (s.port p).line) (ready : x.ready = (s.port p).ready) :
    exec c s = .next (State.replied (s.setPort p x) p r s.engine st false da) := by
  rw [exec_request_idle h i, Answer.eq_replied i x st da a line ready]

/-- A refused request, or one that only reads. -/
theorem exec_plainReply {c : Instr} {p : Port} {r : Request} (h : requestOf c = some (p, r)) {s : State}
    (i : s.idleAt p) (st : Status) (da : List Byte)
    (a : answerOf r p s.engine { s.port p with service := some r } =
      portAnswer s.engine { s.port p with service := some r } r.code st da) :
    exec c s = .next (s.replied p r s.engine st false da) := by
  simpa using exec_portReplied h i (s.port p) st da a rfl rfl

/-- A request of the blocks that raises nothing, given what its own rule comes to. -/
theorem exec_effect {c : Instr} {p : Port} {code : Byte} {q : Payload} (n : RequestName)
    (h : requestOf c = some (p, ⟨code, q⟩)) {s : State} (i : s.idleAt p) (hc : n.code = code)
    (cls : classRefusal n.cls p s.engine.charge = none) {f : Effect}
    (ha : ∀ x, answerRequest n p q s.engine x = f.answer n.code x) {e : Engine} {st : Status} {cl : Bool}
    {da : List Byte} (hf : f = ⟨e, st, cl, da, []⟩) (rise : ∀ p', rises s.engine e p' = []) :
    exec c s = .next (s.replied p ⟨code, q⟩ e st cl da) := by
  have := exec_replied h i f
    (by rw [answerOf_allowed (n := n) (by rw [← hc]; simp) cls]; rw [← hc]; exact ha _) (by rw [hf]) (by rw [hf]; exact rise)
  rw [hf] at this
  exact this

/-- A request of the blocks that raises events, given what its own rule comes to. -/
theorem exec_effect_events {c : Instr} {p : Port} {code : Byte} {q : Payload} (n : RequestName)
    (h : requestOf c = some (p, ⟨code, q⟩)) {s : State} (i : s.idleAt p) (hc : n.code = code)
    (cls : classRefusal n.cls p s.engine.charge = none) {f : Effect}
    (ha : ∀ x, answerRequest n p q s.engine x = f.answer n.code x) {e : Engine} {st : Status} {cl : Bool}
    {da : List Byte} {ev : List Event} (hf : f = ⟨e, st, cl, da, ev⟩) :
    ∃ t, exec c s = .next t ∧ s.Answers p ⟨code, q⟩ e ev st cl da t := by
  have := exec_answers h i f
    (by rw [answerOf_allowed (n := n) (by rw [← hc]; simp) cls]; rw [← hc]; exact ha _)
  rw [hf] at this
  exact this

theorem class_charge {n : RequestName} {p : Port} {charge : Port} (h : n.cls = .charge) (hp : charge = p) :
    classRefusal n.cls p charge = none := by rw [h]; simp [classRefusal, hp]

theorem class_open {n : RequestName} {p : Port} {charge : Port} (h : n.cls = .openTo) :
    classRefusal n.cls p charge = none := by rw [h]; rfl

/-- R169: nothing rises when the blocks that the levels read are kept. -/
theorem rises_same {e e' : Engine} (h : e'.charge = e.charge ∧ e'.library = e.library ∧ e'.linkA = e.linkA ∧
    e'.linkB = e.linkB ∧ e'.selector = e.selector ∧ e'.packs = e.packs) (p : Port) : rises e e' p = [] := by
  obtain ⟨h1, h2, h3, h4, h5, h6⟩ := h
  exact rises_of_level fun x => Engine.level_congr h1 (by rw [h2]) (by rw [h3]) (by rw [h4]) (by rw [h5]) (by rw [h5])
    (by rw [h6]) (by rw [h6]) p x

/-! ### What any request does to its own port -/

/-- Before any frame is built, a request changes at most the notice unit, the parked wait and, for WAIT alone, the
service cell of its port; and every request but WAIT makes a reply that echoes its code. -/
structure Answer.Keeps (r : Request) (x : PortState) (a : Answer) : Prop where
  receiver : a.port.receiver = x.receiver
  queue : a.port.queue = x.queue
  lost : a.port.lost = x.lost
  garbled : a.port.garbled = x.garbled
  line : a.port.line = x.line
  ready : a.port.ready = x.ready
  service : a.port.service = x.service ∨ (a.port.service = none ∧ a.own = [])
  reply : r.code ≠ 0x14 → a.port.service = x.service ∧
    ∃ st cl da, Happening.reply r.code st cl da ∈ a.own.flatten

theorem Effect.answer_keeps (f : Effect) (r : Request) (x : PortState) : (f.answer r.code x).Keeps r x :=
  ⟨rfl, rfl, rfl, rfl, rfl, rfl, .inl rfl, fun _ => ⟨rfl, f.status, f.clamped, f.data, by simp [Effect.answer]⟩⟩

theorem portAnswer_keeps (e : Engine) (r : Request) (x y : PortState) (st : Status) (da : List Byte)
    (h : y.receiver = x.receiver ∧ y.queue = x.queue ∧ y.lost = x.lost ∧ y.garbled = x.garbled ∧ y.line = x.line ∧
      y.ready = x.ready ∧ y.service = x.service) : (portAnswer e y r.code st da).Keeps r x := by
  obtain ⟨h1, h2, h3, h4, h5, h6, h7⟩ := h
  exact ⟨h1, h2, h3, h4, h5, h6, .inl h7, fun _ => ⟨h7, st, false, da, by simp [portAnswer]⟩⟩

theorem answerOf_keeps (r : Request) (p : Port) (e : Engine) (x : PortState) : (answerOf r p e x).Keeps r x := by
  unfold answerOf
  split
  · exact portAnswer_keeps e r x x _ _ ⟨rfl, rfl, rfl, rfl, rfl, rfl, rfl⟩
  · rename_i n hn
    have hc := requestOfCode_some hn
    split
    · exact portAnswer_keeps e r x x _ _ ⟨rfl, rfl, rfl, rfl, rfl, rfl, rfl⟩
    · cases n <;> simp only [answerRequest] <;> rw [hc] <;>
        first
        | exact Effect.answer_keeps _ r x
        | exact portAnswer_keeps e r x _ _ _ ⟨rfl, rfl, rfl, rfl, rfl, rfl, rfl⟩
        | skip
      · exact ⟨rfl, rfl, rfl, rfl, rfl, rfl, .inl rfl, fun _ => ⟨rfl, .ok, false, [], by simp [answerSetNoticeMask]⟩⟩
      · unfold answerWait
        dsimp only
        split
        · exact portAnswer_keeps e r x x _ _ ⟨rfl, rfl, rfl, rfl, rfl, rfl, rfl⟩
        · split
          · exact portAnswer_keeps e r x _ _ _ ⟨rfl, rfl, rfl, rfl, rfl, rfl, rfl⟩
          · exact ⟨rfl, rfl, rfl, rfl, rfl, rfl, .inr ⟨rfl, rfl⟩, fun h => absurd hc.symm h⟩
      · unfold answerCancelWait
        split
        · exact portAnswer_keeps e r x x _ _ ⟨rfl, rfl, rfl, rfl, rfl, rfl, rfl⟩
        · exact ⟨rfl, rfl, rfl, rfl, rfl, rfl, .inl rfl, fun _ => ⟨rfl, .ok, false, [], by simp⟩⟩

/-! ### What any happening does to its port -/

theorem PortState.offer_prefix (x : PortState) (i : Item) (levels : BitVec 8) :
    x.outgoing <+: (x.offer i levels).outgoing := by
  unfold PortState.offer
  split
  · split
    · simp [PortState.meet, PortState.outgoing, PortState.sendReply, PortState.consume]
    · exact List.prefix_rfl
  · exact List.prefix_rfl

theorem PortState.update_prefix (x : PortState) (levels : BitVec 8) :
    x.outgoing <+: (x.update levels).outgoing := by
  unfold PortState.update
  dsimp only
  split
  · rw [PortState.outgoing_ready]; exact List.prefix_append _ _
  · exact List.prefix_rfl

theorem PortState.happen_prefix (x : PortState) (w : Bool) (levels : BitVec 8) (h : Happening) :
    x.outgoing <+: (x.happen w levels h).outgoing := by
  cases h with
  | reply e s c d => rw [PortState.happen, PortState.outgoing_sendReply]; exact List.prefix_append _ _
  | cancelled => rw [PortState.happen, PortState.outgoing_sendReply]; exact List.prefix_append _ _
  | timedOut => rw [PortState.happen, PortState.outgoing_sendReply]; exact List.prefix_append _ _
  | update => exact PortState.update_prefix x levels
  | item i =>
    simp only [PortState.happen, PortState.arrive]
    split
    · exact (PortState.offer_prefix (x.record i) i levels).trans (PortState.update_prefix _ levels)
    · exact (PortState.update_prefix (x.record i) levels).trans (PortState.offer_prefix _ i levels)

theorem PortState.run_prefix (w : Nat → Bool) (levels : BitVec 8) (hs : List Happening) (k : Nat) (x : PortState) :
    x.outgoing <+: (PortState.run w levels k hs x).outgoing := by
  induction hs generalizing k x with
  | nil => exact List.prefix_rfl
  | cons h hs ih => exact (PortState.happen_prefix x (w k) levels h).trans (ih _ _)

/-- What no happening changes: the receiver, the queue, the service cell and the mask. -/
structure PortState.Same (x y : PortState) : Prop where
  receiver : y.receiver = x.receiver
  queue : y.queue = x.queue
  service : y.service = x.service
  mask : y.unit.mask = x.unit.mask

theorem PortState.offer_same (x : PortState) (i : Item) (levels : BitVec 8) : PortState.Same x (x.offer i levels) := by
  unfold PortState.offer
  split
  · split <;> exact ⟨rfl, rfl, rfl, rfl⟩
  · exact ⟨rfl, rfl, rfl, rfl⟩

theorem PortState.update_same (x : PortState) (levels : BitVec 8) : PortState.Same x (x.update levels) := by
  unfold PortState.update
  dsimp only
  split <;> exact ⟨rfl, rfl, rfl, rfl⟩

theorem PortState.Same.trans {x y z : PortState} (a : PortState.Same x y) (b : PortState.Same y z) :
    PortState.Same x z :=
  ⟨b.receiver.trans a.receiver, b.queue.trans a.queue, b.service.trans a.service, b.mask.trans a.mask⟩

theorem PortState.happen_same (x : PortState) (w : Bool) (levels : BitVec 8) (h : Happening) :
    PortState.Same x (x.happen w levels h) := by
  cases h with
  | reply e s c d => exact ⟨rfl, rfl, rfl, rfl⟩
  | cancelled => exact ⟨rfl, rfl, rfl, rfl⟩
  | timedOut => exact ⟨rfl, rfl, rfl, rfl⟩
  | update => exact PortState.update_same x levels
  | item i =>
    have record : PortState.Same x (x.record i) := ⟨rfl, rfl, rfl, rfl⟩
    simp only [PortState.happen, PortState.arrive]
    split
    · exact (record.trans (PortState.offer_same _ i levels)).trans (PortState.update_same _ levels)
    · exact (record.trans (PortState.update_same _ levels)).trans (PortState.offer_same _ i levels)

theorem PortState.run_same (w : Nat → Bool) (levels : BitVec 8) (hs : List Happening) (k : Nat) (x : PortState) :
    PortState.Same x (PortState.run w levels k hs x) := by
  induction hs generalizing k x with
  | nil => exact ⟨rfl, rfl, rfl, rfl⟩
  | cons h hs ih => exact (PortState.happen_same x (w k) levels h).trans (ih _ _)

theorem PortState.Same.kick {x y : PortState} (h : PortState.Same x y) : PortState.Same x y.kick :=
  ⟨by simp [h.receiver], by simp [h.queue], by simp [h.service], by simp [h.mask]⟩

/-- A reply that happens stands among the frames. -/
theorem PortState.run_reply (w : Nat → Bool) (levels : BitVec 8) {hs : List Happening} {e : Byte} {st : Status}
    {cl : Bool} {da : List Byte} (m : Happening.reply e st cl da ∈ hs) (k : Nat) (x : PortState) :
    ∃ y : Reply, y.echo = e ∧ y.status = st ∧ y.clamped = cl ∧ y.data = da ∧
      Frame.service y ∈ (PortState.run w levels k hs x).outgoing := by
  obtain ⟨a, b, rfl⟩ := List.append_of_mem m
  rw [PortState.run_append]
  simp only [PortState.run, PortState.happen]
  exact ⟨PortState.reply (PortState.run w levels k a x) e st cl da, rfl, rfl, rfl, rfl,
    (PortState.run_prefix w levels b _ _).subset (by rw [PortState.outgoing_sendReply]; simp)⟩

/-- What the end of any command leaves at each port. -/
theorem State.conclude_same (s : State) (before : Engine) (events : List Event) (p : Port)
    (own : List (List Happening)) (p' : Port) :
    PortState.Same (s.port p') ((s.conclude before events p own).port p') ∧
      (s.port p').outgoing <+: ((s.conclude before events p own).port p').outgoing ∧
      ((s.conclude before events p own).port p').settled := by
  rcases Port.eq_or_other p p' with rfl | rfl
  · obtain ⟨w, order, _, eq⟩ := State.deliver_port s p' (own ++ itemBlocks before s.engine events p')
    rw [State.conclude_port, eq]
    exact ⟨(PortState.run_same ..).kick, by simpa using PortState.run_prefix .., PortState.kick_settled _⟩
  · obtain ⟨w, order, _, eq⟩ := State.deliver_port
      (s.deliver p (own ++ itemBlocks before s.engine events p)) p.other (itemBlocks before s.engine events p.other)
    rw [State.conclude_other, eq, State.deliver_other]
    exact ⟨(PortState.run_same ..).kick, by simpa using PortState.run_prefix .., PortState.kick_settled _⟩

/-- The replies of a command stand among the frames of its port. -/
theorem State.conclude_reply (s : State) (before : Engine) (events : List Event) (p : Port)
    {own : List (List Happening)} {e : Byte} {st : Status} {cl : Bool} {da : List Byte}
    (m : Happening.reply e st cl da ∈ own.flatten) :
    ∃ y : Reply, y.echo = e ∧ y.status = st ∧ y.clamped = cl ∧ y.data = da ∧
      Frame.service y ∈ ((s.conclude before events p own).port p).outgoing := by
  obtain ⟨w, order, perm, eq⟩ := State.deliver_port s p (own ++ itemBlocks before s.engine events p)
  have m' : Happening.reply e st cl da ∈ order.flatten := by
    rw [perm.flatten.mem_iff]; simp only [List.flatten_append, List.mem_append]; exact .inl m
  rw [State.conclude_port, eq, PortState.kick_outgoing]
  exact PortState.run_reply w _ m' 0 _

end Sys2Proof.Machine
end

