-- ==== Sys2Proof/Laws/Steps.lean ====
section
/-! SUPPORT. What a step can do to the blocks, said once: a property of the blocks that each single change keeps is
kept by every step. -/
namespace Sys2Proof.Machine

/-- A property of the blocks that every change made by one command keeps. -/
structure Engine.KeptBy (P : Engine → Prop) : Prop where
  request : ∀ n p q x e, P e → P (answerRequest n p q e x).engine
  signal : ∀ l e, P e → P (e.setReceiver l (e.receiver l).signalAppears)
  signalEnds : ∀ l e, P e → P (e.setReceiver l (e.receiver l).signalLost)
  line : ∀ l b e, P e → P (e.setReceiver l { e.receiver l with signal := b })
  arrival : ∀ l f e, P e → P (e.setReceiver l ((e.receiver l).arrival f))
  instant : ∀ turn e, P e → P (e.frameInstant turn).1
  sent : ∀ e, P e → P e.packBusFrame.1
  stored : ∀ e, P e → P e.storeWriteEnd.1
  verified : ∀ d e, P e → P (e.recallVerifyEnd d).1
  mix : ∀ e, P e → P e.mixLoad.1
  inputs : ∀ e, P e → P e.inputSectionLoad.1
  erased : ∀ e, P e → P e.eraseEnd.1
  slot : ∀ d e, P e → P (e.verifySlotDone d).1
  sweep : ∀ e, P e → P e.sweepStart.1
  poll : ∀ a e, P e → P (e.pollPhase a).1
  read : ∀ e, P e → P e.readPhase.1
  report : ∀ a r e, P e → P (e.keyReportRead a r).1
  window : ∀ a r e, P e → P (e.announceWindow a r).1
  downstream : ∀ e, P e → P e.downstreamPart.1
  make : ∀ a c k e, P e → P (e.applyEvent a c (Engine.makeRepeating a k)).1
  next : ∀ a c e, P e → P (e.applyEvent a c (Engine.selectNext a)).1
  prev : ∀ a c e, P e → P (e.applyEvent a c (Engine.selectPrev a)).1
  call : ∀ a c e, P e → P (e.applyEvent a c (Engine.addCall a)).1
  silence : ∀ a c e, P e → P (e.applyEvent a c (Engine.toggleSilence a)).1
  release : ∀ a c k e, P e → P (e.applyEvent a c (Engine.breakRepeating a k)).1
  pass : ∀ a c e, P e → P (e.applyEvent a c Engine.passOver).1
  marker : ∀ a c e, P e → P (e.applyEvent a c (Engine.overflow a)).1
  expire : ∀ a e, P e → P (e.expire a).1
  talk : ∀ p e, P e → P (e.dropTalk p)
  warm : ∀ m e, P e → P (e.warmReset m)
  cold : ∀ e, P e → P e.coldReset
  loss : ∀ n e, P e → P { e.cutShort n with powered := false }

variable {P : Engine → Prop}

theorem Engine.KeptBy.answer (h : Engine.KeptBy P) (r : Request) (p : Port) (e : Engine) (x : PortState) (he : P e) :
    P (answerOf r p e x).engine := by
  unfold answerOf
  split
  · exact he
  · split
    · exact he
    · exact h.request _ _ _ _ _ he

theorem State.applyRequest_engine (s : State) (p : Port) (r : Request) :
    (s.applyRequest p r).engine = (answerOf r p s.engine { s.port p with service := some r }).engine := by
  simp [State.applyRequest]

theorem Engine.KeptBy.serve (h : Engine.KeptBy P) (p : Port) (k : Nat) (s : State) (he : P s.engine) :
    P (State.serve p k s).engine := by
  induction k generalizing s with
  | zero => exact he
  | succ k ih =>
    refine ih _ ?_
    unfold State.takeOne
    split
    · rw [State.applyRequest_engine]; exact h.answer _ _ _ _ (by simpa using he)
    · exact he

theorem Engine.KeptBy.offer (h : Engine.KeptBy P) (s : State) (p : Port) (r : Request) (he : P s.engine) :
    P (s.offerRequest p r).engine := by
  unfold State.offerRequest
  split
  · exact h.serve _ _ _ (by simpa using he)
  · simpa using he

theorem State.act_engine {s t : State} {f : Engine → Act} (h : s.act f = .next t) :
    t.engine = s.engine ∨ t.engine = (f s.engine).1 := by
  unfold State.act at h
  split at h <;> cases h
  · exact .inr (by simp)
  · exact .inl rfl

theorem Engine.KeptBy.act (s : State) {t : State} {f : Engine → Act} (hf : ∀ e, P e → P (f e).1) (he : P s.engine)
    (e : s.act f = .next t) : P t.engine := by
  rcases State.act_engine e with h | h
  · rw [h]; exact he
  · rw [h]; exact hf _ he

theorem Engine.KeptBy.gather (h : Engine.KeptBy P) (s : State) (p : Port) (got : List Byte) (he : P s.engine) :
    P (s.gather p got).engine := by
  unfold State.gather
  split
  · simpa using he
  · split
    · split
      · exact h.offer _ _ _ (by simpa using he)
      · simpa using he
    · simpa using he

/-- Every command keeps what each single change keeps. -/
theorem Engine.KeptBy.command (h : Engine.KeptBy P) {c : Instr} {s t : State} (he : P s.engine)
    (e : exec c s = .next t) : P t.engine := by
  cases hr : requestOf c with
  | some x =>
    obtain ⟨p, r⟩ := x
    rw [exec_request hr] at e
    unfold State.request at e
    split at e <;> cases e
    · exact h.offer _ _ _ he
    · exact he
  | none =>
    cases c <;> first | (exfalso; simp only [requestOf, reduceCtorEq] at hr; done) | skip
    case signalAppears l =>
      simp only [exec, execSignalAppears] at e
      split at e
      · exact Engine.KeptBy.act s (fun e he => h.signal _ _ he) he e
      · cases e; exact h.line _ _ _ he
    case signalLost l =>
      simp only [exec, execSignalLost] at e
      split at e
      · exact Engine.KeptBy.act s (fun e he => h.signalEnds _ _ he) he e
      · cases e; exact h.line _ _ _ he
    case frameArrival l f =>
      simp only [exec, execFrameArrival] at e
      exact Engine.KeptBy.act s (fun e he => h.arrival _ _ _ he) he e
    case frameInstant =>
      simp only [exec, execFrameInstant] at e
      split at e <;> cases e
      · simp only [State.endInstant, State.acted_engine]; exact h.instant _ _ he
      · exact he
    case packBusFrame => exact Engine.KeptBy.act s h.sent he e
    case storeWriteEnd => exact Engine.KeptBy.act s h.stored he e
    case recallVerifyEnd d => exact Engine.KeptBy.act s (h.verified d) he e
    case mixLoad => exact Engine.KeptBy.act s h.mix he e
    case inputSectionLoad => exact Engine.KeptBy.act s h.inputs he e
    case eraseEnd => exact Engine.KeptBy.act s h.erased he e
    case verifySlotDone d => exact Engine.KeptBy.act s (h.slot d) he e
    case sweepStart => exact Engine.KeptBy.act s h.sweep he e
    case pollPhase a => exact Engine.KeptBy.act s (h.poll a) he e
    case readPhase => exact Engine.KeptBy.act s h.read he e
    case keyReportRead a r => exact Engine.KeptBy.act s (h.report a r) he e
    case announceWindow a r => exact Engine.KeptBy.act s (h.window a r) he e
    case downstreamPart => exact Engine.KeptBy.act s h.downstream he e
    case makeOfUp a => exact Engine.KeptBy.act s (h.make a _ _) he e
    case makeOfDown a => exact Engine.KeptBy.act s (h.make a _ _) he e
    case makeOfNext a => exact Engine.KeptBy.act s (h.next a _) he e
    case makeOfPrev a => exact Engine.KeptBy.act s (h.prev a _) he e
    case makeOfCall a => exact Engine.KeptBy.act s (h.call a _) he e
    case makeOfSilence a => exact Engine.KeptBy.act s (h.silence a _) he e
    case breakOfUp a => exact Engine.KeptBy.act s (h.release a _ _) he e
    case breakOfDown a => exact Engine.KeptBy.act s (h.release a _ _) he e
    case breakOfMakeOnlyKey a k => exact Engine.KeptBy.act s (h.pass a _) he e
    case overflowMarker a => exact Engine.KeptBy.act s (h.marker a _) he e
    case ignoredKeyCode a c => exact Engine.KeptBy.act s (h.pass a c) he e
    case heldKeyExpiry a => exact Engine.KeptBy.act s (h.expire a) he e
    case receiveByte p b f =>
      simp only [exec, execReceiveByte] at e
      split at e
      · split at e
        · split at e <;> cases e
          · simpa using he
          · exact he
        · split at e <;> cases e
          · simpa using he
          · exact h.gather _ _ _ he
        · cases e; exact he
      · cases e; exact he
    case interbyteSilenceTimeout p =>
      simp only [exec, execInterbyteSilenceTimeout] at e
      split at e
      · split at e <;> cases e
        · simpa using he
        · exact he
      · cases e; exact he
    case lineBreak p =>
      simp only [exec, execLineBreak] at e
      split at e
      · split at e <;> cases e
        · exact he
        · rw [State.conclude_engine]; exact h.talk _ _ he
      · cases e; exact he
    case lineIdle p =>
      simp only [exec, execLineIdle] at e
      split at e
      · split at e <;> cases e
        · simpa using he
        · exact he
      · cases e; exact he
    case transmitFrameEnd p =>
      simp only [exec, execTransmitFrameEnd] at e
      split at e
      · split at e
        · cases e; exact he
        · split at e <;> cases e
          · simp only [State.warmReset, State.setPort_engine]; exact h.warm _ _ he
          · exact h.serve _ _ _ (by simpa using he)
        · cases e; simpa using he
      · cases e; exact he
    case warmReset =>
      simp only [exec, execWarmReset] at e
      split at e <;> cases e
      · exact h.warm _ _ he
      · exact he
    case powerUp =>
      simp only [exec, execPowerUp] at e
      split at e <;> cases e
      · exact he
      · exact h.cold _ he
    case powerLoss n =>
      simp only [exec, execPowerLoss] at e
      split at e <;> cases e
      · exact h.loss _ _ he
      · exact he
    case waitTimeout p =>
      simp only [exec, execWaitTimeout] at e
      split at e
      · split at e <;> cases e
        · simpa using he
        · exact he
      · cases e; exact he

/-- Every step keeps what each single change keeps. -/
theorem step_keeps (h : Engine.KeptBy P) {s t : State} (he : P s.engine) (e : step s = .next t) :
    P t.engine := by
  unfold step at e
  split at e
  · cases e; exact he
  · exact h.command (by exact he) e

end Sys2Proof.Machine
end

