-- ==== Sys2Proof/Laws/Levels.lean ====
section
/-! SUPPORT. The recomputation of targets, and sets of mixes. -/
namespace Sys2Proof.Machine

/-! ### Recomputation (R51, R52) -/

@[simp] theorem Engine.recompute_powered (e : Engine) (f : Fin 24 → Fin 64 → Bool) :
    (e.recompute f).powered = e.powered := by simp only [Engine.recompute]

@[simp] theorem Engine.recompute_linkA (e : Engine) (f : Fin 24 → Fin 64 → Bool) :
    (e.recompute f).linkA = e.linkA := by simp only [Engine.recompute]

@[simp] theorem Engine.recompute_linkB (e : Engine) (f : Fin 24 → Fin 64 → Bool) :
    (e.recompute f).linkB = e.linkB := by simp only [Engine.recompute]

@[simp] theorem Engine.recompute_selector (e : Engine) (f : Fin 24 → Fin 64 → Bool) :
    (e.recompute f).selector = e.selector := by simp only [Engine.recompute]

@[simp] theorem Engine.recompute_tables (e : Engine) (f : Fin 24 → Fin 64 → Bool) :
    (e.recompute f).tables = e.tables := by simp only [Engine.recompute]

@[simp] theorem Engine.recompute_talkHome (e : Engine) (f : Fin 24 → Fin 64 → Bool) :
    (e.recompute f).talkHome = e.talkHome := by simp only [Engine.recompute]

@[simp] theorem Engine.recompute_talkGuest (e : Engine) (f : Fin 24 → Fin 64 → Bool) :
    (e.recompute f).talkGuest = e.talkGuest := by simp only [Engine.recompute]

@[simp] theorem Engine.recompute_onAir (e : Engine) (f : Fin 24 → Fin 64 → Bool) :
    (e.recompute f).onAir = e.onAir := by simp only [Engine.onAir, Engine.recompute]

@[simp] theorem Engine.recompute_runs (e : Engine) (f : Fin 24 → Fin 64 → Bool) :
    (e.recompute f).runs = e.runs := by simp only [Engine.recompute]

@[simp] theorem Engine.recompute_inputMeters (e : Engine) (f : Fin 24 → Fin 64 → Bool) :
    (e.recompute f).inputMeters = e.inputMeters := by simp only [Engine.recompute]

@[simp] theorem Engine.recompute_metersRest (e : Engine) (f : Fin 24 → Fin 64 → Bool) :
    (e.recompute f).metersRest = e.metersRest := by simp only [Engine.recompute]

@[simp] theorem Engine.recompute_library (e : Engine) (f : Fin 24 → Fin 64 → Bool) :
    (e.recompute f).library = e.library := by simp only [Engine.recompute]

@[simp] theorem Engine.recompute_packs (e : Engine) (f : Fin 24 → Fin 64 → Bool) :
    (e.recompute f).packs = e.packs := by simp only [Engine.recompute]

@[simp] theorem Engine.recompute_charge (e : Engine) (f : Fin 24 → Fin 64 → Bool) :
    (e.recompute f).charge = e.charge := by simp only [Engine.recompute]

/-- R51, R52: the pairs reached are recomputed and every other pair is kept. -/
theorem Engine.recompute_coef (e : Engine) (f : Fin 24 → Fin 64 → Bool) (m : Fin 24) (i : Fin 64) :
    ((e.recompute f).coefs[m])[i] =
      if f m i = true then ((e.coefs[m])[i]).retarget (deriveTargets e.tables e.onAir m i) else (e.coefs[m])[i] := by
  simp [Engine.recompute]

theorem Engine.recompute_retargets {before e : Engine} (h : e.coefs = before.coefs) (f : Fin 24 → Fin 64 → Bool) :
    Engine.Retargets before (e.recompute f) f := by
  intro m i
  rw [Engine.recompute_coef, h, Engine.recompute_tables, Engine.recompute_onAir]

/-- A recomputation changes the coefficients alone. -/
theorem Engine.recompute_blocks (e : Engine) (f : Fin 24 → Fin 64 → Bool) :
    e.recompute f = { e with coefs := (e.recompute f).coefs } := by
  simp only [Engine.recompute]

theorem Engine.recompute_of_tables (e : Engine) (t : Tables) (f : Fin 24 → Fin 64 → Bool) :
    Engine.recompute { e with tables := t } f =
      { e with tables := t, coefs := (Engine.recompute { e with tables := t } f).coefs } := by
  simp only [Engine.recompute]

theorem Engine.Retargets.congr {before after : Engine} {f g : Fin 24 → Fin 64 → Bool}
    (h : Engine.Retargets before after f) (e : ∀ m i, f m i = g m i) : Engine.Retargets before after g := by
  intro m i; rw [← e]; exact h m i

/-- A recomputation changes no level. -/
@[simp] theorem Engine.recompute_level (e : Engine) (f : Fin 24 → Fin 64 → Bool) (p : Port) (x : Level) :
    (e.recompute f).level p x = e.level p x := 
  Engine.level_congr (Engine.recompute_charge ..) (by rw [Engine.recompute_library])
    (by rw [Engine.recompute_linkA]) (by rw [Engine.recompute_linkB]) (by rw [Engine.recompute_selector])
    (by rw [Engine.recompute_selector]) (by rw [Engine.recompute_packs]) (by rw [Engine.recompute_packs]) p x

/-! ### Sets of mixes (R178) -/

theorem MixSet.foldl_has (f : Fin 24 → Bool) (l : List (Fin 24)) (acc : MixSet) (m : Fin 24) :
    (l.foldl (fun acc m => if f m then acc ||| BitVec.twoPow 24 m.val else acc) acc).getLsbD m.val =
      (acc.getLsbD m.val || (decide (m ∈ l) && f m)) := by
  induction l generalizing acc with
  | nil => simp
  | cons a l ih =>
    simp only [List.foldl_cons, ih]
    by_cases e : m = a
    · subst e
      cases h : f m <;> simp
    · have hne : ¬ m.val = a.val := fun h' => e (Fin.ext h')
      cases h : f a <;> simp [hne, e]

@[simp] theorem MixSet.has_ofTest (f : Fin 24 → Bool) (m : Fin 24) : MixSet.has (MixSet.ofTest f) m = f m := by
  have := MixSet.foldl_has f (List.finRange 24) 0#24 m
  simp only [MixSet.has, MixSet.ofTest]
  rw [this]
  simp [List.mem_finRange]

@[simp] theorem MixSet.has_empty (m : Fin 24) : MixSet.has 0#24 m = false := by simp [MixSet.has]

@[simp] theorem MixSet.has_and (a b : MixSet) (m : Fin 24) : MixSet.has (a &&& b) m = (MixSet.has a m && MixSet.has b m) := by
  simp [MixSet.has]

@[simp] theorem MixSet.has_or (a b : MixSet) (m : Fin 24) : MixSet.has (a ||| b) m = (MixSet.has a m || MixSet.has b m) := by
  simp [MixSet.has]

@[simp] theorem MixSet.has_not (a : MixSet) (m : Fin 24) : MixSet.has (~~~ a) m = !MixSet.has a m := by
  simp [MixSet.has]

@[simp] theorem MixSet.has_without (a : MixSet) (n m : Fin 24) :
    MixSet.has (MixSet.without a n) m = (MixSet.has a m && decide (m ≠ n)) := by
  simp only [MixSet.has, MixSet.without, BitVec.getLsbD_and, BitVec.getLsbD_not, BitVec.getLsbD_twoPow, m.isLt,
    decide_true, Bool.true_and, n.isLt]
  congr 1
  by_cases h : m = n
  · simp [h]
  · have : n.val ≠ m.val := fun h' => h (Fin.ext h'.symm)
    simp [h, this]

theorem MixSet.ext {a b : MixSet} (h : ∀ m, MixSet.has a m = MixSet.has b m) : a = b := by
  apply BitVec.eq_of_getLsbD_eq
  intro k hk
  exact h ⟨k, hk⟩

/-! ### The movement of a ramp (R56) -/

theorem Coef.move_below {c : Coef} (h : c.live < c.target) :
    c.move = { target := c.target, live := min (c.live + c.step) c.target, step := c.step } := by
  unfold Coef.move; rw [if_pos h]

theorem Coef.move_above {c : Coef} (h : c.target ≤ c.live) :
    c.move = { target := c.target, live := max (c.live - c.step) c.target, step := c.step } := by
  unfold Coef.move; rw [if_neg (by omega)]

end Sys2Proof.Machine
end

