-- ==== Sys2Proof/Laws/Operands.lean ====
section
/-! SUPPORT. The operands of requests: numbers that name a thing, and values brought into their range. -/
namespace Sys2Proof.Machine

/-! ### The parameters (R156, R178) -/

theorem Payload.byte_carried {q : Payload} {k : Nat} {b : Byte} (h : q.params[k]? = some b) : Payload.byte q k = b := by
  unfold Payload.byte; rw [List.getD_eq_getElem?_getD, h]; rfl

/-- R156: a missing byte is read as zero. -/
theorem Payload.byte_missing {q : Payload} {k : Nat} (h : q.params.length ≤ k) : Payload.byte q k = 0#8 := by
  unfold Payload.byte; rw [List.getD_eq_getElem?_getD, List.getElem?_eq_none h]; rfl

/-- R178: two's complement. -/
theorem Payload.s8_eq (q : Payload) (k : Nat) :
    Payload.s8 q k = if Payload.u8 q k < 128 then (Payload.u8 q k : Int) else Payload.u8 q k - 256 := by
  unfold Payload.s8 Payload.u8
  have := (Payload.byte q k).isLt
  rw [BitVec.toInt_eq_toNat_cond]
  split <;> split <;> omega

theorem testBit_high {a b n : Nat} (h : b < 256) : (a * 256 + b).testBit n = if n < 8 then b.testBit n else
    a.testBit (n - 8) := by
  have := Nat.testBit_two_pow_mul_add a (i := 8) (b := b) h n
  rw [Nat.mul_comm]; simpa using this

/-- R178: the events of the low bits of the second byte, then those of the first. -/
theorem Payload.events_bit (q : Payload) (k : Nat) (n : Fin 11) :
    (Payload.events q k).getLsbD n.val = (Payload.byte q (k + 1 - n.val / 8)).getLsbD (n.val % 8) := by
  have hn := n.isLt
  unfold Payload.events Payload.u16 Payload.u8
  rw [BitVec.getLsbD_ofNat, testBit_high (BitVec.isLt _)]
  simp only [hn, decide_true, Bool.true_and]
  rcases Nat.lt_or_ge n.val 8 with h | h
  · rw [if_pos h, Nat.div_eq_of_lt h, Nat.mod_eq_of_lt h]; rfl
  · rw [if_neg (by omega), show n.val / 8 = 1 by omega, show n.val % 8 = n.val - 8 by omega]; rfl

/-- R178: mix 1 is bit 0 of the third byte, mix 24 bit 7 of the first. -/
theorem Payload.mixSet_bit (q : Payload) (k : Nat) (m : Fin 24) :
    (Payload.mixSet q k).getLsbD m.val = (Payload.byte q (k + 2 - m.val / 8)).getLsbD (m.val % 8) := by
  have hm := m.isLt
  have spelt : Payload.u24 q k = (Payload.u8 q k * 256 + Payload.u8 q (k + 1)) * 256 + Payload.u8 q (k + 2) := by
    unfold Payload.u24; omega
  unfold Payload.mixSet
  rw [BitVec.getLsbD_ofNat, spelt, testBit_high (BitVec.isLt _)]
  simp only [hm, decide_true, Bool.true_and]
  rcases Nat.lt_or_ge m.val 8 with h | h
  · rw [if_pos h, Nat.div_eq_of_lt h, Nat.mod_eq_of_lt h]; rfl
  · rw [if_neg (by omega), testBit_high (BitVec.isLt _)]
    rcases Nat.lt_or_ge m.val 16 with h' | h'
    · rw [if_pos (by omega), show m.val / 8 = 1 by omega, show m.val % 8 = m.val - 8 by omega]; rfl
    · rw [if_neg (by omega), show m.val / 8 = 2 by omega, show m.val % 8 = m.val - 8 - 8 by omega]; rfl

/-! ### Numbers that name a thing -/

theorem ordinal_some {n k : Nat} {i : Fin n} (h : k = i.val + 1) : ordinal n k = some i := by
  subst h; unfold ordinal; rw [dif_pos ⟨by omega, by omega⟩]; simp

theorem ordinal_none {n k : Nat} (h : k = 0 ∨ n < k) : ordinal n k = none := by
  unfold ordinal; rw [dif_neg (by omega)]

theorem ordinal_isSome {n k : Nat} (h : 1 ≤ k) (h' : k ≤ n) : ∃ i : Fin n, k = i.val + 1 ∧ ordinal n k = some i :=
  ⟨⟨k - 1, by omega⟩, by simp; omega, by unfold ordinal; rw [dif_pos ⟨h, h'⟩]⟩

theorem ordinalOrNone_some {n k : Nat} {o : Option (Fin n)} (h : k = numberFor o) :
    ordinalOrNone n k = some o := by
  unfold ordinalOrNone
  cases o with
  | none => rw [if_pos (by simpa [numberFor] using h)]
  | some i =>
    have h' : k = i.val + 1 := h
    rw [if_neg (by omega), ordinal_some h']; rfl

theorem ordinalOrNone_none {n k : Nat} (h : n < k) : ordinalOrNone n k = none := by
  unfold ordinalOrNone; rw [if_neg (by omega), ordinal_none (.inr h)]; rfl

theorem clampInt_eq {lo hi x : Int} (h : lo ≤ hi) : clampInt lo hi x = within lo hi x := by
  unfold clampInt within; split
  · omega
  · split <;> omega

theorem clampNat_eq {lo hi x : Nat} (h : lo ≤ hi) : clampNat lo hi x = max lo (min hi x) := by
  unfold clampNat; split
  · omega
  · split <;> omega

theorem outsideInt_eq (lo hi x : Int) : outsideInt lo hi x = decide (x < lo ∨ hi < x) := by
  unfold outsideInt; rw [Bool.eq_iff_iff]; simp

theorem outsideNat_eq (lo hi x : Nat) : outsideNat lo hi x = decide (x < lo ∨ hi < x) := by
  unfold outsideNat; rw [Bool.eq_iff_iff]; simp

theorem yes_eq (x : Nat) : yes x = decide (1 ≤ x) := by unfold yes; rw [Bool.eq_iff_iff]; simp; omega

theorem ordinalByte_eq (o : Option (Fin n)) : ordinalByte o = byteOf (numberFor o) := by
  cases o <;> rfl

theorem records4_append (l : List (Byte × Byte × Byte × Byte)) (rest : List Byte) (h : rest.length < 4) :
    records4 ((l.flatMap fun r => [r.1, r.2.1, r.2.2.1, r.2.2.2]) ++ rest) = l := by
  induction l with
  | nil =>
    match rest, h with
    | [], _ => rfl
    | [_], _ => rfl
    | [_, _], _ => rfl
    | [_, _, _], _ => rfl
  | cons r l ih =>
    simp only [List.flatMap_cons, List.cons_append, List.nil_append, records4]
    rw [ih]

theorem memberInputs_some {bs : List Byte} {l : List (Fin 64)} (h : bs.map BitVec.toNat = l.map fun i => i.val + 1) :
    memberInputs bs = some l := by
  induction bs generalizing l with
  | nil => cases l with
    | nil => rfl
    | cons i l => simp at h
  | cons b bs ih => cases l with
    | nil => simp at h
    | cons i l =>
      simp only [List.map_cons, List.cons.injEq] at h
      simp only [memberInputs, ordinal_some h.1, ih h.2]

theorem memberInputs_none {bs : List Byte} (h : ∃ b ∈ bs, b.toNat = 0 ∨ 64 < b.toNat) : memberInputs bs = none := by
  induction bs with
  | nil => obtain ⟨b, hb, _⟩ := h; simp at hb
  | cons a bs ih =>
    obtain ⟨b, hb, h⟩ := h
    rcases List.mem_cons.1 hb with rfl | hb
    · simp only [memberInputs, ordinal_none h]
    · simp only [memberInputs, ih ⟨b, hb, h⟩]
      cases ordinal 64 a.toNat <;> rfl

theorem eraseDups_filter (p : Fin 64 → Bool) (l : List (Fin 64)) : (l.filter p).eraseDups = l.eraseDups.filter p := by
  induction h : l.length using Nat.strongRecOn generalizing l with
  | ind n ih =>
    cases l with
    | nil => simp
    | cons i l =>
      subst h
      have hl : (l.filter fun b => !b == i).length < (i :: l).length := by
        have := List.length_filter_le (fun b => !b == i) l; simp; omega
      by_cases hp : p i = true
      · rw [List.filter_cons_of_pos hp, List.eraseDups_cons, List.eraseDups_cons, List.filter_cons_of_pos hp]
        congr 1
        rw [← ih _ hl _ rfl, List.filter_filter, List.filter_filter]
        congr 1
        apply List.filter_congr
        intro x _; rw [Bool.and_comm]
      · rw [List.filter_cons_of_neg hp, List.eraseDups_cons, List.filter_cons_of_neg hp, ← ih _ hl _ rfl,
          List.filter_filter]
        congr 1
        apply List.filter_congr
        intro x _
        by_cases hx : x = i
        · subst hx; simp [hp]
        · simp [hx]

/-- R37: the kept entries are those of the list without repeats. -/
theorem collapse_eq (l : List (Fin 64)) : collapse l = l.eraseDups := by
  induction l with
  | nil => simp [collapse]
  | cons i l ih =>
    rw [collapse, ih, List.eraseDups_cons, eraseDups_filter]
    congr 1
    apply List.filter_congr
    intro x _; simp [Bool.beq_eq_decide_eq]

theorem sendWrite_some {r : Byte × Byte × Byte × Byte} {i : Fin 64} (h : r.1.toNat = i.val + 1) :
    sendWrite r.1 r.2.1 r.2.2.1 r.2.2.2 = some { input := i, send := sendOf r, clamped := sendOutside r } := by
  unfold sendWrite
  rw [ordinal_some h]
  simp only [Option.map_some, Option.some.injEq, SendWrite.mk.injEq, true_and]
  refine ⟨?_, ?_⟩
  · unfold sendOf; rw [clampNat_eq (by omega), clampInt_eq (by omega), yes_eq]; simp
  · unfold sendOutside outsideNat outsideInt outsideYesNo; simp [Bool.or_assoc]

theorem sendWrites_some {l : List (Byte × Byte × Byte × Byte)} (h : ∀ r ∈ l, 1 ≤ r.1.toNat ∧ r.1.toNat ≤ 64) :
    ∃ ws, sendWrites l = some ws ∧ (ws.any fun w => w.clamped) = l.any sendOutside ∧
      (ws.map fun w => (w.input.val + 1, w.send)) = l.map fun r => (r.1.toNat, sendOf r) := by
  induction l with
  | nil => exact ⟨[], rfl, rfl, rfl⟩
  | cons r l ih =>
    obtain ⟨ws, h1, h2, h3⟩ := ih fun r hr => h r (List.mem_cons_of_mem _ hr)
    obtain ⟨i, hi, _⟩ := ordinal_isSome (h r (List.mem_cons_self ..)).1 (h r (List.mem_cons_self ..)).2
    refine ⟨{ input := i, send := sendOf r, clamped := sendOutside r } :: ws, ?_, ?_, ?_⟩
    · simp only [sendWrites, sendWrite_some hi, h1]
    · simp only [List.any_cons, h2]
    · simp only [List.map_cons, hi, h3]

theorem sendWrites_none {l : List (Byte × Byte × Byte × Byte)} (h : ∃ r ∈ l, r.1.toNat = 0 ∨ 64 < r.1.toNat) :
    sendWrites l = none := by
  induction l with
  | nil => obtain ⟨r, hr, _⟩ := h; simp at hr
  | cons a l ih =>
    obtain ⟨r, hr, h⟩ := h
    rcases List.mem_cons.1 hr with rfl | hr
    · simp only [sendWrites, sendWrite, ordinal_none h]; rfl
    · simp only [sendWrites, ih ⟨r, hr, h⟩]
      cases sendWrite a.1 a.2.1 a.2.2.1 a.2.2.2 <;> rfl

end Sys2Proof.Machine
end

