-- ==== Sys2Proof/Laws/Tables.lean ====
section
/-! SUPPORT. The writing of sends with its broadcast, and the derivation of targets. -/
namespace Sys2Proof.Machine

/-! ### Sends (R30 to R32) -/

theorem Tables.writeSend_mix (t : Tables) (m : Fin 24) (others : MixSet) (w : SendWrite) (m' : Fin 24) :
    (t.writeSend m others w).mixes[m'] =
      if m' = m then (t.mixes[m']).putSend w
      else if MixSet.has others m' then (t.mixes[m']).putShared w
      else t.mixes[m'] := by
  simp [Tables.writeSend]

/-- What a list of writes leaves in one send of one mix. -/
theorem Tables.writeSends_mix (m : Fin 24) (others : MixSet) (m' : Fin 24) (l : List SendWrite) (t : Tables) :
    ((t.writeSends m others l).mixes[m']) =
        { t.mixes[m'] with sends := ((t.writeSends m others l).mixes[m']).sends } ∧
      (m' ≠ m → MixSet.has others m' = false → ((t.writeSends m others l).mixes[m']).sends = (t.mixes[m']).sends) ∧
      ∀ i : Fin 64,
        ((∀ w ∈ l, w.input ≠ i) →
          (((t.writeSends m others l).mixes[m']).sends[i]) = ((t.mixes[m']).sends[i])) ∧
        ∀ l1 w l2, l = l1 ++ w :: l2 → w.input = i → (∀ w' ∈ l2, w'.input ≠ i) →
          (m' = m → (((t.writeSends m others l).mixes[m']).sends[i]) = w.send) ∧
          (m' ≠ m → MixSet.has others m' = true →
            (((t.writeSends m others l).mixes[m']).sends[i]) = { w.send with pan := ((t.mixes[m']).sends[i]).pan }) := by
  induction l generalizing t with
  | nil =>
    simp only [Tables.writeSends, List.foldl_nil]
    exact ⟨trivial, fun _ _ => trivial, fun i => ⟨fun _ => trivial, fun l1 w l2 h => by simp at h⟩⟩
  | cons w l ih =>
    obtain ⟨h1, h2, h3⟩ := ih (t.writeSend m others w)
    have hs : t.writeSends m others (w :: l) = (t.writeSend m others w).writeSends m others l := by
      simp only [Tables.writeSends, List.foldl_cons]
    have hw := Tables.writeSend_mix t m others w m'
    have rec1 : ((t.writeSend m others w).mixes[m']) =
        { t.mixes[m'] with sends := ((t.writeSend m others w).mixes[m']).sends } := by
      rw [hw]
      generalize t.mixes[m'] = x
      by_cases h : m' = m
      · simp only [if_pos h, MixTable.putSend]
      · cases hh : MixSet.has others m' <;> simp [h, MixTable.putShared]
    have one : ∀ i : Fin 64, w.input ≠ i →
        (((t.writeSend m others w).mixes[m']).sends[i]) = ((t.mixes[m']).sends[i]) := by
      intro i hi
      have hi' : (w.input : Nat) ≠ (i : Nat) := fun h => hi (Fin.ext h)
      rw [hw]; split
      · simp [MixTable.putSend, hi']
      · split
        · simp [MixTable.putShared, hi']
        · rfl
    have two : (m' = m → (((t.writeSend m others w).mixes[m']).sends[w.input]) = w.send) ∧
        (m' ≠ m → MixSet.has others m' = true →
          (((t.writeSend m others w).mixes[m']).sends[w.input]) =
            { w.send with pan := ((t.mixes[m']).sends[w.input]).pan }) := by
      refine ⟨fun h => ?_, fun h h' => ?_⟩
      · rw [hw, if_pos h]; simp [MixTable.putSend]
      · rw [hw, if_neg h, if_pos h']; simp [MixTable.putShared]
    have pan : m' ≠ m → ∀ i : Fin 64, (((t.writeSend m others w).mixes[m']).sends[i]).pan = ((t.mixes[m']).sends[i]).pan := by
      intro h i
      by_cases hi : w.input = i
      · subst hi
        rw [hw, if_neg h]; split
        · simp [MixTable.putShared]
        · rfl
      · rw [one i hi]
    rw [hs]
    refine ⟨?_, fun a b => ?_, fun i => ⟨fun h => ?_, fun l1 x l2 hl hx hn => ?_⟩⟩
    · rw [h1, rec1]
    · rw [h2 a b, hw, if_neg a, b]; simp
    · rw [(h3 i).1 fun y hy => h y (List.mem_cons_of_mem _ hy), one i (h w (List.mem_cons_self ..))]
    · cases l1 with
      | nil =>
        simp only [List.nil_append, List.cons.injEq] at hl
        obtain ⟨rfl, rfl⟩ := hl
        subst hx
        rw [(h3 w.input).1 hn]
        exact two
      | cons y l1 =>
        simp only [List.cons_append, List.cons.injEq] at hl
        obtain ⟨rfl, rfl⟩ := hl
        have := (h3 i).2 l1 x l2 rfl hx hn
        refine ⟨this.1, fun a b => ?_⟩
        rw [this.2 a b, pan a]

theorem Engine.broadcastTo_has (e : Engine) (m m' : Fin 24) :
    MixSet.has (e.broadcastTo m) m' = true ↔ e.tables.linked m m' ∧ MixSet.has e.awaiting m' = false := by
  unfold Engine.broadcastTo linkMembers
  rw [MixSet.has_and, MixSet.has_not, MixSet.has_ofTest]
  simp only [Bool.and_eq_true, decide_eq_true_eq, Bool.not_eq_true', Option.isSome_iff_ne_none]
  exact ⟨fun ⟨⟨⟨a, b⟩, c⟩, d⟩ => ⟨⟨a, b, c⟩, d⟩, fun ⟨⟨a, b, c⟩, d⟩ => ⟨⟨⟨a, b⟩, c⟩, d⟩⟩

theorem Engine.passesOver_iff (e : Engine) (m : Fin 24) :
    e.passesOver m = true ↔ ∃ m', e.tables.linked m m' ∧ MixSet.has e.awaiting m' = true := by
  unfold Engine.passesOver linkMembers
  rw [decide_eq_true_iff]
  constructor
  · intro h
    by_contra hn
    apply h
    apply MixSet.ext
    intro m'
    rw [MixSet.has_and, MixSet.has_ofTest, MixSet.has_empty]
    cases ha : MixSet.has e.awaiting m' with
    | false => simp
    | true =>
      have : ¬ e.tables.linked m m' := fun hl => hn ⟨m', hl, ha⟩
      simp only [Tables.linked, not_and_or] at this
      simp only [Bool.and_true]
      rw [Bool.eq_false_iff]
      simp only [ne_eq, Bool.and_eq_true, decide_eq_true_eq, Option.isSome_iff_ne_none, not_and_or]
      tauto
  · rintro ⟨m', ⟨a, b, c⟩, d⟩ h
    have : MixSet.has (0#24) m' = true := by
      rw [← h, MixSet.has_and, MixSet.has_ofTest, d]
      simp only [Option.isSome_iff_ne_none, Bool.and_true, Bool.and_eq_true, decide_eq_true_eq]
      exact ⟨⟨a, b⟩, c⟩
    simp at this

theorem written_has (m : Fin 24) (others : MixSet) (m' : Fin 24) :
    (BitVec.twoPow 24 m.val ||| others).getLsbD m'.val = (decide (m' = m) || MixSet.has others m') := by
  rw [BitVec.getLsbD_or, BitVec.getLsbD_twoPow]
  congr 1
  by_cases h : m' = m
  · simp [h]
  · have : m.val ≠ m'.val := fun h' => h (Fin.ext h'.symm)
    simp [h, this]

/-- R30 to R32: the writing of sends changes the mixes alone. -/
theorem Tables.writeSends_rest (m : Fin 24) (others : MixSet) (l : List SendWrite) (t : Tables) :
    t.writeSends m others l = { t with mixes := (t.writeSends m others l).mixes } := by
  induction l generalizing t with
  | nil => simp only [Tables.writeSends, List.foldl_nil]
  | cons w l ih =>
    rw [show t.writeSends m others (w :: l) = (t.writeSend m others w).writeSends m others l from by
      simp only [Tables.writeSends, List.foldl_cons], ih]
    simp only [Tables.writeSend]

/-- R30 to R32: what the writing of a list of sends comes to. -/
theorem effectWriteSends_written {e : Engine} {m : Fin 24} {records : List (Byte × Byte × Byte × Byte)}
    {ws : List SendWrite}
    (h : (ws.map fun w => (w.input.val + 1, w.send)) = records.map fun r => (r.1.toNat, sendOf r)) :
    Engine.SendsWritten e (effectWriteSends m ws e).engine m records (BitVec.twoPow 24 m.val ||| e.broadcastTo m) := by
  have tab : (effectWriteSends m ws e).engine.tables = e.tables.writeSends m (e.broadcastTo m) ws := by
    simp [effectWriteSends]
  have wh := fun m' => written_has m (e.broadcastTo m) m'
  have mem : ∀ i : Fin 64, (∀ r ∈ records, r.1.toNat ≠ i.val + 1) → ∀ w ∈ ws, w.input ≠ i := by
    intro i hr w hw hi
    have : (w.input.val + 1, w.send) ∈ ws.map fun w => (w.input.val + 1, w.send) := List.mem_map_of_mem hw
    rw [h] at this
    obtain ⟨r, h1, h2⟩ := List.mem_map.1 this
    simp only [Prod.mk.injEq] at h2
    exact hr r h1 (by rw [h2.1, hi])
  have any : ∀ i : Fin 64, (ws.any fun w => decide (w.input = i)) = records.any fun r => decide (r.1.toNat = i.val + 1) := by
    intro i
    have e1 : (ws.any fun w => decide (w.input = i)) =
        (ws.map fun w => (w.input.val + 1, w.send)).any fun x => decide (x.1 = i.val + 1) := by
      rw [List.any_map]; congr 1; funext w; simp [Fin.ext_iff]
    rw [e1, h, List.any_map]; rfl
  constructor
  · rw [tab]
    exact Engine.recompute_of_tables e (e.tables.writeSends m (e.broadcastTo m) ws)
      (reachSends m (e.broadcastTo m) ws)
  · rw [tab]; exact Tables.writeSends_rest m _ ws e.tables
  · intro m'; rw [tab]; exact (Tables.writeSends_mix m _ m' ws e.tables).1
  · intro m'
    rw [wh, Bool.or_eq_true, decide_eq_true_eq, Engine.broadcastTo_has]
  · intro l r l' hr hl i hi
    rw [hr, List.map_append, List.map_cons] at h
    obtain ⟨w1, w2, hw, e1, e2⟩ := List.map_eq_append_iff.1 h
    obtain ⟨w, w3, hw2, e3, e4⟩ := List.map_eq_cons_iff.1 e2
    subst hw2
    simp only [Prod.mk.injEq] at e3
    have hwi : w.input = i := by apply Fin.ext; have := e3.1; omega
    have hn : ∀ w' ∈ w3, w'.input ≠ i := by
      intro w' hw' hi'
      have : (w'.input.val + 1, w'.send) ∈ w3.map fun w => (w.input.val + 1, w.send) := List.mem_map_of_mem hw'
      rw [e4] at this
      obtain ⟨r', h1, h2⟩ := List.mem_map.1 this
      simp only [Prod.mk.injEq] at h2
      refine hl r' h1 (BitVec.eq_of_toNat_eq ?_)
      rw [h2.1, hi, hi']
    rw [tab]
    refine ⟨?_, fun m' hm' hw' => ?_⟩
    · rw [((Tables.writeSends_mix m (e.broadcastTo m) m ws e.tables).2.2 i).2 w1 w w3 hw hwi hn |>.1 rfl, e3.2]
    · rw [wh, decide_eq_false hm', Bool.false_or] at hw'
      rw [((Tables.writeSends_mix m (e.broadcastTo m) m' ws e.tables).2.2 i).2 w1 w w3 hw hwi hn |>.2 hm' hw', e3.2]
  · intro m' i hi
    rw [tab]
    rcases hi with hi | hi
    · rw [wh, Bool.or_eq_false_iff] at hi
      rw [(Tables.writeSends_mix m (e.broadcastTo m) m' ws e.tables).2.1 (of_decide_eq_false hi.1) hi.2]
    · exact ((Tables.writeSends_mix m (e.broadcastTo m) m' ws e.tables).2.2 i).1 (mem i hi)
  · simp only [effectWriteSends]
    refine (Engine.recompute_retargets (by simp only) _).congr fun m' i => ?_
    unfold reachSends
    rw [wh, any]

end Sys2Proof.Machine
end

