-- ==== Sys2Proof/Laws/Follow.lean ====
section
/-! SUPPORT. Targets, live values and guard gains: each change of the blocks keeps them following the tables. -/
namespace Sys2Proof.Machine

theorem Engine.LevelsFollow.congr {e e' : Engine} (h : e.LevelsFollow) (c : e'.coefs = e.coefs)
    (t : e'.tables = e.tables) (a : e'.onAir = e.onAir) (r : ∀ m : Fin 24, (e'.runs[m]).gain = (e.runs[m]).gain) :
    e'.LevelsFollow :=
  ⟨fun m i => by rw [c, t, a]; exact h.targets m i, fun m i => by rw [c]; exact h.live m i, fun m => by rw [r]; exact h.gains m⟩

theorem Engine.LevelsFollow.same {e e' : Engine} (h : e.LevelsFollow) (c : e'.coefs = e.coefs)
    (t : e'.tables = e.tables) (a : e'.talkHome = e.talkHome) (b : e'.talkGuest = e.talkGuest) (r : e'.runs = e.runs)
    : e'.LevelsFollow :=
  Engine.LevelsFollow.congr h c t (by unfold Engine.onAir; rw [a, b]) (fun m => by rw [r])

theorem Coef.retarget_target (c : Coef) (n : Nat) : (c.retarget n).target = n := by unfold Coef.retarget; split <;>
    simp_all

theorem Coef.retarget_live (c : Coef) (n : Nat) : (c.retarget n).live = c.live := by unfold Coef.retarget; split <;>
    rfl

theorem Engine.LevelsFollow.recompute {e e' : Engine} (h : e.LevelsFollow) (reach : Fin 24 → Fin 64 → Bool)
    (c : e'.coefs = e.coefs) (r : ∀ m : Fin 24, (e'.runs[m]).gain = (e.runs[m]).gain)
   (d : ∀ m i, reach m i = false → deriveTargets e'.tables e'.onAir m i = deriveTargets e.tables e.onAir m i) : (e'.recompute reach).LevelsFollow := by
  refine ⟨fun m i => ?_, fun m i => ?_, fun m => ?_⟩
  · rw [Engine.recompute_coef, Engine.recompute_tables, Engine.recompute_onAir]
    cases hr : reach m i with
    | true => rw [if_pos rfl]; exact ⟨Coef.retarget_target _ _, Coef.retarget_target _ _⟩
    | false => rw [if_neg (by simp), c, d m i hr]; exact h.targets m i
  · rw [Engine.recompute_coef, c]
    split
    · simp only [CoefPair.retarget, Coef.retarget_live]; exact h.live m i
    · exact h.live m i
  · rw [Engine.recompute_runs, r]; exact h.gains m

theorem deriveTargets_congr {t t' : Tables} {air air' : MixSet} {m : Fin 24} {i : Fin 64}
    (h1 : (t'.inputs[i]).on = (t.inputs[i]).on) (h2 : (t'.inputs[i]).patch.isNone = (t.inputs[i]).patch.isNone) (h3 : (t'.inputs[i]).trim = (t.inputs[i]).trim)
    (h4 : ((t'.mixes[m]).sends[i]) = ((t.mixes[m]).sends[i])) (h5 : (t'.mixes[m]).record.mute = (t.mixes[m]).record.mute) (h6 : (t'.mixes[m]).record.master = (t.mixes[m]).record.master) (h7 : (t'.mixes[m]).record.dim = (t.mixes[m]).record.dim)
    (h8 : groupTrim t'.mixes[m] i = groupTrim t.mixes[m] i) (h9 : talking t' air' m = talking t air m) (h10 : talking t air m = true → t'.talkSource = t.talkSource) :
    deriveTargets t' air' m i = deriveTargets t air m i := by
  have ho : overridden t' air' m i = overridden t air m i := by
    unfold overridden; rw [h9]
    cases h : talking t air m with
    | false => rfl
    | true => rw [h10 h]
  unfold deriveTargets
  have hs : silenced t' air' m i = silenced t air m i := by
    unfold silenced; rw [ho, h1, h2, h4, h5]
  have he : effectiveLevel t' air' m i = effectiveLevel t air m i := by
    unfold effectiveLevel; rw [ho, h9, h3, h4, h6, h7, h8]
  rw [hs, he, h4]

theorem deriveTargets_same {t t' : Tables} {air air' : MixSet} {m : Fin 24} {i : Fin 64}
    (h1 : t'.inputs[i] = t.inputs[i]) (h4 : t'.mixes[m] = t.mixes[m]) (h9 : talking t' air' m = talking t air m) (h10
    : talking t air m = true → t'.talkSource = t.talkSource) :
    deriveTargets t' air' m i = deriveTargets t air m i :=
  deriveTargets_congr (by rw [h1]) (by rw [h1]) (by rw [h1]) (by rw [h4]) (by rw [h4]) (by rw [h4]) (by rw [h4]) (by rw [h4]) h9 h10

theorem talking_same {t t' : Tables} {air : MixSet} {m : Fin 24}
    (h : t'.talkSource = t.talkSource) : talking t' air m = talking t air m := by
  unfold talking; rw [h]

theorem Tables.modifyMix_mix {t : Tables} {m m' : Fin 24} {f : MixTable → MixTable} :
    (t.modifyMix m f).mixes[m'] = if m' = m then f t.mixes[m] else t.mixes[m'] := by
  unfold Tables.modifyMix
  by_cases h : m' = m
  · subst h; simp
  · have : ¬ m.val = m'.val := fun h' => h (Fin.ext h'.symm)
    simp [h, Vector.getElem_set, this]

theorem coefficient_le : ∀ k : Fin 233, coefficient k ≤ 65226 := by decide +kernel

theorem farSide_le (c p : Nat) : farSide c p ≤ c := by
  unfold farSide
  have : c * (32 - p) ≤ c * 32 := Nat.mul_le_mul_left c (by omega)
  omega

theorem deriveTargets_le (t : Tables) (air : MixSet) (m : Fin 24) (i : Fin 64) :
    (deriveTargets t air m i).1 ≤ 65226 ∧ (deriveTargets t air m i).2 ≤ 65226 := by
  unfold deriveTargets
  split
  · exact ⟨Nat.zero_le _, Nat.zero_le _⟩
  · dsimp only
    split
    · exact ⟨Nat.zero_le _, Nat.zero_le _⟩
    · have hc : ∀ x : Int, coefficient (min x 232).toNat ≤ 65226 := fun x => coefficient_le ⟨(min x 232).toNat, by omega⟩
      have := hc (effectiveLevel t air m i)
      have f := farSide_le (coefficient (min (effectiveLevel t air m i) 232).toNat) ((t.mixes[m]).sends[i]).pan.natAbs
      unfold panSplit
      split
      · exact ⟨by omega, this⟩
      · split
        · exact ⟨this, by omega⟩
        · exact ⟨this, this⟩

theorem Coef.move_le (c : Coef) (h : c.live ≤ 65226) (h' : c.target ≤ 65226) : c.move.live ≤ 65226 := by
  unfold Coef.move; split
  · show min _ _ ≤ _; omega
  · show max _ _ ≤ _; omega

theorem roundMagnitude_mul_le (n d g : Nat) (hd : 0 < d) (hg : g ≤ d) : roundMagnitude (n * g) d ≤ n := by
  unfold roundMagnitude
  have h1 : n * g ≤ n * d := Nat.mul_le_mul_left n hg
  have h2 : n * g / d ≤ n := Nat.div_le_of_le_mul (by rw [Nat.mul_comm d]; exact h1)
  dsimp only
  have key : n * g / d = n → n * g % d = 0 := by
    intro h
    have := Nat.div_add_mod (n * g) d
    rw [h] at this
    have e : d * n = n * d := Nat.mul_comm _ _
    omega
  split
  · exact h2
  · by_cases h : n * g / d = n
    · have := key h
      rw [this] at *
      split
      · omega
      · omega
    · split
      · omega
      · split <;> omega

theorem applyGain_le (v : Int) (g : Nat) (h : g ≤ 16384) : (applyGain v g).natAbs ≤ v.natAbs := by
  unfold applyGain roundHalfEven
  have : (v * (g : Int)).natAbs = v.natAbs * g := by rw [Int.natAbs_mul, Int.natAbs_natCast]
  split
  · rw [Int.natAbs_neg, Int.natAbs_natCast, this]; exact roundMagnitude_mul_le _ _ _ (by omega) h
  · rw [Int.natAbs_natCast, this]; exact roundMagnitude_mul_le _ _ _ (by omega) h

theorem gainHeld_le (l r : Int) (g : Nat) (x : MixRec) (h : g ≤ 16384) : gainHeld l r g x ≤ 16384 := by
  unfold gainHeld
  split
  · rename_i he
    unfold guardEngages at he
    simp only [decide_eq_true_eq] at he
    have h1 := applyGain_le l g h
    have h2 := applyGain_le r g h
    have h3 : x.ceiling ≤ peakOf l r := by unfold peakOf at he ⊢; omega
    unfold engagedGain
    apply Nat.div_le_of_le_mul
    exact Nat.mul_le_mul_right _ h3
  · unfold releasedGain; omega

theorem find_set_of_false {α : Type} (p : α → Bool) (y : α) (hy : p y = false) (l : List α) (k : Nat)
    (hk : ∀ h : k < l.length, p l[k] = false) : (l.set k y).find? p = l.find? p := by
  induction l generalizing k with
  | nil => simp
  | cons a l ih =>
    cases k with
    | zero => have := hk (by simp); simp only [List.getElem_cons_zero] at this; simp [hy, this]
    | succ k =>
      simp only [List.set_cons_succ, List.find?_cons]
      rw [ih k (fun h => by have := hk (by simp; omega); simpa using this)]

theorem groupTrim_putGroup (x : MixTable) (g : Fin 8) (y : Group) (i : Fin 64) (h : i ∉ (x.groups[g]).members)
    (h' : i ∉ y.members) : groupTrim (x.putGroup g y) i = groupTrim x i := by
  unfold groupTrim MixTable.putGroup
  dsimp only
  rw [Vector.toList_set, find_set_of_false _ _ (by simpa using h')]
  intro hh
  simpa using h

theorem Engine.LevelsFollow.modifyPack (e : Engine) (h : e.LevelsFollow) (a f) :
    (e.modifyPack a f).LevelsFollow := Engine.LevelsFollow.same h rfl rfl rfl rfl rfl

theorem Engine.LevelsFollow.setHeld (e : Engine) (h : e.LevelsFollow) (a k) :
    (e.setHeld a k).LevelsFollow := Engine.LevelsFollow.modifyPack e h _ _

theorem Engine.LevelsFollow.endOperation (e : Engine) (h : e.LevelsFollow) (o) :
    (e.endOperation o).1.LevelsFollow := Engine.LevelsFollow.same h rfl rfl rfl rfl rfl

theorem Engine.LevelsFollow.afterItem (e : Engine) (h : e.LevelsFollow) (a i b) :
    (Engine.afterItem a i b e).1.LevelsFollow := by
  unfold Engine.afterItem; split
  · exact Engine.LevelsFollow.endOperation _ h _
  · split
    · exact Engine.LevelsFollow.endOperation _ h _
    · exact h

theorem Engine.LevelsFollow.writeMix (e : Engine) (h : e.LevelsFollow) (j m) : ((e.writeMix j m).recompute
    (reachMix m)).LevelsFollow := by
  unfold Engine.writeMix
  split
  · rename_i scene _
    refine Engine.LevelsFollow.recompute h _ rfl (fun _ => rfl) fun m' i hr => ?_
    have hne : m' ≠ m := by simpa [reachMix] using hr
    refine deriveTargets_same rfl ?_ (talking_same rfl) (fun _ => rfl)
    show (e.tables.modifyMix m _).mixes[m'] = _
    rw [Tables.modifyMix_mix, if_neg hne]
  · exact Engine.LevelsFollow.recompute h _ rfl (fun _ => rfl) fun m' i hr => rfl

theorem Engine.LevelsFollow.loadMix (e : Engine) (h : e.LevelsFollow) (j a i b m) :
    (e.loadMix j a i b m).1.LevelsFollow := by
  unfold Engine.loadMix
  have hw := Engine.LevelsFollow.writeMix e h j m
  generalize (e.writeMix j m).recompute (reachMix m) = z at hw
  exact Engine.LevelsFollow.afterItem _ (Engine.LevelsFollow.same (e' := z.markLoaded j (MixSet.without a m) i b) hw rfl rfl rfl rfl rfl) _ _ _

theorem Engine.LevelsFollow.loadInputs (e : Engine) (h : e.LevelsFollow) (j b) :
    (e.loadInputs j b).1.LevelsFollow := by
  unfold Engine.loadInputs
  refine Engine.LevelsFollow.endOperation _ ?_ _
  have : (e.writeInputs j).coefs = e.coefs ∧ (e.writeInputs j).runs = e.runs := by unfold Engine.writeInputs; split <;> exact ⟨rfl, rfl⟩
  refine Engine.LevelsFollow.recompute h _ this.1 (fun _ => by rw [this.2]) fun m' i hr => by cases hr

theorem Engine.LevelsFollow.stepMaster (e : Engine) (h : e.LevelsFollow) (m k) :
    (e.stepMaster m k).1.LevelsFollow := by
  unfold Engine.stepMaster
  dsimp only
  split
  · exact h
  · refine Engine.LevelsFollow.recompute h _ rfl (fun _ => rfl) fun m' i hr => ?_
    have hne : m' ≠ m := by simpa [reachMix] using hr
    refine deriveTargets_same rfl ?_ (talking_same rfl) (fun _ => rfl)
    show (e.tables.modifyMix m _).mixes[m'] = _
    rw [Tables.modifyMix_mix, if_neg hne]

theorem deriveTargets_putGroup (e : Engine) (m : Fin 24) (g : Fin 8) (y : Group) (m' : Fin 24) (i : Fin 64)
    (h : m' = m → i ∉ ((e.tables.mixes[m]).groups[g]).members ∧ i ∉ y.members) (air) :
   deriveTargets (e.modifyMix m fun x => x.putGroup g y).tables air m' i = deriveTargets e.tables air m' i := by
  have hm : (e.modifyMix m fun x => x.putGroup g y).tables.mixes[m'] = if m' = m then (e.tables.mixes[m]).putGroup g y else e.tables.mixes[m'] := Tables.modifyMix_mix
  by_cases hne : m' = m
  · subst hne
    rw [if_pos rfl] at hm
    refine deriveTargets_congr rfl rfl rfl ?_ ?_ ?_ ?_ ?_ (talking_same rfl) (fun _ => rfl) <;> rw [hm]
    · rfl
    · rfl
    · rfl
    · rfl
    · exact groupTrim_putGroup _ _ _ _ (h rfl).1 (h rfl).2
  · rw [if_neg hne] at hm
    exact deriveTargets_same rfl hm (talking_same rfl) (fun _ => rfl)

theorem Engine.LevelsFollow.stepGroup (e : Engine) (h : e.LevelsFollow) (m g k) :
    (e.stepGroup m g k).1.LevelsFollow := by
  unfold Engine.stepGroup
  dsimp only
  split
  · exact h
  · refine Engine.LevelsFollow.recompute h _ rfl (fun _ => rfl) fun m' i hr => ?_
    refine deriveTargets_putGroup e m g _ m' i (fun hm => ?_) _
    have : i ∉ ((e.tables.mixes[m]).groups[g]).members := by simpa [reachInputsOf, hm] using hr
    exact ⟨this, this⟩

theorem Engine.LevelsFollow.step (e : Engine) (h : e.LevelsFollow) (a k) : (e.step a k).1.LevelsFollow := by
  unfold Engine.step; dsimp only
  split
  · exact h
  · split
    · exact h
    · split
      · exact Engine.LevelsFollow.stepMaster e h _ _
      · exact Engine.LevelsFollow.stepGroup e h _ _ _

theorem Engine.LevelsFollow.applyEvent (f : Engine → Act) (hf : ∀ e : Engine, e.LevelsFollow → (f e).1.LevelsFollow)
    (a c) (e : Engine) (h : e.LevelsFollow) : (e.applyEvent a c f).1.LevelsFollow := by
  unfold Engine.applyEvent
  split
  · split
    · dsimp only
      split
      · exact hf _ (Engine.LevelsFollow.same h rfl rfl rfl rfl rfl)
      · exact Engine.LevelsFollow.same h rfl rfl rfl rfl rfl
    · exact h
  · exact h

theorem Engine.LevelsFollow.talkSet (p) (a : MixSet) (e : Engine) (h : e.LevelsFollow) :
    ((e.setTalkSet p a).recompute (reachTalking e (e.setTalkSet p a) false)).LevelsFollow := by
  have r1 : (e.setTalkSet p a).runs = e.runs := by cases p <;> simp only [Engine.setTalkSet]
  refine Engine.LevelsFollow.recompute h _ (by simp) (fun _ => by rw [r1]) fun m i hr => ?_
  simp only [reachTalking, Bool.or_eq_false_iff, bne_eq_false_iff_eq] at hr
  have ht : (e.setTalkSet p a).tables = e.tables := by simp
  rw [ht] at hr ⊢
  exact deriveTargets_same rfl rfl hr.1.symm (fun _ => rfl)

theorem Engine.LevelsFollow.dropTalk (p) (e : Engine) (h : e.LevelsFollow) :
    (e.dropTalk p).LevelsFollow := Engine.LevelsFollow.talkSet p _ e h

theorem Engine.LevelsFollow.clearMeters (e : Engine) (h : e.LevelsFollow) : e.clearMeters.LevelsFollow := by
  refine Engine.LevelsFollow.congr h (by simp only [Engine.clearMeters]) (by simp only [Engine.clearMeters]) (by simp only [Engine.clearMeters, Engine.onAir]) fun m => ?_
  simp [Engine.clearMeters]

theorem Engine.LevelsFollow.beginLoad (j) (e : Engine) (h : e.LevelsFollow) : (e.beginLoad j).1.LevelsFollow :=
  Engine.LevelsFollow.afterItem _ (Engine.LevelsFollow.same (e' := { e with library := { e.library with operation := .recall { j with phase := .load j.mixes j.classes.inputs false } } }) h rfl rfl rfl rfl rfl) _ _ _

theorem Engine.LevelsFollow.applyWindow (e : Engine) (h : e.LevelsFollow) (a w) :
    (e.applyWindow a w).1.LevelsFollow := by
  have q : ∀ (e : Engine) (_ : e.LevelsFollow) x, (e.queueMessage x a).LevelsFollow := fun e h x => Engine.LevelsFollow.same h rfl rfl rfl rfl rfl
  unfold Engine.applyWindow; split
  · exact h
  · exact Engine.LevelsFollow.modifyPack e h _ _
  · split
    · split
      · exact q _ (Engine.LevelsFollow.modifyPack e h _ _) _
      · exact q _ h _
    · rename_i id _
      have f : (e.forgetElsewhere id a).LevelsFollow := Engine.LevelsFollow.same h (by simp only [Engine.forgetElsewhere]) (by simp only [Engine.forgetElsewhere]) (by simp only [Engine.forgetElsewhere]) (by simp only [Engine.forgetElsewhere]) (by simp only [Engine.forgetElsewhere])
      unfold Engine.acceptPack
      generalize e.forgetElsewhere id a = z at f
      exact q _ (Engine.LevelsFollow.modifyPack _ f _ _) _

theorem Engine.LevelsFollow.endRecallAtReset (e : Engine) (h : e.LevelsFollow) : e.endRecallAtReset.LevelsFollow := by
  unfold Engine.endRecallAtReset
  split
  · split
    · exact Engine.LevelsFollow.endOperation _ h _
    · split
      · exact Engine.LevelsFollow.loadMix _ h _ _ _ _ _
      · split
        · exact Engine.LevelsFollow.loadInputs _ h _ _
        · exact Engine.LevelsFollow.endOperation _ h _
  · exact h

theorem Engine.levelsFollow_restartRamps (e : Engine) (h : ∀ m : Fin 24,
    (e.runs[m]).gain ≤ 16384) : e.restartRamps.LevelsFollow := by
  refine ⟨fun m i => ?_, fun m i => ?_, fun m => by simpa only [Engine.restartRamps] using h m⟩
  · have c2 : e.restartRamps.tables = e.tables := by simp only [Engine.restartRamps]
    have c3 : e.restartRamps.onAir = e.onAir := by simp only [Engine.restartRamps, Engine.onAir]
    rw [c2, c3]
    simp [Engine.restartRamps, Coef.fromSilence]
  · simp [Engine.restartRamps, Coef.fromSilence]

theorem Engine.LevelsFollow.frameInstant (turn) (e : Engine) (h : e.LevelsFollow) :
    (e.frameInstant turn).1.LevelsFollow := by
  obtain ⟨atTest, aLocked, events, h1, h2, h3, h4⟩ := Engine.selectFrame_eq turn e
  unfold Engine.frameInstant
  simp only [Act.andThen]
  have hs : (e.selectFrame turn).1.LevelsFollow := by rw [h4]; exact Engine.LevelsFollow.same h rfl rfl rfl rfl rfl
  generalize (e.selectFrame turn).1 = z at hs
  have hc : z.computeMixes.1.LevelsFollow := by
    have c1 : z.computeMixes.1.coefs = z.coefs := by simp only [Engine.computeMixes]
    have c2 : z.computeMixes.1.tables = z.tables := by simp only [Engine.computeMixes]
    have c3 : z.computeMixes.1.onAir = z.onAir := by simp only [Engine.computeMixes, Engine.onAir]
    refine ⟨fun m i => by rw [c1, c2, c3]; exact hs.targets m i, fun m i => by rw [c1]; exact hs.live m i, fun m => ?_⟩
    have : (z.computeMixes.1.runs[m]).gain = gainHeld (limit24 (scaled (z.sumLeft m) (z.tables.mixes[m]).record.shift)) (limit24 (scaled (z.sumRight m) (z.tables.mixes[m]).record.shift)) (z.runs[m]).gain (z.tables.mixes[m]).record := by
      simp only [Engine.computeMixes, Fin.getElem_fin, Vector.getElem_ofFn, MixRun.instant]
    rw [this]
    exact gainHeld_le _ _ _ _ (hs.gains m)
  generalize z.computeMixes.1 = y at hc
  have mt : ∀ c : Coef, c.move.target = c.target := by intro c; unfold Coef.move; split <;> rfl
  have c2 : y.moveRamps.tables = y.tables := by simp only [Engine.moveRamps]
  have c3 : y.moveRamps.onAir = y.onAir := by simp only [Engine.moveRamps, Engine.onAir]
  have c4 : y.moveRamps.runs = y.runs := by simp only [Engine.moveRamps]
  refine ⟨fun m i => ?_, fun m i => ?_, by rw [c4]; exact hc.gains⟩
  · have : (y.moveRamps.coefs[m])[i] = ((y.coefs[m])[i]).move := by simp [Engine.moveRamps]
    rw [this]; unfold CoefPair.move; dsimp only; rw [mt, mt, c2, c3]; exact hc.targets m i
  · have : (y.moveRamps.coefs[m])[i] = ((y.coefs[m])[i]).move := by simp [Engine.moveRamps]
    rw [this]; unfold CoefPair.move; dsimp only
    have ht := hc.targets m i
    have hl := hc.live m i
    have hd := deriveTargets_le y.tables y.onAir m i
    exact ⟨Coef.move_le _ hl.1 (by rw [ht.1]; exact hd.1), Coef.move_le _ hl.2 (by rw [ht.2]; exact hd.2)⟩

theorem Engine.LevelsFollow.sendsWritten (e : Engine) (h : e.LevelsFollow) (m ws) :
    (effectWriteSends m ws e).engine.LevelsFollow := by
  unfold effectWriteSends
  refine Engine.LevelsFollow.recompute h _ rfl (fun _ => rfl) fun m' i hr => ?_
  obtain ⟨w1, w2, w3⟩ := Tables.writeSends_mix m (e.broadcastTo m) m' ws e.tables
  have hrest := Tables.writeSends_rest m (e.broadcastTo m) ws e.tables
  dsimp only
  generalize e.tables.writeSends m (e.broadcastTo m) ws = t at *
  have hi : t.inputs = e.tables.inputs := by rw [hrest]
  have ht : t.talkSource = e.tables.talkSource := by rw [hrest]
  have hs : ((t.mixes[m']).sends[i]) = ((e.tables.mixes[m']).sends[i]) := by
    simp only [reachSends, Bool.and_eq_false_iff, Bool.or_eq_false_iff, decide_eq_false_iff_not] at hr
    rcases hr with hr | hr
    · rw [w2 hr.1 hr.2]
    · exact (w3 i).1 fun w hw hi => by
        rw [List.any_eq_false] at hr
        exact hr w hw (by simpa using hi)
  refine deriveTargets_congr (by rw [hi]) (by rw [hi]) (by rw [hi]) hs ?_ ?_ ?_ ?_ (talking_same ht) (fun _ => ht) <;> rw [w1]
  rfl

theorem Engine.LevelsFollow.request (n p q x) (e : Engine) (h : e.LevelsFollow) :
    (answerRequest n p q e x).engine.LevelsFollow := by
  cases n <;> simp only [answerRequest]
  case identify | portStatus | resetEngine | setNoticeMask | readNoticeMask | readReasons | readStates | readInputs | readLatches | readLinkStatus | readResult | readPackTable => exact h
  case passCharge | reclaimCharge =>
    all_goals
    unfold Effect.answer; simp only [effectPassCharge, effectReclaimCharge, effectMoveCharge, Engine.moveCharge]
    split
    · exact h
    · exact Engine.LevelsFollow.same h rfl rfl rfl rfl rfl
  case wait =>
    unfold answerWait; dsimp only; split
    · exact h
    · split <;> exact h
  case cancelWait => unfold answerCancelWait; split <;> exact h
  case setSend =>
    unfold Effect.answer effectSetSend; dsimp only; split
    · split
      · exact h
      · exact Engine.LevelsFollow.sendsWritten e h _ _
    · exact h
  case setSendRow =>
    unfold Effect.answer effectSetSendRow; dsimp only; split
    · split
      · exact h
      · exact Engine.LevelsFollow.sendsWritten e h _ _
    · exact h
  case readSendRow => unfold Effect.answer effectReadSendRow; dsimp only; split <;> exact h
  case readMix => unfold Effect.answer effectReadMix; dsimp only; split <;> exact h
  case readGroup => unfold Effect.answer effectReadGroup; dsimp only; split <;> exact h
  case readEffective => unfold Effect.answer effectReadEffective; dsimp only; split <;> exact h
  case readDirectory => unfold Effect.answer effectReadDirectory; dsimp only; split <;> exact h
  case setMix =>
    unfold Effect.answer effectSetMix; dsimp only; split
    · split
      · exact h
      · rename_i m ls _ _ _
        refine Engine.LevelsFollow.recompute h _ rfl (fun _ => rfl) fun m' i hr => ?_
        have hm : (e.modifyMix m fun x => x.mapRecord (mixRecordOf q ls)).tables.mixes[m'] = if m' = m then (e.tables.mixes[m]).mapRecord (mixRecordOf q ls) else e.tables.mixes[m'] := Tables.modifyMix_mix
        by_cases hne : m' = m
        · subst hne
          rw [if_pos rfl] at hm
          simp [mixReachesTargets] at hr
          refine deriveTargets_congr rfl rfl rfl ?_ ?_ ?_ ?_ ?_ (talking_same rfl) (fun _ => rfl) <;> rw [hm]
          · rfl
          · simp [MixTable.mapRecord, mixRecordOf, hr]
          · simp [MixTable.mapRecord, mixRecordOf, hr]
          · simp [MixTable.mapRecord, mixRecordOf, hr]
          · rfl
        · rw [if_neg hne] at hm
          exact deriveTargets_same rfl hm (talking_same rfl) (fun _ => rfl)
    · exact h
  case setLinkSet =>
    unfold Effect.answer effectSetLinkSet; dsimp only; split
    · split
      · exact h
      · rename_i m ls _ _ _
        have : ∀ m' i, deriveTargets (e.modifyMix m fun x => x.mapRecord fun r => { r with linkSet := ls }).tables e.onAir m' i = deriveTargets e.tables e.onAir m' i := by
          intro m' i
          have hm : (e.modifyMix m fun x => x.mapRecord fun r => { r with linkSet := ls }).tables.mixes[m'] = if m' = m then (e.tables.mixes[m]).mapRecord fun r => { r with linkSet := ls } else e.tables.mixes[m'] := Tables.modifyMix_mix
          by_cases hne : m' = m
          · subst hne
            rw [if_pos rfl] at hm
            refine deriveTargets_congr rfl rfl rfl ?_ ?_ ?_ ?_ ?_ (talking_same rfl) (fun _ => rfl) <;> rw [hm] <;> rfl
          · rw [if_neg hne] at hm
            exact deriveTargets_same rfl hm (talking_same rfl) (fun _ => rfl)
        exact ⟨fun m' i => by rw [show (Effect.accept (e.modifyMix m fun x => x.mapRecord fun r => { r with linkSet := ls }) false).engine = (e.modifyMix m fun x => x.mapRecord fun r => { r with linkSet := ls }) from rfl, show (e.modifyMix m fun x => x.mapRecord fun r => { r with linkSet := ls }).onAir = e.onAir from rfl, this]; exact h.targets m' i, h.live, h.gains⟩
    · exact h
  case setGroup =>
    unfold Effect.answer effectSetGroup; dsimp only; split
    · split
      · exact h
      · split
        · exact h
        · rename_i m g l _ _ _ _ _
          refine Engine.LevelsFollow.recompute h _ rfl (fun _ => rfl) fun m' i hr => ?_
          refine deriveTargets_putGroup e m g _ m' i (fun hm => ?_) _
          simp [reachInputsOf, hm] at hr
          refine ⟨hr.1, ?_⟩
          rw [collapse_eq]; simpa using hr.2
    · exact h
  case setInput =>
    unfold Effect.answer effectSetInput; dsimp only; split
    · split
      · exact h
      · rename_i k ptch _ _ _
        refine Engine.LevelsFollow.recompute h _ rfl (fun _ => rfl) fun m' i hr => ?_
        by_cases hne : i = k
        · subst hne
          simp [inputReachesTargets] at hr
          have hi : (e.tables.inputs.set i (inputRecOf q ptch e.tables.inputs[i]))[i] = inputRecOf q ptch e.tables.inputs[i] := by simp
          refine deriveTargets_congr ?_ ?_ ?_ rfl rfl rfl rfl rfl (talking_same rfl) (fun _ => rfl) <;> dsimp only <;> rw [hi]
          · exact hr.1.2.symm
          · exact hr.2.symm
          · exact hr.1.1.symm
        · have : ¬ k.val = i.val := fun h' => hne (Fin.ext h'.symm)
          exact deriveTargets_same (by simp [Vector.getElem_set, this]) rfl (talking_same rfl) (fun _ => rfl)
    · exact h
  case setTalkSource =>
    unfold Effect.answer effectSetTalkSource; dsimp only; split
    · split
      · exact h
      · rename_i src _ _
        refine Engine.LevelsFollow.recompute h _ rfl (fun _ => rfl) fun m' i hr => ?_
        simp only [reachTalking, Bool.or_eq_false_iff, bne_eq_false_iff_eq, Bool.true_and] at hr
        refine deriveTargets_same rfl rfl hr.1.symm fun ht => ?_
        rw [hr.1, hr.2] at ht; cases ht
    · exact h
  case talk =>
    unfold Effect.answer effectTalk; dsimp only
    exact Engine.LevelsFollow.talkSet p _ e h
  case readMeters =>
    unfold Effect.answer effectReadMeters; dsimp only; split
    · exact Engine.LevelsFollow.clearMeters e h
    · exact h
  case clearLatches =>
    unfold Effect.answer effectClearLatches Effect.accept; dsimp only
    refine Engine.LevelsFollow.congr h (by simp only) (by simp only) (by simp only [Engine.onAir]) fun m => ?_
    simp only [Fin.getElem_fin, Vector.getElem_ofFn]
    split <;> rfl
  case setSourceMode =>
    unfold Effect.answer effectSetSourceMode; dsimp only; split
    · exact h
    · simp only [Engine.applyMode, Engine.setActive]
      split
      · split <;> exact Engine.LevelsFollow.same h rfl rfl rfl rfl rfl
      · exact Engine.LevelsFollow.same h rfl rfl rfl rfl rfl
  case storeScene =>
    unfold Effect.answer effectStoreScene; dsimp only; split
    · exact h
    · split
      · exact h
      · split
        · exact h
        · exact Engine.LevelsFollow.same h rfl rfl rfl rfl rfl
  case eraseScene =>
    unfold Effect.answer effectEraseScene; dsimp only; split
    · exact h
    · split
      · exact h
      · split
        · exact h
        · exact Engine.LevelsFollow.same h rfl rfl rfl rfl rfl
  case recallScene =>
    unfold Effect.answer effectRecallScene; dsimp only; split
    · exact h
    · split
      · exact h
      · split
        · exact h
        · exact h
        · exact Engine.LevelsFollow.same h rfl rfl rfl rfl rfl
  case abortRecall =>
    unfold Effect.answer effectAbortRecall; dsimp only; split
    · split
      · exact Engine.LevelsFollow.endOperation e h _
      · exact Engine.LevelsFollow.same h rfl rfl rfl rfl rfl
    · exact h
  case protectScene =>
    unfold Effect.answer effectProtectScene; dsimp only; split
    · exact h
    · exact Engine.LevelsFollow.same h rfl rfl rfl rfl rfl
  case setStartScene =>
    unfold Effect.answer effectSetStartScene; dsimp only; split
    · exact Engine.LevelsFollow.same h rfl rfl rfl rfl rfl
    · exact h
  case assignPack =>
    unfold Effect.answer effectAssignPack; dsimp only; split
    · exact Engine.LevelsFollow.same h rfl rfl rfl rfl rfl
    · exact h
  case releasePack =>
    unfold Effect.answer effectReleasePack; dsimp only; split
    · unfold Engine.releaseSlot; dsimp only
      split <;> exact Engine.LevelsFollow.same h rfl rfl rfl rfl rfl
    · exact h
  case readCalls => exact Engine.LevelsFollow.same h rfl rfl rfl rfl rfl

end Sys2Proof.Machine
end

