-- ==== Sys2Proof/Laws/Frames.lean ====
section
/-! SUPPORT. Numbers and samples as bytes, the bytes of a good stage frame (R1, 11.6), those of the frames that the
engine sends (11.2), and those of a pack bus frame (11.7). -/
namespace Sys2Proof.Machine

theorem byteOf_toNat (n : Nat) : (byteOf n).toNat = n % 256 := by simp [byteOf]

theorem byteOf_self (b : Byte) : byteOf b.toNat = b := by simp [byteOf]

theorem numberOf_one (a : Byte) : numberOf [a] = a.toNat := by simp [numberOf]

theorem numberOf_two (a b : Byte) : numberOf [a, b] = a.toNat * 256 + b.toNat := by simp [numberOf]

theorem numberOf_three (a b c : Byte) : numberOf [a, b, c] = (a.toNat * 256 + b.toNat) * 256 + c.toNat := by
  simp [numberOf]

theorem numberOf_bytes16 {n : Nat} (h : n < 65536) : numberOf (bytes16 n) = n := by
  rw [bytes16, numberOf_two, byteOf_toNat, byteOf_toNat]; omega

theorem numberOf_bytes24 {n : Nat} (h : n < 16777216) : numberOf (bytes24 n) = n := by
  rw [bytes24, numberOf_three, byteOf_toNat, byteOf_toNat, byteOf_toNat]; omega

theorem bytes16_numberOf (a b : Byte) : bytes16 (numberOf [a, b]) = [a, b] := by
  have ha := a.isLt
  have hb := b.isLt
  rw [numberOf_two, bytes16]
  have h1 : (a.toNat * 256 + b.toNat) / 256 = a.toNat := by omega
  have h2 : byteOf (a.toNat * 256 + b.toNat) = b := by
    apply BitVec.eq_of_toNat_eq; rw [byteOf_toNat]; omega
  rw [h1, h2, byteOf_self]

theorem bytes24_numberOf (a b c : Byte) : bytes24 (numberOf [a, b, c]) = [a, b, c] := by
  have ha := a.isLt
  have hb := b.isLt
  have hc := c.isLt
  rw [numberOf_three, bytes24]
  have h1 : ((a.toNat * 256 + b.toNat) * 256 + c.toNat) / 65536 = a.toNat := by omega
  have h2 : byteOf (((a.toNat * 256 + b.toNat) * 256 + c.toNat) / 256) = b := by
    apply BitVec.eq_of_toNat_eq; rw [byteOf_toNat]; omega
  have h3 : byteOf ((a.toNat * 256 + b.toNat) * 256 + c.toNat) = c := by
    apply BitVec.eq_of_toNat_eq; rw [byteOf_toNat]; omega
  rw [h1, h2, h3, byteOf_self]

@[simp] theorem bytes16_length (n : Nat) : (bytes16 n).length = 2 := rfl

@[simp] theorem bytes24_length (n : Nat) : (bytes24 n).length = 3 := rfl

@[simp] theorem sampleBytes_length (x : Int) : (sampleBytes x).length = 3 := rfl

theorem sampleBytes_all_length (l : List Int) : (l.flatMap sampleBytes).length = 3 * l.length := by
  induction l with
  | nil => rfl
  | cons x l ih => simp only [List.flatMap_cons, List.length_append, ih, sampleBytes_length, List.length_cons]; omega

/-- A sample of 24 bits is carried by its three bytes. -/
theorem samplesOf_sampleBytes (l : List Int) (h : ∀ x ∈ l, -8388608 ≤ x ∧ x ≤ 8388607) :
    samplesOf (l.flatMap sampleBytes) = l := by
  induction l with
  | nil => rfl
  | cons x l ih =>
    have hx := h x (List.mem_cons_self ..)
    have hn : (BitVec.ofInt 24 x).toNat < 16777216 := (BitVec.ofInt 24 x).isLt
    have hb := numberOf_bytes24 hn
    rw [List.flatMap_cons, sampleBytes]
    unfold bytes24 at hb ⊢
    simp only [List.cons_append, List.nil_append, samplesOf]
    rw [ih (fun y hy => h y (List.mem_cons_of_mem _ hy)), hb]
    congr 1
    rw [BitVec.ofNat_toNat, BitVec.setWidth_eq, BitVec.toInt_ofInt]
    rw [Int.bmod_eq_of_le] <;> omega

theorem samplesOf_range (l : List Byte) : ∀ x ∈ samplesOf l, -8388608 ≤ x ∧ x ≤ 8388607 := by
  fun_induction samplesOf l with
  | case1 a b c rest ih =>
    intro x hx
    rcases List.mem_cons.1 hx with rfl | hx
    · have h1 := BitVec.toInt_lt (x := BitVec.ofNat 24 (numberOf [a, b, c]))
      have h2 := BitVec.le_toInt (x := BitVec.ofNat 24 (numberOf [a, b, c]))
      omega
    · exact ih x hx
  | case2 l h => simp

/-- Whole samples are spelt back. -/
theorem sampleBytes_samplesOf (n : Nat) (l : List Byte) (h : l.length = 3 * n) :
    (samplesOf l).flatMap sampleBytes = l ∧ (samplesOf l).length = n := by
  induction n generalizing l with
  | zero => cases l with
    | nil => exact ⟨rfl, rfl⟩
    | cons a l => simp at h
  | succ n ih =>
    match l, h with
    | a :: b :: c :: rest, h =>
      have hr := ih rest (by simp at h; omega)
      have e : sampleBytes ((BitVec.ofNat 24 (numberOf [a, b, c])).toInt) = [a, b, c] := by
        have hlt : numberOf [a, b, c] < 16777216 := by
          have := a.isLt; have := b.isLt; have := c.isLt; rw [numberOf_three]; omega
        unfold sampleBytes
        rw [BitVec.ofInt_toInt, BitVec.toNat_ofNat, Nat.mod_eq_of_lt (by omega), bytes24_numberOf]
      simp only [samplesOf, List.flatMap_cons, e, hr.1, List.length_cons, hr.2]
      simp
    | [], h => simp at h
    | [_], h => simp at h; omega
    | [_, _], h => simp at h; omega

theorem StageFrame.checked_length (f : StageFrame) : f.checked.length = 3 * f.samples.length + 3 := by
  simp only [StageFrame.checked, List.length_append, bytes16_length, sampleBytes_all_length, List.length_cons,
    List.length_nil]
  omega

/-- R1: the bytes of a frame of 1 to 64 samples are those of a good frame. -/
theorem goodFrame_bytes (f : StageFrame) (h : f.carriable) : goodFrame f.bytes = some f := by
  obtain ⟨h1, h2, h3⟩ := h
  have hl := f.checked_length
  have take : f.bytes.take (3 * f.samples.length + 3) = f.checked := by
    unfold StageFrame.bytes; rw [← hl]; simp
  have drop : f.bytes.drop (3 * f.samples.length + 3) = bytes16 (crc16 f.checked).toNat := by
    unfold StageFrame.bytes; rw [← hl]; simp
  have count : numberOf ((f.bytes.drop 2).take 1) = f.samples.length := by
    unfold StageFrame.bytes StageFrame.checked bytes16
    simp only [List.cons_append, List.nil_append, List.drop_succ_cons, List.drop_zero, List.take_succ_cons,
      List.take_zero]
    rw [numberOf_one, byteOf_toNat]; omega
  have number : f.bytes.take 2 = bytes16 f.number.toNat := by
    unfold StageFrame.bytes StageFrame.checked bytes16; simp
  have samples : (f.bytes.drop 3).take (3 * f.samples.length) = f.samples.flatMap sampleBytes := by
    unfold StageFrame.bytes StageFrame.checked
    simp only [bytes16, List.cons_append, List.nil_append, List.drop_succ_cons, List.drop_zero]
    rw [← sampleBytes_all_length f.samples]
    simp
  have len : f.bytes.length = 3 * f.samples.length + 5 := by
    unfold StageFrame.bytes; rw [List.length_append, hl]; rfl
  unfold goodFrame
  simp only [count, take, drop, number, samples]
  rw [numberOf_bytes16 (by have := (crc16 f.checked).isLt; omega), numberOf_bytes16 (by have := f.number.isLt; omega),
    samplesOf_sampleBytes _ h3]
  rw [if_pos ⟨h1, h2, len, rfl⟩]
  simp

/-- R1: only such bytes are those of a good frame. -/
theorem goodFrame_some {bytes : List Byte} {f : StageFrame} (h : goodFrame bytes = some f) :
    f.carriable ∧ bytes = f.bytes := by
  unfold goodFrame at h
  dsimp only at h
  split at h
  · rename_i hc
    generalize hn : numberOf ((bytes.drop 2).take 1) = n at h hc
    obtain ⟨h1, h2, h3, h4⟩ := hc
    match bytes, h3 with
    | a :: b :: c :: rest, h3 =>
      have hcn : c.toNat = n := by simpa [numberOf_one] using hn
      simp only [List.drop_succ_cons, List.drop_zero, List.take_succ_cons, List.take_zero, Option.some.injEq] at h h4
      have hrl : rest.length = 3 * n + 2 := by simp at h3; omega
      have hsl : (rest.take (3 * n)).length = 3 * n := by simp; omega
      obtain ⟨s1, s2⟩ := sampleBytes_samplesOf n _ hsl
      have hab : numberOf [a, b] < 65536 := by
        have := a.isLt; have := b.isLt; rw [numberOf_two]; omega
      have hd : (rest.drop (3 * n)).length = 2 := by simp; omega
      match hdd : rest.drop (3 * n), hd with
      | [x, y], _ =>
        have hck : f.checked = a :: b :: c :: rest.take (3 * n) := by
          rw [← h]
          simp only [StageFrame.checked, BitVec.toNat_ofNat]
          rw [Nat.mod_eq_of_lt (by omega), bytes16_numberOf, s1, s2, ← hcn, byteOf_self]
          rfl
        refine ⟨⟨by rw [← h]; simpa [s2] using h1, by rw [← h]; simpa [s2] using h2, by
          rw [← h]; exact samplesOf_range _⟩, ?_⟩
        unfold StageFrame.bytes
        rw [hck, h4, hdd, bytes16_numberOf, ← hdd]
        simp
    | [], h3 => simp at h3
    | [_], h3 => simp at h3
    | [_, _], h3 => simp at h3
  · cases h

theorem goodFrame_none {bytes : List Byte} (h : ∀ f : StageFrame, f.carriable → bytes ≠ f.bytes) :
    goodFrame bytes = none := by
  cases hg : goodFrame bytes with
  | none => rfl
  | some f => exact absurd (goodFrame_some hg).2 (h f (goodFrame_some hg).1)

/-! ### The frames that the engine sends (11.2) -/

/-- A two-byte field is two bytes that spell its number. -/
theorem bytes16_spelt {n : Nat} (h : n < 65536) :
    ∃ high low : Byte, bytes16 n = [high, low] ∧ high.toNat * 256 + low.toNat = n :=
  ⟨byteOf (n / 256), byteOf n, rfl, by rw [byteOf_toNat, byteOf_toNat]; omega⟩

/-- A control frame: start, type, body length, body and check. -/
theorem controlFrame_spelt (kind : Byte) (body : List Byte) (h : body.length < 65536) :
    ∃ high low check0 check1 : Byte, high.toNat * 256 + low.toNat = body.length ∧
      check0.toNat * 256 + check1.toNat = (crc16 ([kind, high, low] ++ body)).toNat ∧
      controlFrame kind body = [0xA5, kind, high, low] ++ body ++ [check0, check1] := by
  obtain ⟨high, low, e, n⟩ := bytes16_spelt h
  have f : framed kind body = [kind, high, low] ++ body := by rw [framed, e]; rfl
  obtain ⟨check0, check1, e', n'⟩ := bytes16_spelt (crc16 ([kind, high, low] ++ body)).isLt
  exact ⟨high, low, check0, check1, n, n', by rw [controlFrame, f, e']; rfl⟩

theorem Reply.flags_toNat (r : Reply) : r.flags.toNat = r.lost.toNat + 2 * r.garbled.toNat + 4 * r.clamped.toNat := by
  rw [Reply.flags]
  cases r.lost <;> cases r.garbled <;> cases r.clamped <;> rfl

/-- The check takes one byte more, a bit at a time. -/
theorem crc16_append (bytes : List Byte) (b : Byte) : crc16 (bytes ++ [b]) = crcByte (crc16 bytes) b := by
  rw [crc16, List.foldl_append]; rfl

/-! ### The pack bus frame (11.7) -/

/-- A sample is its three bytes, most significant first. -/
theorem sampleBytes_spelt (x : Int) : ∃ h m l : Byte, sampleBytes x = [h, m, l] ∧ h ++ m ++ l = BitVec.ofInt 24 x := by
  refine ⟨_, _, _, rfl, ?_⟩
  generalize BitVec.ofInt 24 x = v
  apply BitVec.eq_of_toNat_eq
  have hv := v.isLt
  have h (a b c : Byte) : (a ++ b ++ c).toNat = (a.toNat * 256 + b.toNat) * 256 + c.toNat := by
    rw [BitVec.toNat_append, BitVec.toNat_append, ← Nat.shiftLeft_add_eq_or_of_lt c.isLt,
      ← Nat.shiftLeft_add_eq_or_of_lt b.isLt, Nat.shiftLeft_eq, Nat.shiftLeft_eq]
  rw [h, byteOf_toNat, byteOf_toNat, byteOf_toNat]; omega

theorem AudioFrame.bytes_length (f : AudioFrame) : f.bytes.length = 192 := by
  rw [AudioFrame.bytes, List.length_flatMap]
  have (l : List (Int × Int)) : (l.map fun x => (sampleBytes x.1 ++ sampleBytes x.2).length).sum = 6 * l.length := by
    induction l with
    | nil => rfl
    | cons x l ih =>
      rw [List.map_cons, List.sum_cons, ih, List.length_append, sampleBytes_length, sampleBytes_length,
        List.length_cons]
      omega
  rw [this, Vector.length_toList]

/-- The six bytes of an address are those of its left and its right sample. -/
theorem AudioFrame.bytes_pair (f : AudioFrame) (a : Fin 32) :
    (f.bytes.drop (6 * a.val)).take 6 = sampleBytes f[a].1 ++ sampleBytes f[a].2 := by
  have key (l : List (Int × Int)) : ∀ (k : Nat) (h : k < l.length),
      ((l.flatMap fun x => sampleBytes x.1 ++ sampleBytes x.2).drop (6 * k)).take 6 =
        sampleBytes l[k].1 ++ sampleBytes l[k].2 := by
    induction l with
    | nil => intro k h; simp at h
    | cons x l ih =>
      intro k h
      cases k with
      | zero => rfl
      | succ k => exact ih k (by simpa using h)
  rw [AudioFrame.bytes, key f.toList a.val (by simp)]
  simp

end Sys2Proof.Machine
end

