-- ==== Sys2Proof/Laws/Lawful.lean ====
section
/-! SUPPORT. The ranges of the tables and the group law: each change of the blocks keeps them. -/
namespace Sys2Proof.Machine

theorem Engine.TablesLawful.same {e e' : Engine} (h : e.TablesLawful) (t : e'.tables = e.tables)
    (l : e'.library = e.library) : e'.TablesLawful :=
  ⟨by rw [t]; exact h.tables, by rw [l]; exact h.scenes, by rw [l]; exact h.staging⟩

theorem Engine.TablesLawful.withTables {e e' : Engine} (h : e.TablesLawful) (t : e'.tables.Lawful)
    (l : e'.library = e.library) : e'.TablesLawful :=
  ⟨t, by rw [l]; exact h.scenes, by rw [l]; exact h.staging⟩

theorem Engine.TablesLawful.withOperation {e e' : Engine} (h : e.TablesLawful) (t : e'.tables = e.tables)
    (l : e'.library.slots = e.library.slots) (o : ∀ k n c, e'.library.operation ≠ .store k n c) : e'.TablesLawful :=
  ⟨by rw [t]; exact h.tables, by rw [l]; exact h.scenes, fun k n c hh => absurd hh (o k n c)⟩

theorem Engine.TablesLawful.recomputed {e : Engine} (h : e.TablesLawful) (f) :
    (e.recompute f).TablesLawful := Engine.TablesLawful.same h (by simp) (by simp)

theorem Tables.Lawful.modifyMix {t : Tables} (h : t.Lawful) (m : Fin 24) (f : MixTable → MixTable) (hf :
    (f t.mixes[m]).Lawful) : (t.modifyMix m f).Lawful := by
  refine ⟨h.inputs, fun m' => ?_⟩
  unfold Tables.modifyMix
  by_cases e : m' = m
  · subst e; simpa using hf
  · have : ¬ m.val = m'.val := fun h' => e (Fin.ext h'.symm)
    have hh := h.mixes m'
    simpa [Vector.getElem_set, this] using hh

theorem Engine.TablesLawful.modifyMix {e : Engine} (h : e.TablesLawful) (m f) (hf : (f e.tables.mixes[m]).Lawful) :
    (e.modifyMix m f).TablesLawful := Engine.TablesLawful.withTables h (Tables.Lawful.modifyMix h.tables m f hf) rfl

theorem clampInt_range (lo hi x : Int) (h : lo ≤ hi) : lo ≤ clampInt lo hi x ∧ clampInt lo hi x ≤ hi := by
  unfold clampInt; split
  · omega
  · split <;> omega

theorem clampNat_range (lo hi x : Nat) (h : lo ≤ hi) : lo ≤ clampNat lo hi x ∧ clampNat lo hi x ≤ hi := by
  unfold clampNat; split
  · omega
  · split <;> omega

theorem Engine.TablesLawful.endOperation (e : Engine) (h : e.TablesLawful) (o) :
    (e.endOperation o).1.TablesLawful := Engine.TablesLawful.withOperation h rfl rfl (fun _ _ _ h => by cases h)

theorem Engine.TablesLawful.afterItem (e : Engine) (h : e.TablesLawful) (a i b) :
    (Engine.afterItem a i b e).1.TablesLawful := by
  unfold Engine.afterItem; split
  · exact Engine.TablesLawful.endOperation _ h _
  · split
    · exact Engine.TablesLawful.endOperation _ h _
    · exact h

theorem MixTable.Lawful.load (x y : MixTable) (c : ClassSet) (hx : x.Lawful) (hy : y.Lawful) :
    (x.load c y).Lawful := by
  unfold MixTable.load
  refine ⟨?_, ?_, ?_, ?_, ?_, ?_, ?_, ?_, ?_⟩ <;> dsimp only
  · split; exact hy.master; exact hx.master
  · split; exact hy.shift; exact hx.shift
  · split; exact hy.ceiling; exact hx.ceiling
  · split; exact hy.release; exact hx.release
  · split; exact hy.dim; exact hx.dim
  · split; exact hy.sends; exact hx.sends
  · split; exact hy.trims; exact hx.trims
  · split; exact hy.once; exact hx.once
  · split; exact hy.apart; exact hx.apart

theorem SlotImage.eq_written {i : SlotImage} {s : Tables} (h : i.scene = some s) : ∃ n, i = .written n s := by
  cases i with
  | written n c => cases h; exact ⟨n, rfl⟩
  | erased => cases h
  | broken n => cases h

theorem Engine.TablesLawful.writeMix (e : Engine) (h : e.TablesLawful) (j m) : (e.writeMix j m).TablesLawful := by
  unfold Engine.writeMix
  split
  · rename_i sc hs
    obtain ⟨n, hn⟩ := SlotImage.eq_written hs
    exact Engine.TablesLawful.modifyMix h m _ (MixTable.Lawful.load _ _ _ (h.tables.mixes m) ((h.scenes _ _ _ hn).mixes m))
  · exact h

theorem Engine.TablesLawful.loadMix (e : Engine) (h : e.TablesLawful) (j a i b m) :
    (e.loadMix j a i b m).1.TablesLawful := by
  unfold Engine.loadMix
  have hw := Engine.TablesLawful.recomputed (Engine.TablesLawful.writeMix e h j m) (reachMix m)
  generalize (e.writeMix j m).recompute (reachMix m) = z at hw
  exact Engine.TablesLawful.afterItem _ (Engine.TablesLawful.withOperation (e' := z.markLoaded j (MixSet.without a m) i b) hw rfl rfl (fun _ _ _ h => by cases h)) _ _ _

theorem Engine.TablesLawful.loadInputs (e : Engine) (h : e.TablesLawful) (j b) :
    (e.loadInputs j b).1.TablesLawful := by
  unfold Engine.loadInputs
  refine Engine.TablesLawful.endOperation _ (Engine.TablesLawful.recomputed ?_ _) _
  unfold Engine.writeInputs; split
  · rename_i sc hs
    obtain ⟨n, hn⟩ := SlotImage.eq_written hs
    exact Engine.TablesLawful.withTables h ⟨(h.scenes _ _ _ hn).inputs, h.tables.mixes⟩ rfl
  · exact h

theorem MixTable.Lawful.mapRecord (x : MixTable) (h : x.Lawful) (f : MixRec → MixRec) (a : -120 ≤
    (f x.record).master ∧ (f x.record).master ≤ 20) (b : -1 ≤ (f x.record).shift ∧ (f x.record).shift ≤ 2) (c : 1 ≤
    (f x.record).ceiling ∧ (f x.record).ceiling ≤ 8388607) (d : 1 ≤ (f x.record).release ∧ (f x.record).release ≤
    256) (e : -80 ≤ (f x.record).dim ∧ (f x.record).dim ≤ 0) : (x.mapRecord f).Lawful :=
  ⟨a, b, c, d, e, h.sends, h.trims, h.once, h.apart⟩

theorem MixTable.Lawful.putGroup (x : MixTable) (h : x.Lawful) (g : Fin 8) (y : Group)
    (ht : -80 ≤ y.trim ∧ y.trim ≤ 20) (hn : y.members.Nodup) (hd : ∀ g' : Fin 8, g' ≠ g → ∀ i ∈ y.members, i ∉
    (x.groups[g']).members) : (x.putGroup g y).Lawful := by
  have get : ∀ g' : Fin 8, (x.putGroup g y).groups[g'] = if g' = g then y else x.groups[g'] := by
    intro g'
    by_cases e : g' = g
    · subst e; simp [MixTable.putGroup]
    · have : ¬ g.val = g'.val := fun h' => e (Fin.ext h'.symm)
      simp [MixTable.putGroup, Vector.getElem_set, this, e]
  refine ⟨h.master, h.shift, h.ceiling, h.release, h.dim, h.sends, fun g' => ?_, fun g' => ?_, fun g1 g2 i h1 h2 => ?_⟩
  · rw [get]; split; exact ht; exact h.trims g'
  · rw [get]; split; exact hn; exact h.once g'
  · rw [get] at h1 h2
    split at h1 <;> split at h2
    · rw [‹g1 = g›, ‹g2 = g›]
    · exact absurd h2 (hd g2 ‹_› i h1)
    · exact absurd h1 (hd g1 ‹_› i h2)
    · exact h.apart g1 g2 i h1 h2

theorem Engine.TablesLawful.stepMaster (e : Engine) (h : e.TablesLawful) (m k) :
    (e.stepMaster m k).1.TablesLawful := by
  unfold Engine.stepMaster
  dsimp only
  split
  · exact h
  · have hm := h.tables.mixes m
    exact Engine.TablesLawful.recomputed (Engine.TablesLawful.modifyMix h m _ (MixTable.Lawful.mapRecord _ hm _ (clampInt_range _ _ _ (by omega)) hm.shift hm.ceiling hm.release hm.dim)) _

theorem Engine.TablesLawful.stepGroup (e : Engine) (h : e.TablesLawful) (m g k) :
    (e.stepGroup m g k).1.TablesLawful := by
  unfold Engine.stepGroup
  dsimp only
  split
  · exact h
  · have hm := h.tables.mixes m
    exact Engine.TablesLawful.recomputed (Engine.TablesLawful.modifyMix h m _ (MixTable.Lawful.putGroup _ hm g { (e.tables.mixes[m]).groups[g] with trim := clampInt (-80) 20 (((e.tables.mixes[m]).groups[g]).trim + k.delta) } (clampInt_range _ _ _ (by omega)) (hm.once g) (fun g' hne i hi hi' => hne (hm.apart g' g i hi' hi)))) _

theorem Engine.TablesLawful.step (e : Engine) (h : e.TablesLawful) (a k) : (e.step a k).1.TablesLawful := by
  unfold Engine.step; dsimp only
  split
  · exact h
  · split
    · exact h
    · split
      · exact Engine.TablesLawful.stepMaster e h _ _
      · exact Engine.TablesLawful.stepGroup e h _ _ _

theorem Engine.TablesLawful.modifyPack (e : Engine) (h : e.TablesLawful) (a f) :
    (e.modifyPack a f).TablesLawful := Engine.TablesLawful.same h rfl rfl

theorem Engine.TablesLawful.setHeld (e : Engine) (h : e.TablesLawful) (a k) :
    (e.setHeld a k).TablesLawful := Engine.TablesLawful.modifyPack e h _ _

theorem Engine.TablesLawful.applyEvent (f : Engine → Act) (hf : ∀ e : Engine, e.TablesLawful → (f e).1.TablesLawful)
    (a c) (e : Engine) (h : e.TablesLawful) : (e.applyEvent a c f).1.TablesLawful := by
  unfold Engine.applyEvent
  split
  · split
    · dsimp only
      split
      · exact hf _ (Engine.TablesLawful.same h rfl rfl)
      · exact Engine.TablesLawful.same h rfl rfl
    · exact h
  · exact h

theorem Engine.TablesLawful.modifySlot (e : Engine) (h : e.TablesLawful) (k f) (hf : ∀ n c,
    (f e.library.slots[k]).image = .written n c → c.Lawful) : (e.modifySlot k f).TablesLawful := by
  refine ⟨h.tables, fun k' n c hi => ?_, h.staging⟩
  by_cases hk : k' = k
  · subst hk
    exact hf n c (by simpa [Engine.modifySlot, Library.modifySlot] using hi)
  · have : ¬ k.val = k'.val := fun h' => hk (Fin.ext h'.symm)
    exact h.scenes k' n c (by simpa [Engine.modifySlot, Library.modifySlot, Vector.getElem_set, this] using hi)

theorem Engine.TablesLawful.beginLoad (j) (e : Engine) (h : e.TablesLawful) : (e.beginLoad j).1.TablesLawful :=
  Engine.TablesLawful.afterItem _ (Engine.TablesLawful.withOperation (e' := { e with library := { e.library with operation := .recall { j with phase := .load j.mixes j.classes.inputs false } } }) h rfl rfl (fun _ _ _ h => by cases h)) _ _ _

theorem Engine.TablesLawful.applyWindow (e : Engine) (h : e.TablesLawful) (a w) :
    (e.applyWindow a w).1.TablesLawful := by
  have q : ∀ (e : Engine) (_ : e.TablesLawful) x, (e.queueMessage x a).TablesLawful := fun e h x => Engine.TablesLawful.same h rfl rfl
  unfold Engine.applyWindow; split
  · exact h
  · exact Engine.TablesLawful.modifyPack e h _ _
  · split
    · split
      · exact q _ (Engine.TablesLawful.modifyPack e h _ _) _
      · exact q _ h _
    · rename_i id _
      have f : (e.forgetElsewhere id a).TablesLawful := Engine.TablesLawful.same h (by simp only [Engine.forgetElsewhere]) (by simp only [Engine.forgetElsewhere])
      unfold Engine.acceptPack
      generalize e.forgetElsewhere id a = z at f
      exact q _ (Engine.TablesLawful.modifyPack _ f _ _) _

theorem Engine.TablesLawful.endRecallAtReset (e : Engine) (h : e.TablesLawful) : e.endRecallAtReset.TablesLawful := by
  unfold Engine.endRecallAtReset
  split
  · split
    · exact Engine.TablesLawful.endOperation _ h _
    · split
      · exact Engine.TablesLawful.loadMix _ h _ _ _ _ _
      · split
        · exact Engine.TablesLawful.loadInputs _ h _ _
        · exact Engine.TablesLawful.endOperation _ h _
  · exact h

theorem Engine.TablesLawful.frameInstant (turn) (e : Engine) (h : e.TablesLawful) :
    (e.frameInstant turn).1.TablesLawful := by
  obtain ⟨atTest, aLocked, events, h1, h2, h3, h4⟩ := Engine.selectFrame_eq turn e
  unfold Engine.frameInstant
  simp only [Act.andThen]
  have hs : (e.selectFrame turn).1.TablesLawful := by rw [h4]; exact Engine.TablesLawful.same h rfl rfl
  generalize (e.selectFrame turn).1 = z at hs
  exact Engine.TablesLawful.same hs (by simp only [Engine.moveRamps, Engine.computeMixes]) (by simp only [Engine.moveRamps, Engine.computeMixes])

theorem Engine.TablesLawful.degrade (e : Engine) (h : e.TablesLawful) (d) (k : Fin 32) : ∀ n c,
    ((e.library.slots[k]).degrade d).image = .written n c → c.Lawful := by
  intro n c hi
  cases d with
  | none => exact h.scenes k n c hi
  | some x => cases hi

theorem Tables.Lawful.setInput (t : Tables) (h : t.Lawful) (k : Fin 64) (y : InputRec)
    (hy : -24 ≤ y.trim ∧ y.trim ≤ 24) : Tables.Lawful { t with inputs := t.inputs.set k y } := by
  refine ⟨fun i => ?_, h.mixes⟩
  by_cases hk : i = k
  · subst hk; simpa using hy
  · have : ¬ k.val = i.val := fun h' => hk (Fin.ext h'.symm)
    have hh := h.inputs i
    simpa [Vector.getElem_set, this] using hh

theorem MixTable.Lawful.setSend (x : MixTable) (h : x.Lawful) (i : Fin 64) (y : SendRec)
    (hy : y.level ≤ 232 ∧ -32 ≤ y.pan ∧ y.pan ≤ 32) : MixTable.Lawful { x with sends := x.sends.set i y } := by
  refine ⟨h.master, h.shift, h.ceiling, h.release, h.dim, fun j => ?_, h.trims, h.once, h.apart⟩
  by_cases hk : j = i
  · subst hk; simpa using hy
  · have : ¬ i.val = j.val := fun h' => hk (Fin.ext h'.symm)
    have hh := h.sends j
    simpa [Vector.getElem_set, this] using hh

/-- R28: a send to be written is in its ranges. -/
def SendWrite.InRange (w : SendWrite) : Prop := w.send.level ≤ 232 ∧ -32 ≤ w.send.pan ∧ w.send.pan ≤ 32

theorem Tables.Lawful.sendsWritten (m others ws) (hw : ∀ w ∈ ws, SendWrite.InRange w) (t : Tables) (h : t.Lawful) :
    (t.writeSends m others ws).Lawful := by
  unfold Tables.writeSends
  induction ws generalizing t with
  | nil => exact h
  | cons w l ih =>
    rw [List.foldl_cons]
    refine ih (fun w' h' => hw w' (List.mem_cons_of_mem _ h')) _ ?_
    have ok := hw w (List.mem_cons_self ..)
    refine ⟨by simpa only [Tables.writeSend] using h.inputs, fun m' => ?_⟩
    rw [Tables.writeSend_mix]
    have hm := h.mixes m'
    split
    · unfold MixTable.putSend
      exact MixTable.Lawful.setSend _ hm w.input w.send ok
    · split
      · unfold MixTable.putShared
        exact MixTable.Lawful.setSend _ hm w.input { w.send with pan := ((t.mixes[m']).sends[w.input]).pan } ⟨ok.1, (hm.sends w.input).2⟩
      · exact hm

theorem sendWrite_inRange {a b c d : Byte} {w} (h : sendWrite a b c d = some w) : SendWrite.InRange w := by
  unfold sendWrite at h
  rw [Option.map_eq_some_iff] at h
  obtain ⟨i, _, rfl⟩ := h
  exact ⟨(clampNat_range 0 232 _ (by omega)).2, clampInt_range (-32) 32 _ (by omega)⟩

theorem sendWrites_inRange {l ws} (h : sendWrites l = some ws) : ∀ w ∈ ws, SendWrite.InRange w := by
  induction l generalizing ws with
  | nil => cases h; intro w hw; cases hw
  | cons r l ih =>
    unfold sendWrites at h
    split at h
    · rename_i w ws' h1 h2
      cases h
      intro w' hw'
      rcases List.mem_cons.1 hw' with rfl | hw'
      · exact sendWrite_inRange h1
      · exact ih h2 w' hw'
    · cases h

theorem MixTable.Lawful.patched (q ls) (x : MixTable) (h : x.Lawful) : (x.mapRecord (mixRecordOf q ls)).Lawful := by
  refine MixTable.Lawful.mapRecord x h _ ?_ ?_ ?_ ?_ ?_ <;> unfold mixRecordOf <;> dsimp only <;> split
  · exact clampInt_range _ _ _ (by omega)
  · exact h.master
  · exact clampInt_range _ _ _ (by omega)
  · exact h.shift
  · exact clampNat_range _ _ _ (by omega)
  · exact h.ceiling
  · exact clampNat_range _ _ _ (by omega)
  · exact h.release
  · exact clampInt_range _ _ _ (by omega)
  · exact h.dim

theorem Engine.TablesLawful.sendsWritten (e : Engine) (h : e.TablesLawful) (m ws)
    (hw : ∀ w ∈ ws, SendWrite.InRange w) : (effectWriteSends m ws e).engine.TablesLawful := by
  unfold effectWriteSends
  exact Engine.TablesLawful.recomputed (Engine.TablesLawful.withTables (e' := { e with tables := e.tables.writeSends m (e.broadcastTo m) ws }) h (Tables.Lawful.sendsWritten m _ ws hw _ h.tables) rfl) _

theorem groupConflict_none {x : MixTable} {g : Fin 8} {l : List (Fin 64)}
    (h : groupConflict x g l = false) : ∀ g' : Fin 8, g' ≠ g → ∀ i ∈ l, i ∉ (x.groups[g']).members := by
  intro g' hg i hi hi'
  unfold groupConflict at h
  rw [List.any_eq_false] at h
  exact h g' (List.mem_finRange _) (by simp only [ne_eq, Bool.and_eq_true, decide_eq_true_eq, List.any_eq_true, List.contains_iff_mem]; exact ⟨hg, i, hi, hi'⟩)

theorem collapse_nodup (l : List (Fin 64)) : (collapse l).Nodup := by
  induction l with
  | nil => exact List.nodup_nil
  | cons a l ih => unfold collapse; rw [List.nodup_cons]; exact ⟨by simp, ih.filter _⟩

theorem mem_of_mem_collapse (l : List (Fin 64)) (i) : i ∈ collapse l → i ∈ l := by
  rw [collapse_eq]; simp

theorem Engine.TablesLawful.request (n p q x) (e : Engine) (h : e.TablesLawful) :
    (answerRequest n p q e x).engine.TablesLawful := by
  cases n <;> simp only [answerRequest]
  case identify | portStatus | resetEngine | setNoticeMask | readNoticeMask | readReasons | readStates | readInputs | readLatches | readLinkStatus | readResult | readPackTable => exact h
  case passCharge | reclaimCharge =>
    all_goals
    unfold Effect.answer; simp only [effectPassCharge, effectReclaimCharge, effectMoveCharge, Engine.moveCharge]
    split
    · exact h
    · exact Engine.TablesLawful.same h rfl rfl
  case wait =>
    unfold answerWait; dsimp only; split
    · exact h
    · split <;> exact h
  case cancelWait => unfold answerCancelWait; split <;> exact h
  case setSend =>
    unfold Effect.answer effectSetSend; dsimp only; split
    · split
      · exact h
      · rename_i hw _
        exact Engine.TablesLawful.sendsWritten e h _ _ fun w h' => by rw [List.mem_singleton] at h'; subst h'; exact sendWrite_inRange hw
    · exact h
  case setSendRow =>
    unfold Effect.answer effectSetSendRow; dsimp only; split
    · split
      · exact h
      · rename_i hw _
        exact Engine.TablesLawful.sendsWritten e h _ _ (sendWrites_inRange hw)
    · exact h
  case readSendRow => unfold Effect.answer effectReadSendRow; dsimp only; split <;> exact h
  case readMix => unfold Effect.answer effectReadMix; dsimp only; split <;> exact h
  case readGroup => unfold Effect.answer effectReadGroup; dsimp only; split <;> exact h
  case readEffective => unfold Effect.answer effectReadEffective; dsimp only; split <;> exact h
  case readDirectory => unfold Effect.answer effectReadDirectory; dsimp only; split <;> exact h
  case setMix =>
    unfold Effect.answer effectSetMix; dsimp only; split
    · split
      · exact h
      · exact Engine.TablesLawful.recomputed (Engine.TablesLawful.modifyMix h _ _ (MixTable.Lawful.patched _ _ _ (h.tables.mixes _))) _
    · exact h
  case setLinkSet =>
    unfold Effect.answer effectSetLinkSet; dsimp only; split
    · split
      · exact h
      · rename_i m _ _ _ _
        have hm := h.tables.mixes m
        exact Engine.TablesLawful.modifyMix h m _ (MixTable.Lawful.mapRecord _ hm _ hm.master hm.shift hm.ceiling hm.release hm.dim)
    · exact h
  case setGroup =>
    unfold Effect.answer effectSetGroup; dsimp only; split
    · split
      · exact h
      · split
        · exact h
        · rename_i m g l _ _ _ _ hc
          have hm := h.tables.mixes m
          refine Engine.TablesLawful.recomputed (Engine.TablesLawful.modifyMix h m _ (MixTable.Lawful.putGroup _ hm g { trim := clampInt (-80) 20 (Payload.s8 q 2), members := collapse l } (clampInt_range _ _ _ (by omega)) (collapse_nodup l) ?_)) _
          intro g' hg i hi
          exact groupConflict_none (by simpa using hc) g' hg i (mem_of_mem_collapse l i hi)
    · exact h
  case setInput =>
    unfold Effect.answer effectSetInput; dsimp only; split
    · split
      · exact h
      · rename_i k ptch _ _ _
        refine Engine.TablesLawful.recomputed (Engine.TablesLawful.withTables (e' := { e with tables := { e.tables with inputs := e.tables.inputs.set k (inputRecOf q ptch e.tables.inputs[k]) } }) h (Tables.Lawful.setInput _ h.tables k _ ?_) rfl) _
        unfold inputRecOf; dsimp only; split
        · exact clampInt_range _ _ _ (by omega)
        · exact h.tables.inputs k
    · exact h
  case setTalkSource =>
    unfold Effect.answer effectSetTalkSource; dsimp only; split
    · split
      · exact h
      · rename_i src _ _
        exact Engine.TablesLawful.recomputed (Engine.TablesLawful.withTables (e' := { e with tables := { e.tables with talkSource := src } }) h ⟨h.tables.inputs, h.tables.mixes⟩ rfl) _
    · exact h
  case talk =>
    unfold Effect.answer effectTalk; dsimp only
    exact Engine.TablesLawful.recomputed (Engine.TablesLawful.same (e' := e.setTalkSet p _) h (by simp) (by simp)) _
  case readMeters =>
    unfold Effect.answer effectReadMeters; dsimp only; split
    · exact Engine.TablesLawful.same (e' := e.clearMeters) h (by simp only [Engine.clearMeters]) (by simp only [Engine.clearMeters])
    · exact h
  case clearLatches =>
    unfold Effect.answer effectClearLatches Effect.accept; dsimp only
    exact Engine.TablesLawful.same h (by simp only) (by simp only)
  case setSourceMode =>
    unfold Effect.answer effectSetSourceMode; dsimp only; split
    · exact h
    · simp only [Engine.applyMode, Engine.setActive]
      split
      · split <;> exact Engine.TablesLawful.same h rfl rfl
      · exact Engine.TablesLawful.same h rfl rfl
  case storeScene =>
    unfold Effect.answer effectStoreScene; dsimp only; split
    · exact h
    · split
      · exact h
      · split
        · exact h
        · exact ⟨h.tables, h.scenes, fun k n c hh => by cases hh; exact h.tables⟩
  case eraseScene =>
    unfold Effect.answer effectEraseScene; dsimp only; split
    · exact h
    · split
      · exact h
      · split
        · exact h
        · exact Engine.TablesLawful.withOperation h rfl rfl (fun _ _ _ h => by cases h)
  case recallScene =>
    unfold Effect.answer effectRecallScene; dsimp only; split
    · exact h
    · split
      · exact h
      · split
        · exact h
        · exact h
        · exact Engine.TablesLawful.withOperation h rfl rfl (fun _ _ _ h => by cases h)
  case abortRecall =>
    unfold Effect.answer effectAbortRecall; dsimp only; split
    · split
      · exact Engine.TablesLawful.endOperation e h _
      · exact Engine.TablesLawful.withOperation h rfl rfl (fun _ _ _ h => by cases h)
    · exact h
  case protectScene =>
    unfold Effect.answer effectProtectScene; dsimp only; split
    · exact h
    · exact Engine.TablesLawful.modifySlot e h _ _ (fun n c hi => h.scenes _ n c hi)
  case setStartScene =>
    unfold Effect.answer effectSetStartScene; dsimp only; split
    · exact ⟨h.tables, h.scenes, h.staging⟩
    · exact h
  case assignPack =>
    unfold Effect.answer effectAssignPack; dsimp only; split
    · exact Engine.TablesLawful.same h rfl rfl
    · exact h
  case releasePack =>
    unfold Effect.answer effectReleasePack; dsimp only; split
    · unfold Engine.releaseSlot; dsimp only
      split <;> exact Engine.TablesLawful.same h rfl rfl
    · exact h
  case readCalls => exact Engine.TablesLawful.same h rfl rfl

theorem Tables.reset_lawful : Tables.reset.Lawful := by
  refine ⟨fun i => by simp [Tables.reset, InputRec.reset], fun m => ?_⟩
  have : Tables.reset.mixes[m] = MixTable.reset := by simp [Tables.reset]
  rw [this]
  refine ⟨by decide, by decide, by decide, by decide, by decide, fun i => ?_, fun g => ?_, fun g => ?_, fun g g' i h => ?_⟩
  · simp [MixTable.reset, SendRec.reset]
  · simp [MixTable.reset, Group.reset]
  · simp [MixTable.reset, Group.reset]
  · simp [MixTable.reset, Group.reset] at h

end Sys2Proof.Machine
end

