-- ==== Sys2Proof/Laws/Ports.lean ====
section
/-! SUPPORT. What a command does to the frames of its ports: how many replies to the request in service it makes, that it
leaves the notice unit orderly, and what one request taken from a queue leaves. -/
namespace Sys2Proof.Machine

/-- Whether a happening is the reply of the request in service. -/
def isReply : Happening → Bool
  | .reply .. => true
  | _ => false

/-- How many frames of a port are the reply of its request in service (R159). -/
def PortState.repliesUnderWay (x : PortState) : Nat := x.outgoing.countP Frame.isService

theorem PortState.repliesUnderWay_sendReply (x : PortState) (f : Frame) : PortState.repliesUnderWay
    (x.sendReply f) = PortState.repliesUnderWay x + (if f.isService then 1 else 0) := by
  unfold PortState.repliesUnderWay; rw [PortState.outgoing_sendReply, List.countP_append]; simp [List.countP_cons]

theorem PortState.repliesUnderWay_update (x : PortState) (l) : PortState.repliesUnderWay
    (x.update l) = PortState.repliesUnderWay x := by
  unfold PortState.update; dsimp only; split
  · simp [PortState.repliesUnderWay, PortState.outgoing, List.countP_append, List.countP_cons, Frame.isService]
  · rfl

theorem PortState.repliesUnderWay_offer (x : PortState) (i l) : PortState.repliesUnderWay
    (x.offer i l) = PortState.repliesUnderWay x := by
  unfold PortState.offer; split
  · split
    · simp [PortState.repliesUnderWay, PortState.meet, PortState.outgoing, PortState.sendReply, PortState.consume, List.countP_append, List.countP_cons, Frame.isService]
    · rfl
  · rfl

theorem PortState.repliesUnderWay_happen (x : PortState) (w l h) : PortState.repliesUnderWay
    (x.happen w l h) = PortState.repliesUnderWay x + (if isReply h then 1 else 0) := by
  cases h with
  | reply e s c d => unfold PortState.happen; rw [PortState.repliesUnderWay_sendReply]; rfl
  | cancelled => unfold PortState.happen; rw [PortState.repliesUnderWay_sendReply]; rfl
  | timedOut => unfold PortState.happen; rw [PortState.repliesUnderWay_sendReply]; rfl
  | update => unfold PortState.happen; rw [PortState.repliesUnderWay_update]; rfl
  | item i =>
    simp only [PortState.happen, PortState.arrive]
    split
    · rw [PortState.repliesUnderWay_update, PortState.repliesUnderWay_offer]; rfl
    · rw [PortState.repliesUnderWay_offer, PortState.repliesUnderWay_update]; rfl

theorem PortState.repliesUnderWay_run (w l hs) : ∀ (k : Nat) (x : PortState), PortState.repliesUnderWay
    (PortState.run w l k hs x) = PortState.repliesUnderWay x + hs.countP isReply := by
  induction hs with
  | nil => intro k x; rfl
  | cons h hs ih =>
    intro k x
    rw [PortState.run, ih, PortState.repliesUnderWay_happen, List.countP_cons]; omega

theorem PortState.repliesUnderWay_kick (x : PortState) : PortState.repliesUnderWay x.kick = PortState.repliesUnderWay
    x := by simp [PortState.repliesUnderWay]

theorem State.deliver_repliesUnderWay (s : State) (p bs) : PortState.repliesUnderWay
    ((s.deliver p bs).port p) = PortState.repliesUnderWay (s.port p) + bs.flatten.countP isReply := by
  obtain ⟨w, o, perm, eq⟩ := State.deliver_port s p bs
  rw [eq, PortState.repliesUnderWay_kick, PortState.repliesUnderWay_run, perm.flatten.countP_eq]

theorem itemBlocks_noReply (a b ev p) : (itemBlocks a b ev p).flatten.countP isReply = 0 := by
  rw [List.countP_eq_zero]
  intro h hh
  simp only [itemBlocks, List.flatten_append, List.mem_append, List.mem_flatten, List.mem_map] at hh
  rcases hh with ⟨l, ⟨e, _, rfl⟩, h2⟩ | ⟨l, ⟨e, _, rfl⟩, h2⟩ <;> · simp only [List.mem_singleton] at h2; subst h2; simp [isReply]

theorem State.conclude_repliesUnderWay (s : State) (b ev p own p') : PortState.repliesUnderWay
    ((s.conclude b ev p own).port p') = PortState.repliesUnderWay (s.port p') + (if p' = p then own.flatten.countP
    isReply else 0) := by
  rcases Port.eq_or_other p p' with rfl | rfl
  · rw [State.conclude_port, State.deliver_repliesUnderWay, if_pos rfl, List.flatten_append, List.countP_append, itemBlocks_noReply]; omega
  · rw [State.conclude_other, State.deliver_repliesUnderWay, State.deliver_other, if_neg (by simp), itemBlocks_noReply]

/-- R155, R158: an answer makes one reply, unless it takes its request out of service and makes none. -/
def Answer.RepliesOnce (a : Answer) : Prop := a.own.flatten.countP isReply = if a.port.service = none then 0 else 1

theorem portAnswer_repliesOnce (e x c st d) (hx : x.service ≠ none) : Answer.RepliesOnce
    (portAnswer e x c st d) := by simp [Answer.RepliesOnce, portAnswer, isReply, hx]

theorem Effect.answer_repliesOnce (f : Effect) (c x) (hx : x.service ≠ none) : Answer.RepliesOnce
    (f.answer c x) := by simp [Answer.RepliesOnce, Effect.answer, isReply, hx]

theorem answerOf_repliesOnce (r : Request) (p : Port) (e : Engine) (x : PortState) (hx : x.service ≠ none) :
    Answer.RepliesOnce (answerOf r p e x) := by
  unfold answerOf
  split
  · exact portAnswer_repliesOnce _ _ _ _ _ hx
  · split
    · exact portAnswer_repliesOnce _ _ _ _ _ hx
    · rename_i n _ _ _
      cases n <;> simp only [answerRequest] <;>
        first
        | exact Effect.answer_repliesOnce _ _ _ hx
        | exact portAnswer_repliesOnce _ _ _ _ _ hx
        | skip
      · simp [Answer.RepliesOnce, List.countP_cons, isReply, hx, answerSetNoticeMask]
      · unfold answerWait; dsimp only; split
        · exact portAnswer_repliesOnce _ _ _ _ _ hx
        · split
          · exact portAnswer_repliesOnce _ _ _ _ _ hx
          · simp [Answer.RepliesOnce]
      · unfold answerCancelWait; split
        · exact portAnswer_repliesOnce _ _ _ _ _ hx
        · simp [Answer.RepliesOnce, isReply, hx]

theorem PortState.lineEnds_eq (x : PortState) : x.lineEnds = { x with line := x.ready.head?, unseen := false, ready := x.ready.tail }
    := by
  unfold PortState.lineEnds PortState.kick
  cases h : x.ready <;> simp

theorem State.setPort_settled {s : State} {p : Port} (h : s.settled) {x : PortState} (hx : x.settled) :
    (s.setPort p x).settled := by
  cases p
  · exact ⟨hx, h.2⟩
  · exact ⟨h.1, hx⟩

theorem PortState.outgoing_withFrame {x : PortState} (h : x.settled) (f : Frame) :
    (x.withFrame f).outgoing = x.outgoing ++ [f] := by
  unfold PortState.withFrame PortState.outgoing
  cases hl : x.line with
  | none => simp [h hl]
  | some g => simp

theorem perm_pair {α} {l : List α} {a b : α} (h : l.Perm [a, b]) : l = [a, b] ∨ l = [b, a] := by
  have hl := h.length_eq
  match l, hl with
  | [x, y], _ =>
    have hx : x ∈ [a, b] := h.subset (by simp)
    simp only [List.mem_cons, List.not_mem_nil, or_false] at hx
    rcases hx with rfl | rfl
    · have := (List.perm_cons x).1 h
      rw [List.perm_singleton] at this
      simp_all
    · have h2 : [x, y].Perm [x, a] := h.trans (List.Perm.swap ..)
      have := (List.perm_cons x).1 h2
      rw [List.perm_singleton] at this
      simp_all

theorem Instr.payload_sizes {c : Instr} {p : Port} {r : Request} (h : requestOf c = some (p, r))
    (w : c.wellFormed = true) :
    r.payload.params.length ≤ 16 ∧ r.payload.data.length ≤ 512 := by
  have : r.payload.wellFormed = true := by
    cases c <;> simp only [requestOf, Option.some.injEq, Prod.mk.injEq, reduceCtorEq] at h <;>
      obtain ⟨rfl, rfl⟩ := h <;> first | exact w | (simp only [Instr.wellFormed, Bool.and_eq_true] at w; exact w.2)
  simpa [Payload.wellFormed] using this

theorem State.afterByte_receiving (s : State) (p : Port) (got : List Byte) (b : Byte) (hp : s.engine.powered = true)
    (h : (s.port p).receiver = .receiving got) :
    State.afterByte p s b = s.gather p (got ++ [b]) := by
  simp [State.afterByte, exec, execReceiveByte, hp, h]

theorem State.gather_more {s : State} {p : Port} {got : List Byte} (h1 : revealsDiscard got = false)
    (h2 : frameComplete got = false) :
    s.gather p got = s.setPort p { s.port p with receiver := .receiving got } := by
  simp [State.gather, h1, h2]

theorem exec_raises {s : State} {c : Instr} {f : Engine → Act} (h : s.engine.powered = true) (hc : exec c s = s.act f)
   {e : Engine} {ev : List Event} (he : f s.engine = (e, ev)) : ∃ t, exec c s = .next t ∧ s.Raises e ev t := by
  obtain ⟨t, a, b⟩ := State.act_raises h f
  exact ⟨t, hc.trans a, by rw [he] at b; exact b⟩

theorem answerOf_of_name {r : Request} {p : Port} {e : Engine} {x : PortState} (n : RequestName)
    (code : r.code = n.code) (cls : classRefusal n.cls p e.charge = none) :
    answerOf r p e x = answerRequest n p r.payload e x := answerOf_allowed (by rw [code]; simp) cls

/-! ### The notice unit at the end of a command (R170) -/

theorem PortState.happen_orderly {x : PortState} (h : x.unit.Orderly) (w : Bool) (levels : BitVec 8) (a : Happening) :
    (x.happen w levels a).unit.Orderly := by
  cases a with
  | item i => exact PortState.arrive_orderly _ _ _ _
  | update => exact PortState.update_orderly _ _
  | _ => exact h

theorem PortState.run_orderly (w : Nat → Bool) (levels : BitVec 8) (hs : List Happening) :
    ∀ (k : Nat) {x : PortState}, x.unit.Orderly → (PortState.run w levels k hs x).unit.Orderly := by
  induction hs with
  | nil => exact fun _ _ h => h
  | cons a hs ih => exact fun k _ h => ih (k + 1) (PortState.happen_orderly h _ _ a)

/-- R172: an update among the happenings leaves the unit orderly, whatever it was. -/
theorem PortState.run_updated (w : Nat → Bool) (levels : BitVec 8) (hs : List Happening) (h : .update ∈ hs) :
    ∀ (k : Nat) (x : PortState), (PortState.run w levels k hs x).unit.Orderly := by
  induction hs with
  | nil => simp at h
  | cons a hs ih =>
    intro k x
    rcases List.mem_cons.1 h with rfl | h
    · exact PortState.run_orderly w levels hs (k + 1) (PortState.update_orderly _ _)
    · exact ih h (k + 1) _

theorem State.deliver_orderly (s : State) (p : Port) (blocks : List (List Happening))
    (h : (s.port p).unit.Orderly ∨ .update ∈ blocks.flatten) : ((s.deliver p blocks).port p).unit.Orderly := by
  obtain ⟨w, o, perm, eq⟩ := State.deliver_port s p blocks
  rw [eq, PortState.kick_unit]
  rcases h with h | h
  · exact PortState.run_orderly _ _ _ _ h
  · exact PortState.run_updated _ _ _ (perm.flatten.mem_iff.2 h) _ _

/-- R170, R172: the end of a command leaves a unit orderly that was, or whose mask the command has replaced. -/
theorem State.conclude_orderly (s : State) (before : Engine) (events : List Event) (p : Port)
    (own : List (List Happening)) (p' : Port)
    (h : (s.port p').unit.Orderly ∨ (p' = p ∧ .update ∈ own.flatten)) :
    ((s.conclude before events p own).port p').unit.Orderly := by
  rcases Port.eq_or_other p p' with rfl | rfl
  · rw [State.conclude_port]
    exact State.deliver_orderly _ _ _ (h.imp id fun x => by simp [x.2])
  · rw [State.conclude_other]
    refine State.deliver_orderly _ _ _ (.inl ?_)
    rw [State.deliver_other]
    rcases h with h | h
    · exact h
    · exact absurd h.1 (Port.other_ne p)

/-- R172 to R176: an answer leaves the unit of its port orderly, or updates it. -/
theorem answerOf_orderly (r : Request) (p : Port) (e : Engine) (x : PortState) (h : x.unit.Orderly) :
    (answerOf r p e x).port.unit.Orderly ∨ .update ∈ (answerOf r p e x).own.flatten := by
  unfold answerOf
  split
  · exact .inl h
  · split
    · exact .inl h
    · rename_i n _ _ _
      cases n <;> simp only [answerRequest] <;> first | exact .inl h | skip
      · exact .inr (by simp [answerSetNoticeMask])
      · refine .inl ⟨fun _ => rfl, fun i hm ho => ?_⟩
        simp only [answerReadReasons, portAnswer, ItemSet.has_diff, Bool.and_eq_true, Bool.not_eq_true'] at hm ho
        rw [h.2 i hm ho.1] at ho
        cases ho.2
      · unfold answerWait
        dsimp only
        split
        · exact .inl h
        · split
          · exact .inl (PortState.meet_orderly h _ (e.levels p))
          · exact .inl h
      · unfold answerCancelWait
        split <;> exact .inl h

/-! ### Taking a request does not look at the queue (R155) -/

theorem answerOf_withQueue (r : Request) (p : Port) (e : Engine) (x : PortState) (receiver : PortReceiver)
    (queue : List Request) (h : r.code ≠ RequestName.portStatus.code) :
    answerOf r p e (x.withQueue receiver queue) =
      { answerOf r p e x with port := (answerOf r p e x).port.withQueue receiver queue } := by
  unfold answerOf
  split
  · rfl
  · rename_i n hn
    have code := requestOfCode_some hn
    split
    · rfl
    · cases n <;> simp only [answerRequest] <;> first | rfl | skip
      · exact absurd code.symm h
      · rcases x with ⟨x1, x2, x3, w, x5, x6, x7, x8, x9, x10⟩
        cases w with
        | some w => rfl
        | none =>
          simp only [answerWait, PortState.withQueue]
          have same : metAtOnce { events := Payload.events r.payload 0, states := Payload.states r.payload 2 }
              { receiver := receiver, queue := queue, service := x3, wait := none, lost := x5, garbled := x6, line := x7,
                unseen := x8, ready := x9, unit := x10 } (e.levels p) =
            metAtOnce { events := Payload.events r.payload 0, states := Payload.states r.payload 2 }
              { receiver := x1, queue := x2, service := x3, wait := none, lost := x5, garbled := x6, line := x7,
                unseen := x8, ready := x9, unit := x10 } (e.levels p) := rfl
          simp only [same]
          split <;> rfl
      · rcases x with ⟨x1, x2, x3, w, x5, x6, x7, x8, x9, x10⟩
        cases w <;> rfl

theorem PortState.update_withQueue (x : PortState) (receiver : PortReceiver) (queue : List Request) (levels : BitVec 8) :
    (x.withQueue receiver queue).update levels = (x.update levels).withQueue receiver queue := by
  unfold PortState.update
  dsimp only [PortState.withQueue]
  by_cases h : (x.unit.armed && !(x.unit.reasons.union (x.unit.mask.inter x.unit.occurred)).isEmpty) = true <;>
    simp only [h, if_true, if_false, Bool.false_eq_true]

theorem PortState.offer_withQueue (x : PortState) (receiver : PortReceiver) (queue : List Request) (i : Item)
    (levels : BitVec 8) :
    (x.withQueue receiver queue).offer i levels = (x.offer i levels).withQueue receiver queue := by
  rcases x with ⟨x1, x2, x3, w, x5, x6, x7, x8, x9, x10⟩
  cases w with
  | none => rfl
  | some w =>
    simp only [PortState.offer, PortState.withQueue]
    by_cases h : (w.condition.names i && (x10.occurred.has i || levelStands levels i)) = true <;>
      simp only [h, if_true, if_false, Bool.false_eq_true] <;> rfl

theorem PortState.happen_withQueue (x : PortState) (receiver : PortReceiver) (queue : List Request) (w : Bool)
    (levels : BitVec 8) (h : Happening) :
    (x.withQueue receiver queue).happen w levels h = (x.happen w levels h).withQueue receiver queue := by
  cases h with
  | item i =>
    simp only [PortState.happen, PortState.arrive]
    have recorded : (x.withQueue receiver queue).record i = (x.record i).withQueue receiver queue := rfl
    split
    · rw [recorded, PortState.offer_withQueue, PortState.update_withQueue]
    · rw [recorded, PortState.update_withQueue, PortState.offer_withQueue]
  | update => exact PortState.update_withQueue ..
  | _ => rfl

theorem PortState.run_withQueue (w : Nat → Bool) (levels : BitVec 8) (hs : List Happening) (receiver : PortReceiver)
    (queue : List Request) :
    ∀ (k : Nat) (x : PortState), PortState.run w levels k hs (x.withQueue receiver queue) =
      (PortState.run w levels k hs x).withQueue receiver queue := by
  induction hs with
  | nil => exact fun _ _ => rfl
  | cons h hs ih => intro k x; rw [PortState.run, PortState.happen_withQueue, ih, PortState.run]

theorem PortState.kick_withQueue (x : PortState) (receiver : PortReceiver) (queue : List Request) :
    (x.withQueue receiver queue).kick = x.kick.withQueue receiver queue := by
  unfold PortState.kick
  cases hl : x.line <;> cases hr : x.ready <;> simp only [PortState.withQueue, hl, hr]

@[simp] theorem State.withQueue_engine (s : State) (p : Port) (receiver : PortReceiver) (queue : List Request) :
    (s.withQueue p receiver queue).engine = s.engine := by simp [State.withQueue]

@[simp] theorem State.withQueue_draws (s : State) (p : Port) (receiver : PortReceiver) (queue : List Request) :
    (s.withQueue p receiver queue).draws = s.draws := by simp [State.withQueue]

@[simp] theorem State.withQueue_port (s : State) (p : Port) (receiver : PortReceiver) (queue : List Request) :
    (s.withQueue p receiver queue).port p = (s.port p).withQueue receiver queue := by simp [State.withQueue]

theorem State.deliver_withQueue (s : State) (p p' : Port) (receiver : PortReceiver) (queue : List Request)
    (blocks : List (List Happening)) :
    (s.withQueue p receiver queue).deliver p' blocks = (s.deliver p' blocks).withQueue p receiver queue := by
  cases blocks with
  | nil => cases p <;> cases p' <;> simp [State.deliver, State.withQueue, State.setPort, State.port, PortState.kick_withQueue]
  | cons b bs =>
    cases p <;> cases p' <;>
      simp [State.deliver, State.withQueue, State.setPort, State.port, PortState.run_withQueue, PortState.kick_withQueue]

theorem State.conclude_withQueue (s : State) (p : Port) (receiver : PortReceiver) (queue : List Request)
    (before : Engine) (events : List Event) (own : List (List Happening)) :
    (s.withQueue p receiver queue).conclude before events p own =
      (s.conclude before events p own).withQueue p receiver queue := by
  simp only [State.conclude, State.deliver_withQueue, State.withQueue_engine]

/-- R155: a request other than PORT STATUS has the same effect whatever else is in the queue. -/
theorem State.applyRequest_withQueue (s : State) (p : Port) (receiver : PortReceiver) (queue : List Request) (r : Request)
    (h : r.code ≠ RequestName.portStatus.code) :
    (s.withQueue p receiver queue).applyRequest p r = (s.applyRequest p r).withQueue p receiver queue := by
  unfold State.applyRequest
  have serv : ({ (s.withQueue p receiver queue).port p with service := some r } : PortState) =
      PortState.withQueue { s.port p with service := some r } receiver queue := by simp [PortState.withQueue]
  dsimp only
  rw [serv, State.withQueue_engine, answerOf_withQueue _ _ _ _ _ _ h, ← State.conclude_withQueue]
  congr 1
  cases p <;> rfl

/-! ### The end of a reply takes the next request (R155, R159) -/

theorem Reply.resetsEngine_false {y : Reply} (h : y.echo ≠ 0x05 ∨ y.status ≠ .ok) : y.resetsEngine = false := by
  rcases h with h | h
  · exact Bool.and_eq_false_iff.2 (.inl (decide_eq_false h))
  · exact Bool.and_eq_false_iff.2 (.inr (decide_eq_false h))

@[simp] theorem State.freed_engine (s : State) (p : Port) : (s.freed p).engine = s.engine := by simp [State.freed]

@[simp] theorem State.freed_service (s : State) (p : Port) : ((s.freed p).port p).service = none := by simp [State.freed]

@[simp] theorem State.freed_queue (s : State) (p : Port) : ((s.freed p).port p).queue = [] := by simp [State.freed]

@[simp] theorem State.freed_receiver (s : State) (p : Port) : ((s.freed p).port p).receiver = .hunting := by
  simp [State.freed]

@[simp] theorem State.freed_wait (s : State) (p : Port) : ((s.freed p).port p).wait = (s.port p).wait := by
  simp [State.freed]

theorem State.freed_settled {s : State} (h : s.settled) (p : Port) : (s.freed p).settled :=
  State.setPort_settled h fun hl => by cases hr : (s.port p).ready <;> simp_all

/-- R155, R159: the end of a reply that resets nothing frees the port, which then serves its queue. -/
theorem exec_frameEnd_service {s : State} {p : Port} {y : Reply} (on : s.engine.powered = true)
    (line : (s.port p).line = some (.service y)) (stays : y.resetsEngine = false) :
    exec (.transmitFrameEnd p) s =
      .next (((s.freed p).withQueue p (s.port p).receiver (s.port p).queue).serveQueue p) := by
  simp only [exec, execTransmitFrameEnd, on, if_true, line, stays, Bool.false_eq_true, if_false]
  cases p <;> simp [State.freed, State.withQueue, PortState.withQueue, PortState.lineEnds_eq, State.setPort, State.port]

theorem State.serveQueue_takes {s : State} {p : Port} (free : (s.port p).service = none) (receiver : PortReceiver)
    (r : Request) (rest : List Request) :
    (s.withQueue p receiver (r :: rest)).serveQueue p =
      State.serve p rest.length ((s.withQueue p receiver rest).applyRequest p r) := by
  have one : (s.withQueue p receiver (r :: rest)).takeOne p = (s.withQueue p receiver rest).applyRequest p r := by
    unfold State.takeOne
    cases p <;> simp_all [State.withQueue, PortState.withQueue, State.setPort, State.port]
  simp [State.serveQueue, State.serve, one, PortState.withQueue]

/-- R155, R174: a request that has been taken is in service, but for a WAIT that parks. -/
theorem State.applyRequest_service (s : State) (p : Port) (r : Request) :
    ((s.applyRequest p r).port p).service = some r ∨
      (r.code = 0x14 ∧ (s.port p).wait = none ∧ ((s.applyRequest p r).port p).service = none ∧
        ((s.applyRequest p r).port p).wait ≠ none ∧ (s.applyRequest p r).engine = s.engine) := by
  have same := fun e' (x : PortState) ev own =>
    (State.conclude_same ((s.setEngine e').setPort p x) s.engine ev p own p).1.service
  unfold State.applyRequest
  dsimp only
  rw [same]
  simp only [State.setPort_port]
  unfold answerOf
  split
  · exact .inl rfl
  · rename_i n hn
    have code := requestOfCode_some hn
    split
    · exact .inl rfl
    · cases n <;> simp only [answerRequest] <;> first | exact .inl rfl | skip
      · unfold answerWait
        dsimp only
        split
        · exact .inl rfl
        · rename_i hw
          split
          · exact .inl rfl
          · refine .inr ⟨code.symm, hw, rfl, ?_, ?_⟩ <;> simp [State.conclude, State.deliver, itemBlocks]
      · unfold answerCancelWait
        split <;> exact .inl rfl

theorem State.applyRequest_queue (s : State) (p : Port) (r : Request) :
    ((s.applyRequest p r).port p).queue = (s.port p).queue ∧
      ((s.applyRequest p r).port p).receiver = (s.port p).receiver ∧ (s.applyRequest p r).settled := by
  have keeps := answerOf_keeps r p s.engine { s.port p with service := some r }
  unfold State.applyRequest
  have done := State.conclude_same ((s.setEngine (answerOf r p s.engine { s.port p with service := some r }).engine).setPort p
    (answerOf r p s.engine { s.port p with service := some r }).port) s.engine
    (answerOf r p s.engine { s.port p with service := some r }).events p
    (answerOf r p s.engine { s.port p with service := some r }).own
  refine ⟨?_, ?_, (done .home).2.2, (done .guest).2.2⟩
  · rw [(done p).1.queue]; simp [keeps.queue]
  · rw [(done p).1.receiver]; simp [keeps.receiver]

/-- A request whose answer is known to touch its port alone, whatever else is in the queue. -/
theorem State.applyRequest_portAnswer {s : State} (h : s.settled) (p : Port) (receiver : PortReceiver)
    (queue : List Request) (r : Request) (st : Status) (da : List Byte)
    (a : answerOf r p s.engine { (s.port p).withQueue receiver queue with service := some r } =
      portAnswer s.engine { (s.port p).withQueue receiver queue with service := some r } r.code st da) :
    (s.withQueue p receiver queue).applyRequest p r = (s.replied p r s.engine st false da).withQueue p receiver queue := by
  rw [← State.conclude_replied h p r s.engine st false da (fun _ => by simp), ← State.conclude_withQueue]
  unfold State.applyRequest
  simp only [State.withQueue_engine, State.withQueue_port, a, portAnswer]
  congr 1
  cases p <;> rfl

/-- R165: PORT STATUS tells how many requests are in the queue. -/
theorem State.applyRequest_portStatus {s : State} (h : s.settled) (p : Port) (receiver : PortReceiver)
    (queue : List Request) {r : Request} (code : r.code = 0x02) :
    (s.withQueue p receiver queue).applyRequest p r =
      (s.replied p r s.engine .ok false
        [byteOf s.engine.charge.number, byteOf queue.length, flagByte (s.port p).wait.isSome]).withQueue p receiver queue := by
  refine State.applyRequest_portAnswer h p receiver queue r _ _ ?_
  rw [answerOf_of_name .portStatus code rfl, code]
  rfl

/-- R157, R160: a request refused by its class, whatever else is in the queue. -/
theorem State.applyRequest_refused {s : State} (h : s.settled) (p : Port) (receiver : PortReceiver)
    (queue : List Request) {r : Request} {n : RequestName} {st : Status} (name : requestOfCode r.code = some n)
    (cls : classRefusal n.cls p s.engine.charge = some st) :
    (s.withQueue p receiver queue).applyRequest p r =
      (s.replied p r s.engine st false []).withQueue p receiver queue := by
  refine State.applyRequest_portAnswer h p receiver queue r _ _ ?_
  simp [answerOf, name, cls]

end Sys2Proof.Machine
end

