-- ==== Sys2Proof/Laws/Scenes.lean ====
section
/-! SUPPORT. The scene library: busy, its slots, and the order of a recall; and the ports at a warm reset. -/
namespace Sys2Proof.Machine

theorem Library.busy_of_operation {l : Library} (h : l.operation ≠ .idle) : l.busy = true := by simp [Library.busy, h]

theorem Library.busy_of_idle {l : Library} (h : l.operation = .idle) : l.busy = false := by simp [Library.busy, h]

theorem rises_of_library (e : Engine) (l : Library) (h : l.busy = e.library.busy) (p) : rises e
    { e with library := l } p = [] :=
  rises_of_level (Engine.level_congr (e := e) (e' := { e with library := l }) rfl h rfl rfl rfl rfl rfl rfl p)

theorem Engine.modifySlot_slot (e : Engine) (k : Fin 32) (f : SceneSlot → SceneSlot) :
    (e.modifySlot k f).library.slots[k] = f e.library.slots[k] := by
  simp [Engine.modifySlot, Library.modifySlot]

theorem Engine.modifySlot_self (e : Engine) (k : Fin 32) : (e.modifySlot k fun x => x) = e := by
  simp [Engine.modifySlot, Library.modifySlot]

theorem nextMix_of_least {a : MixSet} {m : Fin 24} (h : a.getLsbD m.val = true)
    (l : ∀ m' < m, a.getLsbD m'.val = false) : nextMix a = some m := by
  unfold nextMix
  rw [List.find?_eq_some_iff_getElem]
  refine ⟨h, m.val, by simp, by simp, fun j hj => ?_⟩
  have := l ⟨j, by omega⟩ hj
  simp [MixSet.has, this]

theorem page_eq (f : Fin 32 → List Byte) (page : Fin 4) : 
   ((List.finRange 32).filter fun k => decide (k.val / 8 = page.val)).flatMap f = (List.finRange 8).flatMap fun k => f ⟨8 * page.val + k.val, by omega⟩ := by
  have : ((List.finRange 32).filter fun k => decide (k.val / 8 = page.val)) = (List.finRange 8).map fun k => ⟨8 * page.val + k.val, by omega⟩ := by
    revert page; decide
  rw [this, List.flatMap_map]

theorem nextMix_empty : nextMix 0#24 = none := by decide

theorem PortState.keptService_eq (x : PortState) :
    x.keptService = if x.keptLine.any Frame.isService = true then x.service else none := by
  unfold PortState.keptService
  cases x.keptLine with
  | none => rfl
  | some f => cases f <;> rfl

/-- R167: the frame on the line at a warm reset is kept, unless it is marked as not to be seen. -/
theorem PortState.keptLine_seen {x : PortState} (h : x.unseen = false) : x.keptLine = x.line := by
  simp [PortState.keptLine, h]

@[simp] theorem State.warmReset_port (s : State) (p : Port) : s.warmReset.port p = (s.port p).warmReset := by
  cases p <;> rfl

/-! ### What is awaiting recall (R29, R103, R104) -/

theorem Engine.awaiting_load {e : Engine} {j : RecallJob} {awaiting : MixSet} {inputs aborting : Bool}
    (h : e.library.operation = .recall j) (k : j.phase = .load awaiting inputs aborting) :
    e.awaiting = awaiting ∧ e.inputsAwaiting = inputs := by
  simp [Engine.awaiting, Engine.inputsAwaiting, h, k]

theorem Engine.awaiting_verify {e : Engine} {j : RecallJob} (h : e.library.operation = .recall j)
    (k : j.phase = .verify) : e.awaiting = 0#24 ∧ e.inputsAwaiting = false := by
  simp [Engine.awaiting, Engine.inputsAwaiting, h, k]

theorem Engine.awaiting_none {e : Engine} (h : ∀ j, e.library.operation ≠ .recall j) :
    e.awaiting = 0#24 ∧ e.inputsAwaiting = false := by
  unfold Engine.awaiting Engine.inputsAwaiting
  constructor <;> split <;> first | exact absurd ‹_› (h _) | rfl

end Sys2Proof.Machine
end

