-- ==== Sys2Proof/Laws/Marks.lean ====
section
/-! SUPPORT. The marks of frames that no console is to see (R78, R90, log 26): only a frame instant sets one, a frame on
the line stays there while others become ready, and the command behind that instant is the warm reset. -/
namespace Sys2Proof.Machine

/-! ### What may be marked -/

/-- R175: a MET tells the items of its block. -/
theorem Frame.tellsClipOrGuard_met {r : Reply} {b : NoticeBlock} (h : r.status = .met) (d : r.data = b.bytes) :
    Frame.tellsClipOrGuard (.parked r) = (b.items.has (.event .clip) || b.items.has (.event .guard)) := by
  have low (k : Nat) (hk : k < 8) : (byteOf b.items.events.toNat).getLsbD k = b.items.events.getLsbD k := by
    rw [byteOf, BitVec.getLsbD_ofNat]; simp [hk, BitVec.getLsbD]
  simp only [Frame.tellsClipOrGuard, h, d, NoticeBlock.bytes, bytes16, List.cons_append, List.nil_append,
    List.getD_cons_succ, List.getD_cons_zero, decide_true, Bool.true_and, ItemSet.has]
  rw [low _ (by decide), low _ (by decide)]

/-- R167: the command right behind makes a warm reset as a pulse on the reset pin, or as the end of the reply of RESET
ENGINE. -/
theorem State.resetFollows_iff (s : State) :
    s.resetFollows = true ↔ ∃ rest, s.pending = .warmReset :: rest ∨
      ∃ p r, s.pending = .transmitFrameEnd p :: rest ∧ (s.port p).line = some (.service r) ∧ r.echo = 0x05 ∧
        r.status = .ok := by
  unfold State.resetFollows
  constructor
  · intro h
    split at h
    · exact ⟨_, .inl ‹_›⟩
    · split at h
      · rename_i q r l
        simp only [Reply.resetsEngine, Bool.and_eq_true, decide_eq_true_eq] at h
        exact ⟨_, .inr ⟨_, _, ‹_›, l, h⟩⟩
      · cases h
    · cases h
  · rintro ⟨rest, h | ⟨p, r, h, l, echo, status⟩⟩
    · rw [h]
    · rw [h]; simp only [l, Reply.resetsEngine, echo, status]; rfl

/-! ### Marks and the line at one port -/

/-- What a port does to its unit, flags and ready frames leaves the line and its mark. -/
structure PortState.SameLine (x y : PortState) : Prop where
  line : y.line = x.line
  unseen : y.unseen = x.unseen

theorem PortState.SameLine.trans {x y z : PortState} (h : x.SameLine y) (k : y.SameLine z) : x.SameLine z :=
  ⟨k.line.trans h.line, k.unseen.trans h.unseen⟩

theorem PortState.sameLine_refl (x : PortState) : x.SameLine x := ⟨rfl, rfl⟩

theorem PortState.sameLine_update (x : PortState) (levels : BitVec 8) : x.SameLine (x.update levels) := by
  unfold PortState.update; dsimp only; split <;> exact ⟨rfl, rfl⟩

theorem PortState.sameLine_offer (x : PortState) (i : Item) (levels : BitVec 8) : x.SameLine (x.offer i levels) := by
  unfold PortState.offer
  split
  · split <;> exact ⟨rfl, rfl⟩
  · exact ⟨rfl, rfl⟩

theorem PortState.sameLine_happen (x : PortState) (w : Bool) (levels : BitVec 8) (h : Happening) :
    x.SameLine (x.happen w levels h) := by
  have record : ∀ i, x.SameLine (x.record i) := fun i => ⟨rfl, rfl⟩
  cases h with
  | update => exact x.sameLine_update levels
  | item i =>
    simp only [PortState.happen, PortState.arrive]
    split
    · exact ((record i).trans (PortState.sameLine_offer _ i levels)).trans (PortState.sameLine_update _ levels)
    · exact ((record i).trans (PortState.sameLine_update _ levels)).trans (PortState.sameLine_offer _ i levels)
  | _ => exact ⟨rfl, rfl⟩

theorem PortState.sameLine_run (w : Nat → Bool) (levels : BitVec 8) (hs : List Happening) :
    ∀ (k : Nat) (x : PortState), x.SameLine (PortState.run w levels k hs x) := by
  induction hs with
  | nil => exact fun k x => x.sameLine_refl
  | cons h hs ih => exact fun k x => (x.sameLine_happen (w k) levels h).trans (ih (k + 1) _)

@[simp] theorem PortState.kick_unseen (x : PortState) : x.kick.unseen = x.unseen := by
  unfold PortState.kick; split <;> rfl

theorem PortState.kick_line {x : PortState} {f : Frame} (h : x.line = some f) : x.kick.line = some f := by
  unfold PortState.kick; rw [h]; exact h

/-! ### Marks and the line at the end of a command -/

/-- What a command leaves at a port: the mark, and any frame that was on the line. -/
structure PortState.LineStays (x y : PortState) : Prop where
  line : ∀ f, x.line = some f → y.line = some f
  unseen : y.unseen = x.unseen

theorem PortState.LineStays.trans {x y z : PortState} (h : x.LineStays y) (k : y.LineStays z) : x.LineStays z :=
  ⟨fun f e => k.line f (h.line f e), k.unseen.trans h.unseen⟩

theorem PortState.lineStays_refl (x : PortState) : x.LineStays x := ⟨fun _ h => h, rfl⟩

theorem State.deliver_lineStays (s : State) (p : Port) (blocks : List (List Happening)) (p' : Port) :
    (s.port p').LineStays ((s.deliver p blocks).port p') := by
  rcases Port.eq_or_other p p' with rfl | rfl
  · obtain ⟨w, o, _, eq⟩ := State.deliver_port s p' blocks
    have run := PortState.sameLine_run w (s.engine.levels p') o.flatten 0 (s.port p')
    rw [eq]
    exact ⟨fun f h => PortState.kick_line (run.line.trans h), by rw [PortState.kick_unseen, run.unseen]⟩
  · rw [State.deliver_other]; exact PortState.lineStays_refl _

theorem State.conclude_lineStays (s : State) (before : Engine) (events : List Event) (p : Port)
    (own : List (List Happening)) (p' : Port) :
    (s.port p').LineStays ((s.conclude before events p own).port p') :=
  (s.deliver_lineStays _ _ p').trans (State.deliver_lineStays _ _ _ p')

theorem State.acted_lineStays (s : State) (f : Engine → Act) (p : Port) :
    (s.port p).LineStays ((s.acted f).port p) := by
  have := State.conclude_lineStays (s.setEngine (f s.engine).1) s.engine (f s.engine).2 .home [] p
  rwa [State.setEngine_port] at this

/-- A port replaced by one with the same line. -/
theorem State.setPort_lineStays {s : State} {p : Port} {x : PortState} (h : (s.port p).LineStays x) (p' : Port) :
    (s.port p').LineStays ((s.setPort p x).port p') := by
  rcases Port.eq_or_other p p' with rfl | rfl
  · rw [State.setPort_port]; exact h
  · rw [State.setPort_port_other]; exact PortState.lineStays_refl _

theorem State.setPort_sameLine {s : State} {p : Port} {x : PortState} (line : x.line = (s.port p).line)
    (unseen : x.unseen = (s.port p).unseen) (p' : Port) : (s.port p').LineStays ((s.setPort p x).port p') :=
  State.setPort_lineStays ⟨fun _ h => line.trans h, unseen⟩ p'

/-! ### Requests -/

theorem answerOf_lineStays (r : Request) (p : Port) (e : Engine) (x : PortState) :
    x.LineStays (answerOf r p e x).port := by
  have same : ∀ y : PortState, y.line = x.line → y.unseen = x.unseen → x.LineStays y :=
    fun y h k => ⟨fun f e => h.trans e, k⟩
  unfold answerOf
  split
  · exact x.lineStays_refl
  · split
    · exact x.lineStays_refl
    · rename_i n _ _ _
      cases n <;> simp only [answerRequest] <;> first | exact x.lineStays_refl | skip
      · exact same _ rfl rfl
      · exact same _ rfl rfl
      · unfold answerWait; dsimp only; split
        · exact x.lineStays_refl
        · split <;> exact same _ rfl rfl
      · unfold answerCancelWait; split
        · exact x.lineStays_refl
        · exact same _ rfl rfl

theorem State.applyRequest_lineStays (s : State) (p : Port) (r : Request) (p' : Port) :
    (s.port p').LineStays ((s.applyRequest p r).port p') := by
  have answer := answerOf_lineStays r p s.engine { s.port p with service := some r }
  have placed := State.setPort_lineStays (s := s.setEngine (answerOf r p s.engine
    { s.port p with service := some r }).engine) (p := p) (x := (answerOf r p s.engine
    { s.port p with service := some r }).port) (by rw [State.setEngine_port]; exact ⟨answer.line, answer.unseen⟩) p'
  rw [State.setEngine_port] at placed
  exact placed.trans (State.conclude_lineStays _ _ _ _ _ p')

theorem State.serve_lineStays (p : Port) (k : Nat) (s : State) (p' : Port) :
    (s.port p').LineStays ((State.serve p k s).port p') := by
  induction k generalizing s with
  | zero => exact PortState.lineStays_refl _
  | succ k ih =>
    refine PortState.LineStays.trans ?_ (ih _)
    unfold State.takeOne
    split
    · exact (State.setPort_sameLine (by rfl) (by rfl) p').trans (State.applyRequest_lineStays _ _ _ p')
    · exact PortState.lineStays_refl _

theorem State.offerRequest_lineStays (s : State) (p : Port) (r : Request) (p' : Port) :
    (s.port p').LineStays ((s.offerRequest p r).port p') := by
  unfold State.offerRequest
  split
  · exact (State.setPort_sameLine (by rfl) (by rfl) p').trans (State.serve_lineStays _ _ _ p')
  · exact State.setPort_sameLine (by rfl) (by rfl) p'

theorem State.gather_lineStays (s : State) (p : Port) (got : List Byte) (p' : Port) :
    (s.port p').LineStays ((s.gather p got).port p') := by
  unfold State.gather
  split
  · exact State.setPort_sameLine (by rfl) (by rfl) p'
  · split
    · split
      · exact (State.setPort_sameLine (by rfl) (by rfl) p').trans (State.offerRequest_lineStays _ _ _ p')
      · exact State.setPort_sameLine (by rfl) (by rfl) p'
    · exact State.setPort_sameLine (by rfl) (by rfl) p'

theorem State.act_lineStays {s t : State} {f : Engine → Act} (e : s.act f = .next t) (p : Port) :
    (s.port p).LineStays (t.port p) := by
  unfold State.act at e
  split at e <;> cases e
  · exact s.acted_lineStays f p
  · exact PortState.lineStays_refl _

/-! ### Every command -/

/-- Only a frame instant marks a frame. -/
theorem exec_unmarked {c : Instr} {s t : State} (hc : c ≠ .frameInstant) (e : exec c s = .next t)
    (h : ∀ p, (s.port p).unseen = false) (p : Port) : (t.port p).unseen = false := by
  have kept : (s.port p).LineStays (t.port p) → (t.port p).unseen = false := fun k => k.unseen.trans (h p)
  cases hr : requestOf c with
  | some x =>
    obtain ⟨q, r⟩ := x
    rw [exec_request hr] at e
    unfold State.request at e
    split at e <;> cases e
    · exact kept (State.offerRequest_lineStays _ _ _ p)
    · exact h p
  | none =>
    cases c <;> first
      | (exfalso; simp only [requestOf, reduceCtorEq] at hr; done)
      | exact kept (State.act_lineStays e p)
      | skip
    case signalAppears l =>
      simp only [exec, execSignalAppears] at e
      split at e
      · exact kept (State.act_lineStays e p)
      · cases e; exact h p
    case signalLost l =>
      simp only [exec, execSignalLost] at e
      split at e
      · exact kept (State.act_lineStays e p)
      · cases e; exact h p
    case frameInstant => exact absurd rfl hc
    case receiveByte q b f =>
      simp only [exec, execReceiveByte] at e
      split at e
      · split at e
        · split at e <;> cases e
          · exact kept (State.setPort_sameLine (by rfl) (by rfl) p)
          · exact h p
        · split at e <;> cases e
          · exact kept (State.setPort_sameLine (by rfl) (by rfl) p)
          · exact kept (State.gather_lineStays _ _ _ p)
        · cases e; exact h p
      · cases e; exact h p
    case interbyteSilenceTimeout q =>
      simp only [exec, execInterbyteSilenceTimeout] at e
      split at e
      · split at e <;> cases e
        · exact kept (State.setPort_sameLine (by rfl) (by rfl) p)
        · exact h p
      · cases e; exact h p
    case lineBreak q =>
      simp only [exec, execLineBreak] at e
      split at e
      · split at e <;> cases e
        · exact h p
        · refine kept (PortState.LineStays.trans ?_ (State.conclude_lineStays _ _ _ _ _ p))
          rw [State.setEngine_port]
          exact State.setPort_sameLine (by rfl) (by rfl) p
      · cases e; exact h p
    case lineIdle q =>
      simp only [exec, execLineIdle] at e
      split at e
      · split at e <;> cases e
        · exact kept (State.setPort_sameLine (by rfl) (by rfl) p)
        · exact h p
      · cases e; exact h p
    case transmitFrameEnd q =>
      have ended : ((s.port q).lineEnds).unseen = false := by rw [PortState.lineEnds, PortState.kick_unseen]
      simp only [exec, execTransmitFrameEnd] at e
      split at e
      · split at e
        · cases e; exact h p
        · split at e <;> cases e
          · rw [State.warmReset_port]; rfl
          · refine (State.serve_lineStays _ _ _ p).unseen.trans ?_
            rcases Port.eq_or_other q p with rfl | rfl
            · rw [State.setPort_port]; exact ended
            · rw [State.setPort_port_other]; exact h _
        · cases e
          rcases Port.eq_or_other q p with rfl | rfl
          · rw [State.setPort_port]; exact ended
          · rw [State.setPort_port_other]; exact h _
      · cases e; exact h p
    case warmReset =>
      simp only [exec, execWarmReset] at e
      split at e <;> cases e
      · rw [State.warmReset_port]; rfl
      · exact h p
    case powerUp =>
      simp only [exec, execPowerUp] at e
      split at e <;> cases e
      · exact h p
      · cases p <;> rfl
    case powerLoss n =>
      simp only [exec, execPowerLoss] at e
      split at e <;> cases e
      · rw [State.setEngine_port]; exact h p
      · exact h p
    case waitTimeout q =>
      simp only [exec, execWaitTimeout] at e
      split at e
      · split at e <;> cases e
        · exact kept ((State.setPort_sameLine (by rfl) (by rfl) p).trans (State.conclude_lineStays _ _ _ _ _ p))
        · exact h p
      · cases e; exact h p

/-- R78, R90: a frame instant marks a frame only while the command right behind makes a warm reset, and leaves that
so. -/
theorem exec_frameInstant_follows {s t : State} (h : s.engine.powered = true) (e : exec .frameInstant s = .next t)
    (f : s.resetFollows = true) : t.resetFollows = true := by
  simp only [exec, execFrameInstant, h, if_true] at e
  cases e
  have pending : (s.endInstant (State.acted { s with draws := s.draws + 1 }
      (Engine.frameInstant (Config.receiverTurn s.draws)))).pending = s.pending := by
    simp [State.endInstant, State.acted]
  have line : ∀ p g, (s.port p).line = some g → ((s.endInstant (State.acted { s with draws := s.draws + 1 }
      (Engine.frameInstant (Config.receiverTurn s.draws)))).port p).line = some g := by
    intro p g k
    rw [State.endInstant_port]
    refine (State.acted_lineStays { s with draws := s.draws + 1 } _ p).line g ?_
    rw [← k]; cases p <;> rfl
  unfold State.resetFollows at f ⊢
  rw [pending]
  split at f
  · rfl
  · split at f
    · rename_i g
      simp only [line _ _ g]; exact f
    · cases f
  · cases f

end Sys2Proof.Machine
end

