-- ==== Sys2Proof/Laws/Packs.lean ====
section
/-! SUPPORT. The pack slots, the sweep and the key handler: what the operations over them read and keep. -/
namespace Sys2Proof.Machine

theorem rises_of_packs (e : Engine) (b : PackBus) (h : b.slots = e.packs.slots) (hc : b.calls = e.packs.calls)
    (p) : rises e { e with packs := b } p = [] :=
  rises_of_level (Engine.level_congr (e := e) (e' := { e with packs := b }) rfl rfl rfl rfl rfl rfl (by simp only [PackBus.anyLost, h]) hc p)

theorem slotSet_getLsbD (f : Fin 32 → Bool) (a : Fin 32) : (slotSet f).getLsbD a.val = f a := by
  have key : ∀ (l : List (Fin 32)) (acc : BitVec 32), 
      (l.foldl (fun acc b => if f b then acc ||| BitVec.twoPow 32 b.val else acc) acc).getLsbD a.val = (acc.getLsbD a.val || (decide (a ∈ l) && f a)) := by
    intro l
    induction l with
    | nil => intro acc; simp
    | cons b l ih =>
      intro acc
      rw [List.foldl_cons, ih]
      by_cases hb : b = a
      · subst hb
        cases h : f b <;> simp [h, BitVec.getLsbD_twoPow]
      · have : ¬ b.val = a.val := fun h => hb (Fin.ext h)
        have h2 : ¬ a = b := fun h => hb h.symm
        have this' : ¬ a.val = b.val := fun h => this h.symm
        cases h : f b <;> simp [h2, this, this', BitVec.getLsbD_twoPow]
  unfold slotSet
  rw [key]; simp

theorem flatMap_eq_replicate (l : List (Fin 32)) (f : Fin 32 → Bool) (e : Event) : l.flatMap
    (fun a => if f a = true then [e] else []) = List.replicate (l.countP f) e := by
  induction l with
  | nil => rfl
  | cons a l ih =>
    rw [List.flatMap_cons, ih, List.countP_cons]
    cases h : f a <;> simp [List.replicate_succ]

theorem searchOrder_pairwise : ∀ p : Fin 32, (searchOrder p).Pairwise (fun a b => (a.val + 31 - p.val) % 32 <
    (b.val + 31 - p.val) % 32) := by decide

theorem mem_searchOrder : ∀ p a : Fin 32, a ∈ searchOrder p := by decide

theorem searchOrder_perm (p : Fin 32) : (searchOrder p).Perm (List.finRange 32) := by
  have nd : (searchOrder p).Nodup := by
    refine (searchOrder_pairwise p).imp ?_
    rintro a b h rfl; omega
  exact (List.perm_ext_iff_of_nodup nd (List.nodup_finRange 32)).2 fun a => by simp [mem_searchOrder]

theorem byteSum_foldl (l : List Byte) (acc : Byte) : (l.foldl (fun acc b => acc + b) acc).toNat = (acc.toNat +
    (l.map BitVec.toNat).sum) % 256 := by
  induction l generalizing acc with
  | nil => simp; omega
  | cons b l ih => rw [List.foldl_cons, ih]; simp [BitVec.toNat_add]; omega

theorem byteSum_zero (l : List Byte) : byteSum l = 0#8 ↔ (l.map BitVec.toNat).sum % 256 = 0 := by
  rw [← BitVec.toNat_inj]; unfold byteSum; rw [byteSum_foldl]; simp

theorem reportGood_iff (bytes : List Byte) : reportGood bytes = true ↔ ∃ count codes check, bytes = count ::
    (codes ++ [check]) ∧ codes.length ≤ 5 ∧
        count.toNat = codes.length ∧ ((count :: (codes ++ [check])).map BitVec.toNat).sum % 256 = 0 := by
  constructor
  · intro h
    unfold reportGood at h
    cases bytes with
    | nil => cases h
    | cons count rest =>
      simp only [Bool.and_eq_true, decide_eq_true_eq] at h
      obtain ⟨⟨h1, h2⟩, h3⟩ := h
      have hne : rest ≠ [] := by rintro rfl; simp at h2
      have hsp := List.dropLast_concat_getLast hne
      refine ⟨count, rest.dropLast, rest.getLast hne, by rw [hsp], by simp; omega, by simp; omega, ?_⟩
      rw [hsp]; exact (byteSum_zero _).1 h3
  · rintro ⟨count, codes, check, rfl, h1, h2, h3⟩
    unfold reportGood
    simp only [Bool.and_eq_true, decide_eq_true_eq]
    exact ⟨⟨by omega, by simp; omega⟩, (byteSum_zero _).2 h3⟩

theorem classify_clean (r : Received) (id : PackIdentity) : classify r = .clean id ↔ ∃ check, r = .bytes
    (id.toList ++ [check]) ∧
      ((id.toList ++ [check]).map BitVec.toNat).sum % 256 = 0 := by
  unfold classify
  constructor
  · intro h
    split at h
    · cases h
    · rename_i sent
      split at h
      · rename_i hh
        cases h
        obtain ⟨a, b, c, d, e, f, g, rfl⟩ : ∃ a b c d e f g, sent = [a, b, c, d, e, f, g] := by
          match sent, hh.1 with
          | [a, b, c, d, e, f, g], _ => exact ⟨a, b, c, d, e, f, g, rfl⟩
        have : (identityOf [a,b,c,d,e,f,g]).toList = [a,b,c,d,e,f] := by
          simp [identityOf, Vector.toList_ofFn, List.ofFn]; rfl
        refine ⟨g, by rw [this]; rfl, by rw [this]; exact (byteSum_zero _).1 hh.2⟩
      · cases h
    · cases h
  · rintro ⟨check, rfl, h⟩
    simp only
    rw [if_pos ⟨by simp, (byteSum_zero _).2 h⟩]
    congr 1
    apply Vector.ext
    intro k hk
    simp only [identityOf, Vector.getElem_ofFn, List.getD_eq_getElem?_getD]
    rw [List.getElem?_append_left (by simpa using hk)]
    simp [hk]
    

theorem rises_of_noNewLoss (e : Engine) (b : PackBus) (h : b.anyLost = true → e.packs.anyLost = true)
    (hc : b.calls = e.packs.calls) (p) : rises e { e with packs := b } p = [] := by
  refine rises_nil fun x hx => ?_
  cases x <;> first | exact hx | exact h hx | simpa [Engine.level, hc] using hx

theorem Engine.nextWindow_eq (e : Engine) (a : Fin 32) (sweep : SweepPart)
    (h1 : ∀ b : Fin 32, b.val = a.val + 1 → sweep = .attach b) (h2 : a.val = 31 → sweep = .downstream) :
    e.nextWindow a = { e with packs := { e.packs with sweep := sweep } } := by
  unfold Engine.nextWindow
  split
  · rename_i h; rw [h1 ⟨a.val + 1, h⟩ rfl]
  · rename_i h; rw [h2 (by omega)]

theorem PackBus.anyLost_of_set (b : PackBus) (a : Fin 32) (y : PackSlot) (h : y.state = .lost →
    (b.slots[a]).state = .lost) (b' : PackBus) (hb : b'.slots = b.slots.set a y) : b'.anyLost = true → b.anyLost =
    true := by
  simp only [PackBus.anyLost, List.any_eq_true, List.mem_finRange, true_and, decide_eq_true_eq, hb]
  rintro ⟨c, hc⟩
  by_cases h' : c = a
  · subst h'; exact ⟨c, h (by simpa using hc)⟩
  · have : ¬ a.val = c.val := fun h => h' (Fin.ext h.symm)
    exact ⟨c, by simpa [Vector.getElem_set, this] using hc⟩

/-- The first element of a list that a test accepts, with its place. -/
theorem find_of_first (l : List (Fin 9)) (f : Fin 9 → Bool) (h : ∃ u ∈ l, f u = true) :
   ∃ (t : Fin 9) (d : Nat) (hd : d < l.length), l.find? f = some t ∧ l[d] = t ∧ f t = true ∧ ∀ k (hk : k < d), f (l[k]'(by omega)) = false := by
  cases hf : l.find? f with
  | none =>
    obtain ⟨u, hu, hu'⟩ := h
    exact absurd hu' (by simpa using (List.find?_eq_none.1 hf) u hu)
  | some t =>
    rw [List.find?_eq_some_iff_getElem] at hf
    obtain ⟨h1, d, hd, h2, h3⟩ := hf
    exact ⟨t, d, hd, rfl, h2, h1, fun k hk => by simpa using h3 k hk⟩

theorem zero_mem_upwardFrom : ∀ t : Fin 9, (0 : Fin 9) ∈ upwardFrom t := by decide

theorem zero_mem_downwardFrom : ∀ t : Fin 9, (0 : Fin 9) ∈ downwardFrom t := by decide

theorem upwardFrom_get : ∀ (t k : Fin 9), ((upwardFrom t)[k.val]'(by simp [upwardFrom])).val = (t.val +
    (k.val + 1)) % 9 := by decide

theorem downwardFrom_get : ∀ (t k : Fin 9), ((downwardFrom t)[k.val]'(by simp [downwardFrom])).val = (t.val + 9 -
    (k.val + 1)) % 9 := by decide

/-- What `PackBus.Lawful` says of one slot. -/
def PackSlot.Lawful (x : PackSlot) : Prop :=
  (x.state = .online ∨ x.state = .lost → x.identity ≠ none) ∧ (x.state = .empty → x.identity = none) ∧
  (x.missRun ≤ 16 ∧ (x.state = .online → x.missRun ≤ 15)) ∧ (x.held ≠ none → x.state = .online)

theorem PackBus.Lawful.slot {b : PackBus} (h : b.Lawful) (a : Fin 32) : PackSlot.Lawful b.slots[a] := ⟨h.present a,
    h.absent a, h.misses a, h.held a⟩

theorem PackBus.lawful_of_slots {b : PackBus} (h : ∀ a : Fin 32, PackSlot.Lawful b.slots[a]) (u : ∀ a a' : Fin 32,
    (b.slots[a]).identity ≠ none → (b.slots[a]).identity = (b.slots[a']).identity → a = a') (p : ∀ l, b.sweep =
    .reading l → l.length ≤ 2) (c : b.calls.Nodup) : b.Lawful :=
  ⟨fun a => (h a).1, fun a => (h a).2.1, u, fun a => (h a).2.2.1, fun a => (h a).2.2.2, p, c⟩

theorem PackBus.Lawful.sameSlots {b b' : PackBus} (h : b.Lawful) (s : b'.slots = b.slots)
    (p : ∀ l, b'.sweep = .reading l → l.length ≤ 2) (c : b'.calls.Nodup) : b'.Lawful := by
  refine PackBus.lawful_of_slots (fun a => by rw [s]; exact PackBus.Lawful.slot h a) (fun a a' => by rw [s]; exact h.unique a a') p c

theorem PackBus.Lawful.mapSlots {b b' : PackBus} (h : b.Lawful) (s : ∀ a : Fin 32, PackSlot.Lawful b'.slots[a] ∧
    ((b'.slots[a]).identity = (b.slots[a]).identity ∨ (b'.slots[a]).identity = none)) (p : ∀ l, b'.sweep = .reading l
    → l.length ≤ 2) (c : b'.calls.Nodup) : b'.Lawful := by
  refine PackBus.lawful_of_slots (fun a => (s a).1) (fun a a' hn he => ?_) p c
  rcases (s a).2 with e1 | e1
  · rcases (s a').2 with e2 | e2
    · rw [e1] at hn; rw [e1, e2] at he; exact h.unique a a' hn he
    · rw [e2] at he; exact absurd he hn
  · exact absurd e1 hn

theorem Engine.step_packs (e : Engine) (a k) : (e.step a k).1.packs = e.packs := by
  unfold Engine.step; dsimp only
  split
  · rfl
  · split
    · rfl
    · split
      · unfold Engine.stepMaster; dsimp only; split
        · rfl
        · simp only [Engine.recompute_packs]; rfl
      · unfold Engine.stepGroup; dsimp only; split
        · rfl
        · simp only [Engine.recompute_packs]; rfl

theorem PackSlot.free_lawful (x : PackSlot) : PackSlot.Lawful x.free := by simp [PackSlot.Lawful, PackSlot.free]

end Sys2Proof.Machine
end

