-- ==== Sys2Proof/Laws/PerInstr.lean ====
section
/-! SUPPORT. What holds of each command as syntax: a well-formed request command carries a body that a kept frame can
carry (9.1, R152). -/
namespace Sys2Proof.Laws.Sizes

/-- 9.1: the frame of a well-formed request carries at most 16 parameter bytes and at most 512 data bytes. -/
def Statement (i : Instr) : Prop :=
  ∀ p r, Machine.requestOf i = some (p, r) → i.wellFormed = true →
    r.payload.params.length ≤ 16 ∧ r.payload.data.length ≤ 512

theorem payload_sizes {q : Payload} (h : q.wellFormed = true) : q.params.length ≤ 16 ∧ q.data.length ≤ 512 := by
  simpa [Payload.wellFormed] using h

theorem signalAppears (l : Link) : Statement (.signalAppears l) :=
  fun _ _ h => by cases h

theorem signalLost (l : Link) : Statement (.signalLost l) :=
  fun _ _ h => by cases h

theorem frameArrival (l : Link) (frame : List Byte) : Statement (.frameArrival l frame) :=
  fun _ _ h => by cases h

theorem frameInstant : Statement (.frameInstant) :=
  fun _ _ h => by cases h

theorem packBusFrame : Statement (.packBusFrame) :=
  fun _ _ h => by cases h

theorem setSourceMode (p : Port) (q : Payload) : Statement (.setSourceMode p q) :=
  fun _ _ h w => by cases h; exact payload_sizes w

theorem readLinkStatus (p : Port) (q : Payload) : Statement (.readLinkStatus p q) :=
  fun _ _ h w => by cases h; exact payload_sizes w

theorem setSend (p : Port) (q : Payload) : Statement (.setSend p q) :=
  fun _ _ h w => by cases h; exact payload_sizes w

theorem setSendRow (p : Port) (q : Payload) : Statement (.setSendRow p q) :=
  fun _ _ h w => by cases h; exact payload_sizes w

theorem readSendRow (p : Port) (q : Payload) : Statement (.readSendRow p q) :=
  fun _ _ h w => by cases h; exact payload_sizes w

theorem setMix (p : Port) (q : Payload) : Statement (.setMix p q) :=
  fun _ _ h w => by cases h; exact payload_sizes w

theorem readMix (p : Port) (q : Payload) : Statement (.readMix p q) :=
  fun _ _ h w => by cases h; exact payload_sizes w

theorem setGroup (p : Port) (q : Payload) : Statement (.setGroup p q) :=
  fun _ _ h w => by cases h; exact payload_sizes w

theorem readGroup (p : Port) (q : Payload) : Statement (.readGroup p q) :=
  fun _ _ h w => by cases h; exact payload_sizes w

theorem setLinkSet (p : Port) (q : Payload) : Statement (.setLinkSet p q) :=
  fun _ _ h w => by cases h; exact payload_sizes w

theorem setInput (p : Port) (q : Payload) : Statement (.setInput p q) :=
  fun _ _ h w => by cases h; exact payload_sizes w

theorem readInputs (p : Port) (q : Payload) : Statement (.readInputs p q) :=
  fun _ _ h w => by cases h; exact payload_sizes w

theorem setTalkSource (p : Port) (q : Payload) : Statement (.setTalkSource p q) :=
  fun _ _ h w => by cases h; exact payload_sizes w

theorem talk (p : Port) (q : Payload) : Statement (.talk p q) :=
  fun _ _ h w => by cases h; exact payload_sizes w

theorem readEffective (p : Port) (q : Payload) : Statement (.readEffective p q) :=
  fun _ _ h w => by cases h; exact payload_sizes w

theorem readMeters (p : Port) (q : Payload) : Statement (.readMeters p q) :=
  fun _ _ h w => by cases h; exact payload_sizes w

theorem clearLatches (p : Port) (q : Payload) : Statement (.clearLatches p q) :=
  fun _ _ h w => by cases h; exact payload_sizes w

theorem readLatches (p : Port) (q : Payload) : Statement (.readLatches p q) :=
  fun _ _ h w => by cases h; exact payload_sizes w

theorem storeScene (p : Port) (q : Payload) : Statement (.storeScene p q) :=
  fun _ _ h w => by cases h; exact payload_sizes w

theorem storeWriteEnd : Statement (.storeWriteEnd) :=
  fun _ _ h => by cases h

theorem recallScene (p : Port) (q : Payload) : Statement (.recallScene p q) :=
  fun _ _ h w => by cases h; exact payload_sizes w

theorem recallVerifyEnd (degraded : Option SceneName) : Statement (.recallVerifyEnd degraded) :=
  fun _ _ h => by cases h

theorem mixLoad : Statement (.mixLoad) :=
  fun _ _ h => by cases h

theorem inputSectionLoad : Statement (.inputSectionLoad) :=
  fun _ _ h => by cases h

theorem abortRecall (p : Port) (q : Payload) : Statement (.abortRecall p q) :=
  fun _ _ h w => by cases h; exact payload_sizes w

theorem eraseScene (p : Port) (q : Payload) : Statement (.eraseScene p q) :=
  fun _ _ h w => by cases h; exact payload_sizes w

theorem eraseEnd : Statement (.eraseEnd) :=
  fun _ _ h => by cases h

theorem protectScene (p : Port) (q : Payload) : Statement (.protectScene p q) :=
  fun _ _ h w => by cases h; exact payload_sizes w

theorem setStartScene (p : Port) (q : Payload) : Statement (.setStartScene p q) :=
  fun _ _ h w => by cases h; exact payload_sizes w

theorem readDirectory (p : Port) (q : Payload) : Statement (.readDirectory p q) :=
  fun _ _ h w => by cases h; exact payload_sizes w

theorem readResult (p : Port) (q : Payload) : Statement (.readResult p q) :=
  fun _ _ h w => by cases h; exact payload_sizes w

theorem verifySlotDone (degraded : Option SceneName) : Statement (.verifySlotDone degraded) :=
  fun _ _ h => by cases h

theorem sweepStart : Statement (.sweepStart) :=
  fun _ _ h => by cases h

theorem pollPhase (answers : BitVec 64) : Statement (.pollPhase answers) :=
  fun _ _ h => by cases h

theorem readPhase : Statement (.readPhase) :=
  fun _ _ h => by cases h

theorem keyReportRead (slot : Fin 32) (report : Option (List Byte)) : Statement (.keyReportRead slot report) :=
  fun _ _ h => by cases h

theorem announceWindow (slot : Fin 32) (received : Received) : Statement (.announceWindow slot received) :=
  fun _ _ h => by cases h

theorem downstreamPart : Statement (.downstreamPart) :=
  fun _ _ h => by cases h

theorem assignPack (p : Port) (q : Payload) : Statement (.assignPack p q) :=
  fun _ _ h w => by cases h; exact payload_sizes w

theorem releasePack (p : Port) (q : Payload) : Statement (.releasePack p q) :=
  fun _ _ h w => by cases h; exact payload_sizes w

theorem readPackTable (p : Port) (q : Payload) : Statement (.readPackTable p q) :=
  fun _ _ h w => by cases h; exact payload_sizes w

theorem makeOfUp (slot : Fin 32) : Statement (.makeOfUp slot) :=
  fun _ _ h => by cases h

theorem makeOfDown (slot : Fin 32) : Statement (.makeOfDown slot) :=
  fun _ _ h => by cases h

theorem makeOfNext (slot : Fin 32) : Statement (.makeOfNext slot) :=
  fun _ _ h => by cases h

theorem makeOfPrev (slot : Fin 32) : Statement (.makeOfPrev slot) :=
  fun _ _ h => by cases h

theorem makeOfCall (slot : Fin 32) : Statement (.makeOfCall slot) :=
  fun _ _ h => by cases h

theorem makeOfSilence (slot : Fin 32) : Statement (.makeOfSilence slot) :=
  fun _ _ h => by cases h

theorem breakOfUp (slot : Fin 32) : Statement (.breakOfUp slot) :=
  fun _ _ h => by cases h

theorem breakOfDown (slot : Fin 32) : Statement (.breakOfDown slot) :=
  fun _ _ h => by cases h

theorem breakOfMakeOnlyKey (slot : Fin 32) (key : MakeOnlyKey) : Statement (.breakOfMakeOnlyKey slot key) :=
  fun _ _ h => by cases h

theorem overflowMarker (slot : Fin 32) : Statement (.overflowMarker slot) :=
  fun _ _ h => by cases h

theorem ignoredKeyCode (slot : Fin 32) (code : Byte) : Statement (.ignoredKeyCode slot code) :=
  fun _ _ h => by cases h

theorem heldKeyExpiry (slot : Fin 32) : Statement (.heldKeyExpiry slot) :=
  fun _ _ h => by cases h

theorem readCalls (p : Port) (q : Payload) : Statement (.readCalls p q) :=
  fun _ _ h w => by cases h; exact payload_sizes w

theorem receiveByte (p : Port) (byte : Byte) (framingError : Bool) : Statement (.receiveByte p byte framingError) :=
  fun _ _ h => by cases h

theorem interbyteSilenceTimeout (p : Port) : Statement (.interbyteSilenceTimeout p) :=
  fun _ _ h => by cases h

theorem lineBreak (p : Port) : Statement (.lineBreak p) :=
  fun _ _ h => by cases h

theorem lineIdle (p : Port) : Statement (.lineIdle p) :=
  fun _ _ h => by cases h

theorem transmitFrameEnd (p : Port) : Statement (.transmitFrameEnd p) :=
  fun _ _ h => by cases h

theorem unknownRequest (p : Port) (code : Byte) (q : Payload) : Statement (.unknownRequest p code q) := by
  intro _ _ h w
  cases h
  exact payload_sizes (by simpa using (Bool.and_eq_true _ _ ▸ w).2)

theorem identify (p : Port) (q : Payload) : Statement (.identify p q) :=
  fun _ _ h w => by cases h; exact payload_sizes w

theorem portStatus (p : Port) (q : Payload) : Statement (.portStatus p q) :=
  fun _ _ h w => by cases h; exact payload_sizes w

theorem passCharge (p : Port) (q : Payload) : Statement (.passCharge p q) :=
  fun _ _ h w => by cases h; exact payload_sizes w

theorem reclaimCharge (p : Port) (q : Payload) : Statement (.reclaimCharge p q) :=
  fun _ _ h w => by cases h; exact payload_sizes w

theorem resetEngine (p : Port) (q : Payload) : Statement (.resetEngine p q) :=
  fun _ _ h w => by cases h; exact payload_sizes w

theorem warmReset : Statement (.warmReset) :=
  fun _ _ h => by cases h

theorem powerUp : Statement (.powerUp) :=
  fun _ _ h => by cases h

theorem powerLoss (cutName : SceneName) : Statement (.powerLoss cutName) :=
  fun _ _ h => by cases h

theorem setNoticeMask (p : Port) (q : Payload) : Statement (.setNoticeMask p q) :=
  fun _ _ h w => by cases h; exact payload_sizes w

theorem readNoticeMask (p : Port) (q : Payload) : Statement (.readNoticeMask p q) :=
  fun _ _ h w => by cases h; exact payload_sizes w

theorem readReasons (p : Port) (q : Payload) : Statement (.readReasons p q) :=
  fun _ _ h w => by cases h; exact payload_sizes w

theorem readStates (p : Port) (q : Payload) : Statement (.readStates p q) :=
  fun _ _ h w => by cases h; exact payload_sizes w

theorem wait (p : Port) (q : Payload) : Statement (.wait p q) :=
  fun _ _ h w => by cases h; exact payload_sizes w

theorem cancelWait (p : Port) (q : Payload) : Statement (.cancelWait p q) :=
  fun _ _ h w => by cases h; exact payload_sizes w

theorem waitTimeout (p : Port) : Statement (.waitTimeout p) :=
  fun _ _ h => by cases h

end Sys2Proof.Laws.Sizes
end

