-- ==== Sys2Proof/Laws/Stages.lean ====
section
/-! SUPPORT. The invariant of the stage links and of the selector: what keeps each of them lawful. -/
namespace Sys2Proof.Machine

/-! ### Receivers (R2 to R6) -/

theorem Receiver.Lawful.leaveLocked {r : Receiver} (h : r.Lawful) (st : LinkState) : (r.leaveLocked st).Lawful :=
  ⟨Nat.zero_le 3, Nat.zero_le 7, h.count, h.slips, nofun, nofun⟩

theorem Receiver.Lawful.withSignal {r : Receiver} (h : r.Lawful) (b : Bool) : Receiver.Lawful { r with signal := b } :=
  ⟨h.goodRun, h.missRun, h.count, h.slips, h.held, h.fresh⟩

theorem Receiver.Lawful.stale {r : Receiver} (h : r.Lawful) : Receiver.Lawful { r with fresh := false } :=
  ⟨h.goodRun, h.missRun, h.count, h.slips, h.held, nofun⟩

/-- A receiver that is not LOCKED holds nothing. -/
theorem Receiver.Lawful.idle {r : Receiver} (h : r.Lawful) (st : r.state ≠ .locked) : r.held = none ∧ r.fresh = false := by
  have held : r.held = none := by
    cases e : r.held with
    | none => rfl
    | some f => exact absurd (h.held f e).1 st
  refine ⟨held, ?_⟩
  cases e : r.fresh with
  | false => rfl
  | true => exact absurd held (h.fresh e)

theorem Receiver.Lawful.signalAppears {r : Receiver} (h : r.Lawful) : r.signalAppears.Lawful := by
  unfold Receiver.signalAppears
  split
  · rename_i st
    obtain ⟨a, b⟩ := h.idle (by rw [st]; decide)
    exact ⟨Nat.zero_le 3, h.missRun, h.count, h.slips, by simp [a], by simp [b]⟩
  · exact h.withSignal true

theorem Receiver.Lawful.signalLost {r : Receiver} (h : r.Lawful) : r.signalLost.Lawful := by
  unfold Receiver.signalLost
  split
  · exact h.withSignal false
  · rename_i st
    obtain ⟨a, b⟩ := h.idle (by rw [st]; decide)
    exact ⟨Nat.zero_le 3, h.missRun, h.count, h.slips, by simp [a], by simp [b]⟩
  · exact (h.leaveLocked .down).withSignal false

theorem Receiver.Lawful.arrival {r : Receiver} (h : r.Lawful) (bytes : List Byte) : (r.arrival bytes).Lawful := by
  unfold Receiver.arrival
  split
  · rename_i f st good
    have carried := (goodFrame_some good).1
    unfold Receiver.seek
    split
    · exact ⟨Nat.zero_le 3, Nat.zero_le 7, carried.2.1, Nat.zero_le 65535,
        fun g e => by cases e; exact ⟨rfl, carried⟩, fun _ => nofun⟩
    · obtain ⟨a, b⟩ := h.idle (by rw [st]; decide)
      refine ⟨?_, h.missRun, carried.2.1, h.slips, by simp [Receiver.note, a], by simp [Receiver.note, b]⟩
      dsimp only; omega
  · rename_i f st good
    have carried := (goodFrame_some good).1
    refine ⟨h.goodRun, Nat.zero_le 7, carried.2.1, ?_, fun g e => by cases e; exact ⟨st, carried⟩, fun _ => nofun⟩
    unfold Receiver.accept
    dsimp only
    split
    · exact h.slips
    · exact Nat.min_le_left _ _
  · exact h

theorem Receiver.Lawful.worked {r : Receiver} (h : r.Lawful) : r.worked.Lawful := by
  by_cases leaves : r.leaving
  · rw [Receiver.worked_leaving leaves]; exact h.leaveLocked .seeking
  · by_cases a : r.fresh = true ∨ r.state ≠ .locked
    · rw [Receiver.worked_kept a]; exact h
    · simp only [not_or, Bool.not_eq_true, Decidable.not_not] at a
      have c : r.missRun + 1 < 8 := by
        rcases Nat.lt_or_ge (r.missRun + 1) 8 with c | c
        · exact c
        · exact absurd ⟨a.2, a.1, c⟩ leaves
      rw [Receiver.worked_missing a.2 a.1 c]
      exact ⟨h.goodRun, by dsimp only; omega, h.count, h.slips, h.held, h.fresh⟩

theorem Receiver.Lawful.coldReset (r : Receiver) : r.coldReset.Lawful := by
  unfold Receiver.coldReset Receiver.reset
  exact ⟨Nat.zero_le 3, Nat.zero_le 7, Nat.zero_le 64, Nat.zero_le 65535, nofun, nofun⟩

/-! ### The selector (R8 to R15) -/

/-- R8: a carried frame, spread over the channels, has samples of 24 bits. -/
theorem StageFrame.spread_sample24 {f : StageFrame} (h : f.carriable) (c : Fin 64) (v : Int)
    (e : f.spread[c] = some v) : sample24 v := by
  simp only [StageFrame.spread, Fin.getElem_fin, Vector.getElem_ofFn] at e
  exact h.2.2 v (List.mem_of_getElem? e)

theorem Delivered.zero_sample24 (c : Fin 64) (v : Int) (e : Delivered.zero[c] = some v) : sample24 v := by
  simp [Delivered.zero] at e

theorem Selector.Lawful.used {x : Selector} (h : x.Lawful) {f : StageFrame} (hf : f.carriable) : (x.used f).Lawful :=
  ⟨Nat.zero_le 255, Nat.zero_le 255, h.primaryTime, StageFrame.spread_sample24 hf, StageFrame.spread_sample24 hf⟩

theorem Selector.Lawful.switched {x : Selector} (h : x.Lawful) : x.switched.Lawful :=
  ⟨Nat.zero_le 255, h.concealCount, h.primaryTime, h.lastUsed, h.delivered⟩

theorem Selector.Lawful.concealed {x : Selector} (h : x.Lawful) : x.concealed.Lawful := by
  refine ⟨h.missRun, Nat.min_le_left _ _, h.primaryTime, h.lastUsed, fun c v e => ?_⟩
  unfold Selector.concealed at e
  dsimp only at e
  split at e
  · exact h.lastUsed c v e
  · exact Delivered.zero_sample24 c v e

theorem Selector.Lawful.delivers {x : Selector} (h : x.Lawful) {fresh : Link → Option StageFrame}
    (good : ∀ l f, fresh l = some f → f.carriable) (locked : Link → Bool) : (x.delivers fresh locked).1.Lawful := by
  have missed : Selector.Lawful { x with missRun := min 255 (x.missRun + 1) } :=
    ⟨Nat.min_le_left _ _, h.concealCount, h.primaryTime, h.lastUsed, h.delivered⟩
  unfold Selector.delivers
  split
  · rename_i f e; exact h.used (good _ _ e)
  · split
    · split
      · rename_i f e; exact h.switched.used (good _ _ e)
      · exact h.switched.concealed
    · exact missed.concealed

theorem Selector.Lawful.chooses {x : Selector} (h : x.Lawful) {fresh : Link → Option StageFrame}
    (good : ∀ l f, fresh l = some f → f.carriable) (locked : Link → Bool) : (x.chooses fresh locked).1.Lawful := by
  unfold Selector.chooses
  split
  · exact h.switched.delivers good locked
  · exact h.delivers good locked

theorem Selector.Lawful.warmReset (x : Selector) : x.warmReset.Lawful :=
  ⟨Nat.zero_le 255, Nat.zero_le 255, Nat.zero_le 96000, Delivered.zero_sample24, Delivered.zero_sample24⟩

/-! ### The blocks -/

/-- What leaves both receivers and the selector as they were keeps them lawful. -/
theorem Engine.StagesLawful.same {e e' : Engine} (h : e.StagesLawful) (a : e'.linkA = e.linkA) (b : e'.linkB = e.linkB)
    (s : e'.selector = e.selector) : e'.StagesLawful := by
  refine ⟨fun l => ?_, by rw [s]; exact h.selector⟩
  cases l
  · simpa only [Engine.receiver, a] using h.links .a
  · simpa only [Engine.receiver, b] using h.links .b

theorem Engine.StagesLawful.setReceiver {e : Engine} (h : e.StagesLawful) (l : Link) {r : Receiver} (hr : r.Lawful) :
    (e.setReceiver l r).StagesLawful := by
  have a := h.links .a
  have b := h.links .b
  have s := h.selector
  cases l
  · exact ⟨fun l => by cases l; exact hr; exact b, s⟩
  · exact ⟨fun l => by cases l; exact a; exact hr, s⟩

theorem Engine.StagesLawful.selectFrame {e : Engine} (h : e.StagesLawful) (turn : Link → Turn) :
    (e.selectFrame turn).1.StagesLawful := by
  obtain ⟨atTest, aLocked, events, _, _, _, blocks⟩ := Engine.selectFrame_eq turn e
  have chosen := h.selector.chooses (fresh := fun l => (e.receiver l).freshFrame) (fun l f hf => by
    unfold Receiver.freshFrame at hf
    split at hf
    · exact ((h.links l).held f hf).2
    · cases hf) atTest
  rw [blocks]
  refine ⟨fun l => ?_, chosen.missRun, chosen.concealCount, ?_, chosen.lastUsed, chosen.delivered⟩
  · cases l
    · exact (h.links .a).worked.stale
    · exact (h.links .b).worked.stale
  · dsimp only
    split
    · exact Nat.min_le_left _ _
    · exact Nat.zero_le _

theorem Engine.StagesLawful.frameInstant {e : Engine} (h : e.StagesLawful) (turn : Link → Turn) :
    (e.frameInstant turn).1.StagesLawful := by
  unfold Engine.frameInstant
  simp only [Act.andThen]
  have selected := h.selectFrame turn
  generalize (e.selectFrame turn).1 = z at selected
  exact selected.same (Engine.computeMixes_linkA z) (Engine.computeMixes_linkB z) (Engine.computeMixes_selector z)

/-! ### Changes of the other blocks -/

theorem Engine.StagesLawful.withTables {e : Engine} (h : e.StagesLawful) (t : Tables) :
    Engine.StagesLawful { e with tables := t } := h.same rfl rfl rfl

theorem Engine.StagesLawful.withLibrary {e : Engine} (h : e.StagesLawful) (l : Library) :
    Engine.StagesLawful { e with library := l } := h.same rfl rfl rfl

theorem Engine.StagesLawful.recomputed {e : Engine} (h : e.StagesLawful) (f) :
    (e.recompute f).StagesLawful := h.same (by simp) (by simp) (by simp)

theorem Engine.StagesLawful.afterItem (e : Engine) (h : e.StagesLawful) (a i b) :
    (Engine.afterItem a i b e).1.StagesLawful := by
  unfold Engine.afterItem; split
  · exact h.same rfl rfl rfl
  · split <;> exact h.same rfl rfl rfl

theorem Engine.StagesLawful.loadMix (e : Engine) (h : e.StagesLawful) (j a i b m) :
    (e.loadMix j a i b m).1.StagesLawful := by
  unfold Engine.loadMix
  have hw : (e.writeMix j m).StagesLawful := by unfold Engine.writeMix; split <;> exact h.same rfl rfl rfl
  have hw := Engine.StagesLawful.recomputed hw (reachMix m)
  generalize (e.writeMix j m).recompute (reachMix m) = z at hw
  exact Engine.StagesLawful.afterItem _ (hw.same (e' := z.markLoaded j (MixSet.without a m) i b) rfl rfl rfl) _ _ _

theorem Engine.StagesLawful.loadInputs (e : Engine) (h : e.StagesLawful) (j b) : (e.loadInputs j b).1.StagesLawful := by
  unfold Engine.loadInputs
  have hw : (e.writeInputs j).StagesLawful := by unfold Engine.writeInputs; split <;> exact h.same rfl rfl rfl
  have := Engine.StagesLawful.recomputed hw (fun _ _ => true)
  generalize (e.writeInputs j).recompute (fun _ _ => true) = z at this
  exact this.same rfl rfl rfl

theorem Engine.StagesLawful.beginLoad (j) (e : Engine) (h : e.StagesLawful) : (e.beginLoad j).1.StagesLawful :=
  Engine.StagesLawful.afterItem _ (h.withLibrary _) _ _ _

theorem Engine.StagesLawful.modifyMix (e : Engine) (h : e.StagesLawful) (m f) :
    (e.modifyMix m f).StagesLawful := h.same rfl rfl rfl

theorem Engine.StagesLawful.setTalkSet (e : Engine) (h : e.StagesLawful) (p v) : (e.setTalkSet p v).StagesLawful := by
  cases p <;> exact h.same rfl rfl rfl

theorem Engine.StagesLawful.sendsWritten (e : Engine) (h : e.StagesLawful) (m ws) :
    (effectWriteSends m ws e).engine.StagesLawful := by
  unfold effectWriteSends
  exact Engine.StagesLawful.recomputed (h.withTables _) _

theorem Engine.StagesLawful.step (e : Engine) (h : e.StagesLawful) (a k) : (e.step a k).1.StagesLawful := by
  unfold Engine.step; dsimp only
  split
  · exact h
  · split
    · exact h
    · split
      · unfold Engine.stepMaster; dsimp only; split
        · exact h
        · exact Engine.StagesLawful.recomputed (Engine.StagesLawful.modifyMix _ h _ _) _
      · unfold Engine.stepGroup; dsimp only; split
        · exact h
        · exact Engine.StagesLawful.recomputed (Engine.StagesLawful.modifyMix _ h _ _) _

theorem Engine.StagesLawful.applyEvent (f : Engine → Act) (hf : ∀ e :
    Engine, e.StagesLawful → (f e).1.StagesLawful) (a c) (e : Engine) (h : e.StagesLawful) :
        (e.applyEvent a c f).1.StagesLawful := by
  unfold Engine.applyEvent
  split
  · split
    · dsimp only
      split
      · exact hf _ (h.same rfl rfl rfl)
      · exact h.same rfl rfl rfl
    · exact h
  · exact h

theorem Engine.StagesLawful.applyWindow (e : Engine) (h : e.StagesLawful) (a w) :
    (e.applyWindow a w).1.StagesLawful := by
  unfold Engine.applyWindow; split
  · exact h
  · exact h.same rfl rfl rfl
  · split
    · split <;> exact h.same rfl rfl rfl
    · rename_i id _
      have f : (e.forgetElsewhere id a).StagesLawful :=
          h.same (by simp only [Engine.forgetElsewhere]) (by simp only [Engine.forgetElsewhere]) (by simp only
              [Engine.forgetElsewhere])
      unfold Engine.acceptPack
      generalize e.forgetElsewhere id a = z at f
      exact f.same rfl rfl rfl

theorem Engine.StagesLawful.endRecallAtReset (e : Engine) (h : e.StagesLawful) : e.endRecallAtReset.StagesLawful := by
  unfold Engine.endRecallAtReset
  split
  · split
    · exact h.same rfl rfl rfl
    · split
      · exact Engine.StagesLawful.loadMix _ h _ _ _ _ _
      · split
        · exact Engine.StagesLawful.loadInputs _ h _ _
        · exact h.same rfl rfl rfl
  · exact h

/-- No request but SET SOURCE MODE touches the stages. -/
theorem Engine.StagesLawful.request (n p q x) (e : Engine) (h : e.StagesLawful) :
    (answerRequest n p q e x).engine.StagesLawful := by
  cases n <;> simp only [answerRequest]
  case setSourceMode =>
    have mode : ∀ m b, Selector.Lawful { e.selector with mode := m, autoRevert := b } := fun m b =>
      ⟨h.selector.missRun, h.selector.concealCount, h.selector.primaryTime, h.selector.lastUsed, h.selector.delivered⟩
    unfold Effect.answer effectSetSourceMode; dsimp only; split
    · exact h
    · simp only [Engine.applyMode, Engine.setActive]
      split
      · split
        · exact ⟨h.links, mode _ _⟩
        · exact ⟨h.links, ⟨Nat.zero_le 255, h.selector.concealCount, h.selector.primaryTime, h.selector.lastUsed,
            h.selector.delivered⟩⟩
      · exact ⟨h.links, mode _ _⟩
  case passCharge | reclaimCharge =>
    all_goals
    unfold Effect.answer; simp only [effectPassCharge, effectReclaimCharge, effectMoveCharge, Engine.moveCharge]
    split
    · exact h
    · exact h.same rfl rfl rfl
  case wait =>
    unfold answerWait; dsimp only; split
    · exact h
    · split <;> exact h
  case cancelWait => unfold answerCancelWait; split <;> exact h
  case readMeters =>
    unfold Effect.answer effectReadMeters; dsimp only; split
    · exact h.same (e' := e.clearMeters) (by simp only [Engine.clearMeters]) (by simp only [Engine.clearMeters]) (by
        simp only [Engine.clearMeters])
    · exact h
  case talk =>
    unfold Effect.answer effectTalk; dsimp only
    exact Engine.StagesLawful.recomputed (Engine.StagesLawful.setTalkSet e h _ _) _
  case setSend =>
    unfold Effect.answer effectSetSend; dsimp only; split
    · split
      · exact h
      · exact Engine.StagesLawful.sendsWritten e h _ _
    · exact h
  case setSendRow =>
    unfold Effect.answer effectSetSendRow; dsimp only; split
    · split
      · exact h
      · exact Engine.StagesLawful.sendsWritten e h _ _
    · exact h
  case setMix =>
    unfold Effect.answer effectSetMix; dsimp only; split
    · split
      · exact h
      · exact Engine.StagesLawful.recomputed (Engine.StagesLawful.modifyMix _ h _ _) _
    · exact h
  case setGroup =>
    unfold Effect.answer effectSetGroup; dsimp only; split
    · split
      · exact h
      · split
        · exact h
        · exact Engine.StagesLawful.recomputed (Engine.StagesLawful.modifyMix _ h _ _) _
    · exact h
  case setInput =>
    unfold Effect.answer effectSetInput; dsimp only; split
    · split
      · exact h
      · rename_i k ptch _ _ _
        exact Engine.StagesLawful.recomputed (h.withTables _) _
    · exact h
  case setTalkSource =>
    unfold Effect.answer effectSetTalkSource; dsimp only; split
    · split
      · exact h
      · rename_i src _ _
        exact Engine.StagesLawful.recomputed (h.withTables _) _
    · exact h
  case clearLatches =>
    unfold Effect.answer effectClearLatches Effect.accept; dsimp only
    exact h.same (by simp only) (by simp only) (by simp only)
  case readCalls => exact h.same rfl rfl rfl
  all_goals try unfold Effect.answer
  all_goals try (first | exact h.same rfl rfl rfl | skip)
  all_goals try simp only [effectReadSendRow, effectReadMix, effectReadGroup, effectReadEffective,
      effectReadDirectory, effectSetLinkSet, effectStoreScene, effectEraseScene, effectRecallScene,
          effectAbortRecall, effectProtectScene, effectSetStartScene, effectAssignPack, effectReleasePack,
              Engine.releaseSlot]
  all_goals repeat' split
  all_goals exact h.same rfl rfl rfl

end Sys2Proof.Machine
end

