-- ==== Sys2Proof/Tests/Slice0.lean ====
section
/-! SUPPORT. Tests: ill-formed commands that the check refuses, single steps with the values of the manual's worked
examples, and for each statement a state and operands that meet its hypotheses, at the ends of their ranges. -/
namespace Sys2Proof.Machine.Tests

set_option Elab.async false

/-! ### Small states -/

/-- A request body of parameters alone. -/
def body (params : List Byte) : Payload := { params := params, data := [] }

/-- The reset state with its blocks changed. -/
def blocks (f : Engine → Engine) : State := { State.reset with engine := f State.reset.engine }

/-- The reset state with port 0 changed. -/
def atHome (f : PortState → PortState) : State := { State.reset with home := f State.reset.home }

/-- The reset state with the library in this operation. -/
def working (o : Operation) : State :=
  blocks fun e => { e with library := { e.library with operation := o } }

/-- The reset state with this sweep part and slot 1 as given. -/
def sweeping (part : SweepPart) (x : PackSlot → PackSlot) : State :=
  blocks fun e => { e with
    packs := { e.packs with sweep := part, slots := e.packs.slots.set 0 (x e.packs.slots[0]) } }

/-- A pack at slot 1. -/
def online (x : PackSlot) : PackSlot := { x with state := .online, identity := some (Vector.replicate 6 7) }

/-- Slot 1 ONLINE with this event at the front of those handed on. -/
def pressing (code : Byte) : State :=
  blocks fun e => { e with
    packs := { e.packs with keyEvents := [(0, code)], slots := e.packs.slots.set 0 (online e.packs.slots[0]) } }

/-- A receiver that has locked and holds a frame. -/
def lockedReceiver (fresh : Bool) (missRun : Nat) : Receiver :=
  { Receiver.reset with
    signal := true, state := .locked, fresh := fresh, missRun := missRun, held := some { number := 9, samples := [5] } }

/-- The blocks left by a command, when it gives a next state. -/
def left (o : Host.Outcome State Fault Refusal) : Option Engine :=
  match o with
  | .next t => some t.engine
  | _ => none

/-- Port 0 as a command leaves it, when it gives a next state. -/
def leftHome (o : Host.Outcome State Fault Refusal) : Option PortState :=
  match o with
  | .next t => some t.home
  | _ => none

/-- What a request answers at port 0 from these blocks: status, CLAMPED and data. -/
def answer (n : RequestName) (q : Payload) (e : Engine) : List (List Happening) :=
  (answerOf { code := n.code, payload := q } .home e PortState.reset).own

/-- The blocks after a request at port 0 from these blocks. -/
def answered (n : RequestName) (q : Payload) (e : Engine) : Engine :=
  (answerOf { code := n.code, payload := q } .home e PortState.reset).engine

/-- The plain reply of a request. -/
def replies (n : RequestName) (status : Status) (clamped : Bool) (data : List Byte) : List (List Happening) :=
  [[.reply n.code status clamped data]]

/-! ### Well-formed commands -/

theorem test_wellFormed_params : (Instr.identify .home (body (List.replicate 16 0))).wellFormed = true := by decide
theorem test_illFormed_params : (Instr.identify .home (body (List.replicate 17 0))).wellFormed = false := by decide
theorem test_wellFormed_data :
    (Instr.setGroup .home { params := [1, 1, 0], data := List.replicate 512 1 }).wellFormed = true := by decide +kernel
theorem test_illFormed_data :
    (Instr.setGroup .home { params := [1, 1, 0], data := List.replicate 513 1 }).wellFormed = false := by decide +kernel
theorem test_wellFormed_unknown : (Instr.unknownRequest .guest 0x06 (body [])).wellFormed = true := by decide
theorem test_illFormed_unknown : (Instr.unknownRequest .guest 0x05 (body [])).wellFormed = false := by decide
theorem test_wellFormed_ignored : (Instr.ignoredKeyCode 0 0x07).wellFormed = true := by decide
theorem test_illFormed_ignored : (Instr.ignoredKeyCode 0 0xFF).wellFormed = false := by decide
theorem test_wellFormed_window : (Instr.announceWindow 0 (.bytes [1])).wellFormed = true := by decide
theorem test_illFormed_window : (Instr.announceWindow 0 (.bytes [])).wellFormed = false := by decide

/-! ### The queue -/

theorem test_step_front : step { State.reset with pending := [.lineIdle .home] } = .next State.reset := by rfl
theorem test_step_idle : step State.reset = .next State.reset := by rfl
theorem test_noWord : decodeTableWord 8 0 = none := by decide

/-! ### Stage links and the selector (chapter 1) -/

/-- The check value of the digits 1 to 9 under the CRC of R1. -/
theorem test_crc : crc16 [0x31, 0x32, 0x33, 0x34, 0x35, 0x36, 0x37, 0x38, 0x39] = 0x29B1 := by decide +kernel

/-- "Locking a Link", arrivals 1 to 8: link B after each frame, as good-frame run, state and slip count. -/
theorem test_lockingALink :
    let seeking : Receiver := { Receiver.reset with signal := true, state := .seeking, slips := 3 }
    let after (numbers : List Nat) : Receiver :=
      numbers.foldl (fun r n => r.arrival (StageFrame.bytes { number := BitVec.ofNat 16 n, samples := [n] })) seeking
    ((after [700, 701, 703]).goodRun, (after [700, 701, 703]).state) = (1, .seeking) ∧
      ((after [700, 701, 703, 704, 705]).goodRun, (after [700, 701, 703, 704, 705]).slips) = (3, 3) ∧
      ((after [700, 701, 703, 704, 705, 706]).state, (after [700, 701, 703, 704, 705, 706]).slips) = (.locked, 0) ∧
      (after [700, 701, 703, 704, 705, 706, 708]).slips = 1 ∧
      (after [700, 701, 703, 704, 705, 706, 708]).held = some { number := 708, samples := [708] } := by
  decide +kernel

theorem test_damagedFrame : goodFrame [0, 1, 1, 0, 0, 5, 0, 0] = none := by decide +kernel
theorem test_signalAppears : (Receiver.reset.signalAppears).state = .seeking := by decide
theorem test_signalLost : ((lockedReceiver true 3).signalLost).held = none := by decide
theorem test_receiver_eighthMiss :
    ((lockedReceiver false 7).instant true).state = .seeking ∧ ((lockedReceiver false 6).instant true).missRun = 7 := by
  decide

/-- "Failover and Concealment" at t3: B becomes active with the miss run 0, and its fresh frame ends the gap. -/
theorem test_failover :
    let e := { State.reset.engine with
      linkA := lockedReceiver false 2, linkB := lockedReceiver true 0
      selector := { Selector.reset with missRun := 2, concealCount := 2 } }
    (e.deliverOrMiss.1.selector.active, e.deliverOrMiss.1.selector.missRun, e.deliverOrMiss.1.selector.concealCount) =
      (.b, 0, 0) ∧ e.deliverOrMiss.2 = [.sourceChange] := by
  decide +kernel

theorem test_setSourceMode :
    answer .setSourceMode (body [3, 0]) State.reset.engine = replies .setSourceMode .badIndex false [] ∧
      (answered .setSourceMode (body [2, 2]) State.reset.engine).selector.active = .b ∧
      answer .setSourceMode (body [2, 2]) State.reset.engine = replies .setSourceMode .ok true [] := by
  decide +kernel
theorem test_readLinkStatus :
    answer .readLinkStatus (body []) State.reset.engine =
      replies .readLinkStatus .ok false [0, 0, 0, 0, 0, 0, 0, 0, 0, 1, 0, 0] := by
  decide +kernel

/-! ### The mix tables (chapter 2) -/

/-- The tables of "A Broadcast During a Recall", before it: mixes 3, 4 and 9 in link set 2. -/
def horns : Tables :=
  let horn (level : Nat) (pan : Int) : MixTable :=
    { MixTable.reset with
      record := { MixRec.reset with linkSet := some 1 }, sends := MixTable.reset.sends.set 16 ⟨level, pan, true⟩ }
  { Tables.reset with
    mixes := ((Tables.reset.mixes.set 2 (horn 196 (-10))).set 3 (horn 196 0)).set 8 (horn 200 6) }

/-- The recall of that example, with mixes 4 to 10 awaiting recall. -/
def hornRecall : RecallJob :=
  { startLoad := false, slot := 0, mixes := 0x3FF#24, classes := ⟨true, false, false, false, false⟩
    phase := .load 0x3F8#24 false false }

/-- "A Broadcast During a Recall": mix 3 alone is written, with PARTIAL and CLAMPED, and then the three horns. -/
theorem test_setSend_during :
    let e := { State.reset.engine with
      tables := horns, library := { State.reset.engine.library with operation := .recall hornRecall } }
    answer .setSend (body [3, 17, 240, 0xF4, 1]) e = replies .setSend .partly true [0x00, 0x00, 0x04] ∧
      answer .setSend (body [9, 17, 240, 0xF4, 1]) e = replies .setSend .awaitingRecall false [] := by
  decide +kernel
theorem test_setSend_after :
    let e := { State.reset.engine with tables := horns }
    let t := (e.tables.writeSends 2 (e.broadcastTo 2) [⟨16, ⟨232, -12, true⟩, true⟩])
    answer .setSend (body [3, 17, 240, 0xF4, 1]) e = replies .setSend .ok true [0x00, 0x01, 0x0C] ∧
      (t.mixes[2]).sends[16] = ⟨232, -12, true⟩ ∧ (t.mixes[3]).sends[16] = ⟨232, 0, true⟩ ∧
      (t.mixes[8]).sends[16] = ⟨232, 6, true⟩ := by
  decide +kernel
theorem test_setSendRow :
    answer .setSendRow { params := [1], data := [1, 10, 0, 1, 65, 0, 0, 0] } State.reset.engine =
        replies .setSendRow .badIndex false [] ∧
      answer .setSendRow { params := [1], data := [1, 10, 0, 1, 64, 20, 33, 1, 9] } State.reset.engine =
        replies .setSendRow .ok true [0, 0, 1] := by
  decide +kernel
theorem test_readSendRow :
    answer .readSendRow (body [25]) State.reset.engine = replies .readSendRow .badIndex false [] := by decide +kernel
theorem test_setMix :
    answer .setMix (body [1, 0x01, 21]) State.reset.engine = replies .setMix .ok true [] ∧
      ((answered .setMix (body [1, 0x01, 21]) State.reset.engine).tables.mixes[0]).record.master = 20 := by
  decide +kernel
theorem test_readMix :
    answer .readMix (body [1]) State.reset.engine =
      replies .readMix .ok false [0, 0, 0, 0x7F, 0xFF, 0xFF, 0, 16, 0xD8, 0, 0] := by
  decide +kernel
theorem test_setLinkSet :
    ((answered .setLinkSet (body [24, 8]) State.reset.engine).tables.mixes[23]).record.linkSet = some 7 := by
  decide +kernel

/-- The tables of "Rewriting Groups", for mix 7, with the first two groups as given. -/
def grouped (first second : Group) : Engine :=
  { State.reset.engine with
    tables := Tables.reset.modifyMix 6 fun x => (x.putGroup 0 first).putGroup 1 second }

/-- "Rewriting Groups": the request is refused while input 6 is in group 1, and collapses its list once it is not. -/
theorem test_setGroup :
    answer .setGroup { params := [7, 2, 4], data := [12, 13, 12, 6] } (grouped ⟨-6, [4, 5, 6]⟩ ⟨4, [11]⟩) =
        replies .setGroup .groupConflict false [] ∧
      (((answered .setGroup { params := [7, 2, 4], data := [12, 13, 12, 6] }
        (grouped ⟨-6, [4, 6]⟩ ⟨4, [11]⟩)).tables.mixes[6]).groups[1]) = ⟨4, [11, 12, 5]⟩ := by
  decide +kernel
theorem test_readGroup :
    answer .readGroup (body [7, 1]) (grouped ⟨-6, [4, 6]⟩ ⟨4, [11]⟩) = replies .readGroup .ok false [0xFA, 2, 5, 7] := by
  decide +kernel
theorem test_setInput :
    ((answered .setInput (body [64, 0x0F, 0, 25, 2, 0]) State.reset.engine).tables.inputs[63]) =
      ⟨none, 24, true, false⟩ := by
  decide +kernel
theorem test_readInputs :
    (effectReadInputs State.reset.engine).data.length = 321 ∧
      (effectReadInputs State.reset.engine).data.take 5 = [1, 0, 0, 1, 0] := by
  decide +kernel
theorem test_setTalkSource :
    (answered .setTalkSource (body [63]) State.reset.engine).tables.talkSource = some 62 := by decide +kernel

/-- "Talk From Two Consoles", steps 1 and 3: the reply carries the talk set of the port that asks. -/
theorem test_talk :
    answer .talk (body [0, 0, 7, 1]) State.reset.engine = replies .talk .ok false [0, 0, 7] ∧
      (answered .talk (body [0, 0, 7, 0]) { State.reset.engine with talkHome := 7, talkGuest := 12 }).onAir = 12 := by
  decide +kernel

/-! ### Levels and ramps (chapter 3) -/

/-- The tables of "Deriving a Send". -/
def mixFive : Tables :=
  { inputs := Tables.reset.inputs.set 1 ⟨some 1, -2, false, true⟩
    mixes := Tables.reset.mixes.set 4
      { record := MixRec.reset, sends := MixTable.reset.sends.set 1 ⟨210, 16, true⟩
        groups := MixTable.reset.groups.set 2 ⟨12, [1]⟩ }
    talkSource := none }

theorem test_derivingASend : deriveTargets mixFive 0 4 1 = (16345, 32690) := by decide +kernel

/-- "Talk Into a Muted Mix": the talk source is heard and input 1 is not. -/
theorem test_talkIntoAMutedMix :
    let t : Tables :=
      { inputs := Tables.reset.inputs.set 0 ⟨some 0, 2, false, true⟩
        mixes := Tables.reset.mixes.set 11
          { record := { MixRec.reset with master := -4, mute := true }
            sends := (MixTable.reset.sends.set 62 ⟨0, 0, false⟩).set 0 ⟨200, 0, true⟩
            groups := MixTable.reset.groups.set 1 ⟨4, [0]⟩ }
        talkSource := some 62 }
    deriveTargets t 0x800 11 62 = (13014, 13014) ∧ deriveTargets t 0x800 11 0 = (0, 0) := by
  decide +kernel

theorem test_coefficients :
    [27, 28, 48, 88, 128, 162, 168, 188, 196, 204, 208, 220, 232].map coefficient =
      [0, 1, 2, 16, 164, 1160, 1638, 5181, 8211, 13014, 16384, 32690, 65226] := by
  decide +kernel

/-- "A Ramp Turned Back": the step, the live values around the end of the ramp, and the step of the mute. -/
theorem test_aRampTurnedBack :
    let up := Coef.retarget { target := 0, live := 0, step := 1 } 16345
    up.step = 256 ∧ (Nat.repeat Coef.move 10 up).live = 2560 ∧ (Nat.repeat Coef.move 63 up).live = 16128 ∧
      (Nat.repeat Coef.move 64 up).live = 16345 ∧
      ((Nat.repeat Coef.move 10 up).retarget 0).step = 40 := by
  decide +kernel

theorem test_readEffective :
    (effectReadEffective (body [1]) State.reset.engine).data = List.replicate 512 0 := by decide +kernel

/-! ### The mix computation and the ear guard (chapters 4 and 5) -/

/-- "One Frame Instant of Mix 5" and "Engagement and Release" at t1 and t2. -/
theorem test_oneFrameInstantOfMixFive :
    scaled 32807000000 0 = 2002380 ∧ scaled 16462000000 0 = 1004761 ∧
      (let y := MixRun.reset.instant { MixRec.reset with ceiling := 1500000 } 32807000000 16462000000
       (y.gain, y.outLeft, y.outRight, y.guard, y.near, y.clip) = (12273, 1499952, 752651, true, false, false) ∧
        (y.instant { MixRec.reset with ceiling := 1500000 } 32807000000 16462000000).gain = 12289) := by
  decide +kernel
theorem test_oneFrameInstantInverted : scaled 65497000000 0 = 3997620 ∧ scaled 81842000000 0 = 4995239 := by
  decide +kernel

/-- "Rounding at Exact Halves". -/
theorem test_roundingAtExactHalves :
    ([24576, 40960, -40960, -24576, 8192, 137438928896, 137438945280, -137438961664] : List Int).map (scaled · 0) =
      [2, 2, -2, -2, 0, 8388606, 8388608, -8388608] := by
  decide +kernel

/-- "Clipping, Clearing and Reading" at t1, in mix 9 with the shift -1. -/
theorem test_clipping :
    let r : MixRec := { MixRec.reset with shift := -1 }
    let y := MixRun.reset.instant r 98304000000 98304000000
    scaled 98304000000 (-1) = 12000000 ∧ (y.clip, y.near, y.outLeft, y.meterLeft) = (true, true, 8388607, 8388607) ∧
      MixRun.reset.events r 98304000000 98304000000 = [.clip] ∧ y.events r 98304000000 98304000000 = [] := by
  decide +kernel

/-- "Lowering the Ceiling". -/
theorem test_loweringTheCeiling :
    let y := ({ MixRun.reset with gain := 12273, guard := true }).instant
      { MixRec.reset with ceiling := 1000000 } 32807000000 16462000000
    (y.gain, y.outLeft, y.outRight) = (8182, 999968, 501767) := by
  decide +kernel

theorem test_readMeters :
    (answerOf { code := 0x30, payload := body [2] } .home State.reset.engine PortState.reset).own =
      [[.reply 0x30 .ok true (List.replicate 336 0)]] := by
  decide +kernel
theorem test_clearLatches :
    ((answered .clearLatches (body [0x80, 0, 0])
      { State.reset.engine with runs := State.reset.engine.runs.set 23 { MixRun.reset with clip := true } }).runs[23]) =
      MixRun.reset := by
  decide +kernel
theorem test_readLatches :
    (effectReadLatches State.reset.engine).data.take 11 = [0, 0, 0, 0, 0, 0, 0, 0, 0, 0x40, 0] := by decide +kernel

/-! ### The scene library (chapter 6) -/

/-- The library at rest with slot 1 as given. -/
def shelf (x : SceneSlot) : Engine :=
  { State.reset.engine with
    library := { State.reset.engine.library with
      operation := .idle, slots := State.reset.engine.library.slots.set 0 x } }

theorem test_storeScene :
    answer .storeScene (body [1, 0x41, 7]) State.reset.engine = replies .storeScene .libraryBusy false [] ∧
      answer .storeScene (body [1, 0x41, 7]) (shelf SceneSlot.factory) = replies .storeScene .started false [] ∧
      storedName (body [1, 0x41, 7]) = #v[0x41, 32, 32, 32, 32, 32, 32, 32, 32, 32, 32, 32] := by
  decide +kernel
theorem test_storeWriteEnd :
    let e := (shelf SceneSlot.factory).beginOperation (.store 0 blankName Tables.reset) .store 0
    (e.storeWriteEnd.1.library.slots[0]).state = .valid ∧ e.storeWriteEnd.2 = [.opDone] ∧
      e.storeWriteEnd.1.library.result.bytes = [1, 1, 1, 0] := by
  decide +kernel
theorem test_eraseScene :
    answer .eraseScene (body [1]) (shelf { SceneSlot.factory with protect := true }) =
        replies .eraseScene .slotProtected false [] ∧
      answer .eraseScene (body [33]) (shelf SceneSlot.factory) = replies .eraseScene .badIndex false [] := by
  decide +kernel
theorem test_eraseEnd :
    let e := (shelf ⟨.valid, false, .broken blankName⟩).beginOperation (.erase 0) .erase 0
    e.eraseEnd.1.library.slots[0] = ⟨.empty, false, .erased⟩ ∧ e.eraseEnd.2 = [.opDone] := by
  decide +kernel
theorem test_recallScene :
    answer .recallScene (body [1, 0, 0, 1, 31]) (shelf ⟨.empty, false, .erased⟩) =
        replies .recallScene .slotEmpty false [] ∧
      answer .recallScene (body [1, 0, 0, 1, 31]) (shelf ⟨.damaged, false, .broken blankName⟩) =
        replies .recallScene .slotDamaged false [] ∧
      answer .recallScene (body [1, 0, 0, 1, 31]) (shelf ⟨.valid, false, .written blankName Tables.reset⟩) =
        replies .recallScene .started false [] := by
  decide +kernel

/-- A recall of slot 1, which holds the tables of `horns`, in the phase given. -/
def recalling (phase : RecallPhase) (image : SlotImage) : Engine :=
  let e := shelf ⟨.valid, false, image⟩
  { e with library := { e.library with operation := .recall { hornRecall with phase := phase } } }

theorem test_recallVerifyEnd :
    ((recalling .verify (.written blankName horns)).recallVerifyEnd none).1.awaiting = 0x3FF ∧
      (((recalling .verify (.written blankName horns)).recallVerifyEnd (some blankName)).1.library.slots[0]).state =
        .damaged := by
  decide +kernel
theorem test_mixLoad :
    let e := recalling (.load 0x3F8 false false) (.written blankName horns)
    (e.mixLoad.1.tables.mixes[3]).sends[16] = ⟨196, 0, true⟩ ∧ e.mixLoad.1.awaiting = 0x3F0 ∧ e.mixLoad.2 = [] ∧
      e.mixLoad.1.library.result.mixesLoaded = 1 := by
  decide +kernel
theorem test_inputSectionLoad :
    let e := recalling (.load 0 true false) (.written blankName mixFive)
    (e.inputSectionLoad.1.tables.inputs[1]).trim = -2 ∧ e.inputSectionLoad.2 = [.opDone] := by
  decide +kernel
theorem test_abortRecall :
    answer .abortRecall (body []) State.reset.engine = replies .abortRecall .notRecalling false [] ∧
      (answered .abortRecall (body []) (recalling .verify .erased)).library.result.outcome = .aborted := by
  decide +kernel
theorem test_verifySlotDone :
    (State.reset.engine.verifySlotDone none).1.library.operation = .verifyAll 1 ∧
      ((State.reset.engine.verifySlotDone none).1.library.slots[0]).state = .empty ∧
      ((working (.verifyAll 31)).engine.verifySlotDone none).2 = [.opDone] := by
  decide +kernel
theorem test_protectScene :
    ((answered .protectScene (body [32, 1]) State.reset.engine).library.slots[31]).protect = true := by decide +kernel
theorem test_setStartScene :
    (answered .setStartScene (body [32]) State.reset.engine).library.startScene = some 31 ∧
      answer .setStartScene (body [33]) State.reset.engine = replies .setStartScene .badIndex false [] := by
  decide +kernel
theorem test_readDirectory :
    answer .readDirectory (body [4]) State.reset.engine = replies .readDirectory .badIndex false [] ∧
      SceneSlot.bytes ⟨.empty, true, .erased⟩ = [1, 1, 32, 32, 32, 32, 32, 32, 32, 32, 32, 32, 32, 32] := by
  decide +kernel
theorem test_readResult :
    answer .readResult (body []) State.reset.engine = replies .readResult .ok false [0, 0, 1, 0] := by decide +kernel

/-! ### The pack bus and the keys (chapters 7 and 8) -/

theorem test_packBusFrame :
    ((sweeping .idle online).engine.pairFor 0, State.reset.engine.pairFor 0) = ((0, 0), (0, 0)) ∧
      AudioFrame.bytes (Vector.replicate 32 (-1, 1)) = (List.replicate 32 [0xFF, 0xFF, 0xFF, 0, 0, 1]).flatten := by
  decide +kernel
theorem test_sweepStart : State.reset.engine.sweepStart.1.packs.sweep = .poll := by decide +kernel
theorem test_pollPhase_lost :
    let e := (sweeping .poll fun x => { online x with missRun := 15 }).engine
    ((e.pollPhase 0).1.packs.slots[0]).state = .lost ∧ (e.pollPhase 0).2 = [.packLost] ∧
      (e.pollPhase 0).1.packs.sweep = .attach 0 := by
  decide +kernel
theorem test_pollPhase_alive :
    let e := (sweeping .poll fun x => { online x with missRun := 15 }).engine
    ((e.pollPhase 3).1.packs.slots[0]).missRun = 0 ∧ (e.pollPhase 3).1.packs.pendingMarks = 1 := by
  decide +kernel
theorem test_readPhase :
    let e := (sweeping .read online).engine
    (({ e with packs := { e.packs with pendingMarks := 1 } } : Engine).readPhase.1.packs.sweep) = .reading [0] := by
  decide +kernel
theorem test_keyReportRead :
    ((sweeping (.reading [0]) online).engine.keyReportRead 0 (some [2, 0x01, 0x81, 0x7C])).1.packs.keyEvents =
        [(0, 0x01), (0, 0x81)] ∧
      ((sweeping (.reading [0]) online).engine.keyReportRead 0 (some [2, 0x01, 0x81, 0x7D])).1.packs.keyEvents =
        [(0, 0xFF)] := by
  decide +kernel

/-- R121: the pointer waits for the last read of the phase. -/
theorem test_keyReportRead_pointer :
    let first := ((sweeping (.reading [0, 1]) online).engine.keyReportRead 0 none).1
    first.packs.pointer = 31 ∧ (first.keyReportRead 1 none).1.packs.pointer = 1 := by
  decide +kernel
theorem test_announceWindow :
    let e := ((sweeping (.attach 0) id).engine.announceWindow 0 (.bytes [7, 7, 7, 7, 7, 7, 0xD6]))
    (e.1.packs.slots[0]).identity = some (Vector.replicate 6 7) ∧ e.1.packs.messages = [(.welcome, 0)] ∧
      e.2 = [.packAttach] := by
  decide +kernel
theorem test_announceWindow_garbled :
    (((sweeping (.attach 0) id).engine.announceWindow 0 .overlap).1.packs.slots[0]).state = .conflict := by
  decide +kernel
theorem test_downstreamPart :
    (sweeping .downstream online).engine.downstream.records.map StatusRec.bytes = [[1, 1, 1, 0, 0, 0, 0]] ∧
      (sweeping .downstream online).engine.downstreamPart.1.packs.sweepCounter = 1 := by
  decide +kernel
theorem test_assignPack :
    ((answered .assignPack (body [1, 24]) State.reset.engine).packs.slots[0]).assigned = some 23 ∧
      answer .assignPack (body [1, 25]) State.reset.engine = replies .assignPack .badIndex false [] := by
  decide +kernel
theorem test_releasePack :
    (answered .releasePack (body [1]) (sweeping .idle online).engine).packs.messages = [(.released, 0)] := by
  decide +kernel
theorem test_readPackTable :
    (effectReadPackTable (sweeping .idle online).engine).data.take 13 = [1, 1, 1, 7, 7, 7, 7, 7, 7, 1, 0, 0, 0] := by
  decide +kernel

theorem test_makeOfUp :
    let e := ((pressing 0x01).engine.applyEvent 0 0x01 (Engine.makeRepeating 0 .up))
    (e.1.tables.mixes[0]).record.master = 1 ∧ e.2 = [.packAdjust] ∧
      (e.1.packs.slots[0]).held = some ⟨.up, .delay, 400⟩ := by
  decide +kernel
theorem test_makeOfDown :
    (((pressing 0x02).engine.applyEvent 0 0x02 (Engine.makeRepeating 0 .down)).1.tables.mixes[0]).record.master = -1 := by
  decide +kernel
theorem test_heldKeyExpiry :
    let e := ((sweeping .idle fun x => { online x with held := some ⟨.down, .delay, 400⟩ }).engine.expire 0)
    (e.1.tables.mixes[0]).record.master = -1 ∧ (e.1.packs.slots[0]).held = some ⟨.down, .repeating, 100⟩ := by
  decide +kernel
theorem test_makeOfNext :
    let e := grouped ⟨-6, []⟩ ⟨4, [11]⟩
    e.selectFrom (some 6) (upwardFrom 0) = 2 ∧ e.selectFrom (some 6) (upwardFrom 2) = 0 := by
  decide +kernel
theorem test_makeOfPrev : (grouped ⟨-6, []⟩ ⟨4, [11]⟩).selectFrom (some 6) (downwardFrom 0) = 2 := by decide +kernel
theorem test_makeOfCall :
    ((pressing 0x05).engine.applyEvent 0 0x05 (Engine.addCall 0)).1.packs.calls = [0] ∧
      ((pressing 0x05).engine.applyEvent 0 0x05 (Engine.addCall 0)).2 = [.call] := by
  decide +kernel
theorem test_makeOfSilence :
    (((pressing 0x06).engine.applyEvent 0 0x06 (Engine.toggleSilence 0)).1.packs.slots[0]).silence = true := by
  decide +kernel
theorem test_breaks :
    let e := (sweeping .idle fun x => { online x with held := some ⟨.down, .delay, 400⟩ }).engine
    ((e.breakRepeating 0 .down).1.packs.slots[0]).held = none ∧
      ((e.breakRepeating 0 .up).1.packs.slots[0]).held = some ⟨.down, .delay, 400⟩ ∧
      ((e.overflow 0).1.packs.slots[0]).held = none := by
  decide +kernel
theorem test_readCalls :
    answer .readCalls (body []) { State.reset.engine with packs := { PackBus.reset with calls := [31, 0] } } =
      replies .readCalls .ok false [2, 32, 1] := by
  decide +kernel

/-! ### Control ports, notices and resets (chapters 9 and 10) -/

theorem test_identify :
    answer .identify (body []) State.reset.engine =
      replies .identify .ok false [0x0C, 0x51, 0x24, 0x64, 1, 64, 24, 32, 32, 8, 8, 0, 0] := by
  decide +kernel
theorem test_portStatus :
    answer .portStatus (body []) { State.reset.engine with charge := .guest } = replies .portStatus .ok false [1, 0, 0] := by
  decide +kernel
theorem test_passCharge :
    (answered .passCharge (body []) State.reset.engine).charge = .guest ∧
      answer .passCharge (body []) { State.reset.engine with charge := .guest } =
        replies .passCharge .notInCharge false [] := by
  decide +kernel
theorem test_reclaimCharge :
    (answered .reclaimCharge (body []) { State.reset.engine with charge := .guest }).charge = .home := by decide +kernel
theorem test_resetEngine :
    (answerOf { code := 0x05, payload := body [] } .guest State.reset.engine PortState.reset).own =
      replies .resetEngine .homeOnly false [] := by
  decide +kernel
theorem test_unknownRequest :
    (answerOf { code := 0x06, payload := body [] } .home State.reset.engine PortState.reset).own =
      [[.reply 0x06 .unknownRequest false []]] := by
  decide +kernel
theorem test_receiveByte :
    leftHome (exec (.receiveByte .home 0xA5 false) State.reset) =
      some { State.reset.home with receiver := .receiving [] } := by
  decide +kernel
theorem test_interbyteSilence :
    leftHome (exec (.interbyteSilenceTimeout .home) (atHome fun x => { x with receiver := .receiving [1] })) =
      some { State.reset.home with garbled := true } := by
  decide +kernel
theorem test_lineIdle :
    leftHome (exec (.lineIdle .home) (atHome fun x => { x with receiver := .inBreak })) = some State.reset.home := by
  decide +kernel
theorem test_transmitFrameEnd :
    leftHome (exec (.transmitFrameEnd .home) (atHome fun x => { x with
      service := some ⟨0x02, body []⟩, line := some (.service ⟨0x02, .ok, false, false, false, [0, 0, 0]⟩) })) =
      some State.reset.home := by
  decide +kernel
theorem test_lineBreak :
    (PortState.portReset { State.reset.home with garbled := true, wait := some ⟨⟨1, 0⟩, 5⟩ }) =
      { PortState.reset with receiver := .inBreak } := by
  decide +kernel
theorem test_replyBytes :
    Frame.bytes (.service ⟨0x03, .ok, true, false, false, []⟩) = controlFrame 0x02 [0x03, 0x00, 0x01] ∧
      (Frame.bytes (.service ⟨0x03, .ok, true, false, false, []⟩)).take 7 = [0xA5, 0x02, 0, 3, 0x03, 0x00, 0x01] := by
  decide +kernel
theorem test_setNoticeMask :
    (answerOf { code := 0x10, payload := body [0, 1, 0] } .home State.reset.engine PortState.reset).port.unit.mask =
      ⟨1, 0⟩ := by
  decide +kernel
theorem test_readNoticeMask :
    answer .readNoticeMask (body []) State.reset.engine = replies .readNoticeMask .ok false [0, 0, 0, 1] := by
  decide +kernel
theorem test_readReasons :
    answer .readReasons (body []) State.reset.engine = replies .readReasons .ok false [0, 0, 0, 3] := by decide +kernel
theorem test_readStates :
    answer .readStates (body []) State.reset.engine = replies .readStates .ok false [0, 0, 0, 3] := by decide +kernel
theorem test_wait :
    answer .wait (body [0, 0, 1, 0, 0]) State.reset.engine = replies .wait .met false [0, 0, 0, 3] ∧
      (answerOf { code := 0x14, payload := body [0, 1, 0, 1, 2] } .home State.reset.engine PortState.reset).port.wait =
        some ⟨⟨1, 0⟩, 258⟩ := by
  decide +kernel
theorem test_cancelWait :
    answer .cancelWait (body []) State.reset.engine = replies .cancelWait .noWait false [] := by decide +kernel
theorem test_waitTimeout :
    (PortState.happen { PortState.reset with lost := true } true 3 .timedOut).ready =
      [.parked ⟨0x14, .timedOut, true, false, false, [0, 0, 0, 3]⟩] := by
  decide +kernel
theorem test_warmReset :
    (left (exec .warmReset (blocks fun e => { e with charge := .guest }))).map (fun e => e.charge) = some .home := by
  decide +kernel

/-- A port whose idle line took this frame at a frame instant, together with a warm reset or not. -/
def begunAtInstant (together : Bool) (f : Frame) : PortState :=
  PortState.reset.endInstant together { PortState.reset with line := some f }

/-- R78: a reset taken before the frame instant it arrived together with rests the input meters there. -/
theorem test_warmReset_beforeInstant :
    (State.reset.engine.warmReset true).metersRest = true ∧
      ({ State.reset.engine with metersRest := true } : Engine).computeMixes.1.metersRest = false := by
  decide +kernel

/-- R78, R90, R167: of the frames begun at an instant that a reset arrived together with, only one that tells a CLIP or
a GUARD is not seen; a LINK_DOWN, a MET of another event and every frame begun apart from a reset are sent whole. -/
theorem test_warmReset_afterInstant :
    (∀ f ∈ [Frame.attention ⟨⟨1, 0⟩, 0⟩, .attention ⟨⟨2, 0⟩, 0⟩, .parked ⟨0x14, .met, false, false, false, [0, 1, 0, 0]⟩],
      (begunAtInstant true f).warmReset.line = none ∧ (begunAtInstant false f).warmReset.line = some f) ∧
      ∀ f ∈ [Frame.attention ⟨⟨0x100, 0⟩, 0⟩, .parked ⟨0x14, .met, false, false, false, [1, 0, 0, 0]⟩,
          .service ⟨0x12, .ok, false, false, false, [0, 3, 0, 0]⟩],
        (begunAtInstant true f).warmReset.line = some f := by
  decide +kernel

/-- R78, R90: what may have arrived together with a warm reset is the frame instant right before it, with no command
between them. -/
theorem test_resetFollows :
    ({ State.reset with pending := [.warmReset] } : State).resetFollows = true ∧
      ({ State.reset with pending := [.lineIdle .home, .warmReset] } : State).resetFollows = false ∧
      (let s := atHome fun x => { x with line := some (.service ⟨0x05, .ok, false, false, false, []⟩) }
       ({ s with pending := [.transmitFrameEnd .home] } : State).resetFollows = true ∧
         ({ s with pending := [.transmitFrameEnd .guest] } : State).resetFollows = false) := by
  decide +kernel
theorem test_powerUp :
    (left (exec .powerUp (blocks fun e => { e with
      powered := false, linkA := { Receiver.reset with signal := true } }))).map (fun e => e.linkA.state) =
      some .seeking := by
  decide +kernel
theorem test_powerLoss :
    (left (exec (.powerLoss blankName) (working (.erase 0)))).map (fun e => (e.powered, (e.library.slots[0]).image)) =
      some (false, .broken blankName) := by
  decide +kernel

/-- A belt pack's announce is one that the controller finds clean (R125). -/
theorem test_beltPack : classify (BeltPack.restart (Vector.replicate 6 7)).window = .clean (Vector.replicate 6 7) := by
  decide +kernel

/-- Log 30: the tenth key event queues no second marker. -/
theorem test_beltPack_oneMarker :
    ((List.replicate 10 (1 : Byte)).foldl BeltPack.key (BeltPack.restart (Vector.replicate 6 7))).buffer =
      List.replicate 8 1 ++ [overflowCode] := by
  decide +kernel

/-! ### What the statements suppose can be met -/

/-- A frame for the line. -/
def someReply (code : Byte) : Reply := ⟨code, .ok, false, false, false, []⟩

/-- Port 0 busy with a request, this many behind it. -/
def busyWith (n : Nat) : State :=
  atHome fun x => { x with
    service := some ⟨0x02, body []⟩, line := some (.service (someReply 0x02))
    queue := List.replicate n ⟨0x11, body []⟩ }

/-- The blocks with the charge at port 1. -/
def guestCharge : State := blocks fun e => { e with charge := .guest }

/-- Port 0 with this receiver. -/
def hearing (r : PortReceiver) : State := atHome fun x => { x with receiver := r }

/-- The links and the selector as given. -/
def linked (a b : Receiver) (x : Selector) : State :=
  blocks fun e => { e with linkA := a, linkB := b, selector := x }

theorem witness_StepTakesFrontCommand :
    ({ State.reset with pending := [.frameInstant, .warmReset] } : State).pending = .frameInstant :: [.warmReset] ∧
      State.reset.pending = [] := by
  decide

theorem witness_KeptFrameJoinsQueueOrIsLost :
    requestOf (.identify .home (body [])) = some (.home, ⟨0x01, body []⟩) ∧
      (∀ n ∈ [0, 3, 4], (busyWith n).engine.powered = true ∧ ((busyWith n).port .home).receiver = .hunting ∧
        ((busyWith n).port .home).service = some ⟨0x02, body []⟩ ∧ ((busyWith n).port .home).queue.length = n) := by
  decide +kernel

theorem witness_UnknownRequestRefused :
    State.reset.idleAt .guest ∧ 0x00#8 ∉ knownCodes ∧ 0xFF#8 ∉ knownCodes ∧ 0x06#8 ∉ knownCodes := by
  decide +kernel

theorem witness_ClassCheckedAtTaking :
    requestOf (.passCharge .home (body [])) = some (.home, ⟨0x03, body []⟩) ∧ guestCharge.idleAt .home ∧
      guestCharge.engine.charge ≠ .home ∧
      requestOf (.resetEngine .guest (body [])) = some (.guest, ⟨0x05, body []⟩) ∧ State.reset.idleAt .guest ∧
      (∀ code ∈ ([0x03, 0x04] : List Byte),
        let s : State := { State.reset with guest := { PortState.reset with
          service := some ⟨0x02, body []⟩, line := some (.service (someReply 0x02)), queue := [⟨code, body []⟩] } }
        s.engine.powered = true ∧ s.settled ∧ (s.port .guest).line = some (.service (someReply 0x02)) ∧
          (someReply 0x02).echo ≠ 0x05 ∧ (s.port .guest).queue = ⟨code, body []⟩ :: [] ∧ s.engine.charge ≠ .guest) := by
  decide +kernel

/-- For IdentifyAndPortStatus, NoticeReads, TableReads and every other statement about a port that takes the request as
it arrives: both ports of the reset state do. -/
theorem witness_idleAt : State.reset.idleAt .home ∧ State.reset.idleAt .guest ∧ State.reset.engine.charge = .home := by
  decide +kernel

theorem witness_ChargeMoves :
    State.reset.idleAt .home ∧ State.reset.engine.charge = .home ∧ guestCharge.idleAt .guest ∧
      guestCharge.engine.charge = .guest ∧ guestCharge.idleAt .home := by
  decide +kernel

theorem witness_ResetEngineAfterItsReply :
    State.reset.idleAt .home ∧
      ((atHome fun x => { x with service := some ⟨0x05, body []⟩, line := some (.service (someReply 0x05)) }).port
        .home).line = some (.service (someReply 0x05)) ∧
      (someReply 0x05).echo = 0x05 ∧ (someReply 0x05).status = .ok := by
  decide +kernel

theorem witness_BytesAtReceiver :
    State.reset.engine.powered = true ∧
      (∀ r ∈ [PortReceiver.inBreak, .hunting, .receiving [], .receiving [1], .receiving [1, 2],
          .receiving [1, 0, 18, 0x20], .receiving [1, 0, 2, 0x02, 0, 0]],
        (hearing r).engine.powered = true ∧ ((hearing r).port .home).receiver = r) ∧
      (∀ b ∈ ([3, 2] : List Byte), leftHome (exec (.receiveByte .home b false) (hearing (.receiving [1]))) =
        some (if b = 3 then { State.reset.home with garbled := true }
          else { State.reset.home with receiver := .receiving [1, 2] })) ∧
      (crc16 [1, 0, 2, 0x02, 0]).toNat ≠ (0#8).toNat * 256 + (0#8).toNat ∧
      (let length := (0#8).toNat * 256 + (18#8).toNat
       ¬ 16 < (16#8).toNat ∧ 16 < (17#8).toNat ∧ ¬ length < (16#8).toNat + 2 ∧ length < (17#8).toNat + 2) ∧
      ¬ 512 + (0#8).toNat + 2 < 2 * 256 + (0x02#8).toNat ∧ 512 + (0#8).toNat + 2 < 2 * 256 + (0x03#8).toNat ∧
      2 * 256 + (0x12#8).toNat = 530 ∧ 2 * 256 + (0x13#8).toNat = 531 ∧ 0 * 256 + (0x01#8).toNat = 1 ∧
      0 * 256 + (0x02#8).toNat = 2 ∧ 16 < (0x11#8).toNat := by
  decide +kernel

theorem witness_FrameOnLineIsRequest :
    requestOf (.setSendRow .home { params := List.replicate 16 1, data := List.replicate 512 1 }) =
        some (.home, ⟨0x21, { params := List.replicate 16 1, data := List.replicate 512 1 }⟩) ∧
      (List.replicate 16 (1 : Byte)).length ≤ 16 ∧ (List.replicate 512 (1 : Byte)).length ≤ 512 ∧
      State.reset.engine.powered = true ∧ (State.reset.port .home).receiver = .hunting := by
  decide +kernel

/-- FrameOnLineIsRequest: a byte function that a parameter list gives, with bytes missing. -/
theorem witness_FrameOnLineIsRequest_bytes (q : Payload) :
    ∀ n, (∀ b, q.params[n]? = some b → Payload.byte q n = b) ∧ (q.params.length ≤ n → Payload.byte q n = 0) :=
  fun _ => ⟨fun _ => Payload.byte_carried, Payload.byte_missing⟩

/-- R178: big-endian numbers, two's complement, mix 1 at bit 0 of the third byte, and event positions above the
eleventh ignored; a missing byte is zero. -/
theorem test_parameters :
    Payload.u16 (body [0x12, 0x34]) 0 = 0x1234 ∧ Payload.u24 (body [0x12, 0x34]) 0 = 0x123400 ∧
      Payload.s8 (body [0x90]) 0 = -112 ∧ Payload.s8 (body [0x7F]) 0 = 127 ∧
      Payload.mixSet (body [0x80, 0, 1]) 0 = 0x800001 ∧ Payload.events (body [0xFC, 0x01]) 0 = 0x401 := by
  decide +kernel

theorem witness_FrameEndServesNext :
    ((atHome fun x => { x with line := some (.attention ⟨⟨1, 0⟩, 0⟩) }).port .home).line =
        some (.attention ⟨⟨1, 0⟩, 0⟩) ∧
      ((busyWith 0).port .home).line = some (.service (someReply 0x02)) ∧ ((busyWith 0).port .home).queue = [] ∧
      ((busyWith 4).port .home).queue = ⟨0x11, body []⟩ :: List.replicate 3 ⟨0x11, body []⟩ ∧
      (State.reset.port .home).line = none ∧ (busyWith 4).settled ∧
      requestOf (.readNoticeMask .home (body [])) = some (.home, ⟨0x11, body []⟩) := by
  decide +kernel

/-- FrameEndServesNext: a WAIT at the front of the queue that parks, with nothing behind it or with a PORT STATUS. -/
theorem witness_FrameEndServesNext_wait :
    (∀ rest ∈ [[], [(⟨0x02, body []⟩ : Request)]],
      let s := atHome fun x => { x with
        service := some ⟨0x02, body []⟩, line := some (.service (someReply 0x02))
        queue := ⟨0x14, body [0, 1, 0, 0, 0]⟩ :: rest }
      (s.port .home).queue = ⟨0x14, body [0, 1, 0, 0, 0]⟩ :: rest ∧ s.settled ∧
        (leftHome (exec (.wait .home (body [0, 1, 0, 0, 0])) (s.freed .home))).map (fun x => (x.service, x.wait)) =
          some (none, some ⟨⟨1, 0⟩, 0⟩)) ∧
      requestOf (.wait .home (body [0, 1, 0, 0, 0])) = some (.home, ⟨0x14, body [0, 1, 0, 0, 0]⟩) ∧
      requestOf (.portStatus .home (body [])) = some (.home, ⟨0x02, body []⟩) := by
  decide +kernel

theorem witness_LineBreakResetsPort :
    (hearing .inBreak).engine.powered = true ∧ (hearing .inBreak).settled ∧
      ((hearing .inBreak).port .home).receiver = .inBreak ∧ State.reset.settled ∧
      (State.reset.port .home).receiver ≠ .inBreak := by
  decide +kernel

/-- SetNoticeMaskUpdates: the longest reply and the shortest one, an empty and a nonempty mask. -/
theorem witness_SetNoticeMaskUpdates :
    (∀ n ∈ [0, 512],
      let r : Reply := { echo := 0x47, status := .ok, lost := true, garbled := true, clamped := true,
                         data := List.replicate n 0xFF }
      r.data.length ≤ 512 ∧ r.body.length = n + 3) ∧
    (let mask : ItemSet := { events := Payload.events (body [0, 0, 2]) 0, rises := Payload.states (body [0, 0, 2]) 2 }
     let reasons := (State.reset.port .home).unit.reasons.union (mask.inter (State.reset.port .home).unit.occurred)
     mask ≠ ItemSet.empty ∧ reasons ≠ ItemSet.empty) ∧
      (State.reset.port .home).unit.armed = true ∧
      (State.reset.port .home).unit.reasons.union (ItemSet.empty.inter (State.reset.port .home).unit.occurred) =
        ItemSet.empty := by
  decide +kernel

theorem witness_WaitParksOrIsMet :
    (let s := atHome fun x => { x with wait := some ⟨⟨1, 0⟩, 0⟩ }
     s.idleAt .home ∧ (s.port .home).wait = some ⟨⟨1, 0⟩, 0⟩) ∧
      (State.reset.port .home).wait = none ∧ (1#8 &&& State.reset.engine.levels .home ≠ 0#8) ∧
      (({ events := 0#11, states := 2#8 } : Condition).items.inter (State.reset.port .home).unit.occurred ≠
        ItemSet.empty) ∧
      (0x80#8 &&& State.reset.engine.levels .home = 0#8) ∧
      (({ events := 0x400#11, states := 0x80#8 } : Condition).items.inter (State.reset.port .home).unit.occurred =
        ItemSet.empty) := by
  decide +kernel

theorem witness_WaitTimeoutAnswers :
    ∀ n ∈ [0, 1, 65535],
      let s := atHome fun x => { x with wait := some ⟨⟨1, 0⟩, n⟩ }
      s.engine.powered = true ∧ s.settled ∧ (s.port .home).wait = some ⟨⟨1, 0⟩, n⟩ ∧ s.idleAt .home := by
  decide +kernel

/-- What `PortState.Hears` supposes of a port: an orderly armed unit whose mask names an item, with no wait parked, and a
parked wait that names an item outside the mask. -/
theorem witness_Hears :
    (let x : PortState := { PortState.reset with unit := { NoticeUnit.reset with mask := ⟨1, 0⟩ } }
     x.unit.Orderly ∧ x.unit.armed = true ∧ x.wait = none ∧ x.unit.mask.has (.event .clip) = true ∧
      x.unit.mask.has (.event .guard) = false) ∧
      (let x : PortState := { PortState.reset with wait := some ⟨⟨1, 0⟩, 0⟩ }
       x.unit.Orderly ∧ x.wait = some ⟨⟨1, 0⟩, 0⟩ ∧ (⟨1, 0⟩ : Condition).names (.event .clip) = true ∧
        (⟨1, 0⟩ : Condition).names (.event .guard) = false ∧ x.unit.mask = ItemSet.empty) := by
  have none : ∀ i, NoticeUnit.reset.occurred.has i = false := fun i => ItemSet.has_empty i
  refine ⟨⟨⟨fun _ => rfl, fun i _ h => ?_⟩, by decide +kernel⟩, ⟨⟨fun _ => rfl, fun i _ h => ?_⟩, by decide +kernel⟩⟩ <;>
    exact absurd ((none i).symm.trans h) (by decide)

theorem witness_ItemAtNoticeUnit :
    (let x : PortState := { PortState.reset with unit := { NoticeUnit.reset with mask := ⟨1, 0⟩ } }
     x.wait = none ∧ x.unit.armed = true ∧
      x.unit.reasons.union (x.unit.mask.inter (x.unit.occurred.union (ItemSet.single (.event .clip)))) ≠
        ItemSet.empty) ∧
      (let x : PortState := { PortState.reset with unit := { NoticeUnit.reset with armed := false } }
       x.wait = none ∧ x.unit.armed = false) := by
  decide +kernel

theorem witness_AttentionAndWaitOrders :
    let x : PortState :=
      { PortState.reset with
        wait := some ⟨⟨1, 0x80⟩, 0⟩, unit := { NoticeUnit.reset with mask := ⟨1, 0x80⟩ } }
    x.wait = some ⟨⟨1, 0x80⟩, 0⟩ ∧ (⟨1, 0x80⟩ : Condition).names (.event .clip) = true ∧
      (⟨1, 0x80⟩ : Condition).names (.rise .callsWaiting) = true ∧ x.unit.armed = true ∧
      x.unit.mask.has (.event .clip) = true ∧ x.unit.mask.has (.rise .callsWaiting) = true ∧
      x.unit.reasons = ItemSet.empty ∧ x.unit.mask.inter x.unit.occurred = ItemSet.empty ∧
      (0x80#8).getLsbD (Level.bit .callsWaiting) = true ∧
      (∃ met : ItemSet → Frame, ∀ items, met items =
        .parked { echo := 0x14, status := .met, lost := x.lost, garbled := x.garbled, clamped := false,
                  data := bytes16 items.events.toNat ++ [items.rises, 0x80] }) :=
  ⟨rfl, by decide +kernel, by decide +kernel, by decide +kernel, by decide +kernel, by decide +kernel,
    by decide +kernel, by decide +kernel, by decide +kernel, _, fun _ => rfl⟩

/-- The attention first: a rise that a masked wait names is reported, kept in the reasons and not consumed. -/
theorem test_attentionFirst :
    let x : PortState :=
      { PortState.reset with
        wait := some ⟨⟨1, 0x80⟩, 0⟩, unit := { NoticeUnit.reset with mask := ⟨1, 0x80⟩ } }
    (x.arrive (.rise .callsWaiting) false 0x80).unit.reasons = ⟨0, 0x80⟩ ∧
      (x.arrive (.rise .callsWaiting) false 0x80).ready =
        [.attention ⟨⟨0, 0x80⟩, 0x80⟩, .parked ⟨0x14, .met, false, false, false, [0, 0, 0, 0x80]⟩] := by
  decide +kernel

/-- The bytes of a reply with all three flags, and of an attention frame. -/
theorem test_frameBytes :
    Frame.bytes (.service ⟨0x20, .badIndex, true, true, true, []⟩) =
        [0xA5, 0x02, 0x00, 0x03, 0x20, 0x13, 0x07] ++
          bytes16 (crc16 [0x02, 0x00, 0x03, 0x20, 0x13, 0x07]).toNat ∧
      Frame.bytes (.attention ⟨⟨0x401, 0x80⟩, 0x81⟩) =
        [0xA5, 0x03, 0x00, 0x04, 0x04, 0x01, 0x80, 0x81] ++
          bytes16 (crc16 [0x03, 0x00, 0x04, 0x04, 0x01, 0x80, 0x81]).toNat := by
  decide +kernel

theorem witness_LinkSignals :
    State.reset.settled ∧ (State.reset.engine.receiver .a).state = .down ∧
      ((linked { Receiver.reset with state := .seeking } (lockedReceiver true 0) Selector.reset).engine.receiver
        .a).state = .seeking ∧
      ((linked Receiver.reset (lockedReceiver true 0) Selector.reset).engine.receiver .b).state = .locked ∧
      (blocks fun e => { e with powered := false }).engine.powered = false := by
  decide +kernel

/-- FrameArrivals: the shortest and the longest good frame, a sequence that is none, and runs of 1, 3 and 4. -/
theorem witness_FrameArrivals :
    (∀ f : StageFrame, f.carriable → ([] : List Byte) ≠ f.bytes) ∧
      (StageFrame.carriable { number := 0xFFFF, samples := [-8388608] }) ∧
      (StageFrame.carriable { number := 0, samples := List.replicate 64 8388607 }) ∧
      (∀ n ∈ [0, 2, 3],
        let r : Receiver := { Receiver.reset with state := .seeking, goodRun := n, lastNumber := some 0xFFFF }
        (if 1 ≤ r.goodRun ∧ r.lastNumber = some (0#16 - 1#16) then r.goodRun + 1 else 1) = n + 1) ∧
      (lockedReceiver false 0).state = .locked := by
  refine ⟨fun f _ h => ?_, by decide, by decide +kernel, by decide +kernel, by decide⟩
  simp [StageFrame.bytes, StageFrame.checked, bytes16] at h

theorem witness_InstantAtReceivers :
    (lockedReceiver false 7).leaving ∧
      ((lockedReceiver false 6).state = .locked ∧ (lockedReceiver false 6).fresh = false ∧
        (lockedReceiver false 6).missRun + 1 < 8) ∧
      (lockedReceiver true 0).fresh = true ∧ State.reset.engine.linkA.state ≠ .locked ∧
      (linked (lockedReceiver false 7) (lockedReceiver false 6) Selector.reset).engine.powered = true := by
  decide +kernel

theorem witness_InstantDeliversOrConceals :
    (let s := linked (lockedReceiver true 0) Receiver.reset Selector.reset
     ¬ s.engine.mayRevert ∧ (s.engine.receiver s.engine.selector.active).fresh = true ∧
      (s.engine.receiver s.engine.selector.active).held = some { number := 9, samples := [5] }) ∧
      (∀ n ∈ [0, 1],
        let s := linked (lockedReceiver false 0) (lockedReceiver true 0) { Selector.reset with missRun := n }
        ¬ s.engine.mayRevert ∧ (s.engine.receiver s.engine.selector.active).fresh = false ∧
          s.engine.selector.missRun + 1 < 3) ∧
      (let s := linked (lockedReceiver false 0) Receiver.reset { Selector.reset with missRun := 255, concealCount := 255 }
       ¬ s.engine.mayRevert ∧ (s.engine.receiver .b).state ≠ .locked) := by
  decide +kernel

theorem witness_FailoverAndRevert :
    (∀ fresh ∈ [true, false],
      let s := linked (lockedReceiver false 2) (lockedReceiver fresh 7) { Selector.reset with missRun := 2 }
      s.engine.selector.mode = .auto ∧ ¬ s.engine.mayRevert ∧ (s.engine.receiver s.engine.selector.active).fresh = false ∧
        3 ≤ s.engine.selector.missRun + 1 ∧ (s.engine.receiver s.engine.selector.active.other).state = .locked ∧
        (s.engine.receiver s.engine.selector.active.other).fresh = fresh ∧ ¬ s.engine.linkA.leaving) ∧
      (let s := linked (lockedReceiver true 0) (lockedReceiver true 0)
        { Selector.reset with active := .b, primaryTime := 96000 }
       s.engine.mayRevert ∧ s.engine.linkA.held = some { number := 9, samples := [5] }) ∧
      (linked (lockedReceiver false 7) (lockedReceiver true 0) { Selector.reset with active := .b }).engine.linkA.leaving ∧
      (linked Receiver.reset (lockedReceiver false 7) { Selector.reset with missRun := 2 }).engine.linkB.leaving := by
  decide +kernel

theorem witness_SourceModeAndLinkStatus :
    2 < Payload.u8 (body [3]) 0 ∧ Payload.u8 (body [0]) 0 = 0 ∧ Payload.u8 (body [1]) 0 = 1 ∧
      Payload.u8 (body [2]) 0 = 2 ∧ State.reset.engine.selector.active = .a ∧
      (linked Receiver.reset Receiver.reset { Selector.reset with active := .b }).engine.selector.active = .b ∧
      (linked Receiver.reset Receiver.reset { Selector.reset with active := .b }).idleAt .home := by
  decide +kernel

/-- For InstantComputesMixes, InstantMovesRampsAndRaises and OutputsWithinCeiling: the power is on, and a guard at the
edge of its ceiling engages or does not. -/
theorem witness_FrameInstant :
    State.reset.engine.powered = true ∧ (State.reset.engine.runs[0]).gain = 16384 ∧
      (State.reset.engine.runs[0]).guard = false ∧
      guardEngages 1000 (-1000) 16384 1000 = false ∧ guardEngages 1000 (-1001) 16384 1000 = true ∧
      (MixRun.reset.instant { MixRec.reset with ceiling := 1000 } (1001 * 16384) 0).guard = true := by
  decide +kernel

/-- For InstantComputesMixes: an instant after which the input meters rise, and one after which they do not. -/
theorem witness_InstantComputesMixes :
    State.reset.engine.metersRest = false ∧ (blocks fun e => { e with metersRest := true }).engine.metersRest = true ∧
      (blocks fun e => { e with metersRest := true }).engine.powered = true := by
  decide +kernel

/-- For OutputsWithinCeiling: mix 1 with the ceiling 1 and the guard latch set hears a sample of 5 at unity. -/
def engaging : State :=
  blocks fun e => { e with
    linkA := lockedReceiver true 0
    tables := { e.tables with
      mixes := e.tables.mixes.set 0 { MixTable.reset with record := { MixRec.reset with ceiling := 1 } } }
    coefs := e.coefs.set 0 ((e.coefs[0]).set 0 ⟨⟨16384, 16384, 1⟩, ⟨0, 0, 1⟩⟩)
    runs := e.runs.set 0 { MixRun.reset with guard := true } }

theorem witness_OutputsWithinCeiling :
    ∃ t, exec .frameInstant engaging = .next t ∧
      ((engaging.engine.tables.mixes[0]).record.ceiling : Nat) <
        max (roundHalfEven (max (-8388608) (min 8388607 (scaled
            (mixSum t.engine.selector.delivered engaging.engine.tables.inputs fun i =>
              ((engaging.engine.coefs[0])[i]).left.live) (engaging.engine.tables.mixes[0]).record.shift)) *
                (engaging.engine.runs[0]).gain) 16384).natAbs 0 ∧
      (engaging.engine.runs[0]).guard = true := by
  obtain ⟨e, at', al, ev, t, hs, ht, te, _⟩ := exec_frameInstant (s := engaging) rfl
  refine ⟨t, ht, ?_, by decide +kernel⟩
  have delivered : t.engine.selector.delivered = StageFrame.spread { number := 9, samples := [5] } := by
    rw [te, Engine.computeMixes_selector, hs.selector]
    rfl
  rw [delivered]
  decide +kernel

theorem witness_ConvergentRounding :
    ((40960 : Int).natAbs = 2 * 2 ^ 14 + 8192 ∧ 8192 < 2 ^ 14) ∧ ((-24576 : Int).natAbs = 1 * 2 ^ 14 + 8192) ∧
      ((8191 : Int).natAbs = 0 * 2 ^ 13 + 8191 ∧ 8191 < 2 ^ 13) ∧ ((32768 : Int).natAbs = 1 * 2 ^ 15 + 0) ∧
      ((-65535 : Int).natAbs = 0 * 2 ^ 16 + 65535 ∧ 65535 < 2 ^ 16) := by
  decide

theorem witness_AccumulatorBound :
    (∀ c : Fin 64, ∀ x : Int, (Vector.replicate 64 (some (-8388608)) : Delivered)[c] = some x →
      -8388608 ≤ x ∧ x ≤ 8388607) ∧ ∀ i : Fin 64, (fun _ : Fin 64 => 65535) i ≤ 65535 := by
  refine ⟨fun c x h => ?_, fun _ => Nat.le_refl _⟩
  simp at h; omega

theorem witness_MeterAndLatchRequests : Payload.u8 (body [0]) 0 = 0 ∧ 1 ≤ Payload.u8 (body [1]) 0 := by decide

/-- DerivedTargets: pairs silent for each of the five reasons, and pairs heard at each side of 0, of 232 and of the
pan. -/
theorem witness_DerivedTargets :
    (∀ g : Fin 8, (1 : Fin 64) ∈ ((mixFive.mixes[4]).groups[g]).members → (12 : Int) = ((mixFive.mixes[4]).groups[g]).trim) ∧
      (∀ g : Fin 8, (0 : Fin 64) ∉ ((mixFive.mixes[4]).groups[g]).members) ∧
      ((mixFive.mixes[4]).sends[0]).level = 0 ∧
      ((mixFive.inputs[1]).on = true ∧ (mixFive.inputs[1]).patch ≠ none ∧ ((mixFive.mixes[4]).sends[1]).on = true ∧
        ((mixFive.mixes[4]).sends[1]).level ≠ 0 ∧ (mixFive.mixes[4]).record.mute = false ∧
        0 < ((mixFive.mixes[4]).sends[1]).pan ∧ ((mixFive.mixes[4]).sends[1]).pan ≤ 32) ∧
      ((0x10#24).getLsbD 4 && decide ((some 1 : Option (Fin 64)) ≠ none)) = true ∧
      (⟨232, 0, true⟩ : SendRec).pan = 0 ∧ (⟨1, -32, true⟩ : SendRec).pan < 0 := by
  decide +kernel

theorem witness_CoefficientTable : (1 ≤ 1 ∧ 1 ≤ 232) ∧ (1 ≤ 232 ∧ 232 ≤ 232) ∧ 231 < 232 := by decide

theorem witness_RampReachesTarget :
    (0 : Nat) = Coef.reset.target ∧ (65226 : Nat) ≠ Coef.reset.target ∧
      Coef.retarget Coef.reset 65226 = { target := 65226, live := 0, step := 1020 } ∧
      (let c : Coef := { target := 2560, live := 2600, step := 40 }
       c.target ≤ c.live ∧ c.move.live = 2560 ∧ ({ c with live := 2559 } : Coef).live < c.target) := by
  decide

theorem witness_SendRequestsBroadcast :
    State.reset.idleAt .home ∧ State.reset.engine.charge = .home ∧ Payload.u8 (body [25]) 0 = 25 ∧
      Payload.u8 (body [24, 64, 232, 32, 1]) 0 = (23 : Fin 24).val + 1 ∧
      (Payload.byte (body [24, 64, 232, 32, 1]) 1).toNat = 64 ∧ (0x41#8).toNat = 65 ∧
      ([1, 10, 0, 1, 9] : List Byte) = (([(1, 10, 0, 1)] : List (Byte × Byte × Byte × Byte)).flatMap
        fun r => [r.1, r.2.1, r.2.2.1, r.2.2.2]) ++ [9] ∧
      MixSet.has State.reset.engine.awaiting 23 = false ∧
      (let s : State := { State.reset with engine := { State.reset.engine with
          tables := horns, library := { State.reset.engine.library with operation := .recall hornRecall } } }
       s.idleAt .home ∧ s.engine.tables.linked 2 3 ∧ MixSet.has s.engine.awaiting 3 = true ∧
        MixSet.has s.engine.awaiting 2 = false) := by
  decide +kernel

theorem witness_MixRequests :
    Payload.u8 (body [0]) 0 = 0 ∧ 24 < Payload.u8 (body [25]) 0 ∧ 8 < Payload.u8 (body [1, 9]) 1 ∧
      Payload.u8 (body [24, 8]) 0 = (23 : Fin 24).val + 1 ∧ Payload.u8 (body [24, 8]) 1 = numberFor (some (7 : Fin 8)) ∧
      Payload.u8 (body [24, 0]) 1 = numberFor (none : Option (Fin 8)) ∧
      (let q := body [1, 0x80, 0, 0, 0, 0, 0, 0, 0, 0, 0, 0, 9]
       Payload.present q 1 7 = true ∧ 8 < Payload.u8 q 12) ∧
      Payload.present (body [1, 0x7F]) 1 7 = false ∧
      (let s := working (.recall hornRecall)
       s.idleAt .home ∧ MixSet.has s.engine.awaiting 3 = true ∧ MixSet.has s.engine.awaiting 2 = false) := by
  decide +kernel

theorem witness_GroupRequest :
    ((0x00#8).toNat = 0 ∧ 64 < (0x41#8).toNat) ∧
      (([1, 64] : List Byte).map BitVec.toNat = ([0, 63] : List (Fin 64)).map fun i => i.val + 1) ∧
      ((0 : Fin 8) ≠ 1 ∧
        (5 : Fin 64) ∈ (((grouped ⟨-6, [4, 5, 6]⟩ ⟨4, [11]⟩).tables.mixes[6]).groups[(0 : Fin 8)]).members) ∧
      (∀ g' : Fin 8, g' ≠ 1 →
        (5 : Fin 64) ∉ (((grouped ⟨-6, [4, 6]⟩ ⟨4, [11]⟩).tables.mixes[6]).groups[g']).members) ∧
      Payload.u8 (body [7, 2]) 0 = (6 : Fin 24).val + 1 ∧ Payload.u8 (body [7, 2]) 1 = (1 : Fin 8).val + 1 ∧
      Payload.u8 (body [7, 8]) 1 = (7 : Fin 8).val + 1 ∧ 8 < Payload.u8 (body [7, 9]) 1 := by
  decide +kernel

theorem witness_InputRequest :
    Payload.u8 (body [0]) 0 = 0 ∧ 64 < Payload.u8 (body [65]) 0 ∧
      (Payload.present (body [1, 1, 65]) 1 0 = true ∧ 64 < Payload.u8 (body [1, 1, 65]) 2) ∧
      Payload.u8 (body [64, 1, 64]) 0 = (63 : Fin 64).val + 1 ∧
      Payload.u8 (body [64, 1, 64]) 2 = numberFor (some (63 : Fin 64)) ∧ Payload.present (body [1, 14]) 1 0 = false ∧
      (let s := working (.recall { hornRecall with phase := .load 0 true false })
       s.idleAt .home ∧ s.engine.inputsAwaiting = true) ∧ State.reset.engine.inputsAwaiting = false := by
  decide +kernel

theorem witness_TalkRequests :
    64 < Payload.u8 (body [65]) 0 ∧ Payload.u8 (body [64]) 0 = numberFor (some (63 : Fin 64)) ∧
      Payload.u8 (body [0]) 0 = numberFor (none : Option (Fin 64)) ∧ Payload.u8 (body [0, 0, 1, 0]) 3 = 0 ∧
      Payload.u8 (body [0, 0, 1, 2]) 3 ≠ 0 := by
  decide

theorem witness_TableReads :
    (Payload.u8 (body [0]) 0 = 0 ∧ 24 < Payload.u8 (body [25]) 0) ∧
      (Payload.u8 (body [1, 0]) 1 = 0 ∧ 8 < Payload.u8 (body [1, 9]) 1) ∧
      (Payload.u8 (body [24, 8]) 0 = (23 : Fin 24).val + 1 ∧ Payload.u8 (body [24, 8]) 1 = (7 : Fin 8).val + 1) := by
  decide

/-- StoreAndErase, RecallAndAbort: the library busy, at rest, at work, and slots of each state, named from 1 to 32. -/
theorem witness_StoreAndErase :
    (Payload.u8 (body [0]) 0 = 0 ∧ 32 < Payload.u8 (body [33]) 0 ∧ Payload.u8 (body [32]) 0 = (31 : Fin 32).val + 1) ∧
      State.reset.engine.library.operation ≠ .idle ∧ (shelf SceneSlot.factory).library.operation = .idle ∧
      ((shelf { SceneSlot.factory with protect := true }).library.slots[0]).protect = true ∧
      ((shelf SceneSlot.factory).library.slots[0]).protect = false ∧
      (working (.store 0 blankName Tables.reset)).engine.library.operation = .store 0 blankName Tables.reset ∧
      (working (.erase 0)).engine.library.operation = .erase 0 := by
  decide +kernel

theorem witness_RecallAndAbort :
    (∀ x ∈ [SlotState.empty, .damaged, .valid], ((shelf ⟨x, false, .erased⟩).library.slots[0]).state = x ∧
      (shelf ⟨x, false, .erased⟩).library.operation = .idle) ∧
      (∀ j, State.reset.engine.library.operation ≠ .recall j) ∧
      (working (.recall { hornRecall with phase := .verify })).engine.library.operation =
        .recall { hornRecall with phase := .verify } ∧
      hornRecall.phase = .load 0x3F8#24 false false := by
  refine ⟨by decide +kernel, fun j h => (by cases h), by decide +kernel, by decide⟩

theorem witness_RecallVerifyEnds :
    (recalling .verify (.written blankName horns)).powered = true ∧
      (recalling .verify (.written blankName horns)).library.operation = .recall { hornRecall with phase := .verify } ∧
      ((recalling .verify (.written blankName horns)).library.slots[0]).image = .written blankName horns ∧
      hornRecall.mixes ≠ 0#24 ∧ ((recalling .verify (.broken blankName)).library.slots[0]).image = .broken blankName ∧
      (recalling .verify (.written blankName horns)).awaiting = 0#24 ∧
      (recalling (.load 0x3F8 true false) (.written blankName horns)).awaiting = 0x3F8 ∧
      (recalling (.load 0x3F8 true false) (.written blankName horns)).inputsAwaiting = true ∧
      State.reset.engine.library.operation = .verifyAll 0 := by
  decide +kernel

theorem witness_RecallLoads :
    (recalling (.load 0x3F8 false false) (.written blankName horns)).library.operation =
        .recall { hornRecall with phase := .load 0x3F8 false false } ∧
      (0x3F8#24).getLsbD 3 = true ∧ (∀ m' < (3 : Fin 24), (0x3F8#24).getLsbD m'.val = false) ∧
      (0x800000#24).getLsbD 23 = true ∧ (∀ m' < (23 : Fin 24), (0x800000#24).getLsbD m'.val = false) ∧
      (recalling (.load 0 true true) (.written blankName horns)).library.operation =
        .recall { hornRecall with phase := .load 0 true true } := by
  decide +kernel

theorem witness_VerifyAllAndStartScene :
    State.reset.engine.library.operation = .verifyAll 0 ∧ State.reset.settled ∧
      (working (.verifyAll 31)).engine.library.operation = .verifyAll 31 ∧
      State.reset.engine.library.startScene = none ∧
      ((shelf ⟨.valid, false, .written blankName Tables.reset⟩).library.slots[0]).state = .valid ∧
      ((shelf ⟨.damaged, false, .broken blankName⟩).library.slots[0]).state ≠ .valid := by
  decide +kernel

theorem witness_SlotSettingsAndReads :
    (Payload.u8 (body [0]) 0 = 0 ∧ 32 < Payload.u8 (body [33]) 0 ∧ Payload.u8 (body [32, 1]) 0 = (31 : Fin 32).val + 1) ∧
      Payload.u8 (body [32]) 0 = numberFor (some (31 : Fin 32)) ∧
      Payload.u8 (body [0]) 0 = numberFor (none : Option (Fin 32)) ∧ 3 < Payload.u8 (body [4]) 0 ∧
      Payload.u8 (body [3]) 0 = (3 : Fin 4).val ∧ SlotState.code .unchecked = 0 ∧ SlotState.code .empty = 1 ∧
      SlotState.code .valid = 2 ∧ SlotState.code .damaged = 3 ∧ ResultOp.code .startLoad = 4 ∧
      ResultOutcome.code .skipped = 4 := by
  decide +kernel

/-- A record of the lowest target value at the last address, and a frame of the lowest and the greatest sample. -/
theorem test_packBusBytes :
    StatusRec.bytes ⟨31, .online, some 23, 8, -40, true, false⟩ = [32, 1, 24, 8, 0xD8, 1, 0] ∧
      AudioFrame.bytes (Vector.replicate 32 (-8388608, 8388607)) =
        (List.replicate 32 [0x80, 0, 0, 0x7F, 0xFF, 0xFF]).flatten := by
  decide +kernel

theorem witness_AudioAndDownstream :
    (∃ state : PackState → Byte, state .empty = 0 ∧ state .online = 1 ∧ state .lost = 2 ∧ state .conflict = 3) ∧
    (blocks fun e => { e with packs := { e.packs with frameDue := true } }).engine.packs.frameDue = true ∧
      (sweeping .downstream online).engine.packs.sweep = .downstream ∧
      (sweeping (.reading []) online).engine.packs.sweep = .reading [] ∧
      (sweeping (.reading []) online).engine.packs.keyEvents = [] ∧ (sweeping .downstream online).settled := by
  exact ⟨⟨PackState.code, by decide⟩, by decide +kernel⟩

theorem witness_SweepAndPoll :
    State.reset.engine.packs.sweep = .idle ∧
      (∀ n ∈ [14, 15], (sweeping .poll fun x => { online x with missRun := n }).engine.packs.sweep = .poll ∧
        ((sweeping .poll fun x => { online x with missRun := n }).engine.packs.slots[0]).state = .online ∧
        ((sweeping .poll fun x => { online x with missRun := n }).engine.packs.slots[0]).missRun = n) ∧
      (0#64).getLsbD 0 = false ∧ (1#64).getLsbD 0 = true := by
  decide +kernel

theorem witness_ArbiterAndReports :
    (sweeping .read online).engine.packs.sweep = .read ∧
      (∀ rest ∈ [[], [(1 : Fin 32)]], (sweeping (.reading (0 :: rest)) online).engine.packs.sweep = .reading (0 :: rest)) ∧
      (∃ count check, (some [0, 0] : Option (List Byte)) = some (count :: (([] : List Byte) ++ [check])) ∧
        count.toNat = 0 ∧ ((count :: ([] ++ [check])).map BitVec.toNat).sum % 256 = 0) ∧
      (∃ count check, (some [5, 1, 1, 1, 1, 0xFF, 0xF8] : Option (List Byte)) =
          some (count :: (([1, 1, 1, 1, 0xFF] : List Byte) ++ [check])) ∧
        count.toNat = 5 ∧ ((count :: ([1, 1, 1, 1, 0xFF] ++ [check])).map BitVec.toNat).sum % 256 = 0) := by
  exact ⟨by decide +kernel, by decide +kernel, ⟨0, 0, by decide⟩, ⟨5, 0xF8, by decide⟩⟩

theorem witness_WindowOutcomes :
    (∀ a ∈ [(0 : Fin 32), 31], (sweeping (.attach a) online).engine.packs.sweep = .attach a) ∧
      (∃ check, Received.bytes [7, 7, 7, 7, 7, 7, 0xD6] =
          .bytes ((Vector.replicate 6 (7 : Byte)).toList ++ [check]) ∧
        (((Vector.replicate 6 (7 : Byte)).toList ++ [check]).map BitVec.toNat).sum % 256 = 0) ∧
      (∀ id : PackIdentity, ¬ ∃ check, Received.overlap = .bytes (id.toList ++ [check]) ∧
        ((id.toList ++ [check]).map BitVec.toNat).sum % 256 = 0) ∧
      ((sweeping (.attach 0) online).engine.packs.slots[0]).identity = some (Vector.replicate 6 7) := by
  refine ⟨by decide +kernel, ⟨0xD6, by decide⟩, fun id h => ?_, by decide +kernel⟩
  obtain ⟨_, h, _⟩ := h
  cases h

theorem witness_PackAndCallRequests :
    Payload.u8 (body [0]) 0 = 0 ∧ 32 < Payload.u8 (body [33]) 0 ∧ 24 < Payload.u8 (body [1, 25]) 1 ∧
      Payload.u8 (body [32, 24]) 0 = (31 : Fin 32).val + 1 ∧ Payload.u8 (body [32, 24]) 1 = numberFor (some (23 : Fin 24)) ∧
      Payload.u8 (body [32, 0]) 1 = numberFor (none : Option (Fin 24)) ∧ PackState.code .empty = 0 ∧
      PackState.code .online = 1 ∧ PackState.code .lost = 2 ∧ PackState.code .conflict = 3 := by
  decide

/-- KeySteps: events at the front and a held key, on slot 1 ONLINE, and values at the ends of their ranges. -/
theorem witness_KeySteps :
    ((pressing 0x01).engine.packs.keyEvents = (0, 0x01) :: [] ∧ (pressing 0x02).engine.packs.keyEvents = (0, 0x02) :: []) ∧
      ((pressing 0x01).engine.packs.slots[0]).state = .online ∧ (pressing 0x01).settled ∧
      ((pressing 0x01).engine.packs.slots[0]).assigned = some 0 ∧
      ((pressing 0x01).engine.tables.mixes[0]).record.hold = false ∧
      MixSet.has (pressing 0x01).engine.awaiting 0 = false ∧
      ((sweeping .idle fun x => { online x with held := some ⟨.up, .delay, 400⟩ }).engine.packs.slots[0]).held =
        some ⟨.up, .delay, 400⟩ ∧
      within (-120) 20 (20 + 1) = 20 ∧ within (-120) 20 (19 + 1) = 20 ∧ within (-120) 20 (-120 - 1) = -120 ∧
      within (-80) 20 (20 + 1) = 20 ∧ within (-80) 20 (-80 - 1) = -80 := by
  decide +kernel

theorem witness_OtherKeyEvents :
    (∀ c ∈ ([0x01, 0x02, 0x03, 0x04, 0x05, 0x06, 0x81, 0x82, 0x83, 0x84, 0x85, 0x86, 0xFF, 0x00, 0x07, 0x80, 0x87, 0xFE] :
        List Byte),
      (pressing c).engine.packs.keyEvents = (0, c) :: [] ∧ ((pressing c).engine.packs.slots[0]).state = .online) ∧
      (0 : Fin 32) ∉ (pressing 0x05).engine.packs.calls ∧ (pressing 0x05).engine.powered = true ∧
      (pressing 0x05).settled ∧
      (let s := blocks fun e => { e with packs := { e.packs with keyEvents := [(0, 0x03)] } }
       s.engine.packs.keyEvents = (0, 0x03) :: [] ∧ (s.engine.packs.slots[0]).state ≠ .online) := by
  decide +kernel

theorem witness_WarmReset :
    State.reset.engine.powered = true ∧ (∀ j, State.reset.engine.library.operation ≠ .recall j) ∧
      (recalling (.load 0x3F8 false false) (.written blankName horns)).library.operation =
        .recall { hornRecall with phase := .load 0x3F8 false false } ∧
      (begunAtInstant true (.attention ⟨⟨2, 0⟩, 0⟩)).unseen = true ∧ PortState.reset.unseen = false ∧
      (recalling .verify .erased).library.operation = .recall { hornRecall with phase := .verify } := by
  refine ⟨by decide, fun j h => (by cases h), by decide +kernel, by decide +kernel, rfl, by decide +kernel⟩

theorem witness_PowerLossAndPowerUp :
    (working (.erase 31)).engine.library.operation = .erase 31 ∧
      (working (.store 0 blankName Tables.reset)).engine.library.operation = .store 0 blankName Tables.reset ∧
      (∀ k, State.reset.engine.library.operation ≠ .erase k) ∧
      (blocks fun e => { e with powered := false }).engine.powered = false := by
  refine ⟨by decide +kernel, by decide +kernel, fun k h => (by cases h), by decide⟩

/-- For StepKeepsTables: the reset tables are lawful, and a step from them gives a next state. -/
theorem witness_StepKeepsTables : State.reset.engine.TablesLawful ∧ step State.reset = .next State.reset := by
  refine ⟨⟨Tables.reset_lawful, fun k n c h => ?_, fun k n c h => by cases h⟩, rfl⟩
  have : State.reset.engine.library.slots[k] = SceneSlot.factory := by simp [State.reset, Engine.reset, Library.reset]
  rw [this] at h; cases h

/-- For StepKeepsLevels. -/
theorem witness_StepKeepsLevels : State.reset.engine.LevelsFollow ∧ step State.reset = .next State.reset := by
  have pair : ∀ (m : Fin 24) (i : Fin 64), (State.reset.engine.coefs[m])[i] = CoefPair.reset := fun m i => by
    simp [State.reset, Engine.reset]
  have run : ∀ m : Fin 24, State.reset.engine.runs[m] = MixRun.reset := fun m => by simp [State.reset, Engine.reset]
  refine ⟨⟨fun m i => ?_, fun m i => ?_, fun m => ?_⟩, rfl⟩
  · have silent : deriveTargets State.reset.engine.tables State.reset.engine.onAir m i = (0, 0) := by
      unfold deriveTargets
      rw [if_pos]
      unfold silenced overridden talking
      simp [State.reset, Engine.reset, Tables.reset, MixTable.reset, SendRec.reset]
    rw [pair, silent]; exact ⟨rfl, rfl⟩
  · rw [pair]; decide
  · rw [run]; decide

/-- For StepKeepsLevels: the stages of the reset state are lawful. -/
theorem witness_StepKeepsLevels_stages : State.reset.engine.StagesLawful := by
  refine ⟨fun l => ?_, Selector.Lawful.warmReset Selector.reset⟩
  cases l <;> exact Receiver.Lawful.coldReset Receiver.reset

/-- For StepKeepsPacks. -/
theorem witness_StepKeepsPacks : State.reset.engine.packs.Lawful ∧ step State.reset = .next State.reset := by
  have slot : ∀ a : Fin 32, PackBus.reset.slots[a] = PackSlot.reset a := fun a => by simp [PackBus.reset]
  refine ⟨?_, rfl⟩
  show PackBus.reset.Lawful
  refine PackBus.lawful_of_slots (fun a => ?_) (fun a a' hn => ?_) (fun l h => by cases h) (by simp [PackBus.reset])
  · rw [slot]; simp [PackSlot.Lawful, PackSlot.reset]
  · rw [slot] at hn; simp [PackSlot.reset] at hn

/-- For StepKeepsPorts. -/
theorem witness_StepKeepsPorts :
    (∀ p, (State.reset.port p).Served) ∧ State.reset.MarksLawful ∧ step State.reset = .next State.reset := by
  refine ⟨fun p => ?_, fun p h => (by cases p <;> cases h), rfl⟩
  cases p <;> refine ⟨by decide, fun _ => rfl, by decide, fun _ => rfl, fun _ => rfl, fun i h => ?_⟩ <;>
    exact absurd h (by rw [show (State.reset.port _).unit.mask = ItemSet.empty from rfl]; simp)

end Sys2Proof.Machine.Tests
end

/-! What a step keeps of the levels and of the stages: a property that says nothing of the scene library and the pack
bus is kept by every change made there, once for both. -/
namespace Sys2Proof.Machine

/-- A property of the blocks that says nothing of the power, the scene library or the pack bus, and that everything
else one command can do keeps: a receiver may become anything lawful. -/
structure Engine.Apart (P : Engine → Prop) : Prop where
  elsewhere : ∀ {e : Engine}, P e → ∀ (powered : Bool) (library : Library) (packs : PackBus),
    P { e with powered := powered, library := library, packs := packs }
  request : ∀ n p q x e, P e → P (answerRequest n p q e x).engine
  receiver : ∀ l r e, P e → ((e.receiver l).Lawful → r.Lawful) → P (e.setReceiver l r)
  instant : ∀ turn e, P e → P (e.frameInstant turn).1
  mix : ∀ e, P e → ∀ j awaiting inputs aborting m, P (e.loadMix j awaiting inputs aborting m).1
  inputs : ∀ e, P e → ∀ j aborting, P (e.loadInputs j aborting).1
  step : ∀ e, P e → ∀ a k, P (e.step a k).1
  talk : ∀ p e, P e → P (e.dropTalk p)
  warm : ∀ together e, P e → P (e.warmReset together)
  cold : ∀ e, P e → P e.coldReset

section
variable {P : Engine → Prop}

theorem Engine.Apart.event (h : Engine.Apart P) {f : Engine → Act} (hf : ∀ e, P e → P (f e).1) (a c) (e : Engine)
    (he : P e) : P (e.applyEvent a c f).1 := by
  unfold Engine.applyEvent
  split
  · split
    · dsimp only
      split
      · exact hf _ (h.elsewhere he _ _ _)
      · exact h.elsewhere he _ _ _
    · exact he
  · exact he

theorem Engine.Apart.beginLoad (h : Engine.Apart P) (j : RecallJob) {e : Engine} (he : P e) : P (e.beginLoad j).1 := by
  unfold Engine.beginLoad Engine.afterItem
  split
  · exact h.elsewhere he _ _ _
  · split <;> exact h.elsewhere he _ _ _

theorem Engine.Apart.storeWriteEnd (h : Engine.Apart P) (e : Engine) (he : P e) : P e.storeWriteEnd.1 := by
  unfold Engine.storeWriteEnd
  split
  · exact h.elsewhere he _ _ _
  · exact he

theorem Engine.Apart.recallVerifyEnd (h : Engine.Apart P) (d : Option SceneName) (e : Engine) (he : P e) :
    P (e.recallVerifyEnd d).1 := by
  unfold Engine.recallVerifyEnd
  split
  · split
    · dsimp only
      split
      · exact h.beginLoad _ (h.elsewhere he _ _ _)
      · exact h.elsewhere he _ _ _
    · exact he
  · exact he

theorem Engine.Apart.mixLoad (h : Engine.Apart P) (e : Engine) (he : P e) : P e.mixLoad.1 := by
  unfold Engine.mixLoad
  split
  · split
    · split
      · exact h.mix _ he _ _ _ _ _
      · exact he
    · exact he
  · exact he

theorem Engine.Apart.inputSectionLoad (h : Engine.Apart P) (e : Engine) (he : P e) : P e.inputSectionLoad.1 := by
  unfold Engine.inputSectionLoad
  split
  · split
    · split
      · exact h.inputs _ he _ _
      · exact he
    · exact he
  · exact he

theorem Engine.Apart.eraseEnd (h : Engine.Apart P) (e : Engine) (he : P e) : P e.eraseEnd.1 := by
  unfold Engine.eraseEnd
  split
  · exact h.elsewhere he _ _ _
  · exact he

theorem Engine.Apart.lookAtStartScene (h : Engine.Apart P) {e : Engine} (he : P e) : P e.lookAtStartScene.1 := by
  unfold Engine.lookAtStartScene
  split
  · exact h.elsewhere he _ _ _
  · dsimp only
    split
    · exact h.beginLoad _ (h.elsewhere he _ _ _)
    · exact h.elsewhere he _ _ _

theorem Engine.Apart.verifySlotDone (h : Engine.Apart P) (d : Option SceneName) (e : Engine) (he : P e) :
    P (e.verifySlotDone d).1 := by
  unfold Engine.verifySlotDone
  split
  · dsimp only
    split
    · exact h.elsewhere he _ _ _
    · exact h.lookAtStartScene (h.elsewhere he _ _ _)
  · exact he

theorem Engine.Apart.announceWindow (h : Engine.Apart P) (a : Fin 32) (r : Received) (e : Engine) (he : P e) :
    P (e.announceWindow a r).1 := by
  unfold Engine.announceWindow Engine.applyWindow
  split
  · split
    · split
      · exact h.elsewhere he _ _ _
      · exact h.elsewhere he _ _ _
      · split
        · split <;> exact h.elsewhere he _ _ _
        · unfold Engine.acceptPack Engine.forgetElsewhere
          generalize Vector.ofFn _ = slots
          exact h.elsewhere he _ _ _
    · exact he
  · exact he

theorem Engine.Apart.pollPhase (h : Engine.Apart P) (answers : BitVec 64) (e : Engine) (he : P e) :
    P (e.pollPhase answers).1 := by
  unfold Engine.pollPhase
  split
  · dsimp only
    generalize Vector.ofFn _ = slots
    exact h.elsewhere he _ _ _
  · exact he

theorem Engine.Apart.keyReportRead (h : Engine.Apart P) (a : Fin 32) (r : Option (List Byte)) (e : Engine)
    (he : P e) : P (e.keyReportRead a r).1 := by
  unfold Engine.keyReportRead
  split
  · split
    · exact h.elsewhere he _ _ _
    · exact he
  · exact he

theorem Engine.Apart.breakRepeating (h : Engine.Apart P) (a : Fin 32) (k : RepeatKey) (e : Engine) (he : P e) :
    P (e.breakRepeating a k).1 := by
  unfold Engine.breakRepeating
  split
  · split
    · exact h.elsewhere he _ _ _
    · exact he
  · exact he

theorem Engine.Apart.expire (h : Engine.Apart P) (a : Fin 32) (e : Engine) (he : P e) : P (e.expire a).1 := by
  unfold Engine.expire
  split
  · exact h.elsewhere (h.step _ he _ _) _ _ _
  · exact he

theorem Engine.Apart.cutShort (h : Engine.Apart P) (n : SceneName) {e : Engine} (he : P e) :
    P { e.cutShort n with powered := false } := by
  unfold Engine.cutShort
  split <;> exact h.elsewhere he _ _ _

/-- Such a property is kept by every change that one command makes. -/
theorem Engine.Apart.keptBy (h : Engine.Apart P) : Engine.KeptBy P where
  request := h.request
  signal l e he := h.receiver l _ e he Receiver.Lawful.signalAppears
  signalEnds l e he := h.receiver l _ e he Receiver.Lawful.signalLost
  line l b e he := h.receiver l _ e he fun lawful => lawful.withSignal b
  arrival l f e he := h.receiver l _ e he fun lawful => lawful.arrival f
  instant := h.instant
  sent e he := by
    unfold Engine.packBusFrame
    split
    · exact h.elsewhere he _ _ _
    · exact he
  stored := h.storeWriteEnd
  verified := h.recallVerifyEnd
  mix := h.mixLoad
  inputs := h.inputSectionLoad
  erased := h.eraseEnd
  slot := h.verifySlotDone
  sweep e he := by
    unfold Engine.sweepStart
    split
    · exact h.elsewhere he _ _ _
    · exact he
  poll := h.pollPhase
  read e he := by
    unfold Engine.readPhase
    split
    · exact h.elsewhere he _ _ _
    · exact he
  report := h.keyReportRead
  window := h.announceWindow
  downstream e he := by
    unfold Engine.downstreamPart
    split
    · exact h.elsewhere he _ _ _
    · exact he
  make a c k := h.event (f := Engine.makeRepeating a k) (fun _ he => h.elsewhere (h.step _ he a k) _ _ _) a c
  next a c := h.event (fun _ he => h.elsewhere he _ _ _) a c
  prev a c := h.event (fun _ he => h.elsewhere he _ _ _) a c
  call a c := h.event (fun e he => by
    unfold Engine.addCall
    split
    · exact he
    · exact h.elsewhere he _ _ _) a c
  silence a c := h.event (fun _ he => h.elsewhere he _ _ _) a c
  release a c k := h.event (h.breakRepeating a k) a c
  pass a c := h.event (fun _ he => he) a c
  marker a c := h.event (fun _ he => h.elsewhere he _ _ _) a c
  expire := h.expire
  talk := h.talk
  warm := h.warm
  cold := h.cold
  loss n _ he := h.cutShort n he

end

/-! ### Targets, live values and guard gains -/

/-- R58: at the reset every level is 0, and so is every target. -/
theorem Engine.levelsFollow_reset : Engine.reset.LevelsFollow := by
  have pair (m : Fin 24) (i : Fin 64) : (Engine.reset.coefs[m])[i] = CoefPair.reset := by simp [Engine.reset]
  have run (m : Fin 24) : Engine.reset.runs[m] = MixRun.reset := by simp [Engine.reset]
  have silent (m : Fin 24) (i : Fin 64) : deriveTargets Engine.reset.tables Engine.reset.onAir m i = (0, 0) := by
    unfold deriveTargets
    rw [if_pos]
    simp [silenced, overridden, talking, Engine.reset, Tables.reset, MixTable.reset, SendRec.reset]
  refine ⟨fun m i => ?_, fun m i => ?_, fun m => ?_⟩
  · rw [pair, silent]; exact ⟨rfl, rfl⟩
  · rw [pair]; decide
  · rw [run]; exact Nat.le_refl 16384

theorem Engine.LevelsFollow.warmReset (together : Bool) (e : Engine) : (e.warmReset together).LevelsFollow := by
  unfold Engine.warmReset
  refine Engine.levelsFollow_restartRamps _ fun m => ?_
  simp [MixRun.warmReset]

theorem Engine.LevelsFollow.apart : Engine.Apart Engine.LevelsFollow where
  elsewhere he _ _ _ := he.same rfl rfl rfl rfl rfl
  request n p q x e he := he.request n p q x
  receiver _ _ _ he _ := he.same (by simp) (by simp) (by simp) (by simp) (by simp)
  instant turn e he := he.frameInstant turn
  mix e he := Engine.LevelsFollow.loadMix e he
  inputs e he := Engine.LevelsFollow.loadInputs e he
  step e he := Engine.LevelsFollow.step e he
  talk p e he := Engine.LevelsFollow.dropTalk p e he
  warm together e _ := Engine.LevelsFollow.warmReset together e
  cold _ _ := Engine.levelsFollow_reset.same rfl rfl rfl rfl rfl

/-! ### The stages -/

theorem Engine.stagesLawful_reset : Engine.reset.StagesLawful :=
  ⟨fun l => by cases l <;> exact Receiver.Lawful.coldReset Receiver.reset, Selector.Lawful.warmReset Selector.reset⟩

theorem Engine.StagesLawful.warmReset (together : Bool) (e : Engine) (h : e.StagesLawful) :
    (e.warmReset together).StagesLawful := by
  have ended := Engine.StagesLawful.endRecallAtReset e h
  unfold Engine.warmReset
  generalize e.endRecallAtReset = z at ended
  simp only [Engine.restartRamps]
  exact ⟨fun l => by cases l; exact ended.links .a; exact ended.links .b, Selector.Lawful.warmReset z.selector⟩

theorem Engine.StagesLawful.coldReset (e : Engine) : e.coldReset.StagesLawful :=
  ⟨fun l => by cases l <;> exact Receiver.Lawful.coldReset _, Engine.stagesLawful_reset.selector⟩

theorem Engine.StagesLawful.apart : Engine.Apart Engine.StagesLawful where
  elsewhere he _ _ _ := he.same rfl rfl rfl
  request n p q x e he := Engine.StagesLawful.request n p q x e he
  receiver l _ _ he lawful := he.setReceiver l (lawful (he.links l))
  instant turn _ he := he.frameInstant turn
  mix e he := Engine.StagesLawful.loadMix e he
  inputs e he := Engine.StagesLawful.loadInputs e he
  step e he := Engine.StagesLawful.step e he
  talk p e he := (Engine.StagesLawful.setTalkSet e he p 0#24).recomputed _
  warm together e he := Engine.StagesLawful.warmReset together e he
  cold e _ := Engine.StagesLawful.coldReset e

/-- Settles O57: what each single change keeps, every step keeps. -/
theorem stepKeepsLevels : Obligations.StepKeepsLevels :=
  ⟨fun _ _ => step_keeps Engine.LevelsFollow.apart.keptBy, fun _ _ => step_keeps Engine.StagesLawful.apart.keptBy⟩

end Sys2Proof.Machine

/-! Signal and frames at a stage line (R1 to R4): the value that each state of a link gives its receiver. -/
namespace Sys2Proof.Machine

/-! ### A change of one receiver -/

/-- R18, R169: nothing rises with a change of a receiver that does not come to LOCKED. -/
theorem rises_setReceiver {e : Engine} {l : Link} {r : Receiver}
    (h : r.state = .locked → (e.receiver l).state = .locked) (p : Port) : rises e (e.setReceiver l r) p = [] := by
  refine rises_nil fun x hx => ?_
  cases x with
  | aLocked =>
    cases l with
    | a => exact decide_eq_true (h (of_decide_eq_true hx))
    | b => exact hx
  | bLocked =>
    cases l with
    | a => exact hx
    | b => exact decide_eq_true (h (of_decide_eq_true hx))
  | _ => cases l <;> exact hx

/-- A command of a stage line whose receiver does not come to LOCKED, and that raises nothing. -/
theorem State.act_receiver {s : State} (on : s.engine.powered = true) (settled : s.settled) {f : Engine → Act}
    {l : Link} {r : Receiver} (eq : f s.engine = (s.engine.setReceiver l r, []))
    (h : r.state = .locked → (s.engine.receiver l).state = .locked) :
    s.act f = .next (s.setEngine (s.engine.setReceiver l r)) :=
  State.act_silent on settled eq (rises_setReceiver h)

/-! ### Signal on a line (R2) -/

theorem Receiver.signalAppears_of_down {r : Receiver} (h : r.state = .down) :
    r.signalAppears = { r with signal := true, state := .seeking, goodRun := 0, lastNumber := none } := by
  simp [Receiver.signalAppears, h]

theorem Receiver.signalAppears_of_up {r : Receiver} (h : r.state ≠ .down) :
    r.signalAppears = { r with signal := true } := by
  unfold Receiver.signalAppears
  split
  · contradiction
  · rfl

theorem Receiver.signalLost_of_down {r : Receiver} (h : r.state = .down) :
    r.signalLost = { r with signal := false } := by
  simp [Receiver.signalLost, h]

theorem Receiver.signalLost_of_seeking {r : Receiver} (h : r.state = .seeking) :
    r.signalLost = { r with signal := false, state := .down, goodRun := 0, lastNumber := none } := by
  simp [Receiver.signalLost, h]

theorem Receiver.signalLost_of_locked {r : Receiver} (h : r.state = .locked) :
    r.signalLost = { r with signal := false, state := .down, held := none, fresh := false, missRun := 0, goodRun := 0,
                            lastNumber := none } := by
  simp [Receiver.signalLost, h, Receiver.leaveLocked]

theorem exec_signalAppears {s : State} (on : s.engine.powered = true) (settled : s.settled) (l : Link) :
    exec (.signalAppears l) s =
      .next (s.setEngine (s.engine.setReceiver l (s.engine.receiver l).signalAppears)) := by
  simp only [exec, execSignalAppears, on, if_true]
  refine State.act_receiver on settled rfl fun h => ?_
  by_cases down : (s.engine.receiver l).state = .down
  · rw [Receiver.signalAppears_of_down down] at h; cases h
  · rwa [Receiver.signalAppears_of_up down] at h

theorem exec_signalLost_unlocked {s : State} (on : s.engine.powered = true) (settled : s.settled) {l : Link}
    (h : (s.engine.receiver l).state ≠ .locked) :
    exec (.signalLost l) s = .next (s.setEngine (s.engine.setReceiver l (s.engine.receiver l).signalLost)) := by
  simp only [exec, execSignalLost, on, if_true]
  refine State.act_receiver on settled (by simp [linkDownOf, h]) fun locked => ?_
  cases state : (s.engine.receiver l).state with
  | down => rw [Receiver.signalLost_of_down state, state] at locked; cases locked
  | seeking => rw [Receiver.signalLost_of_seeking state] at locked; cases locked
  | locked => rfl

theorem exec_signalLost_locked {s : State} (on : s.engine.powered = true) {l : Link}
    (h : (s.engine.receiver l).state = .locked) :
    ∃ t, exec (.signalLost l) s = .next t ∧
      s.Raises (s.engine.setReceiver l (s.engine.receiver l).signalLost) [.linkDown] t := by
  obtain ⟨t, next, raises⟩ := State.act_raises on fun e =>
    (e.setReceiver l (e.receiver l).signalLost, linkDownOf (e.receiver l) (e.receiver l).signalLost)
  have down : linkDownOf (s.engine.receiver l) (s.engine.receiver l).signalLost = [.linkDown] := by
    simp [linkDownOf, h, Receiver.signalLost_of_locked h]
  refine ⟨t, by simpa only [exec, execSignalLost, on, if_true] using next, ?_⟩
  rw [← down]
  exact raises

/-- Settles O20: the receiver takes the value that its state gives it, and only a departure from LOCKED raises. -/
theorem linkSignals : Obligations.LinkSignals := by
  rintro s l _ settled rfl
  refine ⟨fun on => ⟨fun h => ?_, fun h => ?_, fun h => ?_, fun h => ?_, fun h => ?_⟩, fun off => ⟨?_, ?_⟩⟩
  · rw [exec_signalAppears on settled, Receiver.signalAppears_of_down h]
  · rw [exec_signalAppears on settled, Receiver.signalAppears_of_up h]
  · rw [exec_signalLost_unlocked on settled (by simp [h]), Receiver.signalLost_of_down h]
  · rw [exec_signalLost_unlocked on settled (by simp [h]), Receiver.signalLost_of_seeking h]
  · rw [← Receiver.signalLost_of_locked h]
    exact exec_signalLost_locked on h
  · simp [exec, execSignalAppears, off]
  · simp [exec, execSignalLost, off]

/-! ### The check (R1) -/

/-- R1: one bit into the check. -/
theorem crcBit_eq (c : BitVec 16) (b : Bool) :
    crcBit c b = if c.getLsbD 15 = b then c <<< 1 else (c <<< 1) ^^^ 0x1021#16 := by
  simp [crcBit, BitVec.msb_eq_getLsbD_last]

theorem crcByte_eq (c : BitVec 16) (b : Byte) :
    crcByte c b = [7, 6, 5, 4, 3, 2, 1, 0].foldl
      (fun (c : BitVec 16) k => if c.getLsbD 15 = b.getLsbD k then c <<< 1 else (c <<< 1) ^^^ 0x1021#16) c := by
  simp only [crcByte, crcBit_eq]

/-! ### Frame arrivals (R1, R3, R4) -/

/-- R3: a frame follows when the last number is one less, 0 following 65,535. -/
theorem Receiver.follows_iff (r : Receiver) (f : StageFrame) :
    r.follows f = true ↔ r.lastNumber = some (f.number - 1#16) := by
  unfold Receiver.follows
  cases r.lastNumber with
  | none => simp
  | some n =>
    rw [decide_eq_true_iff, Option.some.injEq]
    constructor
    · intro h; rw [h, BitVec.add_sub_cancel]
    · intro h; rw [h, BitVec.sub_add_cancel]

theorem Receiver.extendedRun_eq (r : Receiver) (f : StageFrame) :
    r.extendedRun f = if 1 ≤ r.goodRun ∧ r.lastNumber = some (f.number - 1#16) then r.goodRun + 1 else 1 := by
  simp only [Receiver.extendedRun, Receiver.follows_iff]

theorem Receiver.arrival_bad {r : Receiver} {bytes : List Byte}
    (h : ∀ f : StageFrame, f.carriable → bytes ≠ f.bytes) : r.arrival bytes = r := by
  unfold Receiver.arrival
  rw [goodFrame_none h]
  cases r.state <;> rfl

theorem Receiver.arrival_down {r : Receiver} (h : r.state = .down) (bytes : List Byte) : r.arrival bytes = r := by
  simp [Receiver.arrival, h]

theorem Receiver.arrival_seeking {r : Receiver} (h : r.state = .seeking) {f : StageFrame} (good : f.carriable) :
    r.arrival f.bytes = r.seek f := by
  simp only [Receiver.arrival, h, goodFrame_bytes f good]

theorem Receiver.arrival_locked {r : Receiver} (h : r.state = .locked) {f : StageFrame} (good : f.carriable) :
    r.arrival f.bytes = r.accept f := by
  simp only [Receiver.arrival, h, goodFrame_bytes f good]

theorem Receiver.seek_short {r : Receiver} {f : StageFrame} (h : r.extendedRun f < 4) :
    r.seek f = { r with goodRun := r.extendedRun f, lastNumber := some f.number, lastCount := f.samples.length } := by
  unfold Receiver.seek
  rw [if_neg (by omega)]
  rfl

theorem Receiver.seek_locks {r : Receiver} {f : StageFrame} (h : 4 ≤ r.extendedRun f) :
    r.seek f =
      { r with state := .locked, slips := 0, missRun := 0, goodRun := 0, held := some f, fresh := true,
               lastNumber := some f.number, lastCount := f.samples.length } := by
  unfold Receiver.seek
  rw [if_pos h]
  rfl

theorem Receiver.accept_eq (r : Receiver) (f : StageFrame) :
    r.accept f =
      { r with
        slips := if r.lastNumber = some (f.number - 1#16) then r.slips else min 65535 (r.slips + 1)
        missRun := 0, held := some f, fresh := true, lastNumber := some f.number
        lastCount := f.samples.length } := by
  simp only [Receiver.accept, Receiver.follows_iff]
  rfl

theorem exec_frameArrival_silent {s : State} (on : s.engine.powered = true) (settled : s.settled) {l : Link}
    {bytes : List Byte} {r : Receiver} (eq : (s.engine.receiver l).arrival bytes = r)
    (h : r.state = .locked → (s.engine.receiver l).state = .locked) :
    exec (.frameArrival l bytes) s = .next (s.setEngine (s.engine.setReceiver l r)) :=
  State.act_receiver on settled (by rw [eq]) h

theorem exec_frameArrival_kept {s : State} (on : s.engine.powered = true) (settled : s.settled) {l : Link}
    {bytes : List Byte} (eq : (s.engine.receiver l).arrival bytes = s.engine.receiver l) :
    exec (.frameArrival l bytes) s = .next s := by
  simpa using exec_frameArrival_silent on settled eq id

theorem exec_frameArrival_raises {s : State} (on : s.engine.powered = true) {l : Link} {bytes : List Byte}
    {r : Receiver} (eq : (s.engine.receiver l).arrival bytes = r) :
    ∃ t, exec (.frameArrival l bytes) s = .next t ∧ s.Raises (s.engine.setReceiver l r) [] t := by
  subst eq
  exact State.act_raises on fun e => (e.setReceiver l ((e.receiver l).arrival bytes), [])

/-- Settles O21, by the state of the link and the run that the frame leaves. -/
theorem frameArrivals : Obligations.FrameArrivals := by
  refine ⟨sampleBytes_spelt, ⟨rfl, fun bytes b => ?_⟩, ?_⟩
  · rw [crc16_append, crcByte_eq]
  · rintro s l r on settled rfl
    refine ⟨fun bytes bad => exec_frameArrival_kept on settled (Receiver.arrival_bad bad), fun f good =>
      ⟨fun down => ?_, fun seeking run hrun => ⟨fun short => ?_, fun long => ?_⟩, fun locked => ?_⟩⟩
    · exact exec_frameArrival_kept on settled (Receiver.arrival_down down _)
    · rw [← Receiver.extendedRun_eq] at hrun
      subst hrun
      refine exec_frameArrival_silent on settled ?_ id
      rw [Receiver.arrival_seeking seeking good, Receiver.seek_short short]
    · rw [← Receiver.extendedRun_eq] at hrun
      subst hrun
      refine exec_frameArrival_raises on ?_
      rw [Receiver.arrival_seeking seeking good, Receiver.seek_locks long]
    · refine exec_frameArrival_silent on settled ?_ id
      rw [Receiver.arrival_locked locked good, Receiver.accept_eq]

end Sys2Proof.Machine

/-! The frame instant (R5 to R15): the receivers' own work, and what the selector's first three stages choose. -/
namespace Sys2Proof.Machine

/-! ### The receivers at a frame instant (R5, R6) -/

/-- R5, R61: a link that leaves LOCKED at a frame instant raises LINK_DOWN. -/
theorem Engine.Selected.linkDown {before e : Engine} {atTest : Link → Bool} {aLocked : Bool} {events : List Event}
    (h : Engine.Selected before e atTest aLocked events) {l : Link} (leaves : (before.receiver l).leaving) :
    Event.linkDown ∈ events := by
  have raised := (linkDownOf_worked _).2 leaves
  rw [h.raised]
  cases l with
  | a => exact .inr (.inl raised)
  | b => exact .inr (.inr raised)

/-- Settles O22: a receiver after an instant is its own work with the mark cleared. -/
theorem instantAtReceivers : Obligations.InstantAtReceivers := by
  rintro s l r on rfl
  obtain ⟨e, atTest, aLocked, events, t, selected, next, engine, raises⟩ := exec_frameInstant on
  have receiver : t.engine.receiver l = { (s.engine.receiver l).worked with fresh := false } := by
    rw [engine, Engine.computeMixes_receiver, selected.receiver]
  refine ⟨t, next, fun leaves => ⟨?_, fun p => raises.told ?_ p⟩, fun locked stale short => ?_, fun kept => ?_⟩
  · rw [receiver, Receiver.worked_leaving leaves]
    obtain ⟨_, stale, _⟩ := leaves
    simp only [Receiver.leaveLocked, stale]
  · exact List.mem_append_left _ (selected.linkDown leaves)
  · rw [receiver, Receiver.worked_missing locked stale short]
    simp only [stale]
  · rw [receiver, Receiver.worked_kept kept]

/-! ### The selector at a frame instant (R8 to R15) -/

/-- R15: without its conditions the revert check does nothing, and the delivery stage alone decides. -/
theorem Selector.chooses_of_not_mayRevert {e : Engine} (h : ¬ e.mayRevert) (locked : Link → Bool) :
    e.selector.chooses (fun l => (e.receiver l).freshFrame) locked =
      e.selector.delivers (fun l => (e.receiver l).freshFrame) locked := by
  unfold Selector.chooses
  rw [if_neg]
  intro reverts
  simp only [Selector.reverts, Bool.and_eq_true, decide_eq_true_eq] at reverts
  obtain ⟨⟨⟨⟨auto, flag⟩, onB⟩, time⟩, frame⟩ := reverts
  refine h ⟨auto, flag, onB, time, ?_⟩
  by_contra stale
  simp [Receiver.freshFrame, Engine.receiver, stale] at frame

/-- R15: where its conditions hold, A becomes active and delivers its fresh frame. -/
theorem Selector.chooses_of_mayRevert {e : Engine} (h : e.mayRevert) {f : StageFrame} (held : e.linkA.held = some f)
    (locked : Link → Bool) :
    e.selector.chooses (fun l => (e.receiver l).freshFrame) locked =
      (e.selector.switched.used f, [.sourceChange]) := by
  obtain ⟨auto, flag, onB, time, fresh⟩ := h
  have frame : (e.receiver .a).freshFrame = some f := by simp [Receiver.freshFrame, Engine.receiver, fresh, held]
  have active : e.selector.switched.active = .a := by simp [Selector.switched, onB, Link.other]
  simp [Selector.chooses, Selector.reverts, Selector.delivers, auto, flag, onB, time, frame, active]

/-- R10: a fresh frame of the active link is used. -/
theorem Selector.delivers_fresh {x : Selector} {fresh : Link → Option StageFrame} {f : StageFrame}
    (h : fresh x.active = some f) (locked : Link → Bool) : x.delivers fresh locked = (x.used f, []) := by
  simp [Selector.delivers, h]

/-- R11, R13: without a fresh frame, where the miss rule moves nothing, the miss counts and the gap is concealed. -/
theorem Selector.delivers_missed {x : Selector} {fresh : Link → Option StageFrame} {locked : Link → Bool}
    (h : fresh x.active = none) (stay : ¬ (x.mode = .auto ∧ 3 ≤ x.missRun + 1 ∧ locked x.active.other = true)) :
    x.delivers fresh locked = (Selector.concealed { x with missRun := min 255 (x.missRun + 1) }, []) := by
  simp only [Selector.delivers, h]
  rw [if_neg stay]

/-- R11, R12: at the third miss the other link becomes active, and delivers its fresh frame. -/
theorem Selector.delivers_failover_fresh {x : Selector} {fresh : Link → Option StageFrame} {locked : Link → Bool}
    {f : StageFrame} (h : fresh x.active = none)
    (move : x.mode = .auto ∧ 3 ≤ x.missRun + 1 ∧ locked x.active.other = true) (other : fresh x.active.other = some f) :
    x.delivers fresh locked = (x.switched.used f, [.sourceChange]) := by
  simp only [Selector.delivers, h, other]
  rw [if_pos move]

/-- R11, R12: at the third miss the other link becomes active, and with no fresh frame of it the gap is concealed. -/
theorem Selector.delivers_failover_concealed {x : Selector} {fresh : Link → Option StageFrame} {locked : Link → Bool}
    (h : fresh x.active = none)
    (move : x.mode = .auto ∧ 3 ≤ x.missRun + 1 ∧ locked x.active.other = true) (other : fresh x.active.other = none) :
    x.delivers fresh locked = (x.switched.concealed, [.sourceChange]) := by
  simp only [Selector.delivers, h, other]
  rw [if_pos move]

theorem Receiver.freshFrame_stale {r : Receiver} (h : r.fresh = false) : r.freshFrame = none := by
  simp [Receiver.freshFrame, h]

theorem Receiver.freshFrame_held {r : Receiver} {f : StageFrame} (h : r.fresh = true) (held : r.held = some f) :
    r.freshFrame = some f := by
  simp [Receiver.freshFrame, h, held]

/-- R12: the failover test reads a link as locked only if it was as the instant began. -/
theorem Engine.Selected.test_locked {before e : Engine} {atTest : Link → Bool} {aLocked : Bool} {events : List Event}
    (h : Engine.Selected before e atTest aLocked events) {l : Link} (test : atTest l = true) :
    (before.receiver l).state = .locked := by
  rcases h.test l with eq | eq <;> rw [test] at eq
  · exact of_decide_eq_true eq.symm
  · exact (Receiver.worked_locked (of_decide_eq_true eq.symm)).1

/-- R12: the failover test finds a LOCKED link unlocked only if the link leaves LOCKED at this instant. -/
theorem Engine.Selected.test_unlocked {before e : Engine} {atTest : Link → Bool} {aLocked : Bool} {events : List Event}
    (h : Engine.Selected before e atTest aLocked events) {l : Link} (locked : (before.receiver l).state = .locked)
    (test : atTest l = false) : (before.receiver l).leaving := by
  rcases h.test l with eq | eq <;> rw [test] at eq
  · exact absurd locked (of_decide_eq_false eq.symm)
  · by_contra stays
    rcases (before.receiver l).worked_cases with ⟨leaves, _⟩ | ⟨_, state, _⟩
    · exact stays leaves
    · exact of_decide_eq_false eq.symm (state.trans locked)

/-- R14: the closing stage reads A's state, from before or after A's own departure at this instant. -/
theorem Engine.Selected.closing_of_staying {before e : Engine} {atTest : Link → Bool} {aLocked : Bool}
    {events : List Event} (h : Engine.Selected before e atTest aLocked events) (stays : ¬ before.linkA.leaving) :
    aLocked = decide (before.linkA.state = .locked) := by
  rcases h.closing with eq | eq
  · exact eq
  · rcases before.linkA.worked_cases with ⟨leaves, _⟩ | ⟨_, state, _⟩
    · exact absurd leaves stays
    · rw [eq, state]

/-- R8 to R15: a frame instant by what the first three stages choose: the primary-locked time is the closing stage's
alone. -/
theorem exec_frameInstant_selector {s : State} (on : s.engine.powered = true) :
    ∃ (e : Engine) (atTest : Link → Bool) (aLocked : Bool) (events : List Event) (t : State),
      Engine.Selected s.engine e atTest aLocked events ∧ exec .frameInstant s = .next t ∧
      (∀ (c : Selector) (raised : List Event),
        s.engine.selector.chooses (fun l => (s.engine.receiver l).freshFrame) atTest = (c, raised) →
        t.engine.selector = { c with primaryTime := t.engine.selector.primaryTime } ∧
          ∀ ev ∈ raised, ∀ p, (t.port p).Told (.event ev)) ∧
      t.engine.selector.primaryTime =
        if t.engine.selector.active = .b ∧ aLocked = true then min 96000 (s.engine.selector.primaryTime + 1)
        else 0 := by
  obtain ⟨e, atTest, aLocked, events, t, selected, next, engine, raises⟩ := exec_frameInstant on
  have selector := selected.selector
  rw [← Engine.computeMixes_selector e, ← engine] at selector
  refine ⟨e, atTest, aLocked, events, t, selected, next, fun c raised chosen => ⟨?_, fun ev mem p => ?_⟩, ?_⟩
  · rw [selector, chosen]
  · refine raises.told (List.mem_append_left _ ?_) p
    rw [selected.raised, chosen]
    exact .inl mem
  · rw [selector]

/-- Settles O23, by whether the active link has a fresh frame. -/
theorem instantDeliversOrConceals : Obligations.InstantDeliversOrConceals := by
  rintro s x r on rfl rfl noRevert
  obtain ⟨e, atTest, aLocked, events, t, selected, next, chosen, _⟩ := exec_frameInstant_selector on
  rw [Selector.chooses_of_not_mayRevert noRevert] at chosen
  refine ⟨t, next, fun f fresh held => ?_, fun stale stay n hn => ?_⟩
  · exact (chosen _ _ (Selector.delivers_fresh (Receiver.freshFrame_held fresh held) atTest)).1
  · subst hn
    refine (chosen _ _ (Selector.delivers_missed (Receiver.freshFrame_stale stale) ?_)).1
    rintro ⟨auto, third, test⟩
    rcases stay with other | early | unlocked
    · exact other auto
    · omega
    · exact unlocked (selected.test_locked test)

/-- Settles O24. The failover test and the closing stage each read a link's state from before or after its departure at
this instant; everything else is the delivery stage's choice. -/
theorem failoverAndRevert : Obligations.FailoverAndRevert := by
  rintro s x o on rfl rfl
  obtain ⟨e, atTest, aLocked, events, t, selected, next, chosen, time⟩ := exec_frameInstant_selector on
  refine ⟨t, t.engine.selector, next, rfl, fun auto noRevert stale third locked n hn => ⟨fun f fresh held => ?_,
    fun otherStale => ?_⟩, fun reverts f held => ?_, fun stays => ?_, fun _ onB => ?_, fun onA => ?_⟩
  · rw [Selector.chooses_of_not_mayRevert noRevert] at chosen
    have test : atTest s.engine.selector.active.other = true := by
      by_contra unlocked
      obtain ⟨_, notFresh, _⟩ := selected.test_unlocked locked (Bool.eq_false_of_not_eq_true unlocked)
      rw [fresh] at notFresh
      cases notFresh
    obtain ⟨selector, told⟩ := chosen _ _ (Selector.delivers_failover_fresh (Receiver.freshFrame_stale stale)
      ⟨auto, third, test⟩ (Receiver.freshFrame_held fresh held))
    exact ⟨selector, told _ (List.mem_singleton_self _)⟩
  · subst hn
    rw [Selector.chooses_of_not_mayRevert noRevert] at chosen
    cases test : atTest s.engine.selector.active.other with
    | true =>
      obtain ⟨selector, told⟩ := chosen _ _ (Selector.delivers_failover_concealed (Receiver.freshFrame_stale stale)
        ⟨auto, third, test⟩ (Receiver.freshFrame_stale otherStale))
      exact .inl ⟨selector, told _ (List.mem_singleton_self _)⟩
    | false =>
      refine .inr ⟨selected.test_unlocked locked test, ?_⟩
      exact (chosen _ _ (Selector.delivers_missed (Receiver.freshFrame_stale stale) (by simp [test]))).1
  · obtain ⟨selector, told⟩ := chosen _ _ (Selector.chooses_of_mayRevert reverts held atTest)
    obtain ⟨_, _, onB, _⟩ := reverts
    have active : t.engine.selector.active = .a := by
      rw [selector]
      simp [Selector.used, Selector.switched, onB, Link.other]
    have zero : t.engine.selector.primaryTime = 0 := by rw [time, if_neg (by simp [active])]
    refine ⟨?_, told _ (List.mem_singleton_self _)⟩
    rw [selector, zero]
    simp [Selector.used, Selector.switched, onB, Link.other]
  · rw [time, selected.closing_of_staying stays]
    simp
  · rw [time]
    split
    · exact .inr rfl
    · exact .inl rfl
  · rw [time, if_neg (by simp [onA])]

end Sys2Proof.Machine

/-! The requests of chapter 1, and the loss and return of power. -/
namespace Sys2Proof.Machine

/-! ### The requests of chapter 1 (R16, R17) -/

/-- R16: the mode that a parameter names. -/
theorem sourceModeOf_some {k : Nat} {mode : SourceMode}
    (h : (k = 0 ∧ mode = .auto) ∨ (k = 1 ∧ mode = .forceA) ∨ (k = 2 ∧ mode = .forceB)) :
    sourceModeOf k = some mode := by
  rcases h with ⟨rfl, rfl⟩ | ⟨rfl, rfl⟩ | ⟨rfl, rfl⟩ <;> rfl

theorem sourceModeOf_none {k : Nat} (h : 2 < k) : sourceModeOf k = none := by
  match k, h with
  | _ + 3, _ => rfl

/-- R9, R16: a mode whose link is active already, or that forces none, moves nothing. -/
theorem Engine.applyMode_kept {e : Engine} {mode : SourceMode}
    (h : mode = .auto ∨ (mode = .forceA ∧ e.selector.active = .a) ∨ (mode = .forceB ∧ e.selector.active = .b)) :
    e.applyMode mode = (e, []) := by
  rcases h with rfl | ⟨rfl, active⟩ | ⟨rfl, active⟩
  · rfl
  · simp [Engine.applyMode, SourceMode.forced, Engine.setActive, active]
  · simp [Engine.applyMode, SourceMode.forced, Engine.setActive, active]

/-- R9, R16: a forced link that is not active becomes active. -/
theorem Engine.applyMode_forced {e : Engine} {mode : SourceMode}
    (h : (mode = .forceA ∧ e.selector.active = .b) ∨ (mode = .forceB ∧ e.selector.active = .a)) :
    e.applyMode mode = ({ e with selector := e.selector.switched }, [.sourceChange]) := by
  rcases h with ⟨rfl, active⟩ | ⟨rfl, active⟩
  · simp [Engine.applyMode, SourceMode.forced, Engine.setActive, Selector.switched, active, Link.other]
  · simp [Engine.applyMode, SourceMode.forced, Engine.setActive, Selector.switched, active, Link.other]

/-- R18, R169: nothing rises with a change of the selector that leaves the active link and the conceal count. -/
theorem rises_of_selector (e : Engine) {x : Selector} (active : x.active = e.selector.active)
    (conceal : x.concealCount = e.selector.concealCount) (p : Port) : rises e { e with selector := x } p = [] :=
  rises_of_level (Engine.level_congr (e := e) (e' := { e with selector := x }) rfl rfl rfl rfl active conceal rfl rfl p)

/-- R16: SET SOURCE MODE of a mode there is. -/
theorem effectSetSourceMode_some {q : Payload} {mode : SourceMode} (h : sourceModeOf (Payload.u8 q 0) = some mode)
    (e : Engine) :
    effectSetSourceMode q e =
      { engine := (Engine.applyMode mode { e with selector :=
          { e.selector with mode := mode, autoRevert := decide (1 ≤ Payload.u8 q 1) } }).1
        status := .ok, clamped := decide (1 < Payload.u8 q 1), data := []
        events := (Engine.applyMode mode { e with selector :=
          { e.selector with mode := mode, autoRevert := decide (1 ≤ Payload.u8 q 1) } }).2 } := by
  simp only [effectSetSourceMode, h, yes_eq, outsideYesNo]

/-- R17, 11.5: the record of both links, the mode, the flag, the active link and whether the selector conceals. -/
theorem effectReadLinkStatus_eq (e : Engine) :
    effectReadLinkStatus e = Effect.read e
      ([e.linkA, e.linkB].flatMap (fun r =>
          (match r.state with | .down => 0 | .seeking => 1 | .locked => 2) ::
            (bytes16 r.slips ++ [byteOf r.lastCount])) ++
        [(match e.selector.mode with | .auto => 0 | .forceA => 1 | .forceB => 2),
          flagByte e.selector.autoRevert,
          (match e.selector.active with | .a => 0 | .b => 1),
          flagByte (decide (e.selector.concealCount ≠ 0))]) := by
  have active : flagByte (decide (e.selector.active = .b)) = (match e.selector.active with | .a => 0 | .b => 1) := by
    cases e.selector.active <;> rfl
  rw [← active]
  rfl

/-- Settles O25, by the mode that the request names and the link that is active. -/
theorem sourceModeAndLinkStatus : Obligations.SourceModeAndLinkStatus := by
  intro s p q idle
  refine ⟨fun charge => ⟨fun outside => ?_, fun mode x named hx => ⟨fun kept => ?_, fun forced => ?_⟩⟩, ?_⟩
  · refine exec_effect .setSourceMode rfl idle rfl (class_charge rfl charge) (fun _ => rfl) ?_ (rises_self s.engine)
    simp only [effectSetSourceMode, sourceModeOf_none outside, Effect.refuse]
  · refine exec_effect .setSourceMode rfl idle rfl (class_charge rfl charge) (fun _ => rfl) ?_
      (rises_of_selector s.engine (by rw [hx]) (by rw [hx]))
    rw [effectSetSourceMode_some (sourceModeOf_some named), ← hx, Engine.applyMode_kept kept]
  · refine exec_effect_events .setSourceMode rfl idle rfl (class_charge rfl charge) (fun _ => rfl) ?_
    rw [effectSetSourceMode_some (sourceModeOf_some named), ← hx, Engine.applyMode_forced forced]
    rfl
  · exact exec_effect .readLinkStatus rfl idle rfl (class_open rfl) (fun _ => rfl) (effectReadLinkStatus_eq s.engine)
      (rises_self s.engine)

/-! ### Power (R44, R93) -/

/-- R93, R101, R109: the slot of a store or an erase in progress is cut short. -/
theorem Engine.cutShort_writing {e : Engine} {k : Fin 32}
    (h : e.library.operation = .erase k ∨ ∃ name contents, e.library.operation = .store k name contents)
    (cutName : SceneName) :
    e.cutShort cutName = e.modifySlot k fun x => { x with image := .broken cutName } := by
  rcases h with erase | ⟨name, contents, store⟩
  · simp only [Engine.cutShort, erase]
  · simp only [Engine.cutShort, store]

theorem Engine.cutShort_else {e : Engine} (erase : ∀ k, e.library.operation ≠ .erase k)
    (store : ∀ k name contents, e.library.operation ≠ .store k name contents) (cutName : SceneName) :
    e.cutShort cutName = e := by
  unfold Engine.cutShort
  split
  · exact absurd ‹_› (store _ _ _)
  · exact absurd ‹_› (erase _)
  · rfl

theorem exec_powerLoss {s : State} (on : s.engine.powered = true) (cutName : SceneName) :
    exec (.powerLoss cutName) s = .next (s.setEngine { s.engine.cutShort cutName with powered := false }) := by
  simp only [exec, execPowerLoss, on, if_true]

/-- R7: a line without a signal leaves its receiver at the reset values. -/
theorem Receiver.coldReset_silent {r : Receiver} (h : r.signal = false) : r.coldReset = Receiver.reset := by
  simp [Receiver.coldReset, Receiver.reset, h]

/-- R7: a line that carries a signal is treated as though it had just appeared. -/
theorem Receiver.coldReset_signal {r : Receiver} (h : r.signal = true) :
    r.coldReset = { Receiver.reset with signal := true, state := .seeking } := by
  simp [Receiver.coldReset, h]

/-- Settles O55, by the operation that the loss of power cuts short, and by the lines' signals at power-up. -/
theorem powerLossAndPowerUp : Obligations.PowerLossAndPowerUp := by
  rintro s cutName _ rfl
  refine ⟨fun on => ⟨fun k writing => ?_, fun erase store => ?_⟩, fun off => ?_⟩
  · rw [exec_powerLoss on, Engine.cutShort_writing writing]
    rfl
  · rw [exec_powerLoss on, Engine.cutShort_else erase store]
  · refine ⟨s.engine.linkA.coldReset, s.engine.linkB.coldReset,
      Vector.ofFn fun k => (s.engine.library.slots[k]).coldReset, ?_, fun k => ?_, Receiver.coldReset_silent,
      Receiver.coldReset_signal, Receiver.coldReset_silent, Receiver.coldReset_signal⟩
    · simp only [exec, execPowerUp, off]
      rfl
    · rw [Fin.getElem_fin, Vector.getElem_ofFn]
      rfl

end Sys2Proof.Machine

/-! The reset state and the invariants at it. -/
namespace Sys2Proof.Machine

/-! ### The reset state -/

/-- R91: every slot of the reset state is as the part leaves the factory. -/
theorem Library.reset_slot (k : Fin 32) : Library.reset.slots[k] = SceneSlot.factory := by simp [Library.reset]

theorem PackBus.reset_slot (a : Fin 32) : PackBus.reset.slots[a] = PackSlot.reset a := by simp [PackBus.reset]

/-- R134, R150: slots 1 to 24 take the mix of their own number. -/
theorem PackSlot.reset_assigned {a : Fin 32} {m : Fin 24} (h : a.val = m.val) :
    PackSlot.reset a = ⟨.empty, none, some m, 0, 0, false, none⟩ := by
  have low : a.val < 24 := by omega
  have own : (⟨a.val, low⟩ : Fin 24) = m := Fin.ext h
  simp only [PackSlot.reset, dif_pos low, own]

/-- R134, R150: slots 25 to 32 take no mix. -/
theorem PackSlot.reset_unassigned {a : Fin 32} (h : 24 ≤ a.val) :
    PackSlot.reset a = ⟨.empty, none, none, 0, 0, false, none⟩ := by
  simp only [PackSlot.reset, dif_neg (Nat.not_lt.2 h)]

theorem PackSlot.reset_assigned_none (a : Fin 32) : (PackSlot.reset a).assigned = none ↔ 24 ≤ a.val := by
  simp [PackSlot.reset]

theorem Engine.tablesLawful_reset : Engine.reset.TablesLawful := by
  refine ⟨Tables.reset_lawful, fun k name contents written => ?_, nofun⟩
  have factory : Engine.reset.library.slots[k] = SceneSlot.factory := Library.reset_slot k
  rw [factory] at written
  cases written

theorem PackBus.lawful_reset : PackBus.reset.Lawful := by
  refine PackBus.lawful_of_slots (fun a => ?_) (fun a a' present => ?_) nofun List.nodup_nil
  · rw [PackBus.reset_slot]
    simp [PackSlot.Lawful, PackSlot.reset]
  · rw [PackBus.reset_slot] at present
    exact absurd rfl present

/-- R168, R177: a port at its reset values holds nothing, and its unit is armed with an empty mask. -/
theorem PortState.served_coldReset : PortState.coldReset.Served where
  queue := by decide
  taken _ := rfl
  reply := by decide
  settled _ := rfl
  unit := ⟨fun _ => rfl, fun i masked => by
    cases i <;> simp [PortState.coldReset, NoticeUnit.reset, ItemSet.empty, ItemSet.has] at masked⟩

theorem State.reset_port (p : Port) : State.reset.port p = PortState.coldReset := by cases p <;> rfl

theorem State.marksLawful_reset : State.reset.MarksLawful := by
  intro p unseen
  rw [State.reset_port] at unseen
  cases unseen

/-- Settles O56, field by field. -/
theorem resetState : Obligations.ResetState := by
  refine ⟨Engine.levelsFollow_reset, Engine.stagesLawful_reset, Engine.tablesLawful_reset, PackBus.lawful_reset,
    fun p => by rw [State.reset_port]; exact PortState.served_coldReset, State.marksLawful_reset, ?_⟩
  rintro _ rfl
  refine ⟨rfl, rfl, rfl, rfl, fun l => by cases l <;> rfl, rfl, rfl, fun i => ?_,
    fun m => ⟨?_, fun i => ?_, fun g => ?_, fun i => ?_, ?_⟩, fun i => ?_, rfl, Library.reset_slot, rfl, rfl, rfl,
    fun a => ?_, fun a m own => ?_, fun a high => ?_, rfl, rfl, rfl, rfl, rfl, rfl, rfl, rfl, rfl, rfl, fun p => ?_⟩
  · simp [State.reset, Engine.reset, Tables.reset, InputRec.reset]
  · simp [State.reset, Engine.reset, Tables.reset, MixTable.reset, MixRec.reset]
  · simp [State.reset, Engine.reset, Tables.reset, MixTable.reset, SendRec.reset]
  · simp [State.reset, Engine.reset, Tables.reset, MixTable.reset, Group.reset]
  · simp [State.reset, Engine.reset, CoefPair.reset, Coef.reset]
  · simp [State.reset, Engine.reset, MixRun.reset]
  · simp [State.reset, Engine.reset]
  · show (PackBus.reset.slots[a]).assigned = none ↔ 24 ≤ a.val
    rw [PackBus.reset_slot]
    exact PackSlot.reset_assigned_none a
  · exact (PackBus.reset_slot a).trans (PackSlot.reset_assigned own)
  · exact (PackBus.reset_slot a).trans (PackSlot.reset_unassigned high)
  · rw [State.reset_port]
    rfl

end Sys2Proof.Machine

/-! The commands of the pack bus and of the keys, by what they leave alone; and the ranges of the tables, the scenes and
the staging copy at every change that one command makes. -/
namespace Sys2Proof.Machine

/-! ### Commands that change the pack bus alone (R115 to R150) -/

theorem Engine.packBusFrame_packs (e : Engine) :
    e.packBusFrame.1 = { e with packs := e.packBusFrame.1.packs } := by
  unfold Engine.packBusFrame
  split <;> rfl

theorem Engine.sweepStart_packs (e : Engine) : e.sweepStart.1 = { e with packs := e.sweepStart.1.packs } := by
  unfold Engine.sweepStart
  split <;> rfl

theorem Engine.pollPhase_packs (answers : BitVec 64) (e : Engine) :
    (e.pollPhase answers).1 = { e with packs := (e.pollPhase answers).1.packs } := by
  unfold Engine.pollPhase
  split <;> rfl

theorem Engine.readPhase_packs (e : Engine) : e.readPhase.1 = { e with packs := e.readPhase.1.packs } := by
  unfold Engine.readPhase
  split <;> rfl

theorem Engine.keyReportRead_packs (a : Fin 32) (report : Option (List Byte)) (e : Engine) :
    (e.keyReportRead a report).1 = { e with packs := (e.keyReportRead a report).1.packs } := by
  unfold Engine.keyReportRead
  split
  · split <;> rfl
  · rfl

theorem Engine.downstreamPart_packs (e : Engine) :
    e.downstreamPart.1 = { e with packs := e.downstreamPart.1.packs } := by
  unfold Engine.downstreamPart
  split <;> rfl

theorem Engine.addCall_packs (a : Fin 32) (e : Engine) :
    (e.addCall a).1 = { e with packs := (e.addCall a).1.packs } := by
  unfold Engine.addCall
  split <;> rfl

theorem Engine.breakRepeating_packs (a : Fin 32) (key : RepeatKey) (e : Engine) :
    (e.breakRepeating a key).1 = { e with packs := (e.breakRepeating a key).1.packs } := by
  unfold Engine.breakRepeating
  split
  · split <;> rfl
  · rfl

/-! ### What keeps the tables, the scenes and the staging copy lawful -/

theorem Engine.TablesLawful.withPacks {e e' : Engine} (h : e.TablesLawful) (eq : e' = { e with packs := e'.packs }) :
    e'.TablesLawful := by
  rw [eq]
  exact h.same rfl rfl

theorem Engine.TablesLawful.setReceiver {e : Engine} (h : e.TablesLawful) (l : Link) (r : Receiver) :
    (e.setReceiver l r).TablesLawful :=
  h.same (by simp) (by simp)

/-- R101: the staging copy that a store writes is lawful as it stood. -/
theorem Engine.TablesLawful.storeWriteEnd {e : Engine} (h : e.TablesLawful) : e.storeWriteEnd.1.TablesLawful := by
  unfold Engine.storeWriteEnd
  split
  next k name contents stored =>
    refine Engine.TablesLawful.endOperation _ (Engine.TablesLawful.modifySlot e h k _ fun n c written => ?_) _
    cases written
    exact h.staging k name contents stored
  · exact h

/-- R109: an erased slot holds no scene. -/
theorem Engine.TablesLawful.eraseEnd {e : Engine} (h : e.TablesLawful) : e.eraseEnd.1.TablesLawful := by
  unfold Engine.eraseEnd
  split
  · refine Engine.TablesLawful.endOperation _ (Engine.TablesLawful.modifySlot e h _ _ fun _ _ written => ?_) _
    cases written
  · exact h

theorem Engine.TablesLawful.recallVerifyEnd {e : Engine} (h : e.TablesLawful) (degraded : Option SceneName) :
    (e.recallVerifyEnd degraded).1.TablesLawful := by
  unfold Engine.recallVerifyEnd
  split
  next j _ =>
    split
    · have read : (e.modifySlot j.slot fun x => x.degrade degraded).TablesLawful :=
        Engine.TablesLawful.modifySlot e h j.slot _ (Engine.TablesLawful.degrade e h degraded j.slot)
      dsimp only
      split
      · exact Engine.TablesLawful.beginLoad j _ read
      · exact Engine.TablesLawful.endOperation _
          (Engine.TablesLawful.modifySlot _ read j.slot _ fun n c => read.scenes j.slot n c) _
    · exact h
  · exact h

theorem Engine.TablesLawful.mixLoad {e : Engine} (h : e.TablesLawful) : e.mixLoad.1.TablesLawful := by
  unfold Engine.mixLoad
  split
  · split
    · split
      · exact Engine.TablesLawful.loadMix e h _ _ _ _ _
      · exact h
    · exact h
  · exact h

theorem Engine.TablesLawful.inputSectionLoad {e : Engine} (h : e.TablesLawful) :
    e.inputSectionLoad.1.TablesLawful := by
  unfold Engine.inputSectionLoad
  split
  · split
    · split
      · exact Engine.TablesLawful.loadInputs e h _ _
      · exact h
    · exact h
  · exact h

/-- R98: the look at the start scene begins no store. -/
theorem Engine.TablesLawful.lookAtStartScene {e : Engine} (h : e.TablesLawful) :
    e.lookAtStartScene.1.TablesLawful := by
  unfold Engine.lookAtStartScene
  split
  · exact h.withOperation rfl rfl nofun
  next k _ =>
    dsimp only
    split
    · exact Engine.TablesLawful.beginLoad _ (e.beginOperation _ .startLoad k) (h.withOperation rfl rfl nofun)
    · exact Engine.TablesLawful.endOperation (e.beginOperation .idle .startLoad k) (h.withOperation rfl rfl nofun) _

theorem Engine.TablesLawful.verifySlotDone {e : Engine} (h : e.TablesLawful) (degraded : Option SceneName) :
    (e.verifySlotDone degraded).1.TablesLawful := by
  unfold Engine.verifySlotDone
  split
  next k _ =>
    have found : (e.modifySlot k fun x => (x.degrade degraded).verify).TablesLawful :=
      Engine.TablesLawful.modifySlot e h k _ (Engine.TablesLawful.degrade e h degraded k)
    dsimp only
    split
    · exact found.withOperation rfl rfl nofun
    · exact found.lookAtStartScene
  · exact h

theorem Engine.TablesLawful.announceWindow {e : Engine} (h : e.TablesLawful) (a : Fin 32) (received : Received) :
    (e.announceWindow a received).1.TablesLawful := by
  unfold Engine.announceWindow
  split
  · split
    · exact Engine.TablesLawful.applyWindow (e.nextWindow a) (h.withPacks rfl) _ _
    · exact h
  · exact h

theorem Engine.TablesLawful.makeRepeating {e : Engine} (h : e.TablesLawful) (a : Fin 32) (key : RepeatKey) :
    (e.makeRepeating a key).1.TablesLawful :=
  Engine.TablesLawful.setHeld _ (Engine.TablesLawful.step e h a key) _ _

theorem Engine.TablesLawful.expire {e : Engine} (h : e.TablesLawful) (a : Fin 32) : (e.expire a).1.TablesLawful := by
  unfold Engine.expire
  split
  · exact Engine.TablesLawful.setHeld _ (Engine.TablesLawful.step e h a _) _ _
  · exact h

theorem Engine.TablesLawful.dropTalk {e : Engine} (h : e.TablesLawful) (p : Port) : (e.dropTalk p).TablesLawful :=
  (h.same (e' := e.setTalkSet p 0#24) (by simp) (by simp)).recomputed _

/-- R108: a warm reset ends a recall, and changes the tables and the library in no other way. -/
theorem Engine.TablesLawful.warmReset {e : Engine} (h : e.TablesLawful) (together : Bool) :
    (e.warmReset together).TablesLawful :=
  (Engine.TablesLawful.endRecallAtReset e h).same rfl rfl

/-- R44, R114: a cold reset gives the tables their reset values, and keeps what each slot holds. -/
theorem Engine.TablesLawful.coldReset {e : Engine} (h : e.TablesLawful) : e.coldReset.TablesLawful := by
  refine ⟨Tables.reset_lawful, fun k name contents written => h.scenes k name contents ?_, nofun⟩
  have slot : e.coldReset.library.slots[k] = (e.library.slots[k]).coldReset := by
    simp [Engine.coldReset, Library.coldReset]
  rw [slot] at written
  exact written

/-- R93: a slot that the loss of power cuts short holds no scene. -/
theorem Engine.TablesLawful.cutShort {e : Engine} (h : e.TablesLawful) (cutName : SceneName) :
    (e.cutShort cutName).TablesLawful := by
  unfold Engine.cutShort
  split
  · exact Engine.TablesLawful.modifySlot e h _ _ nofun
  · exact Engine.TablesLawful.modifySlot e h _ _ nofun
  · exact h

/-- The ranges and the group law are kept by every change that one command makes. -/
theorem Engine.TablesLawful.keptBy : Engine.KeptBy Engine.TablesLawful where
  request := Engine.TablesLawful.request
  signal l _ h := h.setReceiver l _
  signalEnds l _ h := h.setReceiver l _
  line l _ _ h := h.setReceiver l _
  arrival l _ _ h := h.setReceiver l _
  instant := Engine.TablesLawful.frameInstant
  sent e h := h.withPacks e.packBusFrame_packs
  stored _ h := h.storeWriteEnd
  verified d _ h := h.recallVerifyEnd d
  mix _ h := h.mixLoad
  inputs _ h := h.inputSectionLoad
  erased _ h := h.eraseEnd
  slot d _ h := h.verifySlotDone d
  sweep e h := h.withPacks e.sweepStart_packs
  poll answers e h := h.withPacks (e.pollPhase_packs answers)
  read e h := h.withPacks e.readPhase_packs
  report a r e h := h.withPacks (e.keyReportRead_packs a r)
  window a r _ h := h.announceWindow a r
  downstream e h := h.withPacks e.downstreamPart_packs
  make a c k := Engine.TablesLawful.applyEvent _ (fun _ h => h.makeRepeating a k) a c
  next a c := Engine.TablesLawful.applyEvent _ (fun _ h => h.withPacks rfl) a c
  prev a c := Engine.TablesLawful.applyEvent _ (fun _ h => h.withPacks rfl) a c
  call a c := Engine.TablesLawful.applyEvent _ (fun e h => h.withPacks (e.addCall_packs a)) a c
  silence a c := Engine.TablesLawful.applyEvent _ (fun _ h => h.withPacks rfl) a c
  release a c k := Engine.TablesLawful.applyEvent _ (fun e h => h.withPacks (e.breakRepeating_packs a k)) a c
  pass a c := Engine.TablesLawful.applyEvent _ (fun _ h => h) a c
  marker a c := Engine.TablesLawful.applyEvent _ (fun _ h => h.withPacks rfl) a c
  expire a _ h := h.expire a
  talk p _ h := h.dropTalk p
  warm together _ h := h.warmReset together
  cold _ h := h.coldReset
  loss n _ h := (h.cutShort n).same rfl rfl

/-- Settles O58: what each single change keeps, every step keeps. -/
theorem stepKeepsTables : Obligations.StepKeepsTables :=
  fun _ _ => step_keeps Engine.TablesLawful.keptBy

end Sys2Proof.Machine

/-! The requests that write sends (R30 to R32): one send is a row of one record. -/
namespace Sys2Proof.Machine

/-- R169: a change of the tables and a recomputation turn no state true. -/
theorem rises_recompute_tables (e : Engine) (t : Tables) (reach : Fin 24 → Fin 64 → Bool) (p : Port) :
    rises e (Engine.recompute { e with tables := t } reach) p = [] :=
  rises_same ⟨by simp, by simp, by simp, by simp, by simp, by simp⟩ p

/-- R30, R32: SET SEND writes what a row of its one record writes. -/
theorem effectSetSend_eq_row (q : Payload) (e : Engine) :
    effectSetSend q e = effectSetSendRow
      { q with data := [Payload.byte q 1, Payload.byte q 2, Payload.byte q 3, Payload.byte q 4] } e := by
  have named (data : List Byte) : Payload.u8 { q with data := data } 0 = Payload.u8 q 0 := rfl
  simp only [effectSetSend, effectSetSendRow, records4, sendWrites, named]
  cases ordinal 24 (Payload.u8 q 0) with
  | none => rfl
  | some m => cases sendWrite (Payload.byte q 1) (Payload.byte q 2) (Payload.byte q 3) (Payload.byte q 4) <;> rfl

/-- Either send request does what a row of its records does. -/
theorem exec_sends {c : Instr} {code : Byte} {s : State} {p : Port} {q : Payload}
    {records : List (Byte × Byte × Byte × Byte)} (idle : s.idleAt p) (charge : s.engine.charge = p)
    (h : (c = .setSend p q ∧ code = 0x20 ∧
        records = [(Payload.byte q 1, Payload.byte q 2, Payload.byte q 3, Payload.byte q 4)]) ∨
      (c = .setSendRow p q ∧ code = 0x21 ∧ ∃ rest, rest.length < 4 ∧
        q.data = (records.flatMap fun r => [r.1, r.2.1, r.2.2.1, r.2.2.2]) ++ rest)) :
    ∃ row : Payload, Payload.u8 row 0 = Payload.u8 q 0 ∧ records4 row.data = records ∧
      ∀ {e : Engine} {st : Status} {cl : Bool} {da : List Byte}, effectSetSendRow row s.engine = ⟨e, st, cl, da, []⟩ →
        (∀ p', rises s.engine e p' = []) → exec c s = .next (s.replied p ⟨code, q⟩ e st cl da) := by
  rcases h with ⟨rfl, rfl, rfl⟩ | ⟨rfl, rfl, rest, short, data⟩
  · refine ⟨{ q with data := [Payload.byte q 1, Payload.byte q 2, Payload.byte q 3, Payload.byte q 4] }, rfl, rfl,
      fun effect rise => ?_⟩
    exact exec_effect .setSend rfl idle rfl (class_charge rfl charge) (fun _ => rfl)
      ((effectSetSend_eq_row q s.engine).trans effect) rise
  · refine ⟨q, rfl, by rw [data, records4_append records rest short], fun effect rise => ?_⟩
    exact exec_effect .setSendRow rfl idle rfl (class_charge rfl charge) (fun _ => rfl) effect rise

/-- R28, R32: one number out of range refuses the whole request. -/
theorem effectSetSendRow_badIndex {q : Payload} (h : Payload.u8 q 0 = 0 ∨ 24 < Payload.u8 q 0 ∨
    ∃ r ∈ records4 q.data, r.1.toNat = 0 ∨ 64 < r.1.toNat) (e : Engine) :
    effectSetSendRow q e = Effect.refuse e .badIndex := by
  unfold effectSetSendRow
  rcases or_assoc.2 h with mix | input
  · rw [ordinal_none mix]
  · rw [sendWrites_none input]
    cases ordinal 24 (Payload.u8 q 0) <;> rfl

/-- R29: the one refusal left, once every number of the request names a thing, is that of a mix awaiting recall. -/
theorem effectSetSendRow_named {q : Payload} {m : Fin 24} {ws : List SendWrite} (mix : Payload.u8 q 0 = m.val + 1)
    (sends : sendWrites (records4 q.data) = some ws) (e : Engine) :
    effectSetSendRow q e =
      if MixSet.has e.awaiting m = true then Effect.refuse e .awaitingRecall else effectWriteSends m ws e := by
  simp only [effectSetSendRow, ordinal_some mix, sends]

/-- Settles O35, on the row that either request comes to. -/
theorem sendRequestsBroadcast : Obligations.SendRequestsBroadcast := by
  intro c code s p q records idle charge request
  obtain ⟨row, mixOf, rfl, run⟩ := exec_sends idle charge request
  rw [← mixOf]
  refine ⟨fun outside => run (effectSetSendRow_badIndex outside s.engine) (rises_self _), fun m mix inputs => ?_⟩
  obtain ⟨ws, sends, clamped, written⟩ := sendWrites_some inputs
  have effect := effectSetSendRow_named mix sends s.engine
  refine ⟨fun awaiting => ?_, fun loaded => ?_⟩
  · rw [if_pos awaiting] at effect
    exact run effect (rises_self _)
  · rw [if_neg (by simp [loaded])] at effect
    refine ⟨_, if s.engine.passesOver m = true then .partly else .ok, _, ?_, effectWriteSends_written written,
      fun passed => ?_, fun kept => ?_⟩
    · rw [← clamped]
      exact run effect (rises_recompute_tables s.engine _ _)
    · exact if_pos ((Engine.passesOver_iff s.engine m).2 passed)
    · refine if_neg fun passed => ?_
      obtain ⟨m', linked, awaits⟩ := (Engine.passesOver_iff s.engine m).1 passed
      rw [kept m' linked] at awaits
      cases awaits

end Sys2Proof.Machine

/-! The requests that write a mix record, a link set and a group (R34, R36, R37). -/
namespace Sys2Proof.Machine

/-! ### SET MIX and SET LINK SET -/

/-- R34: a link set that is not present is not read. -/
theorem mixLinkSet_some {q : Payload} {k : Option (Fin 8)}
    (h : Payload.present q 1 7 = false ∨ Payload.u8 q 12 = numberFor k) :
    mixLinkSet q = some (if Payload.present q 1 7 = true then k else none) := by
  unfold mixLinkSet
  split
  next present => exact ordinalOrNone_some (h.resolve_left (by simp [present]))
  next => rfl

theorem mixLinkSet_none {q : Payload} (present : Payload.present q 1 7 = true) (h : 8 < Payload.u8 q 12) :
    mixLinkSet q = none := by
  rw [mixLinkSet, if_pos present, ordinalOrNone_none h]

theorem effectSetMix_badIndex {q : Payload} (h : Payload.u8 q 0 = 0 ∨ 24 < Payload.u8 q 0 ∨
    (Payload.present q 1 7 = true ∧ 8 < Payload.u8 q 12)) (e : Engine) :
    effectSetMix q e = Effect.refuse e .badIndex := by
  unfold effectSetMix
  rcases or_assoc.2 h with mix | ⟨present, linkSet⟩
  · rw [ordinal_none mix]
  · rw [mixLinkSet_none present linkSet]
    cases ordinal 24 (Payload.u8 q 0) <;> rfl

theorem effectSetMix_named {q : Payload} {m : Fin 24} {k : Option (Fin 8)} (mix : Payload.u8 q 0 = m.val + 1)
    (linkSet : mixLinkSet q = some k) (e : Engine) :
    effectSetMix q e = if MixSet.has e.awaiting m = true then Effect.refuse e .awaitingRecall else
      Effect.accept
        ((e.modifyMix m fun x => x.mapRecord (mixRecordOf q k)).recompute
          fun m' _ => mixReachesTargets q && decide (m' = m))
        (mixRecordClamped q) := by
  simp only [effectSetMix, ordinal_some mix, linkSet]

theorem effectSetLinkSet_badIndex {q : Payload}
    (h : Payload.u8 q 0 = 0 ∨ 24 < Payload.u8 q 0 ∨ 8 < Payload.u8 q 1) (e : Engine) :
    effectSetLinkSet q e = Effect.refuse e .badIndex := by
  unfold effectSetLinkSet
  rcases or_assoc.2 h with mix | linkSet
  · rw [ordinal_none mix]
  · rw [ordinalOrNone_none linkSet]
    cases ordinal 24 (Payload.u8 q 0) <;> rfl

theorem effectSetLinkSet_named {q : Payload} {m : Fin 24} {k : Option (Fin 8)} (mix : Payload.u8 q 0 = m.val + 1)
    (linkSet : Payload.u8 q 1 = numberFor k) (e : Engine) :
    effectSetLinkSet q e = if MixSet.has e.awaiting m = true then Effect.refuse e .awaitingRecall else
      Effect.accept (e.modifyMix m fun x => x.mapRecord fun r => { r with linkSet := k }) false := by
  simp only [effectSetLinkSet, ordinal_some mix, ordinalOrNone_some linkSet]

/-- R28, R34: the record that SET MIX writes, each present field brought into its range. -/
theorem mixRecordOf_eq (q : Payload) (k : Option (Fin 8)) (r : MixRec) :
    mixRecordOf q (if Payload.present q 1 7 = true then k else none) r =
      { master := if Payload.present q 1 0 then within (-120) 20 (Payload.s8 q 2) else r.master
        mute := if Payload.present q 1 1 then decide (Payload.u8 q 3 ≠ 0) else r.mute
        shift := if Payload.present q 1 2 then within (-1) 2 (Payload.s8 q 4) else r.shift
        ceiling := if Payload.present q 1 3 then max 1 (min 8388607 (Payload.u24 q 5)) else r.ceiling
        release := if Payload.present q 1 4 then max 1 (min 256 (Payload.u16 q 8)) else r.release
        dim := if Payload.present q 1 5 then within (-80) 0 (Payload.s8 q 10) else r.dim
        hold := if Payload.present q 1 6 then decide (Payload.u8 q 11 ≠ 0) else r.hold
        linkSet := if Payload.present q 1 7 then k else r.linkSet } := by
  have linkSet : (if Payload.present q 1 7 = true then (if Payload.present q 1 7 = true then k else none)
      else r.linkSet) = if Payload.present q 1 7 = true then k else r.linkSet := by
    split <;> rfl
  rw [mixRecordOf, linkSet, clampInt_eq (by decide), clampInt_eq (by decide), clampInt_eq (by decide),
    clampNat_eq (by decide), clampNat_eq (by decide)]
  rfl

/-- R28: the fields of SET MIX that count for CLAMPED. -/
theorem mixRecordClamped_eq (q : Payload) : mixRecordClamped q =
    ((Payload.present q 1 0 && decide (Payload.s8 q 2 < -120 ∨ 20 < Payload.s8 q 2)) ||
      (Payload.present q 1 1 && decide (1 < Payload.u8 q 3)) ||
      (Payload.present q 1 2 && decide (Payload.s8 q 4 < -1 ∨ 2 < Payload.s8 q 4)) ||
      (Payload.present q 1 3 && decide (Payload.u24 q 5 = 0 ∨ 8388607 < Payload.u24 q 5)) ||
      (Payload.present q 1 4 && decide (Payload.u16 q 8 = 0 ∨ 256 < Payload.u16 q 8)) ||
      (Payload.present q 1 5 && decide (Payload.s8 q 10 < -80 ∨ 0 < Payload.s8 q 10)) ||
      (Payload.present q 1 6 && decide (1 < Payload.u8 q 11))) := by
  simp only [mixRecordClamped, outsideInt_eq, outsideNat_eq, outsideYesNo, Nat.lt_one_iff]

/-- Settles O36. The link set reaches no target, so nothing is recomputed for it. -/
theorem mixRequests : Obligations.MixRequests := by
  intro s p q idle charge
  have setMix {e st cl da} (effect : effectSetMix q s.engine = ⟨e, st, cl, da, []⟩)
      (rise : ∀ p', rises s.engine e p' = []) : exec (.setMix p q) s = .next (s.replied p ⟨0x23, q⟩ e st cl da) :=
    exec_effect .setMix rfl idle rfl (class_charge rfl charge) (fun _ => rfl) effect rise
  have setLinkSet {e st cl da} (effect : effectSetLinkSet q s.engine = ⟨e, st, cl, da, []⟩)
      (rise : ∀ p', rises s.engine e p' = []) :
      exec (.setLinkSet p q) s = .next (s.replied p ⟨0x27, q⟩ e st cl da) :=
    exec_effect .setLinkSet rfl idle rfl (class_charge rfl charge) (fun _ => rfl) effect rise
  refine ⟨fun outside => setMix (effectSetMix_badIndex outside s.engine) (rises_self _),
    fun outside => setLinkSet (effectSetLinkSet_badIndex outside s.engine) (rises_self _), ?_⟩
  rintro m _ k mix rfl
  refine ⟨fun linkSet => ?_, fun linkSet => ?_⟩
  · have effect := effectSetLinkSet_named mix linkSet s.engine
    refine ⟨fun awaiting => ?_, fun loaded => ?_⟩
    · rw [if_pos awaiting] at effect
      exact setLinkSet effect (rises_self _)
    · rw [if_neg (by simp [loaded])] at effect
      exact setLinkSet effect (rises_same ⟨rfl, rfl, rfl, rfl, rfl, rfl⟩)
  · have effect := effectSetMix_named mix (mixLinkSet_some linkSet) s.engine
    refine ⟨fun awaiting => ?_, fun loaded => ?_⟩
    · rw [if_pos awaiting] at effect
      exact setMix effect (rises_self _)
    · rw [if_neg (by simp [loaded]), mixRecordClamped_eq] at effect
      refine ⟨mixRecordOf q _ (s.engine.tables.mixes[m]).record, _,
        setMix effect (rises_recompute_tables s.engine _ _), mixRecordOf_eq q k _,
        Engine.recompute_of_tables s.engine _ _, ?_⟩
      refine Engine.Retargets.congr (Engine.recompute_retargets rfl _) fun m' _ => ?_
      rw [mixReachesTargets, Bool.and_comm]

/-! ### SET GROUP -/

theorem effectSetGroup_badIndex {q : Payload} (h : Payload.u8 q 0 = 0 ∨ 24 < Payload.u8 q 0 ∨
    Payload.u8 q 1 = 0 ∨ 8 < Payload.u8 q 1 ∨ ∃ b ∈ q.data, b.toNat = 0 ∨ 64 < b.toNat) (e : Engine) :
    effectSetGroup q e = Effect.refuse e .badIndex := by
  unfold effectSetGroup
  rcases or_assoc.2 h with mix | group
  · rw [ordinal_none mix]
  rcases or_assoc.2 group with group | entry
  · rw [ordinal_none group]
    cases ordinal 24 (Payload.u8 q 0) <;> rfl
  · rw [memberInputs_none entry]
    cases ordinal 24 (Payload.u8 q 0) <;> cases ordinal 8 (Payload.u8 q 1) <;> rfl

/-- R29, R37: the refusals left once every number of the request names a thing, and the group that is written. -/
theorem effectSetGroup_named {q : Payload} {m : Fin 24} {g : Fin 8} {l : List (Fin 64)}
    (mix : Payload.u8 q 0 = m.val + 1) (group : Payload.u8 q 1 = g.val + 1)
    (entries : q.data.map BitVec.toNat = l.map fun i => i.val + 1) (e : Engine) :
    effectSetGroup q e =
      if MixSet.has e.awaiting m = true then Effect.refuse e .awaitingRecall
      else if groupConflict e.tables.mixes[m] g l = true then Effect.refuse e .groupConflict
      else Effect.accept
        ((e.modifyMix m fun x => x.putGroup g
            { trim := within (-80) 20 (Payload.s8 q 2), members := l.eraseDups }).recompute
          (reachInputsOf m (((e.tables.mixes[m]).groups[g]).members ++ l)))
        (decide (Payload.s8 q 2 < -80 ∨ 20 < Payload.s8 q 2)) := by
  simp only [effectSetGroup, ordinal_some mix, ordinal_some group, memberInputs_some entries, outsideInt_eq,
    clampInt_eq (show (-80 : Int) ≤ 20 by decide), collapse_eq]

/-- R37: an entry conflicts when another group of the mix holds it. -/
theorem groupConflict_iff (x : MixTable) (g : Fin 8) (l : List (Fin 64)) :
    groupConflict x g l = true ↔ ∃ g' : Fin 8, g' ≠ g ∧ ∃ i ∈ l, i ∈ (x.groups[g']).members := by
  simp [groupConflict, List.any_eq_true]

/-- Settles O37, by the refusals in their order. -/
theorem groupRequest : Obligations.GroupRequest := by
  intro s p q idle charge
  have setGroup {e st cl da} (effect : effectSetGroup q s.engine = ⟨e, st, cl, da, []⟩)
      (rise : ∀ p', rises s.engine e p' = []) :
      exec (.setGroup p q) s = .next (s.replied p ⟨0x25, q⟩ e st cl da) :=
    exec_effect .setGroup rfl idle rfl (class_charge rfl charge) (fun _ => rfl) effect rise
  refine ⟨fun outside => setGroup (effectSetGroup_badIndex outside s.engine) (rises_self _), ?_⟩
  rintro m g l _ mix group entries rfl
  have effect := effectSetGroup_named mix group entries s.engine
  refine ⟨fun awaiting => ?_, fun loaded => ?_⟩
  · rw [if_pos awaiting] at effect
    exact setGroup effect (rises_self _)
  rw [if_neg (by simp [loaded])] at effect
  refine ⟨fun conflict => ?_, fun apart => ?_⟩
  · rw [if_pos ((groupConflict_iff _ g l).2 conflict)] at effect
    exact setGroup effect (rises_self _)
  · have free : ¬ groupConflict s.engine.tables.mixes[m] g l = true := fun conflict => by
      obtain ⟨g', other, i, entry, member⟩ := (groupConflict_iff _ g l).1 conflict
      exact apart g' other i entry member
    rw [if_neg free] at effect
    refine ⟨_, setGroup effect (rises_recompute_tables s.engine _ _), Engine.recompute_of_tables s.engine _ _, ?_⟩
    refine Engine.Retargets.congr (Engine.recompute_retargets rfl _) fun m' i => ?_
    simp [reachInputsOf]

end Sys2Proof.Machine

/-! The requests that write an input record, the talk source and a talk set (R39, R41, R42). -/
namespace Sys2Proof.Machine

/-! ### SET INPUT -/

/-- R39: a patch that is not present is not read. -/
theorem inputPatch_some {q : Payload} {patch : Option (Fin 64)}
    (h : Payload.present q 1 0 = false ∨ Payload.u8 q 2 = numberFor patch) :
    inputPatch q = some (if Payload.present q 1 0 = true then patch else none) := by
  unfold inputPatch
  split
  next present => exact ordinalOrNone_some (h.resolve_left (by simp [present]))
  next => rfl

theorem inputPatch_none {q : Payload} (present : Payload.present q 1 0 = true) (h : 64 < Payload.u8 q 2) :
    inputPatch q = none := by
  rw [inputPatch, if_pos present, ordinalOrNone_none h]

theorem effectSetInput_badIndex {q : Payload} (h : Payload.u8 q 0 = 0 ∨ 64 < Payload.u8 q 0 ∨
    (Payload.present q 1 0 = true ∧ 64 < Payload.u8 q 2)) (e : Engine) :
    effectSetInput q e = Effect.refuse e .badIndex := by
  unfold effectSetInput
  rcases or_assoc.2 h with input | ⟨present, patch⟩
  · rw [ordinal_none input]
  · rw [inputPatch_none present patch]
    cases ordinal 64 (Payload.u8 q 0) <;> rfl

theorem effectSetInput_named {q : Payload} {i : Fin 64} {patch : Option (Fin 64)}
    (input : Payload.u8 q 0 = i.val + 1) (named : inputPatch q = some patch) (e : Engine) :
    effectSetInput q e = if e.inputsAwaiting = true then Effect.refuse e .awaitingRecall else
      Effect.accept
        (Engine.recompute
          { e with
            tables := { e.tables with inputs := e.tables.inputs.set i (inputRecOf q patch e.tables.inputs[i]) } }
          fun _ i' =>
            decide (i' = i) && inputReachesTargets e.tables.inputs[i] (inputRecOf q patch e.tables.inputs[i]))
        (inputRecClamped q) := by
  simp only [effectSetInput, ordinal_some input, named]

/-- R28, R39: the record that SET INPUT writes, each present field brought into its range. -/
theorem inputRecOf_eq (q : Payload) (patch : Option (Fin 64)) (r : InputRec) :
    inputRecOf q (if Payload.present q 1 0 = true then patch else none) r =
      { patch := if Payload.present q 1 0 then patch else r.patch
        trim := if Payload.present q 1 1 then within (-24) 24 (Payload.s8 q 3) else r.trim
        inverted := if Payload.present q 1 2 then decide (Payload.u8 q 4 ≠ 0) else r.inverted
        on := if Payload.present q 1 3 then decide (Payload.u8 q 5 ≠ 0) else r.on } := by
  have kept : (if Payload.present q 1 0 = true then (if Payload.present q 1 0 = true then patch else none)
      else r.patch) = if Payload.present q 1 0 = true then patch else r.patch := by
    split <;> rfl
  rw [inputRecOf, kept, clampInt_eq (by decide)]
  rfl

/-- R28: the fields of SET INPUT that count for CLAMPED. -/
theorem inputRecClamped_eq (q : Payload) : inputRecClamped q =
    ((Payload.present q 1 1 && decide (Payload.s8 q 3 < -24 ∨ 24 < Payload.s8 q 3)) ||
      (Payload.present q 1 2 && decide (1 < Payload.u8 q 4)) ||
      (Payload.present q 1 3 && decide (1 < Payload.u8 q 5))) := by
  simp only [inputRecClamped, outsideInt_eq, outsideYesNo]

/-- R39: a patch that goes between none and a channel reaches the targets. -/
theorem inputReachesTargets_eq (x y : InputRec) : inputReachesTargets x y =
    decide (x.trim ≠ y.trim ∨ x.on ≠ y.on ∨ (x.patch = none ↔ y.patch ≠ none)) := by
  have patch : (x.patch.isNone ≠ y.patch.isNone) ↔ (x.patch = none ↔ y.patch ≠ none) := by
    cases x.patch <;> cases y.patch <;> simp
  rw [inputReachesTargets, Bool.or_assoc, ← Bool.decide_or, ← Bool.decide_or]
  exact decide_eq_decide.2 (or_congr_right (or_congr_right patch))

/-- Settles O38, by whether the input section is awaiting recall. -/
theorem inputRequest : Obligations.InputRequest := by
  intro s p q idle charge
  have setInput {e st cl da} (effect : effectSetInput q s.engine = ⟨e, st, cl, da, []⟩)
      (rise : ∀ p', rises s.engine e p' = []) :
      exec (.setInput p q) s = .next (s.replied p ⟨0x28, q⟩ e st cl da) :=
    exec_effect .setInput rfl idle rfl (class_charge rfl charge) (fun _ => rfl) effect rise
  refine ⟨fun outside => setInput (effectSetInput_badIndex outside s.engine) (rises_self _), ?_⟩
  rintro i patch _ y input named rfl written
  rw [← inputRecOf_eq] at written
  subst written
  have effect := effectSetInput_named input (inputPatch_some named) s.engine
  refine ⟨fun awaiting => ?_, fun loaded => ?_⟩
  · rw [if_pos awaiting] at effect
    exact setInput effect (rises_self _)
  · rw [if_neg (by simp [loaded]), inputRecClamped_eq] at effect
    refine ⟨_, setInput effect (rises_recompute_tables s.engine _ _), Engine.recompute_of_tables s.engine _ _, ?_⟩
    refine Engine.Retargets.congr (Engine.recompute_retargets rfl _) fun _ i' => ?_
    rw [inputReachesTargets_eq]

/-! ### SET TALK SOURCE and TALK -/

/-- R25: a mix talks while it is on air and there is a talk source. -/
theorem talking_eq (t : Tables) (air : MixSet) (m : Fin 24) :
    talking t air m = (air.getLsbD m.val && decide (t.talkSource ≠ none)) := by
  rw [talking, MixSet.has]
  cases t.talkSource <;> rfl

theorem effectSetTalkSource_badIndex {q : Payload} (h : 64 < Payload.u8 q 0) (e : Engine) :
    effectSetTalkSource q e = Effect.refuse e .badIndex := by
  simp only [effectSetTalkSource, ordinalOrNone_none h]

theorem effectSetTalkSource_named {q : Payload} {source : Option (Fin 64)} (named : Payload.u8 q 0 = numberFor source)
    (e : Engine) :
    effectSetTalkSource q e = if e.inputsAwaiting = true then Effect.refuse e .awaitingRecall else
      Effect.accept
        (Engine.recompute { e with tables := { e.tables with talkSource := source } }
          (reachTalking e { e with tables := { e.tables with talkSource := source } } true)) false := by
  simp only [effectSetTalkSource, ordinalOrNone_some named]

/-- R42: the talk set that TALK leaves to its port. -/
theorem talkSetAfter_eq (q : Payload) (old : MixSet) : talkSetAfter q old =
    if Payload.u8 q 3 = 0 then old &&& ~~~ (Payload.mixSet q 0) else old ||| Payload.mixSet q 0 := by
  by_cases h : Payload.u8 q 3 = 0 <;> simp [talkSetAfter, yes, h]

/-- R25: a port's talk set replaced, the other port's kept. -/
theorem Engine.setTalkSet_eq (e : Engine) (p : Port) (air : MixSet) : e.setTalkSet p air =
    { e with
      talkHome := if p = .home then air else e.talkHome
      talkGuest := if p = .guest then air else e.talkGuest } := by
  cases p <;> rfl

/-- Settles O39. Each request changes one thing that talking reads, and the mixes that it reaches are recomputed. -/
theorem talkRequests : Obligations.TalkRequests := by
  intro s p q idle
  refine ⟨fun charge => ?_, ?_⟩
  · have setSource {e st cl da} (effect : effectSetTalkSource q s.engine = ⟨e, st, cl, da, []⟩)
        (rise : ∀ p', rises s.engine e p' = []) :
        exec (.setTalkSource p q) s = .next (s.replied p ⟨0x2A, q⟩ e st cl da) :=
      exec_effect .setTalkSource rfl idle rfl (class_charge rfl charge) (fun _ => rfl) effect rise
    refine ⟨fun outside => setSource (effectSetTalkSource_badIndex outside s.engine) (rises_self _),
      fun source named => ?_⟩
    have effect := effectSetTalkSource_named named s.engine
    refine ⟨fun awaiting => ?_, fun loaded => ?_⟩
    · rw [if_pos awaiting] at effect
      exact setSource effect (rises_self _)
    · rw [if_neg (by simp [loaded])] at effect
      refine ⟨_, setSource effect (rises_recompute_tables s.engine _ _), Engine.recompute_of_tables s.engine _ _, ?_⟩
      refine Engine.Retargets.congr (Engine.recompute_retargets rfl _) fun m _ => ?_
      simp only [reachTalking, talking_eq, Bool.true_and]
      rfl
  · rintro _ rfl
    rw [← talkSetAfter_eq]
    generalize after : talkSetAfter q (s.engine.talkSet p) = air
    have effect : effectTalk p q s.engine =
        ⟨(s.engine.setTalkSet p air).recompute (reachTalking s.engine (s.engine.setTalkSet p air) false), .ok,
          decide (1 < Payload.u8 q 3), bytes24 air.toNat, []⟩ := by
      rw [← after]
      rfl
    refine ⟨_, exec_effect .talk rfl idle rfl (class_open rfl) (fun _ => rfl) effect ?_, ?_, ?_⟩
    · exact rises_same (by cases p <;> simp [Engine.setTalkSet])
    · rw [Engine.recompute_blocks, Engine.setTalkSet_eq]
    · refine Engine.Retargets.congr (Engine.recompute_retargets (by simp) _) fun m _ => ?_
      have kept : (s.engine.setTalkSet p air).tables = s.engine.tables := by simp
      simp only [reachTalking, talking_eq, kept, Bool.false_and, Bool.or_false, Engine.recompute_talkHome,
        Engine.recompute_talkGuest, Engine.onAir]
      cases decide (s.engine.tables.talkSource ≠ none) <;> simp

end Sys2Proof.Machine

/-! The reads of the mix tables and of the coefficients (R33, R35, R38, R40, R60). -/
namespace Sys2Proof.Machine

/-! ### A mix or a group out of range -/

theorem effectReadSendRow_badIndex {q : Payload} (h : Payload.u8 q 0 = 0 ∨ 24 < Payload.u8 q 0) (e : Engine) :
    effectReadSendRow q e = Effect.refuse e .badIndex := by
  simp only [effectReadSendRow, ordinal_none h]

theorem effectReadMix_badIndex {q : Payload} (h : Payload.u8 q 0 = 0 ∨ 24 < Payload.u8 q 0) (e : Engine) :
    effectReadMix q e = Effect.refuse e .badIndex := by
  simp only [effectReadMix, ordinal_none h]

theorem effectReadEffective_badIndex {q : Payload} (h : Payload.u8 q 0 = 0 ∨ 24 < Payload.u8 q 0) (e : Engine) :
    effectReadEffective q e = Effect.refuse e .badIndex := by
  simp only [effectReadEffective, ordinal_none h]

theorem effectReadGroup_badIndex {q : Payload} (h : (Payload.u8 q 0 = 0 ∨ 24 < Payload.u8 q 0) ∨
    Payload.u8 q 1 = 0 ∨ 8 < Payload.u8 q 1) (e : Engine) : effectReadGroup q e = Effect.refuse e .badIndex := by
  unfold effectReadGroup
  rcases h with mix | group
  · rw [ordinal_none mix]
  · rw [ordinal_none group]
    cases ordinal 24 (Payload.u8 q 0) <;> rfl

/-! ### What the tables hold -/

theorem effectReadSendRow_named {q : Payload} {m : Fin 24} (mix : Payload.u8 q 0 = m.val + 1) (e : Engine) :
    effectReadSendRow q e = Effect.read e
      ((List.finRange 64).flatMap fun i => SendRec.bytes i ((e.tables.mixes[m]).sends[i])) := by
  simp only [effectReadSendRow, ordinal_some mix]

theorem effectReadMix_named {q : Payload} {m : Fin 24} (mix : Payload.u8 q 0 = m.val + 1) (e : Engine) :
    effectReadMix q e = Effect.read e (e.tables.mixes[m]).record.bytes := by
  simp only [effectReadMix, ordinal_some mix]

theorem effectReadEffective_named {q : Payload} {m : Fin 24} (mix : Payload.u8 q 0 = m.val + 1) (e : Engine) :
    effectReadEffective q e = Effect.read e ((List.finRange 64).flatMap fun i => CoefPair.bytes ((e.coefs[m])[i])) := by
  simp only [effectReadEffective, ordinal_some mix]

theorem effectReadGroup_named {q : Payload} {m : Fin 24} {g : Fin 8} (mix : Payload.u8 q 0 = m.val + 1)
    (group : Payload.u8 q 1 = g.val + 1) (e : Engine) :
    effectReadGroup q e = Effect.read e
      ([signedByte ((e.tables.mixes[m]).groups[g]).trim, byteOf ((e.tables.mixes[m]).groups[g]).members.length] ++
        ((e.tables.mixes[m]).groups[g]).members.map fun i => byteOf (i.val + 1)) := by
  simp only [effectReadGroup, ordinal_some mix, ordinal_some group]

/-- 11.5: the layout of a mix record. -/
theorem MixRec.bytes_eq (r : MixRec) : r.bytes =
    [BitVec.ofInt 8 r.master, if r.mute = true then 1 else 0, BitVec.ofInt 8 r.shift] ++ bytes24 r.ceiling ++
      bytes16 r.release ++ [BitVec.ofInt 8 r.dim, if r.hold = true then 1 else 0, byteOf (numberFor r.linkSet)] := by
  rw [MixRec.bytes, ordinalByte_eq]
  rfl

/-- R40: an input without a patch is not present. -/
theorem Engine.presentMark_byte (e : Engine) (i : Fin 64) : flagByte (e.presentMark i) =
    match (e.tables.inputs[i]).patch with
    | none => 0
    | some c => if (e.selector.delivered[c]).isSome = true then 1 else 0 := by
  unfold Engine.presentMark
  cases (e.tables.inputs[i]).patch <;> rfl

/-- 11.5: the layout of an input record. -/
theorem Engine.inputBytes_eq (e : Engine) (i : Fin 64) :
    InputRec.bytes e.tables.inputs[i] (e.presentMark i) =
      [byteOf (numberFor (e.tables.inputs[i]).patch), BitVec.ofInt 8 (e.tables.inputs[i]).trim,
        if (e.tables.inputs[i]).inverted = true then 1 else 0, if (e.tables.inputs[i]).on = true then 1 else 0,
        match (e.tables.inputs[i]).patch with
        | none => 0
        | some c => if (e.selector.delivered[c]).isSome = true then 1 else 0] := by
  rw [InputRec.bytes, ordinalByte_eq, Engine.presentMark_byte]
  rfl

/-- R40, 11.5: the input records, then the talk source. -/
theorem effectReadInputs_eq (e : Engine) : effectReadInputs e = Effect.read e
    (((List.finRange 64).flatMap fun i : Fin 64 =>
        [byteOf (numberFor (e.tables.inputs[i]).patch), BitVec.ofInt 8 (e.tables.inputs[i]).trim,
          if (e.tables.inputs[i]).inverted = true then 1 else 0, if (e.tables.inputs[i]).on = true then 1 else 0,
          match (e.tables.inputs[i]).patch with
          | none => 0
          | some c => if (e.selector.delivered[c]).isSome = true then 1 else 0]) ++
      [byteOf (numberFor e.tables.talkSource)]) := by
  simp only [effectReadInputs, Engine.inputBytes_eq, ordinalByte_eq]

/-- Settles O40, read by read. -/
theorem tableReads : Obligations.TableReads := by
  intro s p q idle
  have readSendRow {st da} (effect : effectReadSendRow q s.engine = ⟨s.engine, st, false, da, []⟩) :
      exec (.readSendRow p q) s = .next (s.replied p ⟨0x22, q⟩ s.engine st false da) :=
    exec_effect .readSendRow rfl idle rfl (class_open rfl) (fun _ => rfl) effect (rises_self _)
  have readMix {st da} (effect : effectReadMix q s.engine = ⟨s.engine, st, false, da, []⟩) :
      exec (.readMix p q) s = .next (s.replied p ⟨0x24, q⟩ s.engine st false da) :=
    exec_effect .readMix rfl idle rfl (class_open rfl) (fun _ => rfl) effect (rises_self _)
  have readGroup {st da} (effect : effectReadGroup q s.engine = ⟨s.engine, st, false, da, []⟩) :
      exec (.readGroup p q) s = .next (s.replied p ⟨0x26, q⟩ s.engine st false da) :=
    exec_effect .readGroup rfl idle rfl (class_open rfl) (fun _ => rfl) effect (rises_self _)
  have readEffective {st da} (effect : effectReadEffective q s.engine = ⟨s.engine, st, false, da, []⟩) :
      exec (.readEffective p q) s = .next (s.replied p ⟨0x33, q⟩ s.engine st false da) :=
    exec_effect .readEffective rfl idle rfl (class_open rfl) (fun _ => rfl) effect (rises_self _)
  refine ⟨fun outside => ⟨?_, ?_, ?_, ?_⟩, fun outside => ?_, ?_, ?_⟩
  · exact readSendRow (effectReadSendRow_badIndex outside s.engine)
  · exact readMix (effectReadMix_badIndex outside s.engine)
  · exact readGroup (effectReadGroup_badIndex (.inl outside) s.engine)
  · exact readEffective (effectReadEffective_badIndex outside s.engine)
  · exact readGroup (effectReadGroup_badIndex (.inr outside) s.engine)
  · rintro m _ mix rfl
    refine ⟨readSendRow (effectReadSendRow_named mix s.engine), ?_,
      readEffective (effectReadEffective_named mix s.engine),
      fun g group => readGroup (effectReadGroup_named mix group s.engine)⟩
    rw [← MixRec.bytes_eq]
    exact readMix (effectReadMix_named mix s.engine)
  · exact exec_effect .readInputs rfl idle rfl (class_open rfl) (fun _ => rfl) (effectReadInputs_eq s.engine)
      (rises_self _)

end Sys2Proof.Machine

/-! The end of the verify phase of a recall (R102, R103, R106). -/
namespace Sys2Proof.Machine

/-- A command that is not a request, given what its change of the blocks comes to. -/
theorem State.act_raises_of {s : State} (on : s.engine.powered = true) {f : Engine → Act} {e : Engine}
    {events : List Event} (eq : f s.engine = (e, events)) : ∃ t, s.act f = .next t ∧ s.Raises e events t := by
  have raises := State.act_raises on f
  rwa [eq] at raises

/-- R103: a slot whose contents agree is left as it is, and the load phase begins. -/
theorem Engine.recallVerifyEnd_agrees {e : Engine} {j : RecallJob} {name : SceneName} {contents : Tables}
    (recalling : e.library.operation = .recall j) (verify : j.phase = .verify)
    (image : (e.library.slots[j.slot]).image = .written name contents) :
    e.recallVerifyEnd none = e.beginLoad j := by
  have read : (e.modifySlot j.slot fun x => x.degrade none) = e := Engine.modifySlot_self e j.slot
  simp only [Engine.recallVerifyEnd, recalling, verify, read, image, SlotImage.scene]

/-- R103: a slot whose contents no longer agree becomes DAMAGED, and the recall ends FAILED. -/
theorem Engine.recallVerifyEnd_fails {e : Engine} {j : RecallJob} {degraded : Option SceneName} {y : SceneSlot}
    (recalling : e.library.operation = .recall j) (verify : j.phase = .verify)
    (slot : y = { (e.library.slots[j.slot]).degrade degraded with state := .damaged })
    (unreadable : y.image.scene = none) :
    e.recallVerifyEnd degraded =
      ({ e with
         library := { e.library with
           slots := e.library.slots.set j.slot y, operation := .idle
           result := { e.library.result with outcome := .failed } } }, [.opDone]) := by
  subst slot
  dsimp only at unreadable
  have read := Engine.modifySlot_slot e j.slot fun x => x.degrade degraded
  simp only [Engine.recallVerifyEnd, recalling, verify, read, unreadable]
  simp [Engine.modifySlot, Library.modifySlot, Engine.endOperation]

/-- R104: with something to load, all of it is awaiting recall. -/
theorem Engine.beginLoad_some {j : RecallJob} (h : j.mixes ≠ 0#24 ∨ j.classes.inputs = true) (e : Engine) :
    e.beginLoad j = ({ e with library := { e.library with
      operation := .recall { j with phase := .load j.mixes j.classes.inputs false } } }, []) := by
  have waiting : ¬ (j.mixes = 0#24 ∧ j.classes.inputs = false) := by
    rintro ⟨mixes, inputs⟩
    rcases h with h | h
    · exact h mixes
    · simp [inputs] at h
  simp [Engine.beginLoad, Engine.afterItem, waiting]

/-- R102: with nothing to load the recall ends DONE. -/
theorem Engine.beginLoad_nothing {j : RecallJob} (mixes : j.mixes = 0#24) (inputs : j.classes.inputs = false)
    (e : Engine) :
    e.beginLoad j = ({ e with library := { e.library with
      operation := .idle, result := { e.library.result with outcome := .done } } }, [.opDone]) := by
  simp [Engine.beginLoad, Engine.afterItem, mixes, inputs, Engine.endOperation]

theorem SceneSlot.ext_fields {x y : SceneSlot} (state : x.state = y.state) (protect : x.protect = y.protect)
    (image : x.image = y.image) : x = y := by
  cases x
  cases y
  simp_all

/-- Settles O43, by whether the slot that was read agrees, and whether there is anything to load. -/
theorem recallVerifyEnds : Obligations.RecallVerifyEnds := by
  refine ⟨fun e j recalling => ⟨fun awaiting inputs aborting load => Engine.awaiting_load recalling load,
    Engine.awaiting_verify recalling⟩, fun e => Engine.awaiting_none, fun _ _ => rfl, ?_⟩
  rintro s j degraded _ _ on settled rfl recalling verify rfl
  refine ⟨?_, fun y damaged protect => ⟨?_, ?_⟩⟩
  · rintro ⟨name, contents, rfl, image⟩
    have agrees := Engine.recallVerifyEnd_agrees recalling verify image
    refine ⟨fun h => ?_, fun mixes inputs => ?_⟩
    · refine State.act_silent on settled (agrees.trans (Engine.beginLoad_some h s.engine)) ?_
      refine rises_of_library s.engine _ ?_
      rw [Library.busy_of_operation (l := s.engine.library) (by simp [recalling])]
      exact Library.busy_of_operation nofun
    · exact State.act_raises_of on (agrees.trans (Engine.beginLoad_nothing mixes inputs s.engine))
  · rintro rfl disagrees image
    refine State.act_raises_of on (Engine.recallVerifyEnd_fails recalling verify
      (SceneSlot.ext_fields damaged protect image) ?_)
    rw [image]
    cases held : (s.engine.library.slots[j.slot]).image with
    | written name contents => exact absurd held (disagrees name contents)
    | _ => rfl
  · rintro name rfl image
    exact State.act_raises_of on (Engine.recallVerifyEnd_fails recalling verify
      (SceneSlot.ext_fields damaged protect image) (by rw [image]; rfl))

end Sys2Proof.Machine

/-! The derivation of a target, the coefficient table and the ramps (R45 to R57). -/
namespace Sys2Proof.Machine

/-! ### The coefficient table (R49) -/

/-- R49: C is 16,384 x 10^((L - 208)/40) rounded to the nearest integer, a half upwards, in 40th powers. -/
abbrev RoundsCode (code c : Nat) : Prop :=
  (c = 0 ∨ (2 * c - 1) ^ 40 * 10 ^ 208 ≤ (2 * 16384) ^ 40 * 10 ^ code) ∧
    (2 * 16384) ^ 40 * 10 ^ code < (2 * c + 1) ^ 40 * 10 ^ 208

/-- R49, entry by entry. -/
theorem coefficient_rounds_entry : ∀ k : Fin 232, RoundsCode (k.val + 1) (coefficient (k.val + 1)) := by
  decide +kernel

theorem coefficient_rounds {code : Nat} (low : 1 ≤ code) (high : code ≤ 232) : RoundsCode code (coefficient code) := by
  have entry := coefficient_rounds_entry ⟨code - 1, by omega⟩
  rwa [Nat.sub_add_cancel low] at entry

/-- A value that rounds to c is below one that rounds to c', so c is at most c'. -/
theorem RoundsCode.le {code code' c c' : Nat} (h : RoundsCode code c) (h' : RoundsCode code' c') (le : code ≤ code') :
    c ≤ c' := by
  obtain ⟨zero | lower, -⟩ := h
  · omega
  · have powers : (2 * c - 1) ^ 40 * 10 ^ 208 < (2 * c' + 1) ^ 40 * 10 ^ 208 :=
      calc (2 * c - 1) ^ 40 * 10 ^ 208 ≤ (2 * 16384) ^ 40 * 10 ^ code := lower
        _ ≤ (2 * 16384) ^ 40 * 10 ^ code' := Nat.mul_le_mul_left _ (Nat.pow_le_pow_right (by decide) le)
        _ < (2 * c' + 1) ^ 40 * 10 ^ 208 := h'.2
    have bases : 2 * c - 1 < 2 * c' + 1 := lt_of_pow_lt_pow_left₀ 40 (Nat.zero_le _) (Nat.lt_of_mul_lt_mul_right powers)
    omega

/-- Settles O33: the entries are rounded, and so they never decrease. (`coefficientTable` is the table's own name.) -/
theorem coefficientTableRounded : Obligations.CoefficientTable := by
  refine ⟨fun code low high => ?_, rfl⟩
  have rounds := coefficient_rounds low high
  exact ⟨rounds.1, rounds.2, fun more => rounds.le (coefficient_rounds (by omega) more) (Nat.le_succ code)⟩

/-! ### Ramps (R52, R55 to R57) -/

/-- R52, R55: a target that changes sets the step from the distance. -/
theorem Coef.retarget_changed {c : Coef} {target : Nat} (h : target ≠ c.target) :
    c.retarget target =
      { target := target, live := c.live, step := max 1 ((max target c.live - min target c.live + 63) / 64) } := by
  rw [Coef.retarget, if_neg h, rampStep, max_comm c.live, min_comm c.live]

/-- R56: the movement never leaves the way from the live value to the target. -/
theorem Coef.move_repeat_between (c : Coef) (k : Nat) :
    min c.live c.target ≤ (Nat.repeat Coef.move k c).live ∧ (Nat.repeat Coef.move k c).live ≤ max c.live c.target := by
  obtain ⟨-, -, up, down⟩ := c.move_repeat k
  rcases Nat.le_total c.live c.target with h | h
  · rw [up h]
    omega
  · rw [down h]
    omega

/-- R56: after as many steps as cover the distance the live value stands at the target. -/
theorem Coef.move_repeat_arrived {c : Coef} {k : Nat} (h : max c.target c.live - min c.target c.live ≤ k * c.step) :
    (Nat.repeat Coef.move k c).live = c.target := by
  obtain ⟨-, -, up, down⟩ := c.move_repeat k
  rcases Nat.le_total c.live c.target with le | le
  · rw [up le]
    omega
  · rw [down le]
    omega

/-- Settles O34: 64 steps of the size that a change of target sets cover the distance. -/
theorem rampReachesTarget : Obligations.RampReachesTarget := by
  refine ⟨fun c => ⟨Coef.move_below, Coef.move_above⟩, fun _ _ => rfl, fun c target => ⟨fun same => if_pos same, ?_⟩⟩
  rintro changed _ rfl
  rw [Coef.retarget_changed changed]
  refine ⟨rfl, Coef.move_repeat_between ⟨target, c.live, _⟩, fun k enough => Coef.move_repeat_arrived ?_⟩
  dsimp only
  generalize max target c.live - min target c.live = distance
  calc distance ≤ 64 * max 1 ((distance + 63) / 64) := by omega
    _ ≤ k * max 1 ((distance + 63) / 64) := Nat.mul_le_mul_right _ enough

/-! ### The targets of a pair (R45 to R50) -/

/-- R47: the reasons for silence. -/
theorem silenced_iff (t : Tables) (air : MixSet) (m : Fin 24) (i : Fin 64) :
    silenced t air m i = true ↔
      (t.inputs[i]).on = false ∨ (t.inputs[i]).patch = none ∨
        (overridden t air m i = false ∧
          (((t.mixes[m]).sends[i]).on = false ∨ ((t.mixes[m]).sends[i]).level = 0 ∨
            (t.mixes[m]).record.mute = true)) := by
  simp [silenced, or_assoc]

/-- R47: a pair is heard by its own send, or as the talk source whatever that send is. -/
theorem not_silenced_iff (t : Tables) (air : MixSet) (m : Fin 24) (i : Fin 64) :
    silenced t air m i = false ↔
      (t.inputs[i]).on = true ∧ (t.inputs[i]).patch ≠ none ∧
        (overridden t air m i = true ∨
          (((t.mixes[m]).sends[i]).on = true ∧ ((t.mixes[m]).sends[i]).level ≠ 0 ∧
            (t.mixes[m]).record.mute = false)) := by
  rw [← Bool.not_eq_true, silenced_iff]
  simp [or_iff_not_imp_left]

theorem deriveTargets_silenced {t : Tables} {air : MixSet} {m : Fin 24} {i : Fin 64} (h : silenced t air m i = true) :
    deriveTargets t air m i = (0, 0) := if_pos h

/-- R48: an effective level of 0 or less. -/
theorem deriveTargets_inaudible {t : Tables} {air : MixSet} {m : Fin 24} {i : Fin 64}
    (h : effectiveLevel t air m i ≤ 0) : deriveTargets t air m i = (0, 0) := by
  unfold deriveTargets
  split
  · rfl
  · exact if_pos h

/-- R48, R50: the coefficient of the effective level, held at 232, split by the pan. -/
theorem deriveTargets_heard {t : Tables} {air : MixSet} {m : Fin 24} {i : Fin 64} (heard : silenced t air m i = false)
    (h : 0 < effectiveLevel t air m i) :
    deriveTargets t air m i =
      panSplit (coefficient (min (effectiveLevel t air m i) 232).toNat) ((t.mixes[m]).sends[i]).pan := by
  rw [deriveTargets, if_neg (by simp [heard])]
  exact if_neg (Int.not_le.2 h)

/-- R50: the far side of a pan, in integers. -/
theorem farSide_eq (c : Nat) {k : Nat} (h : k ≤ 32) : farSide c k = (((c : Int) * (32 - k) + 16) / 32).toNat := by
  have cast : ((farSide c k : Nat) : Int) = ((c : Int) * (32 - k) + 16) / 32 := by
    simp [farSide, Nat.cast_sub h]
  rw [← cast, Int.toNat_natCast]

/-- R50: a pan to the right lowers the left side. -/
theorem panSplit_right (c : Nat) {pan : Int} (right : 0 < pan) (most : pan ≤ 32) :
    panSplit c pan = ((((c : Int) * (32 - pan) + 16) / 32).toNat, c) := by
  have size : (pan.natAbs : Int) = pan := by omega
  rw [panSplit, if_pos right, farSide_eq c (by omega), size]

/-- R50: a pan to the left lowers the right side. -/
theorem panSplit_left (c : Nat) {pan : Int} (left : pan < 0) (most : -32 ≤ pan) :
    panSplit c pan = (c, (((c : Int) * (32 + pan) + 16) / 32).toNat) := by
  have size : 32 - (pan.natAbs : Int) = 32 + pan := by omega
  rw [panSplit, if_neg (by omega), if_pos left, farSide_eq c (by omega), size]

/-- R45, R46: the five terms of the effective level. -/
theorem effectiveLevel_eq (t : Tables) (air : MixSet) (m : Fin 24) (i : Fin 64) :
    effectiveLevel t air m i =
      (if overridden t air m i = true ∧ ((t.mixes[m]).sends[i]).level = 0 then 208
        else (((t.mixes[m]).sends[i]).level : Int)) +
      (t.inputs[i]).trim + groupTrim t.mixes[m] i + (t.mixes[m]).record.master +
      (if talking t air m = true ∧ overridden t air m i = false then (t.mixes[m]).record.dim else 0) := by
  simp [effectiveLevel]

/-- Settles O32, by whether the pair is silent, and where its effective level and its pan lie. -/
theorem derivedTargets : Obligations.DerivedTargets := by
  rintro t air m i _ _ _ talks source trim rfl rfl rfl talksEq sourceEq member outside
  rw [← talking_eq] at talksEq
  subst talksEq
  obtain rfl : source = overridden t air m i := sourceEq
  refine ⟨fun silent => deriveTargets_silenced ((silenced_iff t air m i).2 silent), fun on patched sent sum sumEq => ?_⟩
  have heard := (not_silenced_iff t air m i).2 ⟨on, patched, sent⟩
  rw [← groupTrim_of_member _ i trim member outside, ← effectiveLevel_eq] at sumEq
  subst sumEq
  refine ⟨deriveTargets_inaudible, fun audible c coefficientEq => ?_⟩
  rw [deriveTargets_heard heard audible, ← coefficientEq]
  exact ⟨fun center => by rw [center]; rfl, panSplit_right c, panSplit_left c⟩

end Sys2Proof.Machine

/-! What a frame instant moves and raises (R56, R61, R70, R84), and what it leaves alone. -/
namespace Sys2Proof.Machine

/-! ### The events of a frame instant -/

/-- R70, R84: what the mixes raise is what each mix raises. -/
theorem Engine.mem_computeMixes (e : Engine) (ev : Event) :
    ev ∈ e.computeMixes.2 ↔
      ∃ m : Fin 24, ev ∈ (e.runs[m]).events (e.tables.mixes[m]).record (e.sumLeft m) (e.sumRight m) := by
  simp [Engine.computeMixes]

theorem Engine.computeMixes_clip (e : Engine) :
    Event.clip ∈ e.computeMixes.2 ↔
      ∃ m : Fin 24, (e.runs[m]).clip = false ∧ (e.computeMixes.1.moveRamps.runs[m]).clip = true := by
  rw [Engine.mem_computeMixes]
  exact exists_congr fun m => (e.mix_events m).1

theorem Engine.computeMixes_guard (e : Engine) :
    Event.guard ∈ e.computeMixes.2 ↔
      ∃ m : Fin 24, (e.runs[m]).gain = 16384 ∧ (e.computeMixes.1.moveRamps.runs[m]).gain < 16384 := by
  rw [Engine.mem_computeMixes]
  exact exists_congr fun m => (e.mix_events m).2.1

theorem Engine.computeMixes_only {e : Engine} {ev : Event} (h : ev ∈ e.computeMixes.2) : ev = .clip ∨ ev = .guard := by
  obtain ⟨m, raised⟩ := (e.mem_computeMixes ev).1 h
  exact (e.mix_events m).2.2 ev raised

section
variable {before e : Engine} {atTest : Link → Bool} {aLocked : Bool} {events : List Event}

/-- R5, R13: the receivers and the selector raise LINK_DOWN and SOURCE_CHANGE only. -/
theorem Engine.Selected.only (h : Engine.Selected before e atTest aLocked events) {ev : Event} (mem : ev ∈ events) :
    ev = .linkDown ∨ ev = .sourceChange := by
  rcases (h.raised ev).1 mem with chosen | down | down
  · exact .inr ((Selector.chooses_change _ _ _).2 ev chosen)
  · exact .inl (linkDownOf_only down)
  · exact .inl (linkDownOf_only down)

/-- R5: LINK_DOWN is raised exactly for a departure. -/
theorem Engine.Selected.linkDown_iff (h : Engine.Selected before e atTest aLocked events) :
    Event.linkDown ∈ events ↔ ∃ l, (before.receiver l).leaving := by
  refine ⟨fun mem => ?_, fun ⟨_, leaves⟩ => h.linkDown leaves⟩
  rcases (h.raised _).1 mem with chosen | down | down
  · cases (Selector.chooses_change _ _ _).2 _ chosen
  · exact ⟨.a, (linkDownOf_worked _).1 down⟩
  · exact ⟨.b, (linkDownOf_worked _).1 down⟩

/-- R13: SOURCE_CHANGE is raised exactly for a change of the active link. -/
theorem Engine.Selected.sourceChange_iff (h : Engine.Selected before e atTest aLocked events) :
    Event.sourceChange ∈ events ↔ e.selector.active ≠ before.selector.active := by
  rw [h.selector, h.raised]
  refine Iff.trans ⟨?_, .inl⟩ (Selector.chooses_change _ _ _).1
  rintro (chosen | down | down)
  · exact chosen
  · cases linkDownOf_only down
  · cases linkDownOf_only down

/-! ### What a frame instant leaves alone -/

/-- R61: the blocks that no part of a frame instant works on. -/
theorem Engine.Selected.untouched (h : Engine.Selected before e atTest aLocked events) :
    e.computeMixes.1.moveRamps =
      { before with
        linkA := e.computeMixes.1.moveRamps.linkA, linkB := e.computeMixes.1.moveRamps.linkB
        selector := e.computeMixes.1.moveRamps.selector, coefs := e.computeMixes.1.moveRamps.coefs
        runs := e.computeMixes.1.moveRamps.runs, inputMeters := e.computeMixes.1.moveRamps.inputMeters
        metersRest := false, packs := { before.packs with frameDue := true } } := by
  obtain ⟨powered, tables, talkHome, talkGuest, -, -, -, -, library, packs, charge⟩ := h.kept
  refine e.computeMixes_rest.trans ?_
  simp only [Engine.computeMixes_linkA, Engine.computeMixes_linkB, Engine.computeMixes_selector, powered, tables,
    talkHome, talkGuest, library, packs, charge]

end

/-- R78, R90: only a frame that began on an idle line, that tells a CLIP or a GUARD, and that a warm reset waits behind
is marked. -/
theorem exec_frameInstant_marks {s t : State} (on : s.engine.powered = true) (next : exec .frameInstant s = .next t)
    {p : Port} (marked : (t.port p).unseen = true) :
    (s.port p).line = none ∧ (∃ f, (t.port p).line = some f ∧ f.tellsClipOrGuard = true) ∧ s.resetFollows = true := by
  rw [exec_frameInstant_unseen on next p] at marked
  simp only [Bool.and_eq_true, Option.isNone_iff_eq_none, Option.any_eq_true] at marked
  obtain ⟨⟨⟨follows, -⟩, idle⟩, tells⟩ := marked
  exact ⟨idle, tells, follows⟩

/-- R175: of the replies to a parked wait only a MET tells items. -/
theorem Frame.tellsClipOrGuard_unmet {r : Reply} (h : r.status ≠ .met) :
    Frame.tellsClipOrGuard (.parked r) = false := by
  simp [Frame.tellsClipOrGuard, h]

/-- Settles O27: the receivers and the selector raise their events, the mixes theirs. -/
theorem instantMovesRampsAndRaises : Obligations.InstantMovesRampsAndRaises := by
  refine ⟨⟨fun _ => rfl, fun _ => Frame.tellsClipOrGuard_unmet, fun _ => ⟨rfl, fun _ => Frame.tellsClipOrGuard_met⟩⟩,
    State.resetFollows_iff, fun s on => ?_⟩
  obtain ⟨e, atTest, aLocked, events, t, selected, next, engine, raises⟩ := exec_frameInstant on
  obtain ⟨-, -, -, -, coefs, runs, -, -, -, -, -⟩ := selected.kept
  have mixes : ∀ ev, ev = .linkDown ∨ ev = .sourceChange → ev ∉ e.computeMixes.2 := by
    rintro _ (rfl | rfl) mem <;> simpa using Engine.computeMixes_only mem
  have links : ∀ ev, ev = .clip ∨ ev = .guard → ev ∉ events := by
    rintro _ (rfl | rfl) mem <;> simpa using selected.only mem
  refine ⟨t, events ++ e.computeMixes.2, next, raises, ?_, fun m i => ?_, ?_, ?_, ?_, ?_,
    fun p => exec_frameInstant_marks on next, fun ev mem => ?_⟩
  · rw [engine]
    exact selected.untouched
  · rw [engine, Engine.computeMixes_coef, coefs]
    exact CoefPair.move_sides _
  · rw [List.mem_append, or_iff_left (mixes _ (.inl rfl)), selected.linkDown_iff]
  · rw [List.mem_append, or_iff_left (mixes _ (.inr rfl)), selected.sourceChange_iff, engine,
      Engine.computeMixes_selector]
  · rw [List.mem_append, or_iff_right (links _ (.inl rfl)), Engine.computeMixes_clip, engine, runs]
  · rw [List.mem_append, or_iff_right (links _ (.inr rfl)), Engine.computeMixes_guard, engine, runs]
  · rcases List.mem_append.1 mem with link | mix
    · exact (selected.only link).imp_right .inl
    · exact .inr (.inr (Engine.computeMixes_only mix))

end Sys2Proof.Machine

/-! The load phase of a recall (R53, R104 to R107): the load of one item, and what follows it. -/
namespace Sys2Proof.Machine

/-! ### The items of a scene (R104, R105) -/

theorem Engine.writeMix_written {e : Engine} {j : RecallJob} {name : SceneName} {scene : Tables}
    (image : (e.library.slots[j.slot]).image = .written name scene) (m : Fin 24) :
    e.writeMix j m = e.modifyMix m fun x => x.load j.classes scene.mixes[m] := by
  simp only [Engine.writeMix, image, SlotImage.scene]

theorem Engine.writeInputs_written {e : Engine} {j : RecallJob} {name : SceneName} {scene : Tables}
    (image : (e.library.slots[j.slot]).image = .written name scene) :
    e.writeInputs j =
      { e with tables := { e.tables with inputs := scene.inputs, talkSource := scene.talkSource } } := by
  simp only [Engine.writeInputs, image, SlotImage.scene]

/-- R104, R106, R107: the recall ends with an item when an abort has been accepted or nothing is awaiting recall. -/
theorem Engine.afterItem_eq {awaiting : MixSet} {inputs aborting ended : Bool}
    (h : ended = (aborting || (decide (awaiting = 0#24) && !inputs))) (e : Engine) :
    Engine.afterItem awaiting inputs aborting e =
      ({ e with library := { e.library with
          operation := if ended then .idle else e.library.operation
          result := { e.library.result with
            outcome := if aborting then .aborted else if ended then .done else e.library.result.outcome } } },
        if ended then [.opDone] else []) := by
  subst h
  unfold Engine.afterItem
  cases aborting with
  | true => rfl
  | false =>
    by_cases last : awaiting = 0#24 ∧ inputs = false
    · simp [last, Engine.endOperation]
    · have more : (decide (awaiting = 0#24) && !inputs) = false := by simpa using last
      simp [last, more]

/-- R104, R105: the load of one mix from the scene that the slot holds. -/
theorem Engine.loadMix_written {e : Engine} {j : RecallJob} {name : SceneName} {scene : Tables}
    (image : (e.library.slots[j.slot]).image = .written name scene) {awaiting : MixSet} {m : Fin 24}
    {inputs aborting ended : Bool}
    (h : ended = (aborting || (decide (MixSet.without awaiting m = 0#24) && !inputs))) :
    e.loadMix j awaiting inputs aborting m =
      ({ (e.modifyMix m fun x => x.load j.classes scene.mixes[m]).recompute (reachMix m) with
          library := { e.library with
            operation :=
              if ended then .idle else .recall { j with phase := .load (MixSet.without awaiting m) inputs aborting }
            result := { e.library.result with
              mixesLoaded := e.library.result.mixesLoaded + 1
              outcome := if aborting then .aborted else if ended then .done else e.library.result.outcome } } },
        if ended then [.opDone] else []) := by
  rw [Engine.loadMix, Engine.writeMix_written image, Engine.afterItem_eq h]
  rfl

/-- R104: the load of the input section from the scene that the slot holds; it is the last item. -/
theorem Engine.loadInputs_written {e : Engine} {j : RecallJob} {name : SceneName} {scene : Tables}
    (image : (e.library.slots[j.slot]).image = .written name scene) (aborting : Bool) :
    e.loadInputs j aborting =
      ({ Engine.recompute
            { e with tables := { e.tables with inputs := scene.inputs, talkSource := scene.talkSource } }
            (fun _ _ => true) with
          library := { e.library with
            operation := .idle
            result := { e.library.result with outcome := if aborting then .aborted else .done } } },
        [.opDone]) := by
  rw [Engine.loadInputs, Engine.writeInputs_written image]
  rfl

/-! ### The ends of the fetches (R104) -/

/-- R104: the fetch that ends is that of the lowest mix awaiting recall. -/
theorem Engine.mixLoad_least {e : Engine} {j : RecallJob} {awaiting : MixSet} {inputs aborting : Bool} {m : Fin 24}
    (recalling : e.library.operation = .recall j) (load : j.phase = .load awaiting inputs aborting)
    (waits : awaiting.getLsbD m.val = true) (least : ∀ m' < m, awaiting.getLsbD m'.val = false) :
    e.mixLoad = e.loadMix j awaiting inputs aborting m := by
  simp only [Engine.mixLoad, recalling, load, nextMix_of_least waits least]

/-- R104: the fetch of the input section comes once no mix is awaiting recall. -/
theorem Engine.inputSectionLoad_last {e : Engine} {j : RecallJob} {aborting : Bool}
    (recalling : e.library.operation = .recall j) (load : j.phase = .load 0#24 true aborting) :
    e.inputSectionLoad = e.loadInputs j aborting := by
  simp only [Engine.inputSectionLoad, recalling, load, and_self, if_true]

/-- A change of the library besides recomputes nothing more. -/
theorem Engine.Retargets.withLibrary {before after : Engine} {reach : Fin 24 → Fin 64 → Bool}
    (h : Engine.Retargets before after reach) (library : Library) :
    Engine.Retargets before { after with library := library } reach := h

/-- Settles O44, item by item. -/
theorem recallLoads : Obligations.RecallLoads := by
  refine ⟨fun _ _ _ => rfl, ?_⟩
  rintro s j awaiting inputs aborting name scene _ on rfl recalling load image
  refine ⟨?_, ?_⟩
  · rintro m _ _ _ ended waits least rfl rfl rfl last
    obtain ⟨t, next, raises⟩ := State.act_raises_of on
      ((Engine.mixLoad_least recalling load waits least).trans (Engine.loadMix_written image last))
    exact ⟨_, t, next, raises, rfl, (Engine.recompute_retargets rfl _).withLibrary _⟩
  · rintro rfl rfl
    obtain ⟨t, next, raises⟩ := State.act_raises_of on
      ((Engine.inputSectionLoad_last recalling load).trans (Engine.loadInputs_written image aborting))
    exact ⟨_, t, next, raises, rfl, (Engine.recompute_retargets rfl _).withLibrary _⟩

end Sys2Proof.Machine

/-! The mix computation and the ear guard (chapters 4 and 5): the headroom division, the size of the accumulators, one
mix at a frame instant, and the requests on meters and latches. -/
namespace Sys2Proof.Machine

/-! ### Convergent rounding (R66, R67) -/

/-- R67: which quotient a magnitude goes to, by its remainder. -/
theorem roundMagnitude_of_division {magnitude divisor quotient remainder : Nat}
    (division : magnitude = quotient * divisor + remainder) (small : remainder < divisor) :
    roundMagnitude magnitude divisor =
      if 2 * remainder < divisor then quotient
      else if divisor < 2 * remainder then quotient + 1
      else if quotient % 2 = 0 then quotient else quotient + 1 := by
  obtain ⟨div, mod⟩ : magnitude / divisor = quotient ∧ magnitude % divisor = remainder :=
    (Nat.div_mod_unique (by omega)).2 ⟨by rw [division, Nat.mul_comm, Nat.add_comm], small⟩
  simp only [roundMagnitude, div, mod]

/-- R67: an even divisor has a half, and the remainder lies below, above or at it. -/
theorem roundMagnitude_of_even_division {magnitude divisor quotient remainder : Nat}
    (division : magnitude = quotient * divisor + remainder) (small : remainder < divisor) (even : 2 ∣ divisor) :
    roundMagnitude magnitude divisor =
      if remainder < divisor / 2 then quotient
      else if divisor / 2 < remainder then quotient + 1
      else if quotient % 2 = 0 then quotient else quotient + 1 := by
  have below : 2 * remainder < divisor ↔ remainder < divisor / 2 := by omega
  have above : divisor < 2 * remainder ↔ divisor / 2 < remainder := by omega
  simp only [roundMagnitude_of_division division small, below, above]

theorem roundHalfEven_nonneg {x : Int} (h : 0 ≤ x) (divisor : Nat) : 0 ≤ roundHalfEven x divisor := by
  rw [roundHalfEven, if_neg (by omega)]
  exact Int.natCast_nonneg _

theorem roundHalfEven_zero (divisor : Nat) : roundHalfEven 0 divisor = 0 := by
  simp [roundHalfEven, roundMagnitude]

theorem roundHalfEven_nonpos {x : Int} (h : x ≤ 0) (divisor : Nat) : roundHalfEven x divisor ≤ 0 := by
  rcases Int.lt_or_eq_of_le h with negative | rfl
  · rw [roundHalfEven, if_pos negative]
    exact Int.neg_nonpos_of_nonneg (Int.natCast_nonneg _)
  · exact Int.le_of_eq (roundHalfEven_zero divisor)

/-- R66: each headroom shift divides by its own power of two. -/
theorem headroomDivisor_of_shift {h : Int} {k : Nat}
    (shift : (h = -1 ∧ k = 13) ∨ (h = 0 ∧ k = 14) ∨ (h = 1 ∧ k = 15) ∨ (h = 2 ∧ k = 16)) :
    headroomDivisor h = 2 ^ k := by
  rw [headroomDivisor]
  congr 1
  omega

/-- Settles O28: the magnitude by the remainder, the sign by that of the accumulator. -/
theorem convergentRounding : Obligations.ConvergentRounding := by
  refine ⟨fun _ => rfl, fun acc h k shift quotient remainder division small => ⟨?_, ?_, ?_⟩⟩
  · have even : 2 ∣ 2 ^ k := dvd_pow_self 2 (by omega)
    rw [scaled, headroomDivisor_of_shift shift, roundHalfEven_natAbs,
      roundMagnitude_of_even_division division small even]
  · exact fun sign => roundHalfEven_nonneg sign _
  · exact fun sign => roundHalfEven_nonpos sign _

/-! ### The size of an accumulator (R65) -/

/-- R62: an input takes 0 or a sample of the frame, so 24 bits suffice for it too. -/
theorem natAbs_sampleIn_le {d : Delivered}
    (samples : ∀ (c : Fin 64) (x : Int), d[c] = some x → -8388608 ≤ x ∧ x ≤ 8388607) (r : InputRec) :
    (sampleIn d r).natAbs ≤ 8388608 := by
  unfold sampleIn
  split
  · decide
  · rename_i c _
    cases carried : d[c] with
    | none => decide
    | some x =>
      obtain ⟨low, high⟩ := samples c x carried
      simp only [Option.getD_some]
      omega

/-- R64: the sign of an inverted input leaves the magnitude of its product. -/
theorem natAbs_signed_product (inverted : Bool) (sample : Int) (live : Nat) :
    ((if inverted = true then -1 else 1) * sample * (live : Int)).natAbs = sample.natAbs * live := by
  cases inverted <;> simp [Int.natAbs_mul]

/-- Settles O29: 64 products, each of a sample within 2^23 and a coefficient within 65,535. -/
theorem accumulatorBound : Obligations.AccumulatorBound := by
  intro d inputs live samples coefs
  have bound := natAbs_sum_le
    (fun i => (if (inputs[i]).inverted = true then -1 else 1) * sampleIn d inputs[i] * (live i : Int))
    (8388608 * 65535)
    (fun i => by
      rw [natAbs_signed_product]
      exact Nat.mul_le_mul (natAbs_sampleIn_le samples _) (coefs i))
    (List.finRange 64)
  rw [List.length_finRange] at bound
  exact Nat.lt_of_le_of_lt bound (by decide)

/-! ### One mix at a frame instant (R66 to R72, R80 to R83) -/

/-- R81: the gain in force, by the peak. -/
theorem gainInForce_eq (left right : Int) (gain ceiling : Nat) : gainInForce left right gain ceiling =
    if ceiling < peakOf (applyGain left gain) (applyGain right gain) then ceiling * 16384 / peakOf left right
    else gain := by
  simp only [gainInForce, guardEngages, engagedGain, decide_eq_true_eq]

/-- R81, R83: the gain held is that of the engagement, or else the released one. -/
theorem gainHeld_eq (left right : Int) (gain : Nat) (r : MixRec) : gainHeld left right gain r =
    if r.ceiling < peakOf (applyGain left gain) (applyGain right gain) then
      gainInForce left right gain r.ceiling
    else min 16384 (gain + r.release) := by
  simp only [gainHeld, gainInForce, guardEngages, releasedGain, decide_eq_true_eq]
  split <;> rfl

/-- R61, R64: a mix after a frame instant, from the frame delivered at it and the records and live coefficients of
before. -/
theorem Engine.Selected.run {before e : Engine} {atTest : Link → Bool} {aLocked : Bool} {events : List Event}
    (h : Engine.Selected before e atTest aLocked events) (m : Fin 24) :
    (e.computeMixes.1.moveRamps).runs[m] = (before.runs[m]).instant (before.tables.mixes[m]).record
      (mixSum e.selector.delivered before.tables.inputs fun i => ((before.coefs[m])[i]).left.live)
      (mixSum e.selector.delivered before.tables.inputs fun i => ((before.coefs[m])[i]).right.live) := by
  obtain ⟨-, tables, -, -, coefs, runs, -, -, -, -, -⟩ := h.kept
  rw [Engine.computeMixes_run, Engine.sumLeft_eq, Engine.sumRight_eq, tables, coefs, runs]

/-- R71, R78: the input meters after a frame instant. -/
theorem Engine.Selected.meter {before e : Engine} {atTest : Link → Bool} {aLocked : Bool} {events : List Event}
    (h : Engine.Selected before e atTest aLocked events) (rises : before.metersRest = false) (i : Fin 64) :
    (e.computeMixes.1.moveRamps).inputMeters[i] =
      max before.inputMeters[i] (sampleIn e.selector.delivered before.tables.inputs[i]).natAbs := by
  obtain ⟨-, tables, -, -, -, -, meters, rest, -, -, -⟩ := h.kept
  rw [Engine.computeMixes_meter e (rest.trans rises), Engine.sample_eq, tables, meters]

theorem Engine.Selected.meters_rest {before e : Engine} {atTest : Link → Bool} {aLocked : Bool} {events : List Event}
    (h : Engine.Selected before e atTest aLocked events) (rests : before.metersRest = true) :
    (e.computeMixes.1.moveRamps).inputMeters = before.inputMeters := by
  obtain ⟨-, -, -, -, -, -, meters, rest, -, -, -⟩ := h.kept
  rw [Engine.computeMixes_meters, Engine.metered, if_pos (rest.trans rests), meters]

/-- Settles O26: each field of a mix after the instant is the rule of its own paragraph. -/
theorem instantComputesMixes : Obligations.InstantComputesMixes := by
  intro s on
  obtain ⟨e, atTest, aLocked, events, t, selected, next, engine, -⟩ := exec_frameInstant on
  have delivered : t.engine.selector.delivered = e.selector.delivered := by
    rw [engine, Engine.computeMixes_selector]
  refine ⟨t, next, fun rises i => ?_, fun rests => ?_, ?_, ?_⟩
  · rw [delivered, engine]
    exact selected.meter rises i
  · rw [engine]
    exact selected.meters_rest rests
  · rw [engine, Engine.computeMixes_rest]
  · intro m x y r vL vR l f peak gain hx hy hr hvL hvR hl hf hpeak hgain
    rw [engine, selected.run m, ← hx, ← hr] at hy
    rw [delivered] at hvL hvR
    rw [← limit24_eq] at hl hf
    have inForce : gain = gainInForce l f x.gain r.ceiling := by
      rw [gainInForce_eq, hgain, hpeak]
      rfl
    subst hy hvL hvR hl hf hpeak inForce
    refine ⟨rfl, ?_, rfl, gainHeld_eq _ _ _ _, rfl, rfl, rfl, rfl⟩
    rw [← isClipped_eq, ← isClipped_eq]
    rfl

/-! ### READ METERS, CLEAR LATCHES and READ LATCHES (R73, R74, R76) -/

/-- R73: what READ METERS does with a clear value of 0. -/
theorem effectReadMeters_kept {q : Payload} (keep : Payload.u8 q 0 = 0) (e : Engine) :
    effectReadMeters q e = Effect.read e e.meterBytes := by
  simp only [effectReadMeters, keep, Effect.read, yes_eq, outsideYesNo]
  rfl

theorem Engine.clearMeters_eq (e : Engine) : e.clearMeters =
    { e with
      inputMeters := Vector.replicate 64 0
      runs := e.runs.map fun x => { x with meterLeft := 0, meterRight := 0 } } := by
  have runs : (Vector.ofFn fun m => { e.runs[m] with meterLeft := 0, meterRight := 0 }) =
      e.runs.map fun x => { x with meterLeft := 0, meterRight := 0 } := Vector.ext fun k _ => by simp
  rw [Engine.clearMeters, runs]

/-- R169: no level reads a meter. -/
theorem Engine.rises_clearMeters (e : Engine) (p : Port) : rises e e.clearMeters p = [] :=
  rises_same (by simp only [Engine.clearMeters, and_self]) p

/-- R73: what READ METERS does with any other clear value. -/
theorem effectReadMeters_cleared {q : Payload} (clear : 1 ≤ Payload.u8 q 0) (e : Engine) :
    effectReadMeters q e =
      { engine := e.clearMeters, status := .ok, clamped := decide (1 < Payload.u8 q 0), data := e.meterBytes
        events := [] } := by
  simp only [effectReadMeters, yes_eq, clear, decide_true, if_true, outsideYesNo]

/-- Settles O31, request by request: no level reads a meter or a latch, so nothing rises. -/
theorem meterAndLatchRequests : Obligations.MeterAndLatchRequests := by
  rintro s p q idle _ rfl
  refine ⟨fun keep => ?_, fun clear => ?_, ?_, ?_⟩
  · exact exec_effect .readMeters rfl idle rfl (class_open rfl) (fun _ => rfl) (effectReadMeters_kept keep s.engine)
      (rises_self s.engine)
  · rw [← Engine.clearMeters_eq]
    exact exec_effect .readMeters rfl idle rfl (class_open rfl) (fun _ => rfl) (effectReadMeters_cleared clear s.engine)
      s.engine.rises_clearMeters
  · refine ⟨_, exec_effect .clearLatches rfl idle rfl (class_open rfl) (fun _ => rfl) rfl
      (rises_same ⟨rfl, rfl, rfl, rfl, rfl, rfl⟩), fun m => ?_⟩
    rw [Fin.getElem_fin, Vector.getElem_ofFn]
    rfl
  · exact ⟨_, _, _, exec_effect .readLatches rfl idle rfl (class_open rfl) (fun _ => rfl) rfl (rises_self s.engine),
      fun m => ⟨MixSet.has_ofTest _ m, MixSet.has_ofTest _ m, MixSet.has_ofTest _ m⟩⟩

end Sys2Proof.Machine

/-! The ceiling of the ear guard (chapter 5): the outputs of a mix stay within its ceiling, and an engagement lowers the
gain. -/
namespace Sys2Proof.Machine

/-! ### The outputs and the gain of one mix (R80, R81) -/

/-- R81: after an engagement the engaged gain bounds each side; without one the peak was within the ceiling. -/
theorem natAbs_applyGain_gainInForce_le {v left right : Int} (side : v = left ∨ v = right) (gain ceiling : Nat) :
    (applyGain v (gainInForce left right gain ceiling)).natAbs ≤ ceiling := by
  rw [gainInForce_eq]
  split
  case isTrue engaged =>
    have larger : v.natAbs ≤ peakOf left right := by
      rcases side with rfl | rfl
      · exact Nat.le_max_left _ _
      · exact Nat.le_max_right _ _
    exact natAbs_le_ceiling left right ceiling v larger
  case isFalse released =>
    have peak : peakOf (applyGain left gain) (applyGain right gain) ≤ ceiling := Nat.le_of_not_lt released
    rcases side with rfl | rfl
    · exact (Nat.le_max_left _ _).trans peak
    · exact (Nat.le_max_right _ _).trans peak

/-- R81: an engagement leaves a gain below the one it replaces. -/
theorem gainHeld_lt_of_engages {left right : Int} {gain : Nat} {r : MixRec}
    (engages : guardEngages left right gain r.ceiling = true) : gainHeld left right gain r < gain := by
  rw [gainHeld, if_pos engages]
  exact gain_lt_of_over left right gain r.ceiling (of_decide_eq_true engages)

theorem MixRun.instant_outputs_le (x : MixRun) (r : MixRec) (sumLeft sumRight : Int) :
    (x.instant r sumLeft sumRight).outLeft.natAbs ≤ r.ceiling ∧
      (x.instant r sumLeft sumRight).outRight.natAbs ≤ r.ceiling :=
  ⟨natAbs_applyGain_gainInForce_le (.inl rfl) _ _, natAbs_applyGain_gainInForce_le (.inr rfl) _ _⟩

/-- R79: the range of the guard gain is kept. -/
theorem MixRun.instant_gain_le {x : MixRun} (unity : x.gain ≤ 16384) (r : MixRec) (sumLeft sumRight : Int) :
    (x.instant r sumLeft sumRight).gain ≤ 16384 :=
  gainHeld_le _ _ _ _ unity

/-- R81: an engagement lowers the gain and sets the guard latch, whether or not it was set before. -/
theorem MixRun.instant_of_engages {x : MixRun} {r : MixRec} {sumLeft sumRight : Int}
    (engages : guardEngages (limit24 (scaled sumLeft r.shift)) (limit24 (scaled sumRight r.shift)) x.gain r.ceiling =
      true) :
    (x.instant r sumLeft sumRight).gain < x.gain ∧ (x.instant r sumLeft sumRight).guard = true :=
  ⟨gainHeld_lt_of_engages engages, by simp only [MixRun.instant, engages, Bool.or_true]⟩

/-! ### Every mix at a frame instant -/

/-- Settles O30: each mix after the instant is `MixRun.instant` of its run before it. -/
theorem outputsWithinCeiling : Obligations.OutputsWithinCeiling := by
  intro s on
  obtain ⟨e, atTest, aLocked, events, t, selected, next, engine, -⟩ := exec_frameInstant on
  have delivered : t.engine.selector.delivered = e.selector.delivered := by
    rw [engine, Engine.computeMixes_selector]
  refine ⟨t, next, ?_⟩
  rintro m _ rfl
  rw [delivered, engine, selected.run m]
  obtain ⟨outLeft, outRight⟩ := MixRun.instant_outputs_le (s.engine.runs[m]) (s.engine.tables.mixes[m]).record
    (mixSum e.selector.delivered s.engine.tables.inputs fun i => ((s.engine.coefs[m])[i]).left.live)
    (mixSum e.selector.delivered s.engine.tables.inputs fun i => ((s.engine.coefs[m])[i]).right.live)
  refine ⟨outLeft, outRight, fun unity => MixRun.instant_gain_le unity _ _ _, ?_⟩
  rintro _ _ l f rfl rfl hl hf exceeds
  rw [← limit24_eq] at hl hf
  subst hl hf
  exact MixRun.instant_of_engages (decide_eq_true exceeds)

end Sys2Proof.Machine

/-! The requests and the timed ends of the operations of the library: STORE SCENE, ERASE SCENE, RECALL SCENE and ABORT
RECALL (R94, R95, R100 to R102, R107, R109). -/
namespace Sys2Proof.Machine

/-! ### Storing and erasing a slot (R100, R101, R109) -/

theorem effectStoreScene_badIndex {q : Payload} (h : Payload.u8 q 0 = 0 ∨ 32 < Payload.u8 q 0) (e : Engine) :
    effectStoreScene q e = Effect.refuse e .badIndex := by
  simp only [effectStoreScene, ordinal_none h]

theorem effectEraseScene_badIndex {q : Payload} (h : Payload.u8 q 0 = 0 ∨ 32 < Payload.u8 q 0) (e : Engine) :
    effectEraseScene q e = Effect.refuse e .badIndex := by
  simp only [effectEraseScene, ordinal_none h]

/-- R100: the checks left once the slot is named, in their order, and the operation that begins. -/
theorem effectStoreScene_named {q : Payload} {k : Fin 32} (slot : Payload.u8 q 0 = k.val + 1) (e : Engine) :
    effectStoreScene q e =
      if e.library.busy = true then Effect.refuse e .libraryBusy
      else if (e.library.slots[k]).protect = true then Effect.refuse e .slotProtected
      else Effect.startedWith (e.beginOperation (.store k (storedName q) e.tables) .store k) := by
  simp only [effectStoreScene, ordinal_some slot]

/-- R109: the checks left once the slot is named, in their order, and the operation that begins. -/
theorem effectEraseScene_named {q : Payload} {k : Fin 32} (slot : Payload.u8 q 0 = k.val + 1) (e : Engine) :
    effectEraseScene q e =
      if e.library.busy = true then Effect.refuse e .libraryBusy
      else if (e.library.slots[k]).protect = true then Effect.refuse e .slotProtected
      else Effect.startedWith (e.beginOperation (.erase k) .erase k) := by
  simp only [effectEraseScene, ordinal_some slot]

/-- R101: the slot takes the staging copy, and its protect flag is kept. -/
theorem Engine.storeWriteEnd_storing {e : Engine} {k : Fin 32} {name : SceneName} {contents : Tables}
    (storing : e.library.operation = .store k name contents) :
    e.storeWriteEnd =
      ({ e with
         library := { e.library with
           slots := e.library.slots.set k ⟨.valid, (e.library.slots[k]).protect, .written name contents⟩
           operation := .idle, result := { e.library.result with outcome := .done } } }, [.opDone]) := by
  simp only [Engine.storeWriteEnd, storing]
  rfl

/-- R109: the slot returns to the erased pattern, and its protect flag is kept. -/
theorem Engine.eraseEnd_erasing {e : Engine} {k : Fin 32} (erasing : e.library.operation = .erase k) :
    e.eraseEnd =
      ({ e with
         library := { e.library with
           slots := e.library.slots.set k ⟨.empty, (e.library.slots[k]).protect, .erased⟩
           operation := .idle, result := { e.library.result with outcome := .done } } }, [.opDone]) := by
  simp only [Engine.eraseEnd, erasing]
  rfl

/-- Settles O41, by the checks in their order; the ends are those of the operation in progress. -/
theorem storeAndErase : Obligations.StoreAndErase := by
  refine ⟨?_, ?_⟩
  · rintro s p q _ idle charge rfl
    have storeReplied {st} (effect : effectStoreScene q s.engine = Effect.refuse s.engine st) :
        exec (.storeScene p q) s = .next (s.replied p ⟨0x40, q⟩ s.engine st false []) :=
      exec_effect .storeScene rfl idle rfl (class_charge rfl charge) (fun _ => rfl) effect (rises_self _)
    have eraseReplied {st} (effect : effectEraseScene q s.engine = Effect.refuse s.engine st) :
        exec (.eraseScene p q) s = .next (s.replied p ⟨0x43, q⟩ s.engine st false []) :=
      exec_effect .eraseScene rfl idle rfl (class_charge rfl charge) (fun _ => rfl) effect (rises_self _)
    refine ⟨fun outside => ⟨storeReplied (effectStoreScene_badIndex outside _),
      eraseReplied (effectEraseScene_badIndex outside _)⟩, fun k slot => ?_⟩
    have store := effectStoreScene_named slot s.engine
    have erase := effectEraseScene_named slot s.engine
    refine ⟨fun busy => ?_, fun free guarded => ?_, fun free unprotected => ?_⟩
    · rw [if_pos (Library.busy_of_operation busy)] at store erase
      exact ⟨storeReplied store, eraseReplied erase⟩
    · rw [Library.busy_of_idle free, if_neg Bool.false_ne_true, if_pos guarded] at store erase
      exact ⟨storeReplied store, eraseReplied erase⟩
    · rw [Library.busy_of_idle free, if_neg Bool.false_ne_true, unprotected, if_neg Bool.false_ne_true] at store erase
      exact ⟨exec_effect_events .storeScene rfl idle rfl (class_charge rfl charge) (fun _ => rfl) store,
        exec_effect_events .eraseScene rfl idle rfl (class_charge rfl charge) (fun _ => rfl) erase⟩
  · rintro s k _ on rfl
    exact ⟨fun _ _ storing => State.act_raises_of on (Engine.storeWriteEnd_storing storing),
      fun erasing => State.act_raises_of on (Engine.eraseEnd_erasing erasing)⟩

/-! ### Recalling a slot, and giving a recall up (R102, R107) -/

theorem effectRecallScene_badIndex {q : Payload} (h : Payload.u8 q 0 = 0 ∨ 32 < Payload.u8 q 0) (e : Engine) :
    effectRecallScene q e = Effect.refuse e .badIndex := by
  simp only [effectRecallScene, ordinal_none h]

section
variable {q : Payload} {k : Fin 32} {e : Engine} (slot : Payload.u8 q 0 = k.val + 1)
include slot

theorem effectRecallScene_busy (busy : e.library.operation ≠ .idle) :
    effectRecallScene q e = Effect.refuse e .libraryBusy := by
  simp only [effectRecallScene, ordinal_some slot, Library.busy_of_operation busy, if_true]

theorem effectRecallScene_empty (idle : e.library.operation = .idle) (state : (e.library.slots[k]).state = .empty) :
    effectRecallScene q e = Effect.refuse e .slotEmpty := by
  simp only [effectRecallScene, ordinal_some slot, Library.busy_of_idle idle, Bool.false_eq_true, if_false, state]

theorem effectRecallScene_damaged (idle : e.library.operation = .idle)
    (state : (e.library.slots[k]).state = .damaged) : effectRecallScene q e = Effect.refuse e .slotDamaged := by
  simp only [effectRecallScene, ordinal_some slot, Library.busy_of_idle idle, Bool.false_eq_true, if_false, state]

/-- R102: a VALID slot is read first; nothing is awaiting recall yet. -/
theorem effectRecallScene_valid (idle : e.library.operation = .idle) (state : (e.library.slots[k]).state = .valid) :
    effectRecallScene q e = Effect.startedWith
      (e.beginOperation
        (.recall { startLoad := false, slot := k, mixes := Payload.mixSet q 1, classes := Payload.classes q 4,
                   phase := .verify })
        .recall k) := by
  simp only [effectRecallScene, ordinal_some slot, Library.busy_of_idle idle, Bool.false_eq_true, if_false, state]

end

theorem effectAbortRecall_none {e : Engine} (h : ∀ j, e.library.operation ≠ .recall j) :
    effectAbortRecall e = Effect.refuse e .notRecalling := by
  unfold effectAbortRecall
  split
  next j recalling => exact absurd recalling (h j)
  next => rfl

/-- R107: a recall in its verify phase ends at once. -/
theorem effectAbortRecall_verify {e : Engine} {j : RecallJob} (recalling : e.library.operation = .recall j)
    (verify : j.phase = .verify) :
    effectAbortRecall e =
      { engine := { e with
          library := { e.library with operation := .idle, result := { e.library.result with outcome := .aborted } } }
        status := .ok, clamped := false, data := [], events := [.opDone] } := by
  simp only [effectAbortRecall, recalling, verify, Engine.endOperation]

/-- R107: a recall in its load phase is marked, and goes on to the write of its next item. -/
theorem effectAbortRecall_load {e : Engine} {j : RecallJob} {awaiting : MixSet} {inputs aborting : Bool}
    (recalling : e.library.operation = .recall j) (load : j.phase = .load awaiting inputs aborting) :
    effectAbortRecall e = Effect.accept
      { e with
        library := { e.library with operation := .recall { j with phase := .load awaiting inputs true } } } false := by
  simp only [effectAbortRecall, recalling, load]

/-- R18, R169: nothing rises while an operation goes on. -/
theorem rises_of_working {e : Engine} {l : Library} (before : e.library.operation ≠ .idle)
    (after : l.operation ≠ .idle) (p : Port) : rises e { e with library := l } p = [] :=
  rises_of_library e l (by rw [Library.busy_of_operation before, Library.busy_of_operation after]) p

/-- Settles O42, by the checks in their order, and by the phase of the recall that is given up. -/
theorem recallAndAbort : Obligations.RecallAndAbort := by
  rintro s p q _ idle charge rfl
  have recallRefused {st} (effect : effectRecallScene q s.engine = Effect.refuse s.engine st) :
      exec (.recallScene p q) s = .next (s.replied p ⟨0x41, q⟩ s.engine st false []) :=
    exec_effect .recallScene rfl idle rfl (class_charge rfl charge) (fun _ => rfl) effect (rises_self _)
  have abortReplied {e st} (effect : effectAbortRecall s.engine = ⟨e, st, false, [], []⟩)
      (rise : ∀ p', rises s.engine e p' = []) :
      exec (.abortRecall p q) s = .next (s.replied p ⟨0x42, q⟩ e st false []) :=
    exec_effect .abortRecall rfl idle rfl (class_charge rfl charge) (fun _ => rfl) effect rise
  refine ⟨fun outside => recallRefused (effectRecallScene_badIndex outside _), fun k slot => ⟨fun busy => ?_,
    fun free => ⟨fun empty => ?_, fun damaged => ?_, fun valid => ?_⟩⟩, fun notRecalling => ?_,
    fun j recalling => ⟨fun verify => ?_, fun awaiting inputs aborting load => ?_⟩⟩
  · exact recallRefused (effectRecallScene_busy slot busy)
  · exact recallRefused (effectRecallScene_empty slot free empty)
  · exact recallRefused (effectRecallScene_damaged slot free damaged)
  · exact exec_effect_events .recallScene rfl idle rfl (class_charge rfl charge) (fun _ => rfl)
      (effectRecallScene_valid slot free valid)
  · exact abortReplied (effectAbortRecall_none notRecalling) (rises_self _)
  · exact exec_effect_events .abortRecall rfl idle rfl (class_charge rfl charge) (fun _ => rfl)
      (effectAbortRecall_verify recalling verify)
  · exact abortReplied (effectAbortRecall_load recalling load) (rises_of_working (by simp [recalling]) nofun)

end Sys2Proof.Machine

/-! Verify-all and the look at the start scene (R96 to R98). -/
namespace Sys2Proof.Machine

/-! ### The reading of one slot (R97) -/

theorem SceneSlot.degrade_protect (x : SceneSlot) (degraded : Option SceneName) :
    (x.degrade degraded).protect = x.protect := by
  cases degraded <;> rfl

/-- R97: what a slot holds gives its state. -/
theorem SlotImage.finding_eq {image : SlotImage} {state : SlotState} (empty : image = .erased → state = .empty)
    (valid : ∀ name contents, image = .written name contents → state = .valid)
    (damaged : ∀ name, image = .broken name → state = .damaged) : image.finding = state := by
  cases image with
  | erased => exact (empty rfl).symm
  | written name contents => exact (valid name contents rfl).symm
  | broken name => exact (damaged name rfl).symm

/-- R97: a slot that is read, and is not the last, gives way to the next. -/
theorem Engine.verifySlotDone_next {e : Engine} {k next : Fin 32} (verifying : e.library.operation = .verifyAll k)
    (follows : next.val = k.val + 1) (degraded : Option SceneName) :
    e.verifySlotDone degraded =
      ({ e with
         library := { e.library with
           slots := e.library.slots.set k ((e.library.slots[k]).degrade degraded).verify
           operation := .verifyAll next } }, []) := by
  have more : k.val + 1 < 32 := by omega
  have named : (⟨k.val + 1, more⟩ : Fin 32) = next := Fin.ext follows.symm
  simp only [Engine.verifySlotDone, verifying, dif_pos more, named]
  rfl

/-- R98: after the last slot the library looks at the start scene. -/
theorem Engine.verifySlotDone_last {e : Engine} {k : Fin 32} (verifying : e.library.operation = .verifyAll k)
    (last : k.val = 31) (degraded : Option SceneName) :
    e.verifySlotDone degraded =
      Engine.lookAtStartScene
        { e with
          library := { e.library with
            slots := e.library.slots.set k ((e.library.slots[k]).degrade degraded).verify } } := by
  have noMore : ¬ k.val + 1 < 32 := by omega
  simp only [Engine.verifySlotDone, verifying, dif_neg noMore]
  rfl

/-! ### The start scene (R98) -/

theorem Engine.lookAtStartScene_none {e : Engine} (start : e.library.startScene = none) :
    e.lookAtStartScene = ({ e with library := { e.library with operation := .idle } }, [.opDone]) := by
  simp only [Engine.lookAtStartScene, start]

/-- R98: the load phase begins at once, with all mixes and the input section awaiting recall. -/
theorem Engine.lookAtStartScene_valid {e : Engine} {k : Fin 32} (start : e.library.startScene = some k)
    (valid : (e.library.slots[k]).state = .valid) :
    e.lookAtStartScene =
      ({ e with
         library := { e.library with
           operation := .recall
             { startLoad := true, slot := k, mixes := MixSet.all, classes := ⟨true, true, true, true, true⟩
               phase := .load MixSet.all true false }
           result := ⟨.startLoad, some k, .inProgress, 0⟩ } }, []) := by
  simp only [Engine.lookAtStartScene, start, if_pos valid, Engine.beginOperation]
  refine Engine.beginLoad_some ?_ _
  exact .inr rfl

/-- R98: a start scene that is not VALID is passed over. -/
theorem Engine.lookAtStartScene_invalid {e : Engine} {k : Fin 32} (start : e.library.startScene = some k)
    (invalid : (e.library.slots[k]).state ≠ .valid) :
    e.lookAtStartScene =
      ({ e with library := { e.library with operation := .idle, result := ⟨.startLoad, some k, .skipped, 0⟩ } },
        [.opDone]) := by
  simp only [Engine.lookAtStartScene, start, if_neg invalid, Engine.beginOperation, Engine.endOperation]

/-- Settles O45, by whether the slot is the last, and by the state of the start scene. -/
theorem verifyAllAndStartScene : Obligations.VerifyAllAndStartScene := by
  rintro s k degraded _ _ y _ on settled rfl verifying rfl rfl protect image empty valid damaged
  have slot : y = ((s.engine.library.slots[k]).degrade degraded).verify := by
    have held : y.image = ((s.engine.library.slots[k]).degrade degraded).image := by
      cases degraded <;> exact image
    refine SceneSlot.ext_fields ?_ (protect.trans (SceneSlot.degrade_protect _ degraded).symm) held
    rw [SceneSlot.verify, ← held]
    exact (SlotImage.finding_eq empty valid damaged).symm
  have busy : s.engine.library.operation ≠ .idle := by simp [verifying]
  refine ⟨fun next follows => ?_, fun last => ?_⟩
  · have step := Engine.verifySlotDone_next verifying follows degraded
    rw [← slot] at step
    exact State.act_silent on settled step (rises_of_working busy nofun)
  · have step := Engine.verifySlotDone_last verifying last degraded
    rw [← slot] at step
    refine ⟨fun start => ?_, fun first start => ⟨fun readable => ?_, fun unreadable => ?_⟩⟩
    · exact State.act_raises_of on (step.trans (Engine.lookAtStartScene_none start))
    · exact State.act_silent on settled (step.trans (Engine.lookAtStartScene_valid start readable))
        (rises_of_working busy nofun)
    · exact State.act_raises_of on (step.trans (Engine.lookAtStartScene_invalid start unreadable))

end Sys2Proof.Machine

/-! PROTECT SCENE, SET START SCENE, READ DIRECTORY and READ RESULT (R110 to R113). -/
namespace Sys2Proof.Machine

theorem class_home {n : RequestName} {p : Port} {charge : Port} (h : n.cls = .home) (hp : p = .home) :
    classRefusal n.cls p charge = none := by rw [h]; simp [classRefusal, hp]

/-! ### The settings of the home port (R110, R111) -/

theorem effectProtectScene_badIndex {q : Payload} (h : Payload.u8 q 0 = 0 ∨ 32 < Payload.u8 q 0) (e : Engine) :
    effectProtectScene q e = Effect.refuse e .badIndex := by
  simp only [effectProtectScene, ordinal_none h]

theorem effectProtectScene_named {q : Payload} {k : Fin 32} (slot : Payload.u8 q 0 = k.val + 1) (e : Engine) :
    effectProtectScene q e = Effect.accept
      { e with
        library := { e.library with
          slots := e.library.slots.set k { e.library.slots[k] with protect := decide (Payload.u8 q 1 ≠ 0) } } }
      (decide (1 < Payload.u8 q 1)) := by
  simp only [effectProtectScene, ordinal_some slot]
  rfl

theorem effectSetStartScene_badIndex {q : Payload} (h : 32 < Payload.u8 q 0) (e : Engine) :
    effectSetStartScene q e = Effect.refuse e .badIndex := by
  simp only [effectSetStartScene, ordinalOrNone_none h]

theorem effectSetStartScene_named {q : Payload} {start : Option (Fin 32)} (named : Payload.u8 q 0 = numberFor start)
    (e : Engine) :
    effectSetStartScene q e = Effect.accept { e with library := { e.library with startScene := start } } false := by
  simp only [effectSetStartScene, ordinalOrNone_some named]

/-! ### The directory and the result record (R112, R113) -/

theorem effectReadDirectory_badIndex {q : Payload} (h : 3 < Payload.u8 q 0) (e : Engine) :
    effectReadDirectory q e = Effect.refuse e .badIndex := by
  rw [effectReadDirectory, dif_neg (by omega)]

/-- R112: page p holds the slots whose index divided by 8 is p. -/
theorem effectReadDirectory_page {q : Payload} {page : Fin 4} (h : Payload.u8 q 0 = page.val) (e : Engine) :
    effectReadDirectory q e = Effect.read e
      (((List.finRange 32).filter fun k => decide (k.val / 8 = page.val)).flatMap
          (fun k => SceneSlot.bytes e.library.slots[k]) ++
        [byteOf (numberFor e.library.startScene)]) := by
  rw [effectReadDirectory, dif_pos (by omega), page_eq, ordinalByte_eq]
  simp only [h]
  rfl

theorem SceneSlot.shownName_written {x : SceneSlot} {name : SceneName} {contents : Tables}
    (image : x.image = .written name contents) : x.shownName = name := by
  simp only [SceneSlot.shownName, image]

theorem SceneSlot.shownName_broken {x : SceneSlot} {name : SceneName} (image : x.image = .broken name) :
    x.shownName = name := by
  simp only [SceneSlot.shownName, image]

/-- R112: the name of a slot that verification found EMPTY. -/
theorem SceneSlot.shownName_erased {x : SceneSlot} (image : x.image = .erased) (checked : x.state ≠ .unchecked) :
    x.shownName = blankName := by
  simp only [SceneSlot.shownName, image, if_neg checked]

/-- Settles O46, request by request. -/
theorem slotSettingsAndReads : Obligations.SlotSettingsAndReads := by
  rintro s p q _ idle rfl
  refine ⟨fun home => ?_, fun outside => ?_, fun page code named unchecked empty valid damaged => ?_,
    fun op outcome noOp storing recalling erasing loading inProgress done aborted failed skipped => ?_⟩
  · have protectReplied {e st cl} (effect : effectProtectScene q s.engine = ⟨e, st, cl, [], []⟩)
        (rise : ∀ p', rises s.engine e p' = []) :
        exec (.protectScene p q) s = .next (s.replied p ⟨0x44, q⟩ e st cl []) :=
      exec_effect .protectScene rfl idle rfl (class_home rfl home) (fun _ => rfl) effect rise
    have startReplied {e st cl} (effect : effectSetStartScene q s.engine = ⟨e, st, cl, [], []⟩)
        (rise : ∀ p', rises s.engine e p' = []) :
        exec (.setStartScene p q) s = .next (s.replied p ⟨0x45, q⟩ e st cl []) :=
      exec_effect .setStartScene rfl idle rfl (class_home rfl home) (fun _ => rfl) effect rise
    refine ⟨fun outside => ?_, fun k slot => ?_, fun outside => ?_, fun start named => ?_⟩
    · exact protectReplied (effectProtectScene_badIndex outside _) (rises_self _)
    · exact protectReplied (effectProtectScene_named slot _) (rises_of_library _ _ rfl)
    · exact startReplied (effectSetStartScene_badIndex outside _) (rises_self _)
    · exact startReplied (effectSetStartScene_named named _) (rises_of_library _ _ rfl)
  · exact exec_effect .readDirectory rfl idle rfl (class_open rfl) (fun _ => rfl)
      (effectReadDirectory_badIndex outside _) (rises_self _)
  · obtain rfl : code = SlotState.code := funext fun state => by cases state <;> assumption
    refine ⟨fun k => (s.engine.library.slots[k]).shownName, fun _ _ _ => SceneSlot.shownName_written,
      fun _ _ => SceneSlot.shownName_broken, fun _ => SceneSlot.shownName_erased, ?_⟩
    exact exec_effect .readDirectory rfl idle rfl (class_open rfl) (fun _ => rfl)
      (effectReadDirectory_page named _) (rises_self _)
  · obtain rfl : op = ResultOp.code := funext fun o => by cases o <;> assumption
    obtain rfl : outcome = ResultOutcome.code := funext fun o => by cases o <;> assumption
    rw [← ordinalByte_eq]
    exact exec_effect .readResult rfl idle rfl (class_open rfl) (fun _ => rfl) rfl (rises_self _)

end Sys2Proof.Machine

/-! What every command keeps of the pack bus (R117, R119, R120, R126, R142, R144, R147): one slot at a time, then the
bus, and the commands of the other blocks by what they leave alone. -/
namespace Sys2Proof.Machine

/-! ### One slot -/

theorem PackSlot.Lawful.poll {x : PackSlot} (h : x.Lawful) (alive : Bool) : (x.poll alive).Lawful := by
  obtain ⟨present, absent, ⟨bound, online⟩, held⟩ := h
  unfold PackSlot.poll
  split
  next state =>
    split
    · exact ⟨present, absent, ⟨Nat.zero_le _, fun _ => Nat.zero_le _⟩, held⟩
    · split
      · exact ⟨fun _ => present (.inl state), nofun, ⟨Nat.le_refl _, nofun⟩, fun none => absurd rfl none⟩
      next few => exact ⟨present, absent, ⟨by dsimp only; omega, fun _ => by dsimp only; omega⟩, held⟩
  · exact ⟨present, absent, ⟨bound, online⟩, held⟩

theorem PackSlot.poll_identity (x : PackSlot) (alive : Bool) : (x.poll alive).identity = x.identity := by
  unfold PackSlot.poll PackSlot.lose
  split
  · split
    · rfl
    · split <;> rfl
  · rfl

theorem PackSlot.Lawful.garble {x : PackSlot} (h : x.Lawful) : x.garble.Lawful := by
  obtain ⟨_, _, ⟨bound, _⟩, _⟩ := id h
  unfold PackSlot.garble
  split
  · exact h
  · exact ⟨fun state => state.elim nofun nofun, nofun, ⟨bound, nofun⟩, fun none => absurd rfl none⟩

theorem PackSlot.garble_identity (x : PackSlot) : x.garble.identity = x.identity := by
  unfold PackSlot.garble
  split <;> rfl

theorem PackSlot.attach_lawful (x : PackSlot) (id : PackIdentity) : (x.attach id).Lawful :=
  ⟨fun _ => Option.some_ne_none id, nofun, ⟨Nat.zero_le _, fun _ => Nat.zero_le _⟩, fun _ => rfl⟩

/-- R130: an assignment ends the held-key record of its slot. -/
theorem PackSlot.Lawful.unheld {x : PackSlot} (h : x.Lawful) (assigned : Option (Fin 24)) (target : Fin 9) :
    PackSlot.Lawful { x with assigned := assigned, target := target, held := none } := by
  obtain ⟨present, absent, misses, _⟩ := h
  exact ⟨present, absent, misses, fun none => absurd rfl none⟩

theorem PackSlot.Lawful.rewelcome {x : PackSlot} (h : x.Lawful) : x.rewelcome.Lawful := by
  obtain ⟨present, absent, _, _⟩ := h
  exact ⟨present, absent, ⟨Nat.zero_le _, fun _ => Nat.zero_le _⟩, fun none => absurd rfl none⟩

/-- R142: a held-key record stands on an ONLINE slot. -/
theorem PackSlot.Lawful.withHeld {x : PackSlot} (h : x.Lawful) (online : x.state = .online) (key : Option HeldKey) :
    PackSlot.Lawful { x with held := key } := by
  obtain ⟨present, absent, misses, _⟩ := h
  exact ⟨present, absent, misses, fun _ => online⟩

theorem PackSlot.Lawful.warmReset {x : PackSlot} (h : x.Lawful) : x.warmReset.Lawful := by
  obtain ⟨present, absent, _, _⟩ := h
  unfold PackSlot.warmReset
  refine ⟨?_, ?_, ⟨Nat.zero_le _, fun _ => Nat.zero_le _⟩, fun none => absurd rfl none⟩
  · dsimp only
    split
    next online => exact fun _ => present (.inl online)
    · exact present
  · dsimp only
    split
    · nofun
    · exact absent

/-! ### The bus -/

theorem Engine.modifyPack_slot (e : Engine) (a : Fin 32) (f : PackSlot → PackSlot) (b : Fin 32) :
    (e.modifyPack a f).packs.slots[b] = if b = a then f e.packs.slots[a] else e.packs.slots[b] := by
  simp only [Engine.modifyPack, Fin.getElem_fin, Vector.getElem_set, Fin.ext_iff, eq_comm (a := b.val)]

/-- A change of one slot that gives it no identity that it does not have. -/
theorem PackBus.Lawful.modifyPack {e : Engine} (h : e.packs.Lawful) {a : Fin 32} {f : PackSlot → PackSlot}
    (lawful : (f e.packs.slots[a]).Lawful)
    (identity : (f e.packs.slots[a]).identity = (e.packs.slots[a]).identity ∨
      (f e.packs.slots[a]).identity = none) : (e.modifyPack a f).packs.Lawful := by
  refine h.mapSlots (fun b => ?_) h.picked h.calls
  rw [Engine.modifyPack_slot]
  split
  next same =>
    subst same
    exact ⟨lawful, identity⟩
  · exact ⟨h.slot b, .inl rfl⟩

theorem Engine.forgetElsewhere_slot (e : Engine) (id : PackIdentity) (a b : Fin 32) :
    (e.forgetElsewhere id a).packs.slots[b] =
      if b ≠ a ∧ (e.packs.slots[b]).identity = some id then (e.packs.slots[b]).free else e.packs.slots[b] := by
  simp only [Engine.forgetElsewhere, Fin.getElem_fin, Vector.getElem_ofFn]

/-- R126: a clean announce accepted changes the slots and queues a welcome. -/
theorem Engine.acceptPack_blocks (e : Engine) (id : PackIdentity) (a : Fin 32) :
    (e.acceptPack id a).1 =
      { e with
        packs := { e.packs with
          slots := (e.acceptPack id a).1.packs.slots, messages := e.packs.messages ++ [(.welcome, a)] } } := by
  unfold Engine.acceptPack Engine.forgetElsewhere
  generalize Vector.ofFn _ = slots
  rfl

/-- R126: the slots once a clean announce is accepted. -/
theorem Engine.acceptPack_slot (e : Engine) (id : PackIdentity) (a b : Fin 32) :
    (e.acceptPack id a).1.packs.slots[b] =
      if b = a then (e.packs.slots[a]).attach id
      else if (e.packs.slots[b]).identity = some id then (e.packs.slots[b]).free else e.packs.slots[b] := by
  refine (Engine.modifyPack_slot (e.forgetElsewhere id a) a (fun x => x.attach id) b).trans ?_
  rw [Engine.forgetElsewhere_slot, Engine.forgetElsewhere_slot]
  by_cases own : b = a
  · simp [own]
  · simp [own]

/-- R117, R126: the identity accepted stands in its own slot and in no other. -/
theorem Engine.acceptPack_identity (e : Engine) (id : PackIdentity) (a b : Fin 32) :
    ((e.acceptPack id a).1.packs.slots[b]).identity =
      if b = a then some id
      else if (e.packs.slots[b]).identity = some id then none else (e.packs.slots[b]).identity := by
  rw [Engine.acceptPack_slot]
  split
  · rfl
  · split <;> rfl

theorem PackBus.Lawful.acceptPack {e : Engine} (h : e.packs.Lawful) (id : PackIdentity) (a : Fin 32) :
    (e.acceptPack id a).1.packs.Lawful := by
  refine PackBus.lawful_of_slots (fun b => ?_) (fun b b' present same => ?_) ?_ ?_
  · rw [Engine.acceptPack_slot]
    split
    · exact PackSlot.attach_lawful _ id
    · split
      · exact PackSlot.free_lawful _
      · exact h.slot b
  · rw [Engine.acceptPack_identity] at present
    rw [Engine.acceptPack_identity, Engine.acceptPack_identity] at same
    have unique := h.unique b b'
    grind
  · rw [Engine.acceptPack_blocks]
    exact h.picked
  · rw [Engine.acceptPack_blocks]
    exact h.calls

/-- What leaves the slots and the call list as they were keeps the bus lawful, when it picks at most two slots. -/
theorem PackBus.Lawful.ofSame {b b' : PackBus} (h : b.Lawful) (slots : b'.slots = b.slots) (calls : b'.calls = b.calls)
    (picked : ∀ l, b'.sweep = .reading l → l.length ≤ 2) : b'.Lawful :=
  h.sameSlots slots picked (calls ▸ h.calls)

/-! ### The sweep and the frames of the bus (R115 to R128) -/

theorem PackBus.Lawful.packBusFrame {e : Engine} (h : e.packs.Lawful) : e.packBusFrame.1.packs.Lawful := by
  unfold Engine.packBusFrame
  split
  · exact h.ofSame rfl rfl h.picked
  · exact h

theorem PackBus.Lawful.sweepStart {e : Engine} (h : e.packs.Lawful) : e.sweepStart.1.packs.Lawful := by
  unfold Engine.sweepStart
  split
  · exact h.ofSame rfl rfl nofun
  · exact h

theorem PackBus.Lawful.pollPhase {e : Engine} (h : e.packs.Lawful) (answers : BitVec 64) :
    (e.pollPhase answers).1.packs.Lawful := by
  unfold Engine.pollPhase
  split
  · refine h.mapSlots (fun a => ?_) (fun l reading => ?_) h.calls
    · simp only [Fin.getElem_fin, Vector.getElem_ofFn]
      exact ⟨(h.slot a).poll _, .inl (PackSlot.poll_identity _ _)⟩
    · dsimp only at reading
      split at reading <;> cases reading
  · exact h

theorem PackBus.Lawful.readPhase {e : Engine} (h : e.packs.Lawful) : e.readPhase.1.packs.Lawful := by
  unfold Engine.readPhase
  split
  · refine h.ofSame rfl rfl fun l reading => ?_
    cases reading
    exact List.length_take_le 2 _
  · exact h

theorem PackBus.Lawful.keyReportRead {e : Engine} (h : e.packs.Lawful) (a : Fin 32) (report : Option (List Byte)) :
    (e.keyReportRead a report).1.packs.Lawful := by
  unfold Engine.keyReportRead
  split
  next b rest reading =>
    split
    · refine h.ofSame rfl rfl fun l rest' => ?_
      cases rest'
      exact Nat.le_of_succ_le (h.picked _ reading)
    · exact h
  · exact h

theorem PackBus.Lawful.applyWindow {e : Engine} (h : e.packs.Lawful) (a : Fin 32) (w : WindowOutcome) :
    (e.applyWindow a w).1.packs.Lawful := by
  unfold Engine.applyWindow
  split
  · exact h
  · exact PackBus.Lawful.modifyPack h (h.slot a).garble (.inl (PackSlot.garble_identity _))
  · split
    · split
      · exact (PackBus.Lawful.modifyPack h (h.slot a).rewelcome (.inl rfl)).ofSame rfl rfl h.picked
      · exact h.ofSame rfl rfl h.picked
    · exact PackBus.Lawful.acceptPack h _ a

theorem PackBus.Lawful.announceWindow {e : Engine} (h : e.packs.Lawful) (a : Fin 32) (received : Received) :
    (e.announceWindow a received).1.packs.Lawful := by
  unfold Engine.announceWindow
  split
  · split
    · have next : (e.nextWindow a).packs.Lawful := by
        refine h.ofSame rfl rfl fun l reading => ?_
        simp only [Engine.nextWindow] at reading
        split at reading <;> cases reading
      exact PackBus.Lawful.applyWindow next a _
    · exact h
  · exact h

theorem PackBus.Lawful.downstreamPart {e : Engine} (h : e.packs.Lawful) : e.downstreamPart.1.packs.Lawful := by
  unfold Engine.downstreamPart
  split
  · exact h.ofSame rfl rfl nofun
  · exact h

/-! ### The keys and the call list (R137 to R148) -/

/-- R138: an event acts only on an ONLINE slot. -/
theorem PackBus.Lawful.applyEvent {f : Engine → Act} {a : Fin 32}
    (act : ∀ e : Engine, e.packs.Lawful → (e.packs.slots[a]).state = .online → (f e).1.packs.Lawful) {e : Engine}
    (h : e.packs.Lawful) (code : Byte) : (e.applyEvent a code f).1.packs.Lawful := by
  unfold Engine.applyEvent
  split
  · split
    · have taken (rest : List (Fin 32 × Byte)) : PackBus.Lawful { e.packs with keyEvents := rest } :=
        h.ofSame rfl rfl h.picked
      dsimp only
      split
      next online => exact act _ (taken _) online
      · exact taken _
    · exact h
  · exact h

theorem PackBus.Lawful.setHeld {e : Engine} (h : e.packs.Lawful) {a : Fin 32}
    (online : (e.packs.slots[a]).state = .online) (key : Option HeldKey) : (e.setHeld a key).packs.Lawful :=
  PackBus.Lawful.modifyPack h ((h.slot a).withHeld online key) (.inl rfl)

/-- R140: a step writes the tables alone, so its slot stands as it was when the record is set. -/
theorem PackBus.Lawful.stepHeld {e : Engine} (h : e.packs.Lawful) {a : Fin 32}
    (online : (e.packs.slots[a]).state = .online) (pressed : RepeatKey) (key : Option HeldKey) :
    ((e.step a pressed).1.setHeld a key).packs.Lawful := by
  have packs := Engine.step_packs e a pressed
  generalize (e.step a pressed).1 = stepped at packs
  rw [← packs] at h online
  exact PackBus.Lawful.setHeld h online key

theorem PackBus.Lawful.makeRepeating {e : Engine} (h : e.packs.Lawful) {a : Fin 32}
    (online : (e.packs.slots[a]).state = .online) (key : RepeatKey) : (e.makeRepeating a key).1.packs.Lawful :=
  PackBus.Lawful.stepHeld h online key _

theorem PackBus.Lawful.expire {e : Engine} (h : e.packs.Lawful) (a : Fin 32) : (e.expire a).1.packs.Lawful := by
  unfold Engine.expire
  split
  next key held => exact PackBus.Lawful.stepHeld h (h.held a (held ▸ Option.some_ne_none key)) _ _
  · exact h

theorem PackBus.Lawful.breakRepeating {e : Engine} (h : e.packs.Lawful) {a : Fin 32}
    (online : (e.packs.slots[a]).state = .online) (key : RepeatKey) : (e.breakRepeating a key).1.packs.Lawful := by
  unfold Engine.breakRepeating
  split
  · split
    · exact PackBus.Lawful.setHeld h online none
    · exact h
  · exact h

/-- R139, R146: the selected target and the silence flag are under no law. -/
theorem PackBus.Lawful.select {e : Engine} (h : e.packs.Lawful) (a : Fin 32) (target : PackSlot → Fin 9)
    (silence : PackSlot → Bool) :
    (e.modifyPack a fun x => { x with target := target x, silence := silence x }).packs.Lawful :=
  PackBus.Lawful.modifyPack h (h.slot a) (.inl rfl)

/-- R147: a slot joins the call list only while it is not on it. -/
theorem PackBus.Lawful.addCall {e : Engine} (h : e.packs.Lawful) (a : Fin 32) : (e.addCall a).1.packs.Lawful := by
  unfold Engine.addCall
  split
  · exact h
  next absent =>
    have fresh : a ∉ e.packs.calls := by simpa using absent
    refine h.sameSlots rfl h.picked (List.Nodup.append h.calls (List.nodup_singleton a) ?_)
    exact List.disjoint_singleton.2 fresh

/-! ### Requests and resets -/

theorem PackBus.Lawful.releaseSlot {e : Engine} (h : e.packs.Lawful) (a : Fin 32) : (e.releaseSlot a).packs.Lawful := by
  unfold Engine.releaseSlot
  have told : (if (e.packs.slots[a]).state = .online then e.queueMessage .released a else e).packs.Lawful := by
    split
    · exact h.ofSame rfl rfl h.picked
    · exact h
  have freed := PackBus.Lawful.modifyPack told (a := a) (PackSlot.free_lawful _) (.inr rfl)
  exact freed.ofSame rfl rfl freed.picked

theorem PackBus.Lawful.warmReset {b : PackBus} (h : b.Lawful) : b.warmReset.Lawful := by
  refine h.mapSlots (fun a => ?_) nofun List.nodup_nil
  simp only [PackBus.warmReset, Fin.getElem_fin, Vector.getElem_ofFn]
  exact ⟨(h.slot a).warmReset, .inl rfl⟩

theorem effectAssignPack_lawful {e : Engine} (h : e.packs.Lawful) (q : Payload) :
    (effectAssignPack q e).engine.packs.Lawful := by
  unfold effectAssignPack
  split
  · exact PackBus.Lawful.modifyPack h ((h.slot _).unheld _ 0) (.inl rfl)
  · exact h

theorem effectReleasePack_lawful {e : Engine} (h : e.packs.Lawful) (q : Payload) :
    (effectReleasePack q e).engine.packs.Lawful := by
  unfold effectReleasePack
  split
  · exact PackBus.Lawful.releaseSlot h _
  · exact h

/-! ### What the other blocks do to the bus -/

theorem Engine.frameInstant_packs (turn : Link → Turn) (e : Engine) :
    (e.frameInstant turn).1.packs = { e.packs with frameDue := true } := by
  obtain ⟨_, _, _, _, _, _, selected⟩ := Engine.selectFrame_eq turn e
  simp only [Engine.frameInstant, Act.andThen, selected, Engine.moveRamps, Engine.computeMixes]

@[simp] theorem Engine.endOperation_packs (outcome : ResultOutcome) (e : Engine) :
    (e.endOperation outcome).1.packs = e.packs := rfl

@[simp] theorem Engine.modifySlot_packs (e : Engine) (k : Fin 32) (f : SceneSlot → SceneSlot) :
    (e.modifySlot k f).packs = e.packs := rfl

@[simp] theorem Engine.afterItem_packs (awaiting : MixSet) (inputs aborting : Bool) (e : Engine) :
    (e.afterItem awaiting inputs aborting).1.packs = e.packs := by
  unfold Engine.afterItem
  split
  · rfl
  · split <;> rfl

@[simp] theorem Engine.beginLoad_packs (j : RecallJob) (e : Engine) : (e.beginLoad j).1.packs = e.packs := by
  simp [Engine.beginLoad]

@[simp] theorem Engine.loadMix_packs (j : RecallJob) (awaiting : MixSet) (inputs aborting : Bool) (m : Fin 24)
    (e : Engine) : (e.loadMix j awaiting inputs aborting m).1.packs = e.packs := by
  have written : (e.writeMix j m).packs = e.packs := by
    unfold Engine.writeMix
    split <;> rfl
  simp [Engine.loadMix, Engine.markLoaded, written]

@[simp] theorem Engine.loadInputs_packs (j : RecallJob) (aborting : Bool) (e : Engine) :
    (e.loadInputs j aborting).1.packs = e.packs := by
  have written : (e.writeInputs j).packs = e.packs := by
    unfold Engine.writeInputs
    split <;> rfl
  simp [Engine.loadInputs, written]

theorem Engine.storeWriteEnd_packs (e : Engine) : e.storeWriteEnd.1.packs = e.packs := by
  unfold Engine.storeWriteEnd
  split <;> rfl

theorem Engine.eraseEnd_packs (e : Engine) : e.eraseEnd.1.packs = e.packs := by
  unfold Engine.eraseEnd
  split <;> rfl

theorem Engine.recallVerifyEnd_packs (degraded : Option SceneName) (e : Engine) :
    (e.recallVerifyEnd degraded).1.packs = e.packs := by
  unfold Engine.recallVerifyEnd
  split
  · split
    · dsimp only
      split <;> simp
    · rfl
  · rfl

theorem Engine.mixLoad_packs (e : Engine) : e.mixLoad.1.packs = e.packs := by
  unfold Engine.mixLoad
  split
  · split
    · split <;> simp
    · rfl
  · rfl

theorem Engine.inputSectionLoad_packs (e : Engine) : e.inputSectionLoad.1.packs = e.packs := by
  unfold Engine.inputSectionLoad
  split
  · split
    · split <;> simp
    · rfl
  · rfl

theorem Engine.lookAtStartScene_packs (e : Engine) : e.lookAtStartScene.1.packs = e.packs := by
  unfold Engine.lookAtStartScene
  split
  · rfl
  · dsimp only
    split <;> simp [Engine.beginOperation]

theorem Engine.verifySlotDone_packs (degraded : Option SceneName) (e : Engine) :
    (e.verifySlotDone degraded).1.packs = e.packs := by
  unfold Engine.verifySlotDone
  split
  · dsimp only
    split
    · rfl
    · exact Engine.lookAtStartScene_packs _
  · rfl

theorem Engine.endRecallAtReset_packs (e : Engine) : e.endRecallAtReset.packs = e.packs := by
  unfold Engine.endRecallAtReset
  split
  · split
    · rfl
    · split
      · simp
      · split <;> simp
  · rfl

theorem Engine.cutShort_packs (cutName : SceneName) (e : Engine) : (e.cutShort cutName).packs = e.packs := by
  unfold Engine.cutShort
  split <;> rfl

theorem Engine.dropTalk_packs (p : Port) (e : Engine) : (e.dropTalk p).packs = e.packs := by
  simp [Engine.dropTalk]

theorem Engine.warmReset_packs (together : Bool) (e : Engine) :
    (e.warmReset together).packs = e.packs.warmReset := by
  rw [← Engine.endRecallAtReset_packs e]
  rfl

/-- R16: a mode moves the selector alone. -/
theorem Engine.applyMode_packs (mode : SourceMode) (e : Engine) : (e.applyMode mode).1.packs = e.packs := by
  unfold Engine.applyMode Engine.setActive
  split
  · split <;> rfl
  · rfl

theorem effectSetSourceMode_packs (q : Payload) (e : Engine) :
    (effectSetSourceMode q e).engine.packs = e.packs := by
  unfold effectSetSourceMode
  split
  · rfl
  · exact Engine.applyMode_packs _ _

theorem Engine.moveCharge_packs (p : Port) (e : Engine) : (e.moveCharge p).1.packs = e.packs := by
  unfold Engine.moveCharge
  split <;> rfl

theorem effectWriteSends_packs (m : Fin 24) (l : List SendWrite) (e : Engine) :
    (effectWriteSends m l e).engine.packs = e.packs := by
  simp [effectWriteSends]

theorem effectSetSend_packs (q : Payload) (e : Engine) : (effectSetSend q e).engine.packs = e.packs := by
  unfold effectSetSend
  split
  · split
    · rfl
    · exact effectWriteSends_packs _ _ e
  · rfl

theorem effectSetSendRow_packs (q : Payload) (e : Engine) : (effectSetSendRow q e).engine.packs = e.packs := by
  unfold effectSetSendRow
  split
  · split
    · rfl
    · exact effectWriteSends_packs _ _ e
  · rfl

/-- R34, R36, R37: what the requests on one mix write. -/
theorem effectMix_packs (q : Payload) (e : Engine) :
    (effectSetMix q e).engine.packs = e.packs ∧ (effectSetLinkSet q e).engine.packs = e.packs ∧
      (effectSetGroup q e).engine.packs = e.packs := by
  refine ⟨?_, ?_, ?_⟩
  · unfold effectSetMix
    split
    · split <;> rfl
    · rfl
  · unfold effectSetLinkSet
    split
    · split <;> rfl
    · rfl
  · unfold effectSetGroup
    split
    · split
      · rfl
      · split <;> rfl
    · rfl

/-- R39, R41, R42: what the requests on the inputs and on talk write. -/
theorem effectInput_packs (p : Port) (q : Payload) (e : Engine) :
    (effectSetInput q e).engine.packs = e.packs ∧ (effectSetTalkSource q e).engine.packs = e.packs ∧
      (effectTalk p q e).engine.packs = e.packs := by
  refine ⟨?_, ?_, ?_⟩
  · unfold effectSetInput
    split
    · split
      · rfl
      · simp only [Effect.accept, Engine.recompute_packs]
    · rfl
  · unfold effectSetTalkSource
    split
    · split
      · rfl
      · simp only [Effect.accept, Engine.recompute_packs]
    · rfl
  · simp only [effectTalk, Engine.recompute_packs, Engine.setTalkSet_packs]

theorem effectReadMeters_packs (q : Payload) (e : Engine) : (effectReadMeters q e).engine.packs = e.packs := by
  unfold effectReadMeters Engine.clearMeters
  split <;> simp only

theorem effectClearLatches_packs (q : Payload) (e : Engine) : (effectClearLatches q e).engine.packs = e.packs := by
  simp only [effectClearLatches, Effect.accept]

/-- R33, R35, R38, R60: a read of one mix or group writes nothing. -/
theorem effectMixRead_engine (q : Payload) (e : Engine) :
    (effectReadSendRow q e).engine = e ∧ (effectReadMix q e).engine = e ∧ (effectReadGroup q e).engine = e ∧
      (effectReadEffective q e).engine = e := by
  refine ⟨?_, ?_, ?_, ?_⟩
  · unfold effectReadSendRow
    split <;> rfl
  · unfold effectReadMix
    split <;> rfl
  · unfold effectReadGroup
    split <;> rfl
  · unfold effectReadEffective
    split <;> rfl

/-- R100, R109: the requests that begin a write of a slot. -/
theorem effectStoreErase_packs (q : Payload) (e : Engine) :
    (effectStoreScene q e).engine.packs = e.packs ∧ (effectEraseScene q e).engine.packs = e.packs := by
  refine ⟨?_, ?_⟩
  · unfold effectStoreScene
    split
    · rfl
    · split
      · rfl
      · split <;> rfl
  · unfold effectEraseScene
    split
    · rfl
    · split
      · rfl
      · split <;> rfl

/-- R102, R107: the requests that begin and abort a recall. -/
theorem effectRecall_packs (q : Payload) (e : Engine) :
    (effectRecallScene q e).engine.packs = e.packs ∧ (effectAbortRecall e).engine.packs = e.packs := by
  refine ⟨?_, ?_⟩
  · unfold effectRecallScene
    split
    · rfl
    · split
      · rfl
      · split <;> rfl
  · unfold effectAbortRecall
    split
    · split <;> rfl
    · rfl

/-- R110 to R112: the requests on the settings of a slot and on the directory. -/
theorem effectSettings_packs (q : Payload) (e : Engine) :
    (effectProtectScene q e).engine.packs = e.packs ∧ (effectSetStartScene q e).engine.packs = e.packs ∧
      (effectReadDirectory q e).engine.packs = e.packs := by
  refine ⟨?_, ?_, ?_⟩
  · unfold effectProtectScene
    split <;> rfl
  · unfold effectSetStartScene
    split <;> rfl
  · unfold effectReadDirectory
    split <;> rfl

/-- R174, R176: the requests on the parked wait act on their port alone. -/
theorem answerWaits_engine (p : Port) (q : Payload) (echo : Byte) (e : Engine) (x : PortState) :
    (answerWait p q echo e x).engine = e ∧ (answerCancelWait echo e x).engine = e := by
  refine ⟨?_, ?_⟩
  · unfold answerWait
    dsimp only
    split
    · rfl
    · split <;> rfl
  · unfold answerCancelWait
    split <;> rfl

/-- R130, R131, R148: ASSIGN PACK, RELEASE PACK and READ CALLS alone change the bus. -/
theorem answerRequest_packs {n : RequestName} (assign : n ≠ .assignPack) (release : n ≠ .releasePack)
    (calls : n ≠ .readCalls) (p : Port) (q : Payload) (x : PortState) (e : Engine) :
    (answerRequest n p q e x).engine.packs = e.packs := by
  obtain ⟨mix, linkSet, group⟩ := effectMix_packs q e
  obtain ⟨input, source, talk⟩ := effectInput_packs p q e
  obtain ⟨sendRow, mixRead, groupRead, effective⟩ := effectMixRead_engine q e
  obtain ⟨store, erase⟩ := effectStoreErase_packs q e
  obtain ⟨recalled, aborted⟩ := effectRecall_packs q e
  obtain ⟨protect, start, directory⟩ := effectSettings_packs q e
  obtain ⟨wait, cancel⟩ := answerWaits_engine p q n.code e x
  cases n
  case assignPack | releasePack | readCalls => contradiction
  case passCharge => exact Engine.moveCharge_packs p.other e
  case reclaimCharge => exact Engine.moveCharge_packs .home e
  case setSourceMode => exact effectSetSourceMode_packs q e
  case setSend => exact effectSetSend_packs q e
  case setSendRow => exact effectSetSendRow_packs q e
  case setMix => exact mix
  case setLinkSet => exact linkSet
  case setGroup => exact group
  case setInput => exact input
  case setTalkSource => exact source
  case talk => exact talk
  case clearLatches => exact effectClearLatches_packs q e
  case readMeters => exact effectReadMeters_packs q e
  case readSendRow => exact congrArg Engine.packs sendRow
  case readMix => exact congrArg Engine.packs mixRead
  case readGroup => exact congrArg Engine.packs groupRead
  case readEffective => exact congrArg Engine.packs effective
  case storeScene => exact store
  case eraseScene => exact erase
  case recallScene => exact recalled
  case abortRecall => exact aborted
  case protectScene => exact protect
  case setStartScene => exact start
  case readDirectory => exact directory
  case wait => exact congrArg Engine.packs wait
  case cancelWait => exact congrArg Engine.packs cancel
  all_goals rfl

/-! ### Every command -/

theorem PackBus.Lawful.request {e : Engine} (h : e.packs.Lawful) (n : RequestName) (p : Port) (q : Payload)
    (x : PortState) : (answerRequest n p q e x).engine.packs.Lawful := by
  by_cases assign : n = .assignPack
  · subst assign
    exact effectAssignPack_lawful h q
  by_cases release : n = .releasePack
  · subst release
    exact effectReleasePack_lawful h q
  by_cases calls : n = .readCalls
  · subst calls
    exact h.sameSlots rfl h.picked List.nodup_nil
  rw [answerRequest_packs assign release calls]
  exact h

theorem PackBus.Lawful.kept {e e' : Engine} (h : e.packs.Lawful) (packs : e'.packs = e.packs) : e'.packs.Lawful :=
  packs ▸ h

/-- The laws of the bus are kept by every change that one command makes. -/
theorem PackBus.Lawful.keptBy : Engine.KeptBy fun e => e.packs.Lawful where
  request n p q x _ h := PackBus.Lawful.request h n p q x
  signal l _ h := h.kept (Engine.setReceiver_packs _ l _)
  signalEnds l _ h := h.kept (Engine.setReceiver_packs _ l _)
  line l _ _ h := h.kept (Engine.setReceiver_packs _ l _)
  arrival l _ _ h := h.kept (Engine.setReceiver_packs _ l _)
  instant turn e h := by
    rw [Engine.frameInstant_packs]
    exact h.ofSame rfl rfl h.picked
  sent _ h := PackBus.Lawful.packBusFrame h
  stored e h := h.kept e.storeWriteEnd_packs
  verified d e h := h.kept (e.recallVerifyEnd_packs d)
  mix e h := h.kept e.mixLoad_packs
  inputs e h := h.kept e.inputSectionLoad_packs
  erased e h := h.kept e.eraseEnd_packs
  slot d e h := h.kept (e.verifySlotDone_packs d)
  sweep _ h := PackBus.Lawful.sweepStart h
  poll answers _ h := PackBus.Lawful.pollPhase h answers
  read _ h := PackBus.Lawful.readPhase h
  report a r _ h := PackBus.Lawful.keyReportRead h a r
  window a r _ h := PackBus.Lawful.announceWindow h a r
  downstream _ h := PackBus.Lawful.downstreamPart h
  make _ c k _ h := PackBus.Lawful.applyEvent (fun _ h online => PackBus.Lawful.makeRepeating h online k) h c
  next a c _ h := PackBus.Lawful.applyEvent (fun _ h _ => PackBus.Lawful.select h a _ _) h c
  prev a c _ h := PackBus.Lawful.applyEvent (fun _ h _ => PackBus.Lawful.select h a _ _) h c
  call a c _ h := PackBus.Lawful.applyEvent (fun _ h _ => PackBus.Lawful.addCall h a) h c
  silence a c _ h := PackBus.Lawful.applyEvent (fun _ h _ => PackBus.Lawful.select h a _ _) h c
  release _ c k _ h := PackBus.Lawful.applyEvent (fun _ h online => PackBus.Lawful.breakRepeating h online k) h c
  pass _ c _ h := PackBus.Lawful.applyEvent (fun _ h _ => h) h c
  marker _ c _ h := PackBus.Lawful.applyEvent (fun _ h online => PackBus.Lawful.setHeld h online none) h c
  expire a _ h := PackBus.Lawful.expire h a
  talk p e h := h.kept (e.dropTalk_packs p)
  warm together e h := by
    rw [Engine.warmReset_packs]
    exact h.warmReset
  cold _ _ := PackBus.lawful_reset
  loss n e h := h.kept (e' := { e.cutShort n with powered := false }) (e.cutShort_packs n)

/-- Settles O59: what each single change keeps, every step keeps. -/
theorem stepKeepsPacks : Obligations.StepKeepsPacks :=
  fun _ _ => step_keeps PackBus.Lawful.keptBy

end Sys2Proof.Machine

/-! The frames of the pack bus (R115, R123, 11.7): what the outputs of the mixes and the downstream part put into
them. -/
namespace Sys2Proof.Machine

/-! ### The layouts of 11.7 -/

/-- The code of a pack slot state is the one that 11.5 gives each state. -/
theorem PackState.code_unique {code : PackState → Byte} (empty : code .empty = 0) (online : code .online = 1)
    (lost : code .lost = 2) (conflict : code .conflict = 3) : code = PackState.code :=
  funext fun state => by cases state <;> assumption

theorem StatusRec.bytes_eq (r : StatusRec) :
    r.bytes = [byteOf (r.slot.val + 1), r.state.code, byteOf (numberFor r.assigned), byteOf r.target.val,
      BitVec.ofInt 8 r.value, if r.hold = true then 1 else 0, if r.silence = true then 1 else 0] := by
  rw [← ordinalByte_eq]
  rfl

theorem AudioFrame.bytes_spelt (f : AudioFrame) (a : Fin 32) : ∃ h m l h' m' l' : Byte,
    (f.bytes.drop (6 * a.val)).take 6 = [h, m, l, h', m', l'] ∧
      h ++ m ++ l = BitVec.ofInt 24 f[a].1 ∧ h' ++ m' ++ l' = BitVec.ofInt 24 f[a].2 := by
  obtain ⟨h, m, l, left, leftSpelt⟩ := sampleBytes_spelt f[a].1
  obtain ⟨h', m', l', right, rightSpelt⟩ := sampleBytes_spelt f[a].2
  refine ⟨h, m, l, h', m', l', ?_, leftSpelt, rightSpelt⟩
  rw [AudioFrame.bytes_pair, left, right]
  rfl

/-! ### Audio delivery (R115) -/

theorem Engine.audioFrame_pair (e : Engine) (a : Fin 32) : e.audioFrame[a] = e.pairFor a := by
  simp [Engine.audioFrame]

theorem Engine.pairFor_heard {e : Engine} {a : Fin 32} {m : Fin 24} (online : (e.packs.slots[a]).state = .online)
    (assigned : (e.packs.slots[a]).assigned = some m) (sound : (e.packs.slots[a]).silence = false) :
    e.pairFor a = ((e.runs[m]).outLeft, (e.runs[m]).outRight) := by
  simp only [Engine.pairFor, online, assigned, sound]

theorem Engine.pairFor_silent {e : Engine} {a : Fin 32}
    (h : (e.packs.slots[a]).state ≠ .online ∨ (e.packs.slots[a]).assigned = none ∨
      (e.packs.slots[a]).silence = true) : e.pairFor a = (0, 0) := by
  unfold Engine.pairFor
  split
  next online sound assigned =>
    rcases h with offline | unassigned | silent
    · exact absurd online offline
    · rw [assigned] at unassigned
      cases unassigned
    · rw [sound] at silent
      cases silent
  · rfl

theorem Engine.packBusFrame_due {e : Engine} (due : e.packs.frameDue = true) :
    e.packBusFrame =
      ({ e with packs := { e.packs with frameDue := false, sentAudio := some e.audioFrame } }, []) := by
  simp only [Engine.packBusFrame, due, if_true]

/-! ### The downstream part (R118, R123) -/

section
variable (e : Engine) {x : PackSlot}

theorem Engine.targetValue_unassigned (h : x.assigned = none) : e.targetValue x = 0 := by
  simp only [Engine.targetValue, h]

theorem Engine.targetValue_master {m : Fin 24} (h : x.assigned = some m) (target : x.target.val = 0) :
    e.targetValue x = (e.tables.mixes[m]).record.master := by
  simp only [Engine.targetValue, h, target, dite_true]

theorem Engine.targetValue_group {m : Fin 24} (h : x.assigned = some m) {g : Fin 8}
    (target : x.target.val = g.val + 1) :
    e.targetValue x = ((e.tables.mixes[m]).groups[g]).trim := by
  simp [Engine.targetValue, h, target]

theorem Engine.holdShown_unassigned (h : x.assigned = none) : e.holdShown x = false := by
  simp only [Engine.holdShown, h]

theorem Engine.holdShown_assigned {m : Fin 24} (h : x.assigned = some m) :
    e.holdShown x = (e.tables.mixes[m]).record.hold := by
  simp only [Engine.holdShown, h]

end

theorem Engine.downstream_slots (e : Engine) :
    e.downstream.records.map (fun r => r.slot) =
      (List.finRange 32).filter fun a => decide ((e.packs.slots[a]).state = .online) := by
  simp only [Engine.downstream, List.map_map]
  exact List.map_id _

theorem Engine.mem_downstream {e : Engine} {r : StatusRec} (h : r ∈ e.downstream.records) :
    ∃ a, (e.packs.slots[a]).state = .online ∧ e.statusRec a = r := by
  obtain ⟨a, online, record⟩ := List.mem_map.1 h
  exact ⟨a, of_decide_eq_true (List.mem_filter.1 online).2, record⟩

/-- R118, R123: after the last window, or after the last read once its events are applied. -/
theorem PackBus.downstreamNext_of {b : PackBus}
    (h : b.sweep = .downstream ∨ (b.sweep = .reading [] ∧ b.keyEvents = [])) : b.downstreamNext = true := by
  rcases h with windows | ⟨reads, applied⟩
  · simp only [PackBus.downstreamNext, windows]
  · simp only [PackBus.downstreamNext, reads, applied, List.isEmpty_nil]

theorem Engine.downstreamPart_next {e : Engine} (next : e.packs.downstreamNext = true) :
    e.downstreamPart =
      ({ e with
         packs := { e.packs with
           sweep := .idle, sweepCounter := e.packs.sweepCounter + 1, pendingMarks := 0#32, messages := []
           sentDownstream := some e.downstream } }, []) := by
  simp only [Engine.downstreamPart, next, if_true]

/-- Settles O47, by the frame: the one of the outputs, then the downstream part. -/
theorem audioAndDownstream : Obligations.AudioAndDownstream := by
  refine ⟨fun frame => ⟨frame.bytes_length, frame.bytes_spelt⟩, fun r state empty online lost conflict => ?_,
    fun _ => ⟨rfl, rfl, rfl⟩, ?_⟩
  · obtain rfl := PackState.code_unique empty online lost conflict
    exact r.bytes_eq
  rintro s _ on settled rfl
  refine ⟨fun due => ⟨s.engine.audioFrame, ?_, ?_⟩, fun next => ⟨s.engine.downstream,
    s.engine.packs.sweepCounter + 1, ?_, ?_, rfl, s.engine.downstream_slots, ?_⟩⟩
  · exact State.act_silent on settled (Engine.packBusFrame_due due) (rises_of_packs _ _ rfl rfl)
  · rintro a _ rfl
    rw [Engine.audioFrame_pair]
    exact ⟨fun _ => Engine.pairFor_heard, Engine.pairFor_silent⟩
  · exact State.act_silent on settled (Engine.downstreamPart_next (PackBus.downstreamNext_of next))
      (rises_of_packs _ _ rfl rfl)
  · exact Fin.val_add _ _
  · rintro r sent _ rfl
    obtain ⟨a, online, rfl⟩ := Engine.mem_downstream sent
    exact ⟨online, rfl, rfl, rfl,
      fun none => ⟨s.engine.targetValue_unassigned none, s.engine.holdShown_unassigned none⟩,
      fun m assigned => ⟨s.engine.holdShown_assigned assigned, s.engine.targetValue_master assigned,
        fun _ => s.engine.targetValue_group assigned⟩⟩

end Sys2Proof.Machine

/-! The sweep: its poll, the arbiter and the reads of the picked slots (R118 to R122, 11.7). -/
namespace Sys2Proof.Machine

/-! ### One slot's answer to a poll (R119, R120) -/

section
variable {x : PackSlot}

theorem PackSlot.poll_offline (h : x.state ≠ .online) (alive : Bool) : x.poll alive = x := by
  unfold PackSlot.poll
  split
  next online => exact absurd online h
  · rfl

theorem PackSlot.poll_alive (h : x.state = .online) : x.poll true = { x with missRun := 0 } := by
  simp only [PackSlot.poll, h, if_true]

theorem PackSlot.poll_missed (h : x.state = .online) (few : x.missRun < 15) :
    x.poll false = { x with missRun := x.missRun + 1 } := by
  simp only [PackSlot.poll, h, Bool.false_eq_true, if_false]
  rw [if_neg (by omega)]

theorem PackSlot.poll_lost (h : x.state = .online) (many : 15 ≤ x.missRun) : x.poll false = x.lose := by
  simp only [PackSlot.poll, h, Bool.false_eq_true, if_false]
  rw [if_pos (by omega)]

/-- R120: the ONLINE slots that a poll loses. -/
theorem PackSlot.poll_loses_iff (x : PackSlot) (alive : Bool) : (x.state = .online ∧ (x.poll alive).state = .lost) ↔
    (decide (x.state = .online) && !alive && decide (15 ≤ x.missRun)) = true := by
  simp only [Bool.and_eq_true, decide_eq_true_eq, Bool.not_eq_true', and_assoc]
  refine and_congr_right fun online => ?_
  cases alive with
  | true => simp [PackSlot.poll_alive online, online]
  | false =>
    rcases Nat.lt_or_ge x.missRun 15 with few | many
    · simp [PackSlot.poll_missed online few, online, Nat.not_le.2 few]
    · simp [PackSlot.poll_lost online many, PackSlot.lose, many]

end

/-! ### The poll (R118 to R120) -/

theorem Engine.sweepStart_idle {e : Engine} (idle : e.packs.sweep = .idle) :
    e.sweepStart = ({ e with packs := { e.packs with sweep := .poll } }, []) := by
  simp only [Engine.sweepStart, idle]

theorem Engine.lostEvents_eq (e : Engine) (answers : BitVec 64) :
    e.lostEvents answers = List.replicate ((List.finRange 32).countP fun a =>
      decide ((e.packs.slots[a]).state = .online) && !answers.getLsbD (2 * a.val) &&
        decide (15 ≤ (e.packs.slots[a]).missRun)) .packLost := by
  simp only [Engine.lostEvents, PackSlot.poll_loses_iff]
  exact flatMap_eq_replicate _ _ _

theorem Engine.pollPhase_polling {e : Engine} (polling : e.packs.sweep = .poll) (answers : BitVec 64) :
    e.pollPhase answers =
      ({ e with
         packs := { e.packs with
           slots := (e.pollPhase answers).1.packs.slots, pendingMarks := slotSet (e.pendingKept answers)
           sweep := if e.packs.sweepCounter.val = 0 then .attach 0 else .read } },
        e.lostEvents answers) := by
  have zero : (e.packs.sweepCounter.val = 0) = (e.packs.sweepCounter = 0) := propext (Fin.ext_iff (b := 0)).symm
  simp only [Engine.pollPhase, polling, zero]

theorem Engine.pollPhase_slot {e : Engine} (polling : e.packs.sweep = .poll) (answers : BitVec 64) (a : Fin 32) :
    (e.pollPhase answers).1.packs.slots[a] = (e.packs.slots[a]).poll (answers.getLsbD (2 * a.val)) := by
  simp only [Engine.pollPhase, polling, Fin.getElem_fin, Vector.getElem_ofFn, aliveAt]

/-- R119: a pending mark stands after a poll for an ONLINE slot that is alive and has one. -/
theorem Engine.pendingKept_bit (e : Engine) (answers : BitVec 64) (a : Fin 32) :
    (slotSet (e.pendingKept answers)).getLsbD a.val =
      (decide ((e.packs.slots[a]).state = .online) && answers.getLsbD (2 * a.val) &&
        answers.getLsbD (2 * a.val + 1)) :=
  slotSet_getLsbD _ a

/-- Settles O48, by the state of each slot, its answer and its miss run. -/
theorem sweepAndPoll : Obligations.SweepAndPoll := by
  rintro s _ on settled rfl
  refine ⟨fun idle => State.act_silent on settled (Engine.sweepStart_idle idle) (rises_of_packs _ _ rfl rfl),
    fun answers polling => ?_⟩
  obtain ⟨t, next, raises⟩ := State.act_raises_of on (Engine.pollPhase_polling polling answers)
  rw [Engine.lostEvents_eq] at raises
  refine ⟨_, t, _, next, raises, rfl, rfl, ?_⟩
  rintro a _ _ rfl rfl
  dsimp only
  rw [Engine.pollPhase_slot polling, Engine.pendingKept_bit]
  refine ⟨fun offline => ?_, fun online alive => ?_, fun online missed => ⟨?_, fun few => ?_, fun many => ?_⟩⟩
  · exact ⟨PackSlot.poll_offline offline _, by simp only [decide_eq_false offline, Bool.false_and]⟩
  · rw [alive]
    exact ⟨PackSlot.poll_alive online, by simp only [decide_eq_true online, Bool.true_and]⟩
  · simp [missed]
  · rw [missed, PackSlot.poll_missed online few]
  · rw [missed, PackSlot.poll_lost online many]
    rfl

/-! ### The arbiter (R121) -/

theorem Engine.considered_iff {e : Engine} {a : Fin 32} :
    e.considered a = true ↔ (e.packs.slots[a]).state = .online ∧ e.packs.pendingMarks.getLsbD a.val = true := by
  simp only [Engine.considered, Bool.and_eq_true, decide_eq_true_eq]

/-- How far an address is from the one after the pointer, wrapping from 32 to 1. -/
def searchDistance (pointer a : Fin 32) : Nat := (a.val + 31 - pointer.val) % 32

/-- R121: the slots that the arbiter considers, in the order in which it meets them. -/
def Engine.candidates (e : Engine) : List (Fin 32) := (searchOrder e.packs.pointer).filter e.considered

theorem Engine.picks_eq (e : Engine) : e.picks = e.candidates.take 2 := rfl

theorem Engine.candidates_pairwise (e : Engine) :
    e.candidates.Pairwise fun a b => searchDistance e.packs.pointer a < searchDistance e.packs.pointer b :=
  (searchOrder_pairwise _).filter _

theorem Engine.candidates_length (e : Engine) : e.candidates.length = (List.finRange 32).countP e.considered := by
  rw [Engine.candidates, ← List.countP_eq_length_filter]
  exact (searchOrder_perm _).countP_eq _

theorem Engine.mem_candidates {e : Engine} {a : Fin 32} : a ∈ e.candidates ↔ e.considered a = true := by
  simp only [Engine.candidates, List.mem_filter, mem_searchOrder, true_and]

/-- R121: a candidate that is not picked comes after every slot that is. -/
theorem Engine.picks_first {e : Engine} {a b : Fin 32} (waiting : e.considered a = true) (left : a ∉ e.picks)
    (picked : b ∈ e.picks) : searchDistance e.packs.pointer b < searchDistance e.packs.pointer a := by
  have order := e.candidates_pairwise
  rw [← List.take_append_drop 2 e.candidates] at order
  have candidate := Engine.mem_candidates.2 waiting
  rw [← List.take_append_drop 2 e.candidates] at candidate
  have later : a ∈ e.candidates.drop 2 := (List.mem_append.1 candidate).resolve_left left
  exact (List.pairwise_append.1 order).2.2 b picked a later

theorem Engine.readPhase_reading {e : Engine} (reading : e.packs.sweep = .read) :
    e.readPhase = ({ e with packs := { e.packs with sweep := .reading e.picks } }, []) := by
  simp only [Engine.readPhase, reading]

/-! ### The read of a picked slot (R122, 11.7) -/

/-- R122: what the read of a slot hands on. -/
def Engine.handedOn (e : Engine) (a : Fin 32) (report : Option (List Byte)) : List (Fin 32 × Byte) :=
  if (e.packs.slots[a]).state = .online then (reportCodes report).map fun c => (a, c) else []

theorem Engine.keyReportRead_next {e : Engine} {a : Fin 32} {rest : List (Fin 32)}
    (reading : e.packs.sweep = .reading (a :: rest)) (report : Option (List Byte)) :
    e.keyReportRead a report =
      ({ e with
         packs := { e.packs with
           sweep := .reading rest, pointer := if rest = [] then a else e.packs.pointer
           keyEvents := e.packs.keyEvents ++ e.handedOn a report } }, []) := by
  simp only [Engine.keyReportRead, reading, if_true, Engine.handedOn]

/-- R122: a good report hands on the codes between its count and its check. -/
theorem reportCodes_good {count check : Byte} {codes : List Byte}
    (good : reportGood (count :: (codes ++ [check])) = true) :
    reportCodes (some (count :: (codes ++ [check]))) = codes := by
  simp only [reportCodes, good, if_true, List.drop_one, List.tail_cons, List.dropLast_concat]

/-- R122, R145: a bad or missing report hands on one overflow marker. -/
theorem reportCodes_bad {report : Option (List Byte)}
    (bad : ∀ bytes, report = some bytes → reportGood bytes = false) : reportCodes report = [0xFF] := by
  cases report with
  | none => rfl
  | some bytes =>
    simp only [reportCodes, bad bytes rfl]
    rfl

/-- Settles O49: the picks by their place in the search order, the read by its report. -/
theorem arbiterAndReports : Obligations.ArbiterAndReports := by
  rintro s _ distance on settled rfl measured
  obtain rfl : distance = searchDistance s.engine.packs.pointer := funext measured
  refine ⟨fun reading => ⟨s.engine.picks, ?_, s.engine.candidates_pairwise.take, ?_, fun a picked => ?_,
    fun a online pending left b => ?_⟩, fun a rest report good reading isGood => ⟨s.engine.handedOn a report, ?_,
    fun offline => if_neg offline, fun online => ⟨fun codes codesGood => ?_, fun noneGood => ?_⟩⟩⟩
  · exact State.act_silent on settled (Engine.readPhase_reading reading) (rises_of_packs _ _ rfl rfl)
  · rw [Engine.picks_eq, List.length_take, Engine.candidates_length]
    rfl
  · exact Engine.considered_iff.1 (Engine.mem_candidates.1 (List.mem_of_mem_take picked))
  · exact Engine.picks_first (Engine.considered_iff.2 ⟨online, pending⟩) left
  · exact State.act_silent on settled (Engine.keyReportRead_next reading report) (rises_of_packs _ _ rfl rfl)
  · obtain ⟨count, check, rfl, counted⟩ := (isGood codes).1 codesGood
    rw [Engine.handedOn, if_pos online,
      reportCodes_good ((reportGood_iff _).2 ⟨count, codes, check, rfl, counted⟩)]
  · have bad (bytes : List Byte) (sent : report = some bytes) : reportGood bytes = false := by
      refine Bool.eq_false_iff.2 fun passes => ?_
      obtain ⟨count, codes, check, spelt, counted⟩ := (reportGood_iff bytes).1 passes
      exact noneGood codes ((isGood codes).2 ⟨count, check, spelt ▸ sent, counted⟩)
    rw [Engine.handedOn, if_pos online, reportCodes_bad bad]
    rfl

end Sys2Proof.Machine

/-! The announce windows: their order, and the outcome of each at its slot (R117, R125 to R128). -/
namespace Sys2Proof.Machine

/-! ### The outcome of a window (R125 to R128) -/

/-- R125: a signal that is not one clean announce is garbled. -/
theorem classify_garbled {received : Received} (signal : received ≠ .nothing)
    (unclean : ∀ id, classify received ≠ .clean id) : classify received = .garbled := by
  cases received with
  | nothing => exact absurd rfl signal
  | overlap => rfl
  | bytes sent =>
    by_cases passes : sent.length = 7 ∧ byteSum sent = 0#8
    · exact absurd (if_pos passes) (unclean (identityOf sent))
    · exact if_neg passes

theorem PackSlot.garble_eq (x : PackSlot) :
    x.garble = if x.state = .online then x else { x with state := .conflict, held := none } := by
  unfold PackSlot.garble
  split
  next online => exact (if_pos online).symm
  next offline => exact (if_neg offline).symm

/-- R125: the window that is due is applied to its slot, and gives way to the next. -/
theorem Engine.announceWindow_due {e : Engine} {a : Fin 32} (due : e.packs.sweep = .attach a) {sweep : SweepPart}
    (next : ∀ b : Fin 32, b.val = a.val + 1 → sweep = .attach b) (last : a.val = 31 → sweep = .downstream)
    (received : Received) :
    e.announceWindow a received =
      Engine.applyWindow { e with packs := { e.packs with sweep := sweep } } a (classify received) := by
  simp only [Engine.announceWindow, due, if_true, Engine.nextWindow_eq e a sweep next last]

section
variable {e : Engine} {a : Fin 32} {id : PackIdentity}

/-- R126: a clean announce at a slot that is not ONLINE. -/
theorem Engine.applyWindow_accepts (offline : (e.packs.slots[a]).state ≠ .online) :
    e.applyWindow a (.clean id) =
      ({ e with
         packs := { e.packs with
           slots := (e.acceptPack id a).1.packs.slots, messages := e.packs.messages ++ [(.welcome, a)] } },
        [.packAttach]) := by
  rw [← Engine.acceptPack_blocks]
  exact if_neg offline

/-- R127: the pack of an ONLINE slot announces itself again. -/
theorem Engine.applyWindow_again (online : (e.packs.slots[a]).state = .online)
    (same : (e.packs.slots[a]).identity = some id) :
    e.applyWindow a (.clean id) =
      ({ e with
         packs := { e.packs with
           slots := e.packs.slots.set a { e.packs.slots[a] with missRun := 0, held := none }
           messages := e.packs.messages ++ [(.welcome, a)] } }, [.packAttach]) := by
  simp only [Engine.applyWindow, if_pos online, if_pos same]
  rfl

/-- R127: another pack announces itself at the address of an ONLINE slot. -/
theorem Engine.applyWindow_occupied (online : (e.packs.slots[a]).state = .online)
    (other : (e.packs.slots[a]).identity ≠ some id) :
    e.applyWindow a (.clean id) =
      ({ e with packs := { e.packs with messages := e.packs.messages ++ [(.occupied, a)] } }, [.packConflict]) := by
  simp only [Engine.applyWindow, if_pos online, if_neg other]
  rfl

end

/-- Settles O50, by the signal in the window, and by the state and the identity of its slot. -/
theorem windowOutcomes : Obligations.WindowOutcomes := by
  rintro s _ a _ received sweep clean on settled rfl due rfl next last isClean
  have window := Engine.announceWindow_due due next last received
  have cleanOf (id : PackIdentity) : classify received = .clean id ↔ clean id :=
    (classify_clean received id).trans (isClean id).symm
  refine ⟨?_, fun signal unclean => ?_, fun id announced => ⟨fun offline => ?_, fun online same => ?_,
    fun online other => ?_⟩⟩
  · rintro rfl
    exact State.act_silent on settled window (rises_of_packs _ _ rfl rfl)
  · have garbled := classify_garbled signal fun id found => unclean id ((cleanOf id).1 found)
    rw [garbled] at window
    rw [← PackSlot.garble_eq]
    exact State.act_raises_of on window
  all_goals rw [(cleanOf id).2 announced] at window
  · obtain ⟨t, taken, raises⟩ := State.act_raises_of on (window.trans (Engine.applyWindow_accepts offline))
    refine ⟨_, t, taken, raises, ?_, fun b elsewhere => ?_⟩
    · rw [Engine.acceptPack_slot, if_pos rfl]
      rfl
    · rw [Engine.acceptPack_slot, if_neg elsewhere]
      rfl
  · exact State.act_raises_of on (window.trans (Engine.applyWindow_again online same))
  · exact State.act_raises_of on (window.trans (Engine.applyWindow_occupied online other))

end Sys2Proof.Machine

/-! ASSIGN PACK, RELEASE PACK, READ PACK TABLE and READ CALLS (R130 to R132, R138, R148). -/
namespace Sys2Proof.Machine

/-! ### Requests on one slot (R130, R131) -/

theorem effectAssignPack_badIndex {q : Payload}
    (h : (Payload.u8 q 0 = 0 ∨ 32 < Payload.u8 q 0) ∨ 24 < Payload.u8 q 1) (e : Engine) :
    effectAssignPack q e = Effect.refuse e .badIndex := by
  unfold effectAssignPack
  rcases h with slot | mix
  · rw [ordinal_none slot]
  · rw [ordinalOrNone_none mix]
    cases ordinal 32 (Payload.u8 q 0) <;> rfl

theorem effectAssignPack_named {q : Payload} {a : Fin 32} {m : Option (Fin 24)} (slot : Payload.u8 q 0 = a.val + 1)
    (mix : Payload.u8 q 1 = numberFor m) (e : Engine) :
    effectAssignPack q e = Effect.accept
      { e with
        packs := { e.packs with
          slots := e.packs.slots.set a { e.packs.slots[a] with assigned := m, target := 0, held := none } } }
      false := by
  simp only [effectAssignPack, ordinal_some slot, ordinalOrNone_some mix]
  rfl

theorem effectReleasePack_badIndex {q : Payload} (h : Payload.u8 q 0 = 0 ∨ 32 < Payload.u8 q 0) (e : Engine) :
    effectReleasePack q e = Effect.refuse e .badIndex := by
  simp only [effectReleasePack, ordinal_none h]

/-- R131, R138: a released slot is freed, its pack is told while it is ONLINE, and its events are discarded. -/
theorem Engine.releaseSlot_eq (a : Fin 32) (e : Engine) :
    e.releaseSlot a =
      { e with
        packs := { e.packs with
          slots := e.packs.slots.set a (e.packs.slots[a]).free
          messages := e.packs.messages ++ (if (e.packs.slots[a]).state = .online then [(.released, a)] else [])
          keyEvents := e.packs.keyEvents.filter fun event => decide (event.1 ≠ a) } } := by
  unfold Engine.releaseSlot
  by_cases online : (e.packs.slots[a]).state = .online
  · simp only [if_pos online]
    rfl
  · simp only [if_neg online, List.append_nil]
    rfl

theorem effectReleasePack_named {q : Payload} {a : Fin 32} (slot : Payload.u8 q 0 = a.val + 1) (e : Engine) :
    effectReleasePack q e = Effect.accept
      { e with
        packs := { e.packs with
          slots := e.packs.slots.set a (e.packs.slots[a]).free
          messages := e.packs.messages ++ (if (e.packs.slots[a]).state = .online then [(.released, a)] else [])
          keyEvents := e.packs.keyEvents.filter fun event => decide (event.1 ≠ a) } } false := by
  simp only [effectReleasePack, ordinal_some slot, Engine.releaseSlot_eq]

/-- R133: nothing rises with a change of one slot that does not make it LOST. -/
theorem rises_of_slot {e : Engine} {b : PackBus} {a : Fin 32} {y : PackSlot} (slots : b.slots = e.packs.slots.set a y)
    (calls : b.calls = e.packs.calls) (lost : y.state = .lost → (e.packs.slots[a]).state = .lost) (p : Port) :
    rises e { e with packs := b } p = [] :=
  rises_of_noNewLoss e b (PackBus.anyLost_of_set e.packs a y lost b slots) calls p

/-! ### Reads of the slots and of the call list (R132, R148) -/

theorem PackSlot.bytes_eq (a : Fin 32) (x : PackSlot) :
    x.bytes a =
      [byteOf (a.val + 1), x.state.code, if x.identity = none then 0 else 1] ++
        (x.identity.getD (Vector.replicate 6 0)).toList ++
        [byteOf (numberFor x.assigned), byteOf x.missRun, byteOf x.target.val,
          byteOf ((if x.silence = true then 1 else 0) + if x.held = none then 0 else 2)] := by
  have identity : flagByte x.identity.isSome = if x.identity = none then 0 else 1 := by
    cases x.identity <;> rfl
  have held : (if x.held.isSome = true then 2 else 0) = if x.held = none then 0 else 2 := by
    cases x.held <;> rfl
  rw [PackSlot.bytes, ordinalByte_eq, identity, held]
  rfl

/-- R149: nothing rises when the call list is emptied. -/
theorem rises_of_callsRead (e : Engine) (p : Port) :
    rises e { e with packs := { e.packs with calls := [] } } p = [] := by
  refine rises_nil fun x holds => ?_
  cases x
  case callsWaiting => cases holds
  all_goals exact holds

/-- Settles O51, request by request. -/
theorem packAndCallRequests : Obligations.PackAndCallRequests := by
  rintro s p q _ idle rfl
  refine ⟨fun charge => ?_, fun code empty online lost conflict => ?_, ?_⟩
  · have assignReplied {e st} (effect : effectAssignPack q s.engine = ⟨e, st, false, [], []⟩)
        (rise : ∀ p', rises s.engine e p' = []) :
        exec (.assignPack p q) s = .next (s.replied p ⟨0x50, q⟩ e st false []) :=
      exec_effect .assignPack rfl idle rfl (class_charge rfl charge) (fun _ => rfl) effect rise
    have releaseReplied {e st} (effect : effectReleasePack q s.engine = ⟨e, st, false, [], []⟩)
        (rise : ∀ p', rises s.engine e p' = []) :
        exec (.releasePack p q) s = .next (s.replied p ⟨0x51, q⟩ e st false []) :=
      exec_effect .releasePack rfl idle rfl (class_charge rfl charge) (fun _ => rfl) effect rise
    refine ⟨fun outside => ⟨?_, ?_⟩, fun outside => ?_, fun a x slot hx => ?_⟩
    · exact assignReplied (effectAssignPack_badIndex (.inl outside) _) (rises_self _)
    · exact releaseReplied (effectReleasePack_badIndex outside _) (rises_self _)
    · exact assignReplied (effectAssignPack_badIndex (.inr outside) _) (rises_self _)
    subst hx
    refine ⟨fun m mix => ?_, ?_⟩
    · exact assignReplied (effectAssignPack_named slot mix _)
        (rises_of_slot rfl rfl fun lost => lost)
    · exact releaseReplied (effectReleasePack_named slot _)
        (rises_of_slot (y := (s.engine.packs.slots[a]).free) rfl rfl nofun)
  · obtain rfl := PackState.code_unique empty online lost conflict
    simp only [← PackSlot.bytes_eq]
    exact exec_effect .readPackTable rfl idle rfl (class_open rfl) (fun _ => rfl) rfl (rises_self _)
  · exact exec_effect .readCalls rfl idle rfl (class_open rfl) (fun _ => rfl) rfl (rises_of_callsRead _)

end Sys2Proof.Machine

/-! The keys that repeat: their steps on the selected target, and the records that hold them (R137, R138, R140, R142,
R143). -/
namespace Sys2Proof.Machine

/-! ### The event at the front of those handed on (R138) -/

/-- The blocks with these events left to apply. -/
def Engine.withEvents (e : Engine) (rest : List (Fin 32 × Byte)) : Engine :=
  { e with packs := { e.packs with keyEvents := rest } }

section
variable {e : Engine} {a : Fin 32} {code : Byte} {rest : List (Fin 32 × Byte)}

theorem Engine.applyEvent_online (front : e.packs.keyEvents = (a, code) :: rest)
    (online : (e.packs.slots[a]).state = .online) (f : Engine → Act) :
    e.applyEvent a code f = f (e.withEvents rest) := by
  simp only [Engine.applyEvent, front, online, if_true, Engine.withEvents]

theorem Engine.applyEvent_offline (front : e.packs.keyEvents = (a, code) :: rest)
    (offline : (e.packs.slots[a]).state ≠ .online) (f : Engine → Act) :
    e.applyEvent a code f = (e.withEvents rest, []) := by
  simp only [Engine.applyEvent, front, if_true, if_neg offline, Engine.withEvents]

end

/-! ### The step of a key (R26, R139, R140) -/

/-- R139: the targets that a slot may select. -/
theorem Engine.selectable_iff (e : Engine) (assigned : Option (Fin 24)) (t : Fin 9) :
    e.selectable assigned t = true ↔ t.val = 0 ∨ ∃ (m : Fin 24) (g : Fin 8), assigned = some m ∧
      t.val = g.val + 1 ∧ ((e.tables.mixes[m]).groups[g]).members ≠ [] := by
  unfold Engine.selectable
  split
  next master => exact iff_of_true rfl (.inl master)
  next group =>
    rw [or_iff_right group]
    cases assigned with
    | none => exact iff_of_false Bool.false_ne_true nofun
    | some m =>
      simp only [Bool.not_eq_true', List.isEmpty_eq_false_iff]
      constructor
      · exact fun members => ⟨m, ⟨t.val - 1, by omega⟩, rfl, by simp only; omega, members⟩
      · rintro ⟨_, g, ⟨⟩, place, members⟩
        simp only [place, Nat.add_sub_cancel]
        exact members

theorem RepeatKey.delta_eq (key : RepeatKey) : key.delta = if key = .up then 1 else -1 := by
  cases key <;> rfl

section
variable {e : Engine} {a : Fin 32} {m : Fin 24} {g : Fin 8} (key : RepeatKey)

theorem Engine.step_dropped (dropped : e.dropsStep e.packs.slots[a] = true) : e.step a key = (e, []) :=
  if_pos dropped

theorem Engine.dropsStep_unassigned {x : PackSlot} (h : x.assigned = none) : e.dropsStep x = true := by
  simp only [Engine.dropsStep, h]

theorem Engine.dropsStep_assigned {x : PackSlot} (h : x.assigned = some m) :
    e.dropsStep x = true ↔ ((e.tables.mixes[m]).record.hold = true ∨ MixSet.has e.awaiting m = true) ∨
      ¬ e.selectable (some m) x.target = true := by
  simp only [Engine.dropsStep, h, Bool.or_eq_true, Bool.not_eq_true', Bool.not_eq_true]

/-- R26, R140: a step that nothing drops. -/
theorem Engine.dropsStep_free {x : PackSlot} (h : x.assigned = some m)
    (held : (e.tables.mixes[m]).record.hold = false) (loaded : MixSet.has e.awaiting m = false)
    (selected : e.selectable (some m) x.target = true) : e.dropsStep x = false := by
  simp only [Engine.dropsStep, h, held, loaded, selected, Bool.not_true, Bool.or_false]

theorem Engine.selectable_master {assigned : Option (Fin 24)} {t : Fin 9} (target : t.val = 0) :
    e.selectable assigned t = true :=
  (Engine.selectable_iff _ _ _).2 (.inl target)

theorem Engine.selectable_group {x : PackSlot} (target : x.target.val = g.val + 1) :
    e.selectable (some m) x.target = true ↔ ((e.tables.mixes[m]).groups[g]).members ≠ [] := by
  rw [Engine.selectable_iff]
  constructor
  · rintro (master | ⟨_, g', ⟨⟩, place, members⟩)
    · omega
    · obtain rfl : g' = g := Fin.ext (by omega)
      exact members
  · exact fun members => .inr ⟨m, g, rfl, target, members⟩

/-- R140: the step of a slot whose selected target is the master offset. -/
theorem Engine.step_master (assigned : (e.packs.slots[a]).assigned = some m)
    (held : (e.tables.mixes[m]).record.hold = false) (loaded : MixSet.has e.awaiting m = false)
    (target : (e.packs.slots[a]).target.val = 0) : e.step a key = e.stepMaster m key := by
  have free := Engine.dropsStep_free assigned held loaded (Engine.selectable_master target)
  simp only [Engine.step, free, Bool.false_eq_true, if_false, assigned, target, dite_true]

/-- R140: the step of a slot whose selected target is a group that is not empty. -/
theorem Engine.step_group (assigned : (e.packs.slots[a]).assigned = some m)
    (held : (e.tables.mixes[m]).record.hold = false) (loaded : MixSet.has e.awaiting m = false)
    (target : (e.packs.slots[a]).target.val = g.val + 1)
    (members : ((e.tables.mixes[m]).groups[g]).members ≠ []) : e.step a key = e.stepGroup m g key := by
  have free := Engine.dropsStep_free assigned held loaded ((Engine.selectable_group target).2 members)
  simp only [Engine.step, free, Bool.false_eq_true, if_false, assigned, target, Nat.add_one_ne_zero, dite_false,
    Nat.add_sub_cancel]

theorem Engine.stepMaster_end
    (h : within (-120) 20 ((e.tables.mixes[m]).record.master + key.delta) = (e.tables.mixes[m]).record.master) :
    e.stepMaster m key = (e, []) := by
  simp only [Engine.stepMaster, clampInt_eq (show (-120 : Int) ≤ 20 by decide), h, if_true]

theorem Engine.stepMaster_moves {new : Int}
    (value : new = within (-120) 20 ((e.tables.mixes[m]).record.master + key.delta))
    (moves : new ≠ (e.tables.mixes[m]).record.master) :
    e.stepMaster m key =
      (Engine.recompute
        { e with
          tables := { e.tables with
            mixes := e.tables.mixes.set m
              { e.tables.mixes[m] with record := { (e.tables.mixes[m]).record with master := new } } } }
        (reachMix m), [.packAdjust]) := by
  simp only [Engine.stepMaster, clampInt_eq (show (-120 : Int) ≤ 20 by decide), ← value, if_neg moves]
  rfl

theorem Engine.stepGroup_end
    (h : within (-80) 20 (((e.tables.mixes[m]).groups[g]).trim + key.delta) =
      ((e.tables.mixes[m]).groups[g]).trim) : e.stepGroup m g key = (e, []) := by
  simp only [Engine.stepGroup, clampInt_eq (show (-80 : Int) ≤ 20 by decide), h, if_true]

theorem Engine.stepGroup_moves {new : Int}
    (value : new = within (-80) 20 (((e.tables.mixes[m]).groups[g]).trim + key.delta))
    (moves : new ≠ ((e.tables.mixes[m]).groups[g]).trim) :
    e.stepGroup m g key =
      (Engine.recompute
        { e with
          tables := { e.tables with
            mixes := e.tables.mixes.set m
              { e.tables.mixes[m] with
                groups := (e.tables.mixes[m]).groups.set g
                  { (e.tables.mixes[m]).groups[g] with trim := new } } } }
        (reachInputsOf m ((e.tables.mixes[m]).groups[g]).members), [.packAdjust]) := by
  simp only [Engine.stepGroup, clampInt_eq (show (-80 : Int) ≤ 20 by decide), ← value, if_neg moves]
  rfl

end

/-! ### A step and its record (R142, R143) -/

/-- R142, R143: what a make of a repeating key and the expiry of its record have in common. -/
def Engine.stepAndHold (a : Fin 32) (key : RepeatKey) (held : HeldKey) (e : Engine) : Act :=
  (e.step a key).andThen fun e' => (e'.setHeld a (some held), [])

theorem Engine.makeRepeating_eq (a : Fin 32) (key : RepeatKey) :
    Engine.makeRepeating a key = Engine.stepAndHold a key ⟨key, .delay, 400⟩ := rfl

theorem Engine.expire_held {e : Engine} {a : Fin 32} {key : RepeatKey} {phase : HeldPhase} {time : Nat}
    (h : (e.packs.slots[a]).held = some ⟨key, phase, time⟩) :
    e.expire a = e.stepAndHold a key ⟨key, .repeating, 100⟩ := by
  simp only [Engine.expire, h]
  rfl

/-- R142, R143: each of the three commands is a step of its key and then a record, on the events left. -/
theorem exec_keyStep {s : State} {c : Instr} {a : Fin 32} {key : RepeatKey} {rest : List (Fin 32 × Byte)}
    {held : HeldKey} (online : (s.engine.packs.slots[a]).state = .online)
    (h :
      (c = .makeOfUp a ∧ key = .up ∧ s.engine.packs.keyEvents = (a, 0x01) :: rest ∧ held = ⟨.up, .delay, 400⟩) ∨
      (c = .makeOfDown a ∧ key = .down ∧ s.engine.packs.keyEvents = (a, 0x02) :: rest ∧
        held = ⟨.down, .delay, 400⟩) ∨
      (c = .heldKeyExpiry a ∧ (∃ phase time, (s.engine.packs.slots[a]).held = some ⟨key, phase, time⟩) ∧
        rest = s.engine.packs.keyEvents ∧ held = ⟨key, .repeating, 100⟩)) :
    ∃ f : Engine → Act, exec c s = s.act f ∧
      f s.engine = Engine.stepAndHold a key held (s.engine.withEvents rest) := by
  rcases h with ⟨rfl, rfl, front, rfl⟩ | ⟨rfl, rfl, front, rfl⟩ | ⟨rfl, ⟨phase, time, record⟩, rfl, rfl⟩
  · refine ⟨Engine.applyEvent a 0x01 (Engine.makeRepeating a .up), rfl, ?_⟩
    rw [Engine.applyEvent_online front online, Engine.makeRepeating_eq]
  · refine ⟨Engine.applyEvent a 0x02 (Engine.makeRepeating a .down), rfl, ?_⟩
    rw [Engine.applyEvent_online front online, Engine.makeRepeating_eq]
  · exact ⟨Engine.expire a, rfl, Engine.expire_held record⟩

theorem Engine.stepAndHold_unmoved {e : Engine} {a : Fin 32} {key : RepeatKey} (h : e.step a key = (e, []))
    (held : HeldKey) :
    e.stepAndHold a key held =
      ({ e with
         packs := { e.packs with slots := e.packs.slots.set a { e.packs.slots[a] with held := some held } } },
        []) := by
  rw [Engine.stepAndHold, h]
  rfl

/-- R140: the record is no part of what the pairs are recomputed from. -/
theorem Engine.stepAndHold_moved {e : Engine} {a : Fin 32} {key : RepeatKey} {t : Tables}
    {reach : Fin 24 → Fin 64 → Bool}
    (h : e.step a key = (Engine.recompute { e with tables := t } reach, [.packAdjust])) (held : HeldKey) :
    e.stepAndHold a key held =
      (Engine.recompute
        { e with
          tables := t
          packs := { e.packs with slots := e.packs.slots.set a { e.packs.slots[a] with held := some held } } }
        reach, [.packAdjust]) := by
  rw [Engine.stepAndHold, h]
  rfl

/-- Settles O52, by why the step is dropped, or by the target that it moves. -/
theorem keySteps : Obligations.KeySteps := by
  rintro s c a _ key rest held _ after _ on settled rfl rfl online rfl command rfl
  obtain ⟨f, run, acts⟩ := exec_keyStep online command
  rw [run, ← RepeatKey.delta_eq]
  have unmoved (step : (s.engine.withEvents rest).step a key = (s.engine.withEvents rest, [])) :=
    State.act_silent on settled (acts.trans (Engine.stepAndHold_unmoved step held))
      (rises_of_slot (e := s.engine) rfl rfl fun lost => lost)
  have dropped (drops : (s.engine.withEvents rest).dropsStep s.engine.packs.slots[a] = true) :=
    unmoved (Engine.step_dropped key drops)
  have moved {t : Tables} {reach : Fin 24 → Fin 64 → Bool}
      (step : (s.engine.withEvents rest).step a key = _) :=
    State.act_raises_of on (acts.trans (Engine.stepAndHold_moved (t := t) (reach := reach) step held))
  refine ⟨fun unassigned => dropped (Engine.dropsStep_unassigned unassigned), ?_⟩
  rintro m _ assigned rfl
  refine ⟨fun barred => ?_, fun free loaded => ⟨?_, ?_⟩⟩
  · exact dropped ((Engine.dropsStep_assigned assigned).2 (.inl barred))
  · rintro master new value
    have step := Engine.step_master (e := s.engine.withEvents rest) key assigned free loaded master
    refine ⟨fun same => unmoved (step.trans (Engine.stepMaster_end key (value.symm.trans same))), fun differs => ?_⟩
    obtain ⟨t, next, raises⟩ := moved (step.trans (Engine.stepMaster_moves key value differs))
    exact ⟨_, t, next, raises, Engine.recompute_blocks _ _, Engine.recompute_retargets rfl _⟩
  · rintro g _ target rfl
    refine ⟨fun empty => dropped ?_, fun members new value => ?_⟩
    · exact (Engine.dropsStep_assigned assigned).2
        (.inr fun selected => (Engine.selectable_group target).1 selected empty)
    have step := Engine.step_group (e := s.engine.withEvents rest) key assigned free loaded target members
    refine ⟨fun same => unmoved (step.trans (Engine.stepGroup_end key (value.symm.trans same))), fun differs => ?_⟩
    obtain ⟨t, next, raises⟩ := moved (step.trans (Engine.stepGroup_moves key value differs))
    refine ⟨_, t, next, raises, Engine.recompute_blocks _ _, ?_⟩
    refine Engine.Retargets.congr (Engine.recompute_retargets rfl _) fun m' i => ?_
    rw [reachInputsOf, List.contains_eq_mem]
    rfl

end Sys2Proof.Machine

/-! The other key events: the selected target, silence, the call list, breaks and codes that act on nothing (R137 to
R139, R144 to R147). -/
namespace Sys2Proof.Machine

/-! ### The selected target (R139) -/

/-- A search that meets target 0 finds the nearest target that may be selected. -/
theorem Engine.selectFrom_nearest {e : Engine} {assigned : Option (Fin 24)} {order : List (Fin 9)}
    {selects : Fin 9 → Prop} (selected : ∀ t, selects t ↔ e.selectable assigned t = true) (place : Nat → Nat)
    (length : order.length = 9) (places : ∀ k : Fin 9, (order[k.val]).val = place (k.val + 1)) (zero : 0 ∈ order) :
    ∃ d, 1 ≤ d ∧ d ≤ 9 ∧ (e.selectFrom assigned order).val = place d ∧ selects (e.selectFrom assigned order) ∧
      ∀ (u : Fin 9) (k : Nat), 1 ≤ k → k < d → u.val = place k → ¬ selects u := by
  obtain ⟨t, d, inOrder, found, there, selectable, nearer⟩ :=
    find_of_first order (e.selectable assigned) ⟨0, zero, Engine.selectable_master rfl⟩
  have chosen : e.selectFrom assigned order = t := by rw [Engine.selectFrom, found, Option.getD_some]
  rw [chosen]
  refine ⟨d + 1, by omega, by omega, ?_, (selected t).2 selectable, fun u k positive before here => ?_⟩
  · rw [← there]
    exact places ⟨d, by omega⟩
  · have met : order[k - 1] = u := Fin.ext <| by
      rw [places ⟨k - 1, by omega⟩, here, Nat.sub_add_cancel positive]
    rw [selected, ← met, nearer (k - 1) (by omega)]
    exact Bool.false_ne_true

theorem upwardFrom_length (t : Fin 9) : (upwardFrom t).length = 9 := by
  rw [upwardFrom, List.length_map, List.length_finRange]

theorem downwardFrom_length (t : Fin 9) : (downwardFrom t).length = 9 := by
  rw [downwardFrom, List.length_map, List.length_finRange]

/-! ### What each event does at its slot (R144, R147) -/

/-- The blocks with these events left to apply and this record of one slot. -/
def Engine.withSlot (e : Engine) (rest : List (Fin 32 × Byte)) (a : Fin 32) (y : PackSlot) : Engine :=
  { e with packs := { e.packs with keyEvents := rest, slots := e.packs.slots.set a y } }

theorem Engine.withSlot_self (e : Engine) (rest : List (Fin 32 × Byte)) (a : Fin 32) :
    e.withSlot rest a e.packs.slots[a] = e.withEvents rest := by
  rw [Engine.withSlot, Fin.getElem_fin, Vector.set_getElem_self]
  rfl

section
variable {e : Engine} {a : Fin 32}

theorem Engine.selectNext_eq (rest : List (Fin 32 × Byte)) :
    (e.withEvents rest).selectNext a =
      (e.withSlot rest a { e.packs.slots[a] with
        target := e.selectFrom (e.packs.slots[a]).assigned (upwardFrom (e.packs.slots[a]).target) }, []) := rfl

theorem Engine.selectPrev_eq (rest : List (Fin 32 × Byte)) :
    (e.withEvents rest).selectPrev a =
      (e.withSlot rest a { e.packs.slots[a] with
        target := e.selectFrom (e.packs.slots[a]).assigned (downwardFrom (e.packs.slots[a]).target) }, []) := rfl

/-- R144: the record of the key that is let go of ends, and one of the other key stands. -/
theorem Engine.breakRepeating_eq (rest : List (Fin 32 × Byte)) (key : RepeatKey) :
    (e.withEvents rest).breakRepeating a key =
      (e.withSlot rest a { e.packs.slots[a] with
        held := if (e.packs.slots[a]).held.map (fun h => h.key) = some key then none else (e.packs.slots[a]).held },
        []) := by
  have record : ((e.withEvents rest).packs.slots[a]).held = (e.packs.slots[a]).held := rfl
  cases held : (e.packs.slots[a]).held with
  | none =>
    simp only [Engine.breakRepeating, record, held, Option.map_none, reduceCtorEq, if_false]
    rw [← held, ← Engine.withSlot_self]
  | some h =>
    simp only [Engine.breakRepeating, record, held, Option.map_some, Option.some.injEq]
    split
    · rfl
    · rw [← held, ← Engine.withSlot_self]

theorem Engine.addCall_again (called : a ∈ e.packs.calls) : e.addCall a = (e, []) := by
  rw [Engine.addCall, if_pos (List.contains_iff_mem.2 called)]

theorem Engine.addCall_first (absent : a ∉ e.packs.calls) :
    e.addCall a = ({ e with packs := { e.packs with calls := e.packs.calls ++ [a] } }, [.call]) := by
  rw [Engine.addCall, if_neg (fun called => absent (List.contains_iff_mem.1 called))]

end

/-- Settles O53, by whether the slot is ONLINE, and by the code. -/
theorem otherKeyEvents : Obligations.OtherKeyEvents := by
  rintro s a _ code rest _ selects put on settled rfl rfl front selectable puts
  obtain rfl : put = s.engine.withSlot rest a := funext puts
  have slotKept {f : Engine → Act} {y : PackSlot} (eq : f s.engine = (s.engine.withSlot rest a y, []))
      (state : y.state = (s.engine.packs.slots[a]).state) :
      s.act f = .next (s.setEngine (s.engine.withSlot rest a y)) :=
    State.act_silent on settled eq (rises_of_slot rfl rfl fun lost => state ▸ lost)
  have untouched {f : Engine → Act} (eq : f s.engine = (s.engine.withEvents rest, [])) :
      s.act f = .next (s.setEngine (s.engine.withSlot rest a s.engine.packs.slots[a])) :=
    slotKept (by rw [eq, Engine.withSlot_self]) rfl
  have passed : s.act (Engine.applyEvent a code Engine.passOver) =
      .next (s.setEngine (s.engine.withSlot rest a s.engine.packs.slots[a])) := by
    by_cases online : (s.engine.packs.slots[a]).state = .online
    · exact untouched (Engine.applyEvent_online front online Engine.passOver)
    · exact untouched (Engine.applyEvent_offline front online Engine.passOver)
  have selected (t : Fin 9) : selects t ↔ s.engine.selectable (s.engine.packs.slots[a]).assigned t = true :=
    (selectable t).trans (Engine.selectable_iff _ _ _).symm
  refine ⟨fun offline => ?_, ?_, ?_, ?_, ?_, fun _ => passed, fun online => ?_⟩
  · have discarded (f : Engine → Act) := untouched (Engine.applyEvent_offline front offline f)
    refine ⟨?_, ?_, ?_, ?_, ?_, ?_, ?_, ?_, ?_⟩
    all_goals
      rintro rfl
      exact discarded _
  iterate 4
    · rintro rfl
      exact passed
  have acts (f : Engine → Act) := Engine.applyEvent_online front online f
  refine ⟨?_, ?_, ?_, ?_, ?_, ?_, ?_⟩
  · rintro rfl
    obtain ⟨d, nearest⟩ := Engine.selectFrom_nearest selected
      (fun d => ((s.engine.packs.slots[a]).target.val + d) % 9) (upwardFrom_length _) (upwardFrom_get _)
      (zero_mem_upwardFrom _)
    exact ⟨_, d, slotKept ((acts _).trans (Engine.selectNext_eq rest)) rfl, nearest⟩
  · rintro rfl
    obtain ⟨d, nearest⟩ := Engine.selectFrom_nearest selected
      (fun d => ((s.engine.packs.slots[a]).target.val + 9 - d) % 9) (downwardFrom_length _) (downwardFrom_get _)
      (zero_mem_downwardFrom _)
    exact ⟨_, d, slotKept ((acts _).trans (Engine.selectPrev_eq rest)) rfl, nearest⟩
  · rintro rfl
    refine ⟨fun called => ?_, fun absent => ?_⟩
    · exact untouched ((acts _).trans (Engine.addCall_again (e := s.engine.withEvents rest) called))
    · exact State.act_raises_of on
        ((acts _).trans (Engine.addCall_first (e := s.engine.withEvents rest) absent))
  · rintro rfl
    exact slotKept (acts (Engine.toggleSilence a)) rfl
  · rintro rfl
    exact slotKept ((acts _).trans (Engine.breakRepeating_eq rest .up)) rfl
  · rintro rfl
    exact slotKept ((acts _).trans (Engine.breakRepeating_eq rest .down)) rfl
  · rintro rfl
    exact slotKept (acts (Engine.overflow a)) rfl

end Sys2Proof.Machine

/-! The invariant of the control ports: a port is served whatever command is taken (R154, R155, R159, R170), and a frame
is marked as not to be seen only right before the warm reset that leaves it unsent (R78, R90, R167, log 26). -/
namespace Sys2Proof.Machine

/-! ### A port while it takes requests -/

/-- R154, R155, R159, R170: a served port, but for one thing that does not hold in between, while the port takes
requests from its queue: that nothing is queued while nothing is in service. -/
structure PortState.Sound (x : PortState) : Prop where
  queue : x.queue.length ≤ 4
  reply : x.repliesUnderWay = if x.service = none then 0 else 1
  settled : x.settled
  unit : x.unit.Orderly

theorem PortState.Served.sound {x : PortState} (h : x.Served) : x.Sound := ⟨h.queue, h.reply, h.settled, h.unit⟩

theorem PortState.Sound.served {x : PortState} (h : x.Sound) (taken : x.service = none → x.queue = []) : x.Served :=
  ⟨h.queue, taken, h.reply, h.settled, h.unit⟩

/-- What makes a port served says nothing of its receiver, its flags, its parked wait and its mark. -/
theorem PortState.Served.congr {x y : PortState} (h : x.Served) (queue : y.queue = x.queue)
    (service : y.service = x.service) (line : y.line = x.line) (ready : y.ready = x.ready) (unit : y.unit = x.unit) :
    y.Served where
  queue := queue ▸ h.queue
  taken := service ▸ queue ▸ h.taken
  reply := by
    have sent : y.outgoing = x.outgoing := by rw [PortState.outgoing, line, ready, PortState.outgoing]
    rw [sent, service]
    exact h.reply
  settled := by
    unfold PortState.settled
    rw [line, ready]
    exact h.settled
  unit := unit ▸ h.unit

/-! ### The end of a command -/

/-- What holds of a port and of the other one holds of both. -/
theorem Port.both {P : Port → Prop} {p : Port} (own : P p) (other : P p.other) (p' : Port) : P p' := by
  rcases Port.eq_or_other p p' with rfl | rfl
  · exact own
  · exact other

theorem State.setPort_served {s : State} (h : ∀ p, (s.port p).Served) {p : Port} {x : PortState} (hx : x.Served)
    (p' : Port) : ((s.setPort p x).port p').Served :=
  Port.both (P := fun p' => ((s.setPort p x).port p').Served) (by rwa [State.setPort_port])
    (by rw [State.setPort_port_other]; exact h _) p'

@[simp] theorem State.port_withPending (s : State) (commands : List Instr) (p : Port) :
    ({ s with pending := commands } : State).port p = s.port p := by cases p <;> rfl

@[simp] theorem State.port_withDraws (s : State) (draws : Nat) (p : Port) :
    ({ s with draws := draws } : State).port p = s.port p := by cases p <;> rfl

/-- A port whose receiver, flags, parked wait or mark is replaced. -/
theorem State.setPort_served_same {s : State} (h : ∀ p, (s.port p).Served) {p : Port} {x : PortState}
    (p' : Port) (queue : x.queue = (s.port p).queue := by rfl) (service : x.service = (s.port p).service := by rfl)
    (line : x.line = (s.port p).line := by rfl) (ready : x.ready = (s.port p).ready := by rfl)
    (unit : x.unit = (s.port p).unit := by rfl) : ((s.setPort p x).port p').Served :=
  State.setPort_served h ((h p).congr queue service line ready unit) p'

/-- R158, R159, R170: the end of a command leaves a port sound when the replies it makes there are as many as the service
cell asks for. -/
theorem State.conclude_sound {s : State} {p p' : Port} {own : List (List Happening)} (before : Engine)
    (events : List Event) (queue : (s.port p').queue.length ≤ 4)
    (reply : (s.port p').repliesUnderWay + (if p' = p then own.flatten.countP isReply else 0) =
      if (s.port p').service = none then 0 else 1)
    (unit : (s.port p').unit.Orderly ∨ (p' = p ∧ .update ∈ own.flatten)) :
    ((s.conclude before events p own).port p').Sound := by
  obtain ⟨same, -, settled⟩ := s.conclude_same before events p own p'
  refine ⟨?_, ?_, settled, s.conclude_orderly before events p own p' unit⟩
  · rw [same.queue]
    exact queue
  · rw [same.service, State.conclude_repliesUnderWay]
    exact reply

/-- A command that makes no reply of a request in service keeps both ports served. -/
theorem State.conclude_served {s : State} (h : ∀ p, (s.port p).Served) {own : List (List Happening)}
    (quiet : own.flatten.countP isReply = 0) (before : Engine) (events : List Event) (p p' : Port) :
    ((s.conclude before events p own).port p').Served := by
  have same := (s.conclude_same before events p own p').1
  refine (State.conclude_sound before events (h p').queue ?_ (.inl (h p').unit)).served fun free => ?_
  · rw [quiet, ite_self]
    exact (h p').reply
  · rw [same.service] at free
    rw [same.queue]
    exact (h p').taken free

theorem State.acted_served {s : State} (h : ∀ p, (s.port p).Served) (f : Engine → Act) (p : Port) :
    ((s.acted f).port p).Served :=
  State.conclude_served (fun p => by rw [State.setEngine_port]; exact h p) rfl _ _ _ _

theorem State.act_served {s t : State} {f : Engine → Act} (h : ∀ p, (s.port p).Served) (e : s.act f = .next t)
    (p : Port) : (t.port p).Served := by
  unfold State.act at e
  split at e <;> cases e
  · exact State.acted_served h f p
  · exact h p

/-! ### Taking requests (R155) -/

/-- R155, R158: a request taken by a free port makes its one reply, or leaves service and makes none. -/
theorem State.applyRequest_sound {s : State} {p : Port} (h : ∀ p', (s.port p').Sound)
    (free : (s.port p).service = none) (r : Request) (p' : Port) : ((s.applyRequest p r).port p').Sound := by
  have keeps := answerOf_keeps r p s.engine { s.port p with service := some r }
  have once := answerOf_repliesOnce r p s.engine { s.port p with service := some r } nofun
  have unit := answerOf_orderly r p s.engine { s.port p with service := some r } (h p).unit
  unfold State.applyRequest
  dsimp only
  generalize answerOf r p s.engine { s.port p with service := some r } = a at keeps once unit ⊢
  rcases Port.eq_or_other p p' with rfl | rfl
  · have before : a.port.repliesUnderWay = 0 := by
      rw [PortState.repliesUnderWay, PortState.outgoing, keeps.line, keeps.ready]
      exact (h p').reply.trans (if_pos free)
    refine State.conclude_sound _ _ ?_ ?_ (unit.imp (fun orderly => ?_) fun update => ⟨rfl, update⟩)
    · rw [State.setPort_port, keeps.queue]
      exact (h p').queue
    · rw [State.setPort_port, if_pos rfl, before, Nat.zero_add]
      exact once
    · rw [State.setPort_port]
      exact orderly
  · have other : ((s.setEngine a.engine).setPort p a.port).port p.other = s.port p.other := by
      rw [State.setPort_port_other, State.setEngine_port]
    refine State.conclude_sound _ _ ?_ ?_ (.inl ?_)
    · rw [other]
      exact (h p.other).queue
    · rw [other, if_neg (Port.other_ne p)]
      exact (h p.other).reply
    · rw [other]
      exact (h p.other).unit

theorem State.applyRequest_other (s : State) (p : Port) (r : Request) :
    PortState.Same (s.port p.other) ((s.applyRequest p r).port p.other) := by
  have same := fun e x events own => (((s.setEngine e).setPort p x).conclude_same s.engine events p own p.other).1
  simp only [State.setPort_port_other, State.setEngine_port] at same
  exact same _ _ _ _

/-- R155: what one turn of a port's service can be: the oldest request is taken, or there is nothing to take, or the port
is busy. -/
theorem State.takeOne_cases (s : State) (p : Port) :
    (∃ r rest, (s.port p).service = none ∧ (s.port p).queue = r :: rest ∧
      s.takeOne p = (s.setPort p { s.port p with queue := rest }).applyRequest p r) ∨
    (s.takeOne p = s ∧ ((s.port p).service ≠ none ∨ (s.port p).queue = [])) := by
  unfold State.takeOne
  cases service : (s.port p).service with
  | some v => exact .inr ⟨rfl, .inl nofun⟩
  | none =>
    cases queue : (s.port p).queue with
    | nil => exact .inr ⟨rfl, .inr rfl⟩
    | cons r rest => exact .inl ⟨r, rest, rfl, rfl, rfl⟩

theorem State.takeOne_sound {s : State} (h : ∀ p', (s.port p').Sound) (p p' : Port) :
    ((s.takeOne p).port p').Sound := by
  obtain ⟨r, rest, free, queue, taken⟩ | ⟨idle, -⟩ := s.takeOne_cases p
  · rw [taken]
    refine State.applyRequest_sound (fun q => ?_) (by rw [State.setPort_port]; exact free) r p'
    rcases Port.eq_or_other p q with rfl | rfl
    · rw [State.setPort_port]
      refine ⟨?_, (h q).reply, (h q).settled, (h q).unit⟩
      have := (h q).queue
      rw [queue, List.length_cons] at this
      exact Nat.le_of_succ_le this
    · rw [State.setPort_port_other]
      exact h _
  · rw [idle]
    exact h p'

theorem State.takeOne_other (s : State) (p : Port) :
    PortState.Same (s.port p.other) ((s.takeOne p).port p.other) := by
  obtain ⟨r, rest, -, -, taken⟩ | ⟨idle, -⟩ := s.takeOne_cases p
  · have same := State.applyRequest_other (s.setPort p { s.port p with queue := rest }) p r
    rwa [State.setPort_port_other, ← taken] at same
  · rw [idle]
    exact ⟨rfl, rfl, rfl, rfl⟩

theorem State.serve_sound (p : Port) (k : Nat) {s : State} (h : ∀ p', (s.port p').Sound) (p' : Port) :
    ((State.serve p k s).port p').Sound := by
  induction k generalizing s with
  | zero => exact h p'
  | succ k ih => exact ih (State.takeOne_sound h p)

theorem State.serve_other (p : Port) (k : Nat) (s : State) :
    PortState.Same (s.port p.other) ((State.serve p k s).port p.other) := by
  induction k generalizing s with
  | zero => exact ⟨rfl, rfl, rfl, rfl⟩
  | succ k ih => exact (s.takeOne_other p).trans (ih _)

/-- R155: as many turns as there are requests leave one in service or the queue empty. -/
theorem State.serve_taken (p : Port) (k : Nat) {s : State} (enough : (s.port p).queue.length ≤ k)
    (free : ((State.serve p k s).port p).service = none) : ((State.serve p k s).port p).queue = [] := by
  induction k generalizing s with
  | zero => exact List.length_eq_zero_iff.1 (Nat.le_zero.1 enough)
  | succ k ih =>
    refine ih ?_ free
    obtain ⟨r, rest, -, queue, taken⟩ | ⟨idle, busy | empty⟩ := s.takeOne_cases p
    · rw [taken, (State.applyRequest_queue _ p r).1, State.setPort_port]
      rw [queue, List.length_cons] at enough
      exact Nat.le_of_succ_le_succ enough
    · obtain ⟨v, service⟩ := Option.ne_none_iff_exists'.1 busy
      rw [State.serve_busy p s v service] at free
      exact absurd free busy
    · rw [idle, empty]
      exact Nat.zero_le k

/-- R155: a port that serves its queue is left served. -/
theorem State.serveQueue_served {s : State} {p : Port} (own : (s.port p).Sound) (other : (s.port p.other).Served)
    (p' : Port) : ((s.serveQueue p).port p').Served := by
  have sound : ∀ q, (s.port q).Sound := fun q => by
    rcases Port.eq_or_other p q with rfl | rfl
    · exact own
    · exact other.sound
  refine (State.serve_sound p _ sound p').served fun free => ?_
  rcases Port.eq_or_other p p' with rfl | rfl
  · exact State.serve_taken p' _ (Nat.le_refl _) free
  · have same := State.serve_other p (s.port p).queue.length s
    rw [same.service] at free
    rw [same.queue]
    exact other.taken free

theorem State.offerRequest_served {s : State} (h : ∀ p, (s.port p).Served) (p : Port) (r : Request) (p' : Port) :
    ((s.offerRequest p r).port p').Served := by
  unfold State.offerRequest
  split
  · rename_i room
    refine State.serveQueue_served ?_ (by rw [State.setPort_port_other]; exact h _) p'
    rw [State.setPort_port]
    refine ⟨?_, (h p).reply, (h p).settled, (h p).unit⟩
    rw [List.length_append]
    exact room
  · exact State.setPort_served_same h p'

theorem State.gather_served {s : State} (h : ∀ p, (s.port p).Served) (p : Port) (got : List Byte) (p' : Port) :
    ((s.gather p got).port p').Served := by
  unfold State.gather
  split
  · exact State.setPort_served_same h p'
  · split
    · split
      · exact State.offerRequest_served (State.setPort_served_same h) p _ p'
      · exact State.setPort_served_same h p'
    · exact State.setPort_served_same h p'

/-! ### Resets and the end of a frame -/

theorem NoticeUnit.orderly_reset : NoticeUnit.reset.Orderly :=
  ⟨fun _ => rfl, fun _ masked => by simp [NoticeUnit.reset] at masked⟩

/-- R166: a request in service keeps its reply at a port reset. -/
theorem PortState.Served.portReset {x : PortState} (h : x.Served) : x.portReset.Served where
  queue := Nat.zero_le 4
  taken _ := rfl
  reply := by
    have kept : x.portReset.outgoing.countP Frame.isService = x.outgoing.countP Frame.isService := by
      simp [PortState.outgoing, PortState.portReset, List.countP_append, List.countP_filter]
    rw [kept]
    exact h.reply
  settled idle := by simp [PortState.portReset, h.settled idle]
  unit := NoticeUnit.orderly_reset

/-- R167, R168: a request stays in service at a warm reset with its reply, the frame on the line. -/
theorem PortState.warmReset_served {x : PortState} (h : ∀ y, x.line = some (.service y) → x.service ≠ none) :
    x.warmReset.Served where
  queue := Nat.zero_le 4
  taken _ := rfl
  reply := by
    have sent : x.warmReset.outgoing = x.keptLine.toList := List.append_nil _
    have service : x.warmReset.service = if x.keptLine.any Frame.isService = true then x.service else none :=
      x.keptService_eq
    rw [sent, service]
    cases kept : x.keptLine with
    | none => rfl
    | some f =>
      cases f with
      | service y =>
        have line : x.line = some (.service y) := by
          unfold PortState.keptLine at kept
          split at kept
          · cases kept
          · exact kept
        exact (if_neg (h y line)).symm
      | parked y => rfl
      | attention b => rfl
  settled _ := rfl
  unit := NoticeUnit.orderly_reset

/-- R155: a reply of a request in service on the line is its only one. -/
theorem PortState.Served.line_service {x : PortState} (h : x.Served) {y : Reply} (line : x.line = some (.service y)) :
    x.service ≠ none ∧ x.ready.countP Frame.isService = 0 := by
  have reply := h.reply
  rw [PortState.outgoing, line, Option.toList_some, List.singleton_append, List.countP_cons_of_pos rfl] at reply
  split at reply
  · cases reply
  · exact ⟨‹_›, Nat.succ.inj reply⟩

theorem State.warmReset_served {s : State} (h : ∀ p y, (s.port p).line = some (.service y) → (s.port p).service ≠ none)
    (p : Port) : (s.warmReset.port p).Served := by
  rw [State.warmReset_port]
  exact PortState.warmReset_served (h p)

theorem PortState.lineEnds_settled (x : PortState) : x.lineEnds.settled := PortState.kick_settled _

theorem PortState.lineEnds_outgoing (x : PortState) : x.lineEnds.outgoing = x.ready := by
  rw [PortState.lineEnds, PortState.kick_outgoing]
  rfl

/-- R159: the end of a frame other than the reply of the request in service leaves service as it is. -/
theorem PortState.Served.lineEnds {x : PortState} (h : x.Served) {f : Frame} (line : x.line = some f)
    (other : f.isService = false) : x.lineEnds.Served where
  queue := by rw [PortState.lineEnds, PortState.kick_queue]; exact h.queue
  taken := by rw [PortState.lineEnds, PortState.kick_queue, PortState.kick_service]; exact h.taken
  reply := by
    have reply := h.reply
    rw [PortState.outgoing, line, Option.toList_some, List.singleton_append,
      List.countP_cons_of_neg (by rw [other]; exact Bool.false_ne_true)] at reply
    rw [PortState.lineEnds_outgoing, PortState.lineEnds, PortState.kick_service]
    exact reply
  settled := x.lineEnds_settled
  unit := by rw [PortState.lineEnds, PortState.kick_unit]; exact h.unit

/-- R155: the end of the reply of the request in service frees the port. -/
theorem PortState.Served.freed {x : PortState} (h : x.Served) {y : Reply} (line : x.line = some (.service y)) :
    ({ x.lineEnds with service := none } : PortState).Sound where
  queue := by
    show x.lineEnds.queue.length ≤ 4
    rw [PortState.lineEnds, PortState.kick_queue]
    exact h.queue
  reply := by
    show x.lineEnds.outgoing.countP Frame.isService = 0
    rw [PortState.lineEnds_outgoing]
    exact (h.line_service line).2
  settled := x.lineEnds_settled
  unit := by
    show x.lineEnds.unit.Orderly
    rw [PortState.lineEnds, PortState.kick_unit]
    exact h.unit

/-! ### Every command -/

theorem exec_frameEnd_served {s t : State} {p : Port} (h : ∀ p, (s.port p).Served)
    (e : exec (.transmitFrameEnd p) s = .next t) (p' : Port) : (t.port p').Served := by
  simp only [exec, execTransmitFrameEnd] at e
  split at e
  · split at e
    · cases e
      exact h p'
    · rename_i y line
      split at e <;> cases e
      · refine State.warmReset_served (Port.both (p := p) (fun y' line' => ?_) fun y' line' => ?_) p'
        · rw [State.setPort_port] at line'
          cases line'
        · rw [State.setPort_port_other] at line' ⊢
          exact ((h _).line_service line').1
      · refine State.serveQueue_served ?_ ?_ p'
        · rw [State.setPort_port]
          exact (h p).freed line
        · rw [State.setPort_port_other]
          exact h _
    · rename_i f other line
      cases e
      refine State.setPort_served h ((h p).lineEnds line ?_) p'
      cases f with
      | service y => exact absurd rfl (other y)
      | parked y => rfl
      | attention b => rfl
  · cases e
    exact h p'

/-- Every command keeps both ports served. -/
theorem exec_served {c : Instr} {s t : State} (h : ∀ p, (s.port p).Served) (e : exec c s = .next t) (p : Port) :
    (t.port p).Served := by
  cases hr : requestOf c with
  | some x =>
    obtain ⟨q, r⟩ := x
    rw [exec_request hr] at e
    unfold State.request at e
    split at e <;> cases e
    · exact State.offerRequest_served h q _ p
    · exact h p
  | none =>
    cases c <;> first
      | (exfalso; simp only [requestOf, reduceCtorEq] at hr; done)
      | exact State.act_served h e p
      | skip
    case signalAppears l =>
      simp only [exec, execSignalAppears] at e
      split at e
      · exact State.act_served h e p
      · cases e
        exact h p
    case signalLost l =>
      simp only [exec, execSignalLost] at e
      split at e
      · exact State.act_served h e p
      · cases e
        exact h p
    case frameInstant =>
      simp only [exec, execFrameInstant] at e
      split at e <;> cases e
      · rw [State.endInstant_port]
        exact (State.acted_served (s := { s with draws := s.draws + 1 }) 
          (fun p => by rw [State.port_withDraws]; exact h p) _ p).congr
          rfl rfl rfl rfl rfl
      · exact h p
    case receiveByte q b bad =>
      simp only [exec, execReceiveByte] at e
      split at e
      · split at e
        · split at e <;> cases e
          · exact State.setPort_served_same h p
          · exact h p
        · split at e <;> cases e
          · exact State.setPort_served_same h p
          · exact State.gather_served h q _ p
        · cases e
          exact h p
      · cases e
        exact h p
    case interbyteSilenceTimeout q =>
      simp only [exec, execInterbyteSilenceTimeout] at e
      split at e
      · split at e <;> cases e
        · exact State.setPort_served_same h p
        · exact h p
      · cases e
        exact h p
    case lineBreak q =>
      simp only [exec, execLineBreak] at e
      split at e
      · split at e <;> cases e
        · exact h p
        · refine State.conclude_served (fun p => ?_) rfl _ _ _ p
          rw [State.setEngine_port]
          exact State.setPort_served h (h q).portReset p
      · cases e
        exact h p
    case lineIdle q =>
      simp only [exec, execLineIdle] at e
      split at e
      · split at e <;> cases e
        · exact State.setPort_served_same h p
        · exact h p
      · cases e
        exact h p
    case transmitFrameEnd q => exact exec_frameEnd_served h e p
    case warmReset =>
      simp only [exec, execWarmReset] at e
      split at e <;> cases e
      · exact State.warmReset_served (fun p y line => ((h p).line_service line).1) p
      · exact h p
    case powerUp =>
      simp only [exec, execPowerUp] at e
      split at e <;> cases e
      · exact h p
      · cases p <;> exact PortState.served_coldReset
    case powerLoss n =>
      simp only [exec, execPowerLoss] at e
      split at e <;> cases e
      · rw [State.setEngine_port]
        exact h p
      · exact h p
    case waitTimeout q =>
      simp only [exec, execWaitTimeout] at e
      split at e
      · split at e <;> cases e
        · exact State.conclude_served (State.setPort_served_same h) (by rfl) _ _ _ p
        · exact h p
      · cases e
        exact h p

/-! ### Marks (R78, R90, R167) -/

/-- R167: the command that a mark waits for is the warm reset, which leaves no mark. -/
theorem exec_reset_unmarked {s t : State} {c : Instr} {rest : List Instr} (on : s.engine.powered = true)
    (pending : s.pending = c :: rest) (follows : s.resetFollows = true)
    (e : exec c { s with pending := rest } = .next t) (p : Port) : (t.port p).unseen = false := by
  obtain ⟨rest', front | ⟨q, r, front, line, echo, status⟩⟩ := s.resetFollows_iff.1 follows
  · obtain ⟨rfl, -⟩ := List.cons.inj (pending.symm.trans front)
    simp only [exec, execWarmReset, on, if_true] at e
    cases e
    rw [State.warmReset_port]
    rfl
  · obtain ⟨rfl, -⟩ := List.cons.inj (pending.symm.trans front)
    have line' : (({ s with pending := rest } : State).port q).line = some (.service r) := by
      rw [State.port_withPending, line]
    have resets : r.resetsEngine = true := by simp [Reply.resetsEngine, echo, status]
    simp only [exec, execTransmitFrameEnd, on, if_true, line', resets] at e
    cases e
    rw [State.warmReset_port]
    rfl

theorem exec_frameInstant_powered {s t : State} (on : s.engine.powered = true) (e : exec .frameInstant s = .next t) :
    t.engine.powered = true := by
  obtain ⟨_, _, _, _, u, selected, instant, engine, -⟩ := exec_frameInstant on
  obtain rfl : t = u := Host.Outcome.next.inj (e.symm.trans instant)
  rw [engine, Engine.computeMixes_rest]
  exact selected.kept.1.trans on

/-- R78, R90: a frame instant taken with no mark leaves one only where the command right behind makes a warm reset. -/
theorem exec_frameInstant_marksLawful {s t : State} (unmarked : ∀ p, (s.port p).unseen = false)
    (e : exec .frameInstant s = .next t) : t.MarksLawful := by
  intro p marked
  cases on : s.engine.powered with
  | true =>
    obtain ⟨-, tells, follows⟩ := exec_frameInstant_marks on e marked
    exact ⟨exec_frameInstant_powered on e, exec_frameInstant_follows on e follows, Option.any_eq_true _ _ |>.2 tells⟩
  | false =>
    simp only [exec, execFrameInstant, on, Bool.false_eq_true, if_false] at e
    cases e
    rw [unmarked] at marked
    cases marked

theorem step_marks {s t : State} (h : s.MarksLawful) (e : step s = .next t) : t.MarksLawful := by
  unfold step at e
  split at e
  · cases e
    exact h
  · rename_i c rest pending
    by_cases marked : ∃ p, (s.port p).unseen = true
    · obtain ⟨p, mark⟩ := marked
      obtain ⟨on, follows, -⟩ := h p mark
      intro p' mark'
      rw [exec_reset_unmarked on pending follows e p'] at mark'
      cases mark'
    · have unmarked : ∀ p, (({ s with pending := rest } : State).port p).unseen = false := fun p => by
        rw [State.port_withPending]
        exact Bool.eq_false_of_not_eq_true fun mark => marked ⟨p, mark⟩
      by_cases instant : c = .frameInstant
      · exact exec_frameInstant_marksLawful unmarked (instant ▸ e)
      · intro p mark
        rw [exec_unmarked instant e unmarked p] at mark
        cases mark

theorem step_served {s t : State} (h : ∀ p, (s.port p).Served) (e : step s = .next t) (p : Port) :
    (t.port p).Served := by
  unfold step at e
  split at e
  · cases e
    exact h p
  · exact exec_served (fun p => by rw [State.port_withPending]; exact h p) e p

/-- Settles O60: a port stays served through the taking of requests and every other command, and marks last until the
warm reset that follows. -/
theorem stepKeepsPorts : Obligations.StepKeepsPorts :=
  ⟨fun _ _ => step_served, fun _ _ => step_marks⟩

end Sys2Proof.Machine

/-! The requests of chapter 9: the queue (R154), the classes and the charge (R157, R160 to R163), IDENTIFY and PORT STATUS
(R164, R165), RESET ENGINE (R167), and the return of a line from silence and from a break (R152, R153). -/
namespace Sys2Proof.Machine

/-! ### The queue (R154) -/

/-- A request command on a port between frames is the completion of its frame. -/
theorem exec_request_hunting {c : Instr} {p : Port} {r : Request} (h : requestOf c = some (p, r)) {s : State}
    (on : s.engine.powered = true) (hunting : (s.port p).receiver = .hunting) :
    exec c s = .next (s.offerRequest p r) := by
  rw [exec_request h]
  simp only [State.request, on, hunting]

theorem State.offerRequest_behind {s : State} {p : Port} {v : Request} (busy : (s.port p).service = some v)
    (room : (s.port p).queue.length < 4) (r : Request) :
    s.offerRequest p r = s.setPort p { s.port p with queue := (s.port p).queue ++ [r] } := by
  rw [State.offerRequest, if_pos room, State.serveQueue, State.serve_busy p _ v (by rw [State.setPort_port]; exact busy)]

theorem State.offerRequest_full {s : State} {p : Port} (full : 4 ≤ (s.port p).queue.length) (r : Request) :
    s.offerRequest p r = s.setPort p { s.port p with lost := true } := by
  rw [State.offerRequest, if_neg (Nat.not_lt.2 full)]

/-- Settles O2, by whether the queue has room. -/
theorem keptFrameJoinsQueueOrIsLost : Obligations.KeptFrameJoinsQueueOrIsLost := by
  intro c p r v s request on hunting busy
  rw [exec_request_hunting request on hunting]
  refine ⟨fun room => ?_, fun full => ?_⟩
  · rw [State.offerRequest_behind busy room]
  · rw [State.offerRequest_full (Nat.le_of_eq full.symm)]

/-! ### Codes and classes (R157, R160, 11.4) -/

/-- R157: a code outside the table 11.4 is refused as it stands. -/
theorem answerOf_unknown {r : Request} (unknown : r.code ∉ knownCodes) (p : Port) (e : Engine) (x : PortState) :
    answerOf r p e x = portAnswer e x r.code .unknownRequest [] := by
  rw [answerOf, requestOfCode_none (by simpa using unknown)]

/-- Settles O3. -/
theorem unknownRequestRefused : Obligations.UnknownRequestRefused := by
  intro s p code q idle unknown
  exact exec_plainReply rfl idle .unknownRequest [] (answerOf_unknown unknown p _ _)

/-- R160, 11.4: the codes of class C. -/
def chargeCodes : List Byte :=
  [0x03, 0x20, 0x21, 0x23, 0x25, 0x27, 0x28, 0x2A, 0x38, 0x40, 0x41, 0x42, 0x43, 0x50, 0x51]

/-- R160, 11.4: the codes of class H. -/
def homeCodes : List Byte := [0x04, 0x05, 0x44, 0x45]

theorem cls_of_mem_chargeCodes : ∀ c ∈ chargeCodes, ∃ n, requestOfCode c = some n ∧ n.cls = .charge := by decide

theorem cls_of_mem_homeCodes : ∀ c ∈ homeCodes, ∃ n, requestOfCode c = some n ∧ n.cls = .home := by decide

/-- R160: the class of a request refuses it at a port. -/
def Request.RefusedBy (r : Request) (p charge : Port) (st : Status) : Prop :=
  ∃ n, requestOfCode r.code = some n ∧ classRefusal n.cls p charge = some st

theorem Request.refusedBy_charge {r : Request} {p charge : Port} (code : r.code ∈ chargeCodes) (away : charge ≠ p) :
    r.RefusedBy p charge .notInCharge := by
  obtain ⟨n, name, cls⟩ := cls_of_mem_chargeCodes r.code code
  exact ⟨n, name, by rw [cls]; exact if_neg away⟩

theorem Request.refusedBy_home {r : Request} {p : Port} (code : r.code ∈ homeCodes) (guest : p = .guest)
    (charge : Port) : r.RefusedBy p charge .homeOnly := by
  obtain ⟨n, name, cls⟩ := cls_of_mem_homeCodes r.code code
  exact ⟨n, name, by rw [cls, guest]; rfl⟩

/-- R157: a request refused by its class and taken as its frame is completed. -/
theorem exec_refused {c : Instr} {p : Port} {r : Request} {s : State} (request : requestOf c = some (p, r))
    (idle : s.idleAt p) {st : Status} (refused : r.RefusedBy p s.engine.charge st) :
    exec c s = .next (s.replied p r s.engine st false []) := by
  obtain ⟨n, name, cls⟩ := refused
  exact exec_plainReply request idle st [] (by simp [answerOf, name, cls])

/-- R155: the end of the reply of the request in service lets the port take the oldest request of its queue. -/
theorem exec_frameEnd_takes {s : State} {p : Port} {y : Reply} {r : Request} {rest : List Request}
    (on : s.engine.powered = true) (line : (s.port p).line = some (.service y)) (stays : y.echo ≠ 0x05 ∨ y.status ≠ .ok)
    (queue : (s.port p).queue = r :: rest) :
    exec (.transmitFrameEnd p) s =
      .next (State.serve p rest.length (((s.freed p).withQueue p (s.port p).receiver rest).applyRequest p r)) := by
  rw [exec_frameEnd_service on line (Reply.resetsEngine_false stays), queue, State.serveQueue_takes (s.freed_service p)]

@[simp] theorem State.replied_service (s : State) (p : Port) (r : Request) (e : Engine) (st : Status) (cl : Bool)
    (da : List Byte) : ((s.replied p r e st cl da).port p).service = some r := by
  rw [State.replied, State.port_withDraws, State.setPort_port, PortState.replied, PortState.withFrame]
  split <;> rfl

@[simp] theorem State.withQueue_service (s : State) (p : Port) (receiver : PortReceiver) (queue : List Request) :
    ((s.withQueue p receiver queue).port p).service = (s.port p).service := by
  rw [State.withQueue_port]
  rfl

/-- R157: a request refused by its class and taken from the queue. -/
theorem exec_frameEnd_refused {s : State} {p : Port} {y : Reply} {r : Request} {rest : List Request}
    (on : s.engine.powered = true) (settled : s.settled) (line : (s.port p).line = some (.service y))
    (stays : y.echo ≠ 0x05 ∨ y.status ≠ .ok) (queue : (s.port p).queue = r :: rest) {st : Status}
    (refused : r.RefusedBy p s.engine.charge st) :
    exec (.transmitFrameEnd p) s =
      .next (((s.freed p).replied p r s.engine st false []).withQueue p (s.port p).receiver rest) := by
  obtain ⟨n, name, cls⟩ := refused
  rw [exec_frameEnd_takes on line stays queue,
    State.applyRequest_refused (State.freed_settled settled p) p _ rest name (by rw [State.freed_engine]; exact cls),
    State.serve_busy p _ r (by rw [State.withQueue_service, State.replied_service]), State.freed_engine]

/-- Settles O4: the class refuses alike wherever the request is taken from. -/
theorem classCheckedAtTaking : Obligations.ClassCheckedAtTaking := by
  refine ⟨fun c p r s request idle => ⟨fun code away => ?_, fun code guest => ?_⟩,
    fun s p y r rest on settled line stays queue => ⟨fun code away => ?_, fun code guest => ?_⟩⟩
  · exact exec_refused request idle (Request.refusedBy_charge code away)
  · exact exec_refused request idle (Request.refusedBy_home code guest _)
  · exact exec_frameEnd_refused on settled line stays queue (Request.refusedBy_charge code away)
  · exact exec_frameEnd_refused on settled line stays queue (Request.refusedBy_home code guest _)

/-! ### IDENTIFY and PORT STATUS (R164, R165) -/

/-- Settles O5. -/
theorem identifyAndPortStatus : Obligations.IdentifyAndPortStatus := by
  intro s p q idle
  refine ⟨?_, ?_⟩
  · refine exec_effect .identify rfl idle rfl (class_open rfl) (fun _ => rfl) (f := effectIdentify p s.engine) ?_
      (rises_self _)
    cases p <;> rfl
  · have empty : (s.port p).queue = [] := idle.2.2.1
    refine exec_plainReply rfl idle .ok _ ?_
    rw [answerOf_of_name .portStatus rfl (class_open rfl)]
    simp only [answerRequest, answerPortStatus, empty]
    generalize s.engine.charge = holder
    cases holder <;> rfl

/-! ### The charge (R161 to R163) -/

/-- R161, R169: a move of the charge raises HOLD_CHARGE in the unit of the new holder. -/
theorem rises_newHolder {e : Engine} {p : Port} (away : e.charge ≠ p) :
    rises e { e with charge := p } p = [.holdCharge] := by
  simp [rises, Level.all, Engine.level, away]

theorem rises_oldHolder {e : Engine} {holder p : Port} (away : holder ≠ p) :
    rises e { e with charge := holder } p = [] := by
  simp [rises, Level.all, Engine.level, away]

theorem effectMoveCharge_moves {e : Engine} {p : Port} (away : e.charge ≠ p) :
    effectMoveCharge p e = ⟨{ e with charge := p }, .ok, false, [], [.charge]⟩ := by
  simp only [effectMoveCharge, Engine.moveCharge, if_neg away]

theorem effectMoveCharge_stays {e : Engine} {p : Port} (here : e.charge = p) :
    effectMoveCharge p e = ⟨e, .ok, false, [], []⟩ := by
  simp only [effectMoveCharge, Engine.moveCharge, if_pos here]

/-- Settles O6, by whether the charge is elsewhere. -/
theorem chargeMoves : Obligations.ChargeMoves := by
  refine ⟨fun s p q idle here => ?_, fun s q idle away => ?_, fun s q idle here => ?_⟩
  · have away : s.engine.charge ≠ p.other := here ▸ Port.ne_other _
    obtain ⟨t, next, answers⟩ := exec_effect_events (c := .passCharge p q) .passCharge rfl idle rfl
      (class_charge rfl here) (fun _ => rfl) (effectMoveCharge_moves away)
    exact ⟨t, next, answers, rises_newHolder away, rises_oldHolder (Port.other_ne p)⟩
  · have guest : s.engine.charge ≠ .home := by
      rw [away]
      decide
    obtain ⟨t, next, answers⟩ := exec_effect_events (c := .reclaimCharge .home q) .reclaimCharge rfl idle rfl rfl
      (fun _ => rfl) (effectMoveCharge_moves guest)
    exact ⟨t, next, answers, rises_newHolder guest, rises_oldHolder (by decide)⟩
  · exact exec_effect .reclaimCharge rfl idle rfl rfl (fun _ => rfl) (effectMoveCharge_stays here) (rises_self _)

/-! ### RESET ENGINE (R167) -/

/-- R167: the end of the reply of an accepted RESET ENGINE is the warm reset of the freed port. -/
theorem exec_frameEnd_resets {s : State} {p : Port} {y : Reply} (on : s.engine.powered = true)
    (line : (s.port p).line = some (.service y)) (resets : y.resetsEngine = true) :
    exec (.transmitFrameEnd p) s = .next (s.setPort p { s.port p with line := none, service := none }).warmReset := by
  simp only [exec, execTransmitFrameEnd, on, if_true, line, resets]

theorem exec_warmReset {s : State} (on : s.engine.powered = true) : exec .warmReset s = .next s.warmReset := by
  simp only [exec, execWarmReset, on, if_true]

/-- Settles O7. -/
theorem resetEngineAfterItsReply : Obligations.ResetEngineAfterItsReply := by
  refine ⟨fun s q idle => ?_, fun s p y on line echo status => ?_⟩
  · exact exec_effect .resetEngine rfl idle rfl rfl (fun _ => rfl) (f := effectResetEngine s.engine) rfl (rises_self _)
  · rw [exec_frameEnd_resets on line (by simp [Reply.resetsEngine, echo, status]),
      exec_warmReset (by rw [State.setPort_engine]; exact on)]

/-! ### A silence, and the return of a line to idle (R152, R153) -/

/-- Settles O10, by the state of the receiver. -/
theorem silenceAndIdleLine : Obligations.SilenceAndIdleLine := by
  intro s p on
  simp only [exec, execInterbyteSilenceTimeout, execLineIdle, on, if_true]
  cases receiver : (s.port p).receiver with
  | hunting => exact ⟨nofun, fun _ => rfl, nofun, fun _ => rfl⟩
  | receiving got => exact ⟨fun _ _ => rfl, (by rintro (h | h) <;> cases h), nofun, fun _ => rfl⟩
  | inBreak => exact ⟨nofun, fun _ => rfl, fun _ => rfl, fun h => absurd rfl h⟩

/-! ### The end of a frame (R155, R159) -/

theorem exec_frameEnd_other {s : State} {p : Port} {f : Frame} (on : s.engine.powered = true)
    (line : (s.port p).line = some f) (other : ∀ y, f ≠ .service y) :
    exec (.transmitFrameEnd p) s = .next (s.setPort p (s.port p).lineEnds) := by
  simp only [exec, execTransmitFrameEnd, on, if_true, line]

theorem exec_frameEnd_idle {s : State} {p : Port} (on : s.engine.powered = true) (line : (s.port p).line = none) :
    exec (.transmitFrameEnd p) s = .next s := by
  simp only [exec, execTransmitFrameEnd, on, if_true, line]

/-- R155: a request command at a port that serves nothing and queues nothing. -/
theorem exec_request_free {c : Instr} {p : Port} {r : Request} (h : requestOf c = some (p, r)) {s : State}
    (on : s.engine.powered = true) (hunting : (s.port p).receiver = .hunting) (queue : (s.port p).queue = [])
    (service : (s.port p).service = none) : exec c s = .next (s.applyRequest p r) := by
  rw [exec_request_hunting h on hunting, State.offerRequest_idle queue service]

theorem State.serveQueue_withQueue (s : State) (p : Port) (receiver : PortReceiver) (queue : List Request) :
    (s.withQueue p receiver queue).serveQueue p = State.serve p queue.length (s.withQueue p receiver queue) := by
  rw [State.serveQueue, State.withQueue_port]
  rfl

/-- R155: a port that has taken one request and is busy with it serves no more. -/
theorem State.serve_taken_busy {s : State} {p : Port} {r : Request} (k : Nat) (receiver : PortReceiver)
    (rest : List Request) (code : r.code ≠ 0x02) (service : ((s.applyRequest p r).port p).service = some r) :
    State.serve p k ((s.withQueue p receiver rest).applyRequest p r) =
      (s.applyRequest p r).withQueue p receiver rest := by
  rw [State.applyRequest_withQueue s p receiver rest r code,
    State.serve_busy p _ r (by rw [State.withQueue_service]; exact service)]

/-- R165: PORT STATUS taken from the queue tells how many requests are left in it. -/
theorem State.serve_portStatus {s : State} (settled : s.settled) (p : Port) (k : Nat) (receiver : PortReceiver)
    (rest : List Request) {r : Request} (code : r.code = 0x02) :
    State.serve p k ((s.withQueue p receiver rest).applyRequest p r) =
      (s.replied p r s.engine .ok false
        [byteOf s.engine.charge.number, byteOf rest.length, flagByte (s.port p).wait.isSome]).withQueue p receiver
        rest := by
  rw [State.applyRequest_portStatus settled p receiver rest code,
    State.serve_busy p _ r (by rw [State.withQueue_service, State.replied_service])]

/-- Settles O11: the oldest request is applied as its command applies it to the freed port, and behind a WAIT that parks
the next one is. -/
theorem frameEndServesNext : Obligations.FrameEndServesNext := by
  intro s p on
  refine ⟨fun f line other => ?_, fun y line stays => ⟨fun empty => ?_, fun r rest c queue request => ?_⟩,
    exec_frameEnd_idle on⟩
  · rw [exec_frameEnd_other on line other, PortState.lineEnds_eq]
  · rw [exec_frameEnd_service on line (Reply.resetsEngine_false stays), State.serveQueue, State.serve_done _ _ (by
      rw [State.withQueue_port]; exact empty)]
    simp only [State.freed, State.withQueue, State.setPort_setPort, State.setPort_port, PortState.withQueue]
  · have taken := exec_frameEnd_takes on line stays queue
    refine ⟨(s.freed p).applyRequest p r, exec_request_free request (by rwa [State.freed_engine]) (s.freed_receiver p)
      (s.freed_queue p) (s.freed_service p), fun code settled => ?_, fun code service => ?_, fun code parks => ?_⟩
    · rw [taken, State.serve_portStatus (State.freed_settled settled p) p _ _ _ code, State.freed_engine,
        State.freed_wait]
      generalize s.engine.charge = holder
      cases holder <;> rfl
    · rw [taken, State.serve_taken_busy _ _ _ code service]
    · obtain service | ⟨wait, -, free, parked, engine⟩ := (s.freed p).applyRequest_service p r
      · exact absurd service parks
      obtain ⟨empty, hunting, settled⟩ := (s.freed p).applyRequest_queue p r
      rw [State.freed_queue] at empty
      rw [State.freed_receiver] at hunting
      rw [State.freed_engine] at engine
      rw [State.applyRequest_withQueue _ p _ rest r code] at taken
      generalize (s.freed p).applyRequest p r = u at *
      refine ⟨wait, parked, ?_, ?_⟩
      · rintro rfl
        exact taken
      · rintro r' rest' c' rfl request'
        have next : exec (.transmitFrameEnd p) s = .next (State.serve p rest'.length
            ((u.withQueue p (s.port p).receiver rest').applyRequest p r')) := by
          rw [taken, ← State.serveQueue_takes free, State.serveQueue_withQueue]
        have service : ((u.applyRequest p r').port p).service = some r' :=
          (u.applyRequest_service p r').resolve_right fun again => parked again.2.1
        refine ⟨u.applyRequest p r', exec_request_free request' (by rw [engine]; exact on) hunting empty free, service,
          fun code' settled' => ?_, fun code' => ?_⟩
        · rw [next, State.serve_portStatus settled p _ _ _ code', engine]
          rw [Option.isSome_iff_ne_none.2 parked]
          generalize s.engine.charge = holder
          cases holder <;> rfl
        · rw [next, State.serve_taken_busy _ _ _ code' service]

end Sys2Proof.Machine

/-! The resets: the port reset that a line break makes (R43, R153, R166), and the warm reset of the whole engine (R19, R44,
R58, R77, R78, R89, R90, R108, R134, R150, R161, R167, R168). -/
namespace Sys2Proof.Machine

/-! ### Port reset (R166) -/

theorem PortState.portReset_settled {x : PortState} (h : x.settled) : x.portReset.settled := fun idle => by
  rw [PortState.portReset, h idle]
  rfl

/-- R43: of the blocks, only the talk sets and the coefficients change when a port stops talking. -/
theorem Engine.dropTalk_blocks (p : Port) (e : Engine) :
    e.dropTalk p =
      { e with
        talkHome := (e.dropTalk p).talkHome, talkGuest := (e.dropTalk p).talkGuest
        coefs := (e.dropTalk p).coefs } := by
  cases p <;> simp only [Engine.dropTalk, Engine.setTalkSet, Engine.recompute]

@[simp] theorem Engine.recompute_talkSet (e : Engine) (f : Fin 24 → Fin 64 → Bool) (p : Port) :
    (e.recompute f).talkSet p = e.talkSet p := by cases p <;> simp [Engine.talkSet]

theorem Engine.dropTalk_own (p : Port) (e : Engine) : (e.dropTalk p).talkSet p = 0#24 := by
  rw [Engine.dropTalk, Engine.recompute_talkSet, Engine.setTalkSet_talkSet]

theorem Engine.dropTalk_other (p : Port) (e : Engine) : (e.dropTalk p).talkSet p.other = e.talkSet p.other := by
  rw [Engine.dropTalk, Engine.recompute_talkSet, Engine.setTalkSet_talkSet_other]

/-- R43, R51: the mixes that stop talking are recomputed. -/
theorem Engine.dropTalk_retargets (p : Port) (e : Engine) :
    Engine.Retargets e (e.dropTalk p) fun m _ =>
      talking e.tables e.onAir m != talking e.tables (e.dropTalk p).onAir m := by
  refine Engine.Retargets.congr (Engine.recompute_retargets (by simp) _) fun m _ => ?_
  rw [reachTalking, Bool.false_and, Bool.or_false, Engine.setTalkSet_tables, Engine.dropTalk, Engine.recompute_onAir]

theorem rises_dropTalk (p : Port) (e : Engine) (p' : Port) : rises e (e.dropTalk p) p' = [] := by
  refine rises_same ?_ p'
  rw [e.dropTalk_blocks p]
  exact ⟨rfl, rfl, rfl, rfl, rfl, rfl⟩

/-- R153, R166: a line that was not in a break makes its port reset. -/
theorem exec_lineBreak {s : State} {p : Port} (on : s.engine.powered = true) (settled : s.settled)
    (line : (s.port p).receiver ≠ .inBreak) :
    exec (.lineBreak p) s = .next ((s.setEngine (s.engine.dropTalk p)).setPort p (s.port p).portReset) := by
  have reset : ((s.setPort p (s.port p).portReset).setEngine (s.engine.dropTalk p)).settled :=
    State.setPort_settled settled (PortState.portReset_settled (PortState.settled_of settled p))
  rw [← State.setPort_setEngine, ← State.conclude_nothing reset (rises_dropTalk p s.engine) p]
  simp only [exec, execLineBreak, on, if_true]

theorem exec_lineBreak_again {s : State} {p : Port} (on : s.engine.powered = true)
    (line : (s.port p).receiver = .inBreak) : exec (.lineBreak p) s = .next s := by
  simp only [exec, execLineBreak, on, if_true, line]

/-- Settles O12. -/
theorem lineBreakResetsPort : Obligations.LineBreakResetsPort := by
  refine ⟨talking_eq, fun _ => rfl, fun _ => ⟨rfl, rfl⟩, fun _ => rfl, fun s p on settled => ⟨exec_lineBreak_again on,
    fun line => ?_⟩⟩
  exact ⟨s.engine.dropTalk p, exec_lineBreak on settled line, Engine.dropTalk_own p _, Engine.dropTalk_other p _,
    Engine.dropTalk_blocks p _, Engine.dropTalk_retargets p _⟩

/-! ### Warm reset (R167) -/

/-- R108: the blocks once a recall has ended ABORTED, with these tables and coefficients and so many mixes loaded. -/
def Engine.recallAborted (e : Engine) (tables : Tables) (coefs : Vector (Vector CoefPair 64) 24) (loaded : Nat) : Engine :=
  { e with
    tables := tables, coefs := coefs
    library := { e.library with
      operation := .idle, result := { e.library.result with outcome := .aborted, mixesLoaded := loaded } } }

theorem Engine.writeMix_blocks (j : RecallJob) (m : Fin 24) (e : Engine) :
    e.writeMix j m = { e with tables := (e.writeMix j m).tables } := by
  unfold Engine.writeMix
  split <;> rfl

theorem Engine.writeInputs_blocks (j : RecallJob) (e : Engine) :
    e.writeInputs j = { e with tables := (e.writeInputs j).tables } := by
  unfold Engine.writeInputs
  split <;> rfl

/-- R107, R108: a mix whose fetch is in progress when the recall ends is written and counted. -/
theorem Engine.loadMix_aborted (j : RecallJob) (awaiting : MixSet) (inputs : Bool) (m : Fin 24) (e : Engine) :
    (e.loadMix j awaiting inputs true m).1 =
      e.recallAborted (e.writeMix j m).tables ((e.writeMix j m).recompute (reachMix m)).coefs
        (e.library.result.mixesLoaded + 1) := by
  rw [Engine.loadMix, Engine.afterItem_eq (ended := true) rfl, Engine.writeMix_blocks]
  rfl

/-- R107, R108: the input section whose fetch is in progress when the recall ends is written. -/
theorem Engine.loadInputs_aborted (j : RecallJob) (e : Engine) :
    (e.loadInputs j true).1 =
      e.recallAborted (e.writeInputs j).tables ((e.writeInputs j).recompute fun _ _ => true).coefs
        e.library.result.mixesLoaded := by
  rw [Engine.loadInputs, Engine.writeInputs_blocks]
  rfl

section
variable {e : Engine} {j : RecallJob} (recalling : e.library.operation = .recall j)
include recalling

theorem Engine.endRecallAtReset_verify (phase : j.phase = .verify) :
    e.endRecallAtReset = e.recallAborted e.tables e.coefs e.library.result.mixesLoaded := by
  simp only [Engine.endRecallAtReset, recalling, phase]
  rfl

theorem Engine.endRecallAtReset_mix {awaiting : MixSet} {inputs aborting : Bool} {m : Fin 24}
    (phase : j.phase = .load awaiting inputs aborting) (next : nextMix awaiting = some m) :
    e.endRecallAtReset =
      e.recallAborted (e.writeMix j m).tables ((e.writeMix j m).recompute (reachMix m)).coefs
        (e.library.result.mixesLoaded + 1) := by
  simp only [Engine.endRecallAtReset, recalling, phase, next]
  exact Engine.loadMix_aborted j awaiting inputs m e

theorem Engine.endRecallAtReset_inputs {awaiting : MixSet} {aborting : Bool}
    (phase : j.phase = .load awaiting true aborting) (next : nextMix awaiting = none) :
    e.endRecallAtReset =
      e.recallAborted (e.writeInputs j).tables ((e.writeInputs j).recompute fun _ _ => true).coefs
        e.library.result.mixesLoaded := by
  simp only [Engine.endRecallAtReset, recalling, phase, next, if_true]
  exact Engine.loadInputs_aborted j e

theorem Engine.endRecallAtReset_nothing {awaiting : MixSet} {aborting : Bool}
    (phase : j.phase = .load awaiting false aborting) (next : nextMix awaiting = none) :
    e.endRecallAtReset = e.recallAborted e.tables e.coefs e.library.result.mixesLoaded := by
  simp only [Engine.endRecallAtReset, recalling, phase, next, Bool.false_eq_true, if_false]
  rfl

/-- R108: whatever its phase, a recall ends ABORTED. -/
theorem Engine.endRecallAtReset_aborts :
    ∃ tables coefs loaded, e.endRecallAtReset = e.recallAborted tables coefs loaded := by
  cases phase : j.phase with
  | verify => exact ⟨_, _, _, Engine.endRecallAtReset_verify recalling phase⟩
  | load awaiting inputs aborting =>
    cases next : nextMix awaiting with
    | some m => exact ⟨_, _, _, Engine.endRecallAtReset_mix recalling phase next⟩
    | none =>
      cases inputs with
      | true => exact ⟨_, _, _, Engine.endRecallAtReset_inputs recalling phase next⟩
      | false => exact ⟨_, _, _, Engine.endRecallAtReset_nothing recalling phase next⟩

end

theorem Engine.endRecallAtReset_apart {e : Engine} (apart : ∀ j, e.library.operation ≠ .recall j) :
    e.endRecallAtReset = e := by
  unfold Engine.endRecallAtReset
  split
  · exact absurd ‹_› (apart _)
  · rfl

/-- R108: the end of a recall changes the tables, the coefficients and the library alone. -/
theorem Engine.endRecallAtReset_blocks (e : Engine) : ∃ tables coefs library,
    e.endRecallAtReset = { e with tables := tables, coefs := coefs, library := library } := by
  by_cases running : ∃ j, e.library.operation = .recall j
  · obtain ⟨j, recalling⟩ := running
    obtain ⟨tables, coefs, loaded, ended⟩ := Engine.endRecallAtReset_aborts recalling
    exact ⟨tables, coefs, _, ended⟩
  · exact ⟨e.tables, e.coefs, e.library, Engine.endRecallAtReset_apart fun j recalling => running ⟨j, recalling⟩⟩

/-- R19, R134, R150, R161, R168: the blocks at a warm reset. -/
theorem Engine.warmReset_blocks (together : Bool) (e : Engine) :
    e.warmReset together =
      { e with
        selector := e.selector.warmReset
        tables := e.endRecallAtReset.tables, talkHome := 0#24, talkGuest := 0#24
        coefs := (e.warmReset together).coefs, runs := Vector.ofFn fun m => (e.runs[m]).warmReset
        inputMeters := Vector.replicate 64 0, metersRest := together
        library := e.endRecallAtReset.library, packs := e.packs.warmReset, charge := .home } := by
  obtain ⟨tables, coefs, library, ended⟩ := e.endRecallAtReset_blocks
  rw [Engine.warmReset, ended]
  rfl

/-- R58: a ramp that starts from silence. -/
theorem Coef.fromSilence_eq (target : Nat) :
    Coef.fromSilence target = { target := target, live := 0, step := max 1 ((target + 63) / 64) } := by
  simp [Coef.fromSilence, rampStep]

/-- R44, R58: every target follows from the tables with nothing on air, and ramps up from 0. -/
theorem Engine.warmReset_coef (together : Bool) (e : Engine) (m : Fin 24) (i : Fin 64) :
    ((e.warmReset together).coefs[m])[i] =
      { left := Coef.fromSilence (deriveTargets (e.warmReset together).tables 0#24 m i).1
        right := Coef.fromSilence (deriveTargets (e.warmReset together).tables 0#24 m i).2 } := by
  simp [Engine.warmReset, Engine.restartRamps, Engine.onAir]

theorem State.instantFollows_iff (s : State) : s.instantFollows = true ↔ ∃ rest, s.pending = .frameInstant :: rest := by
  unfold State.instantFollows
  split
  · rename_i rest pending
    exact ⟨fun _ => ⟨rest, pending⟩, fun _ => rfl⟩
  · rename_i other
    exact ⟨nofun, fun ⟨rest, pending⟩ => absurd pending (other rest)⟩

theorem PortState.warmReset_eq (x : PortState) :
    x.warmReset =
      { receiver := .hunting, queue := [], service := if x.keptLine.any Frame.isService = true then x.service else none
        wait := none, lost := false, garbled := false, line := x.keptLine, unseen := false, ready := []
        unit := NoticeUnit.reset } := by
  rw [PortState.warmReset, x.keptService_eq]

/-- Settles O54, block by block; a recall ends by its phase. -/
theorem warmReset : Obligations.WarmReset := by
  rintro s _ on rfl
  generalize eq : s.engine.warmReset (s.instantFollows && Config.together s.draws) = e
  have blocks := s.engine.warmReset_blocks (s.instantFollows && Config.together s.draws)
  rw [eq] at blocks
  refine ⟨e, s.home.warmReset, s.guest.warmReset, ?_, ?_, ?_, ?_, fun m => ?_, fun a => ?_, ?_, fun apart => ?_,
    fun j recalling => ?_⟩
  · rintro x y (⟨rfl, rfl⟩ | ⟨rfl, rfl⟩) line rfl
    · exact PortState.warmReset_eq _
    · exact PortState.warmReset_eq _
  · rw [exec_warmReset on, ← eq]
    rfl
  · rw [blocks]
    rfl
  · rw [blocks]
    intro rests
    exact s.instantFollows_iff.1 (Bool.and_eq_true_iff.1 rests).1
  · rw [blocks]
    simp [MixRun.warmReset]
  · rw [blocks]
    simp [PackBus.warmReset, PackSlot.warmReset]
  · rintro m i l r targets
    have coef := s.engine.warmReset_coef (s.instantFollows && Config.together s.draws) m i
    rw [eq, ← targets, Coef.fromSilence_eq, Coef.fromSilence_eq] at coef
    exact coef
  · rw [blocks, Engine.endRecallAtReset_apart apart]
    exact ⟨rfl, rfl⟩
  · obtain ⟨tables, coefs, loaded, ended⟩ := Engine.endRecallAtReset_aborts recalling
    have same {tables' coefs' loaded'} (other : s.engine.endRecallAtReset =
        s.engine.recallAborted tables' coefs' loaded') : e.tables = tables' ∧ loaded = loaded' := by
      refine ⟨by rw [blocks, other]; rfl, ?_⟩
      have counts := congrArg (fun z : Engine => z.library.result.mixesLoaded) (ended.symm.trans other)
      exact counts
    refine ⟨loaded, by rw [blocks, ended]; rfl, fun phase => same (Engine.endRecallAtReset_verify recalling phase), ?_⟩
    intro awaiting inputs aborting name scene phase image
    refine ⟨fun m waits least => ?_, ?_⟩
    · have written := same (Engine.endRecallAtReset_mix recalling phase (nextMix_of_least waits least))
      rw [Engine.writeMix_written image] at written
      exact written
    · rintro rfl
      cases inputs with
      | true =>
        obtain ⟨written, count⟩ := same (Engine.endRecallAtReset_inputs recalling phase nextMix_empty)
        rw [Engine.writeInputs_written image] at written
        exact ⟨count, fun _ => written, nofun⟩
      | false =>
        obtain ⟨kept, count⟩ := same (Engine.endRecallAtReset_nothing recalling phase nextMix_empty)
        exact ⟨count, nofun, fun _ => kept⟩

end Sys2Proof.Machine

/-! The receivers of the control ports (R151 to R154, 9.1): what one byte does, how parameters are read, and the bytes of a
whole frame as the request that they carry. -/
namespace Sys2Proof.Machine

/-! ### The framing tests (R151, R152) -/

theorem bodyLength_cons (kind high low : Byte) (body : List Byte) :
    bodyLength (kind :: high :: low :: body) = high.toNat * 256 + low.toNat := numberOf_two high low

theorem revealsDiscard_type (kind : Byte) : revealsDiscard [kind] = decide (kind ≠ 0x01) := by
  have : numberOf [kind] ≠ 1 ↔ kind ≠ 0x01 := by
    rw [numberOf_one]
    bv_omega
  exact decide_eq_decide.2 this

/-- R152: no second length byte brings a length of 3 × 256 or more back to 530 (log 13). -/
theorem revealsDiscard_high (kind high : Byte) : revealsDiscard [kind, high] = decide (3 ≤ high.toNat) := by
  have : 530 < numberOf [high] * 256 ↔ 3 ≤ high.toNat := by
    rw [numberOf_one]
    omega
  exact decide_eq_decide.2 this

theorem revealsDiscard_low (kind high low : Byte) : revealsDiscard [kind, high, low] =
    decide (high.toNat * 256 + low.toNat < 2 ∨ 530 < high.toNat * 256 + low.toNat) := by
  rw [Bool.decide_or, ← bodyLength_cons kind high low []]
  rfl

theorem revealsDiscard_parameters (kind high low code count : Byte) :
    revealsDiscard [kind, high, low, code, count] =
      decide (16 < count.toNat ∨ high.toNat * 256 + low.toNat < count.toNat + 2 ∨
        512 + count.toNat + 2 < high.toNat * 256 + low.toNat) := by
  have body := bodyLength_cons kind high low [code, count]
  have parameters : parameterLength [kind, high, low, code, count] = count.toNat := numberOf_one count
  simp only [revealsDiscard, List.length_cons, List.length_nil, body, parameters, ← Bool.decide_or]
  rw [decide_eq_decide]
  omega

theorem revealsDiscard_later {got : List Byte} (h : got.length = 4 ∨ 5 < got.length) : revealsDiscard got = false := by
  unfold revealsDiscard
  split <;> first | omega | rfl

theorem frameComplete_short {got : List Byte} (h : got.length < 3) : frameComplete got = false := by
  rw [frameComplete, decide_eq_false (Nat.not_le.2 h), Bool.false_and]

/-- R151: the second check byte is the fifth byte beside the body. -/
theorem frameComplete_cons (kind high low : Byte) (body : List Byte) :
    frameComplete (kind :: high :: low :: body) = decide (body.length = high.toNat * 256 + low.toNat + 2) := by
  rw [frameComplete, bodyLength_cons, decide_eq_true (by simp), Bool.true_and, decide_eq_decide]
  simp only [List.length_cons]
  omega

/-- R152: the check covers the type, the body length and the body. -/
theorem checkMatches_cons {kind high low : Byte} {body : List Byte} (length : body.length = high.toNat * 256 + low.toNat)
    (check check' : Byte) :
    checkMatches (kind :: high :: low :: (body ++ [check, check'])) =
      decide ((crc16 (kind :: high :: low :: body)).toNat = check.toNat * 256 + check'.toNat) := by
  rw [checkMatches, bodyLength_cons, ← length]
  simp [numberOf_two]

/-! ### One byte (R151 to R153) -/

section
variable {s : State} {p : Port} {got : List Byte} {b : Byte} (on : s.engine.powered = true)
include on

theorem exec_receiveByte_break (h : (s.port p).receiver = .inBreak) (bad : Bool) :
    exec (.receiveByte p b bad) s = .next s := by
  simp only [exec, execReceiveByte, on, if_true, h]

theorem exec_receiveByte_starts (h : (s.port p).receiver = .hunting) :
    exec (.receiveByte p 0xA5 false) s = .next (s.setPort p { s.port p with receiver := .receiving [] }) := by
  simp only [exec, execReceiveByte, on, if_true, h]
  rfl

theorem exec_receiveByte_passes (h : (s.port p).receiver = .hunting) {bad : Bool} (other : b ≠ 0xA5 ∨ bad = true) :
    exec (.receiveByte p b bad) s = .next s := by
  have none : (!bad && decide (b = startByte)) = false := by
    rcases other with other | rfl
    · rw [startByte, decide_eq_false other, Bool.and_false]
    · rfl
  simp only [exec, execReceiveByte, on, if_true, h, none, Bool.false_eq_true, if_false]

variable (h : (s.port p).receiver = .receiving got)
include h

theorem exec_receiveByte_bad : exec (.receiveByte p b true) s = .next (s.setPort p (s.port p).discard) := by
  simp only [exec, execReceiveByte, on, if_true, h]

theorem exec_receiveByte_next : exec (.receiveByte p b false) s = .next (s.gather p (got ++ [b])) := by
  simp only [exec, execReceiveByte, on, if_true, h, Bool.false_eq_true, if_false]

theorem exec_receiveByte_drops (reveals : revealsDiscard (got ++ [b]) = true) :
    exec (.receiveByte p b false) s = .next (s.setPort p (s.port p).discard) := by
  rw [exec_receiveByte_next on h, State.gather, if_pos reveals]

theorem exec_receiveByte_gathers (reveals : revealsDiscard (got ++ [b]) = false)
    (complete : frameComplete (got ++ [b]) = false) :
    exec (.receiveByte p b false) s = .next (s.setPort p { s.port p with receiver := .receiving (got ++ [b]) }) := by
  rw [exec_receiveByte_next on h, State.gather_more reveals complete]

theorem exec_receiveByte_mismatch (reveals : revealsDiscard (got ++ [b]) = false)
    (complete : frameComplete (got ++ [b]) = true) (mismatch : checkMatches (got ++ [b]) = false) :
    exec (.receiveByte p b false) s = .next (s.setPort p (s.port p).discard) := by
  rw [exec_receiveByte_next on h]
  simp only [State.gather, reveals, complete, mismatch, Bool.false_eq_true, if_false, if_true]

end

/-- Settles O8, by the state of the receiver and the place of the byte in its frame. -/
theorem bytesAtReceiver : Obligations.BytesAtReceiver := by
  intro s p b bad dropped gathered on drops gathers
  refine ⟨fun h => exec_receiveByte_break on h bad, fun h => ⟨?_, exec_receiveByte_passes on h⟩, fun got h => ⟨?_, ?_⟩⟩
  · rintro rfl rfl
    exact (gathers []).2 (exec_receiveByte_starts on h)
  · rintro rfl
    exact drops.2 (exec_receiveByte_bad on h)
  · rintro rfl
    have drop (reveals : revealsDiscard (got ++ [b]) = true) : dropped := drops.2 (exec_receiveByte_drops on h reveals)
    have gather (reveals : revealsDiscard (got ++ [b]) = false) (complete : frameComplete (got ++ [b]) = false) :
        gathered (got ++ [b]) := (gathers _).2 (exec_receiveByte_gathers on h reveals complete)
    refine ⟨?_, ?_, ?_, ?_⟩
    · rintro rfl
      have test := revealsDiscard_type b
      exact ⟨fun other => drop (test.trans (decide_eq_true other)),
        fun one => gather (test.trans (decide_eq_false (not_not.2 one))) (frameComplete_short (by simp))⟩
    · rintro kind rfl
      have test := revealsDiscard_high kind b
      exact ⟨fun high => drop (test.trans (decide_eq_true high)),
        fun low => gather (test.trans (decide_eq_false (Nat.not_le.2 low))) (frameComplete_short (by simp))⟩
    · rintro kind high rfl
      have test := revealsDiscard_low kind high b
      exact ⟨fun outside => drop (test.trans (decide_eq_true outside)), fun least most =>
        gather (test.trans (decide_eq_false (by omega)))
          ((frameComplete_cons kind high b []).trans (decide_eq_false (by simp)))⟩
    · rintro kind high low body length rfl rfl least most
      have complete := frameComplete_cons kind high low (body ++ [b])
      refine ⟨fun one => ?_, fun other room => ?_, ?_⟩
      · obtain ⟨code, rfl⟩ := List.length_eq_one_iff.1 one
        have test := revealsDiscard_parameters kind high low code b
        exact ⟨fun outside => drop (test.trans (decide_eq_true outside)), fun few fits rest =>
          gather (test.trans (decide_eq_false (by omega))) (complete.trans (decide_eq_false (by simp; omega)))⟩
      · refine gather (revealsDiscard_later ?_) (complete.trans (decide_eq_false ?_))
        · simp only [List.length_append, List.length_cons, List.length_nil]
          omega
        · rw [List.length_append, List.length_singleton]
          omega
      · rintro whole check rfl size mismatch
        have frame : kind :: high :: low :: (whole ++ [check]) ++ [b] = kind :: high :: low :: (whole ++ [check, b]) := by
          simp
        refine drops.2 (exec_receiveByte_mismatch on h (revealsDiscard_later ?_) ?_ ?_)
        · simp only [List.length_append, List.length_cons, List.length_nil]
          omega
        · rw [frame, frameComplete_cons]
          exact decide_eq_true (by rw [List.length_append, size]; rfl)
        · rw [frame, checkMatches_cons size]
          exact decide_eq_false mismatch

/-! ### A whole frame (R151, R154, 11.2) -/

/-- The state with these bytes gathered at port p. -/
def State.gathering (s : State) (p : Port) (got : List Byte) : State :=
  s.setPort p { s.port p with receiver := .receiving got }

/-- R151, R152: the bytes gathered so far reveal no discard, and more of the frame is to come. -/
structure Unfinished (got : List Byte) : Prop where
  kept : revealsDiscard got = false
  continues : frameComplete got = false

theorem State.afterByte_gathering {s : State} (on : s.engine.powered = true) (p : Port) {got : List Byte} {b : Byte}
    (more : Unfinished (got ++ [b])) :
    State.afterByte p (s.gathering p got) b = s.gathering p (got ++ [b]) := by
  rw [State.afterByte_receiving _ p got b (by rw [State.gathering, State.setPort_engine]; exact on)
    (by rw [State.gathering, State.setPort_port]), State.gather_more more.kept more.continues]
  simp only [State.gathering, State.setPort_setPort, State.setPort_port]

/-- R151: bytes that each leave the frame unfinished are gathered one by one. -/
theorem State.foldl_gathering {s : State} (on : s.engine.powered = true) (p : Port) (bytes got : List Byte)
    (more : ∀ k, k < bytes.length → Unfinished (got ++ bytes.take (k + 1))) :
    bytes.foldl (State.afterByte p) (s.gathering p got) = s.gathering p (got ++ bytes) := by
  induction bytes generalizing got with
  | nil => rw [List.foldl_nil, List.append_nil]
  | cons b bytes ih =>
    rw [List.foldl_cons, State.afterByte_gathering on p (more 0 (Nat.succ_pos _)), ih, List.append_assoc]
    · rfl
    · intro k short
      rw [List.append_assoc]
      exact more (k + 1) (Nat.succ_lt_succ short)

/-- 11.2: the body of the frame that carries a request. -/
def Request.body (r : Request) : List Byte :=
  [r.code, byteOf r.payload.params.length] ++ r.payload.params ++ r.payload.data

theorem Request.body_length (r : Request) :
    r.body.length = 2 + r.payload.params.length + r.payload.data.length := by
  simp only [Request.body, List.length_append, List.length_cons, List.length_nil]

section
variable {r : Request} {high low : Byte} (params : r.payload.params.length ≤ 16)
  (length : high.toNat * 256 + low.toNat = r.body.length)
include params

theorem Request.count_toNat : (byteOf r.payload.params.length).toNat = r.payload.params.length := by
  rw [byteOf_toNat]
  omega

include length

/-- R151, R152: no byte of a request's frame before its last reveals a discard or ends the frame. -/
theorem Request.unfinished (data : r.payload.data.length ≤ 512) (check : Byte) {k : Nat} (short : k < r.body.length + 4) :
    Unfinished ((0x01 :: high :: low :: (r.body ++ [check])).take (k + 1)) := by
  have size := r.body_length
  match k with
  | 0 => exact ⟨(revealsDiscard_type _).trans (by decide), frameComplete_short (by simp)⟩
  | 1 => exact ⟨(revealsDiscard_high _ high).trans (decide_eq_false (by omega)), frameComplete_short (by simp)⟩
  | 2 =>
    exact ⟨(revealsDiscard_low _ high low).trans (decide_eq_false (by omega)),
      (frameComplete_cons _ high low []).trans (decide_eq_false (by simp))⟩
  | 3 =>
    exact ⟨revealsDiscard_later (.inl rfl),
      (frameComplete_cons _ high low [r.code]).trans (decide_eq_false (by simp))⟩
  | 4 =>
    have count := Request.count_toNat params
    exact ⟨(revealsDiscard_parameters _ high low r.code (byteOf r.payload.params.length)).trans
        (decide_eq_false (by omega)),
      (frameComplete_cons _ high low [r.code, byteOf r.payload.params.length]).trans (decide_eq_false (by simp; omega))⟩
  | k + 5 =>
    refine ⟨revealsDiscard_later (.inr ?_), (frameComplete_cons _ high low _).trans (decide_eq_false ?_)⟩
    · simp only [List.length_take, List.length_cons, List.length_append, List.length_nil]
      omega
    · simp only [List.length_take, List.length_append, List.length_cons, List.length_nil]
      omega

/-- 9.1, 11.2: the request that a kept frame carries is the one whose body it is. -/
theorem requestOfFrame_body (kind : Byte) (check : List Byte) :
    requestOfFrame (kind :: high :: low :: (r.body ++ check)) = r := by
  have count : parameterLength (kind :: high :: low :: (r.body ++ check)) = r.payload.params.length :=
    (numberOf_one _).trans (Request.count_toNat params)
  have body : ((kind :: high :: low :: (r.body ++ check)).drop 3).take (high.toNat * 256 + low.toNat) = r.body := by
    rw [length]
    exact List.take_left' rfl
  have carried : (r.body.drop 2).take r.payload.params.length = r.payload.params := List.take_left' rfl
  have behind : r.body.drop (2 + r.payload.params.length) = r.payload.data := by
    rw [Nat.add_comm]
    exact List.drop_left
  rw [requestOfFrame, bodyLength_cons, body, count, carried, behind]
  rfl

end

theorem State.gather_whole {s : State} {p : Port} {got : List Byte} (reveals : revealsDiscard got = false)
    (complete : frameComplete got = true) (agrees : checkMatches got = true) :
    s.gather p got = (s.setPort p { s.port p with receiver := .hunting }).offerRequest p (requestOfFrame got) := by
  simp only [State.gather, reveals, complete, agrees, Bool.false_eq_true, if_false, if_true]

/-- R151: the last byte of a frame whose check agrees keeps the frame. -/
theorem State.afterByte_last {s : State} (on : s.engine.powered = true) {p : Port}
    (hunting : (s.port p).receiver = .hunting) {got : List Byte} {b : Byte} (reveals : revealsDiscard (got ++ [b]) = false)
    (complete : frameComplete (got ++ [b]) = true) (agrees : checkMatches (got ++ [b]) = true) :
    State.afterByte p (s.gathering p got) b = s.offerRequest p (requestOfFrame (got ++ [b])) := by
  rw [State.afterByte_receiving _ p got b (by rw [State.gathering, State.setPort_engine]; exact on)
    (by rw [State.gathering, State.setPort_port]), State.gather_whole reveals complete agrees]
  have back : s.setPort p { s.port p with receiver := .hunting } = s := State.setPort_of_eq (by rw [← hunting])
  simp only [State.gathering, State.setPort_setPort, State.setPort_port, back]

/-- R151, R152, R154: the bytes of a request's frame, received one by one, keep that request. -/
theorem State.foldl_controlFrame {s : State} (on : s.engine.powered = true) {p : Port}
    (hunting : (s.port p).receiver = .hunting) {r : Request} (params : r.payload.params.length ≤ 16)
    (data : r.payload.data.length ≤ 512) :
    (controlFrame 0x01 r.body).foldl (State.afterByte p) s = s.offerRequest p r := by
  have size := r.body_length
  obtain ⟨high, low, check, check', length, spelt, frame⟩ := controlFrame_spelt 0x01 r.body (by omega)
  have start : State.afterByte p s 0xA5 = s.gathering p [] := by
    rw [State.afterByte, exec_receiveByte_starts on hunting]
    rfl
  have split : controlFrame 0x01 r.body = 0xA5 :: ((0x01 :: high :: low :: (r.body ++ [check])) ++ [check']) := by
    rw [frame]
    simp
  have whole : (0x01 :: high :: low :: (r.body ++ [check])) ++ [check'] =
      0x01 :: high :: low :: (r.body ++ [check, check']) := by simp
  rw [split, List.foldl_cons, start, List.foldl_append, State.foldl_gathering on p _ [] fun k short => ?_,
    List.nil_append, List.foldl_cons, List.foldl_nil, State.afterByte_last on hunting, whole,
    requestOfFrame_body params length]
  · refine revealsDiscard_later (.inr ?_)
    simp only [List.length_append, List.length_cons, List.length_nil]
    omega
  · rw [whole, frameComplete_cons]
    exact decide_eq_true (by rw [List.length_append, length]; rfl)
  · rw [whole, checkMatches_cons length.symm]
    exact decide_eq_true spelt.symm
  · refine Request.unfinished params length data check ?_
    simp only [List.length_append, List.length_cons, List.length_nil] at short
    omega

/-! ### The parameters (R156, R178) -/

/-- R156: the bytes that a block reads are those carried, and zero behind them. -/
theorem Payload.byte_eq {q : Payload} {byte : Nat → Byte}
    (h : ∀ n, (∀ b, q.params[n]? = some b → byte n = b) ∧ (q.params.length ≤ n → byte n = 0)) (k : Nat) :
    Payload.byte q k = byte k := by
  rcases Nat.lt_or_ge k q.params.length with carried | missing
  · have there := List.getElem?_eq_getElem carried
    rw [Payload.byte_carried there, (h k).1 _ there]
  · rw [Payload.byte_missing missing, (h k).2 missing]
    rfl

/-- Settles O9: the parameters byte by byte, the layout of a frame, and a run of its bytes. -/
theorem frameOnLineIsRequest : Obligations.FrameOnLineIsRequest := by
  refine ⟨fun q k byte carried => ?_, fun body size => controlFrame_spelt 0x01 body (by omega),
    fun s c p r request params data on hunting => ?_⟩
  · have read := Payload.byte_eq carried
    have number (k : Nat) : Payload.u8 q k = (byte k).toNat := by rw [Payload.u8, read]
    refine ⟨read k, number k, ?_, ?_, fun low => ?_, fun high => ?_, fun m => ?_, fun n => ?_, read k, fun bit => ?_⟩
    · rw [Payload.u16, number, number]
    · rw [Payload.u24, number, number, number]
    · rw [Payload.s8_eq, number, if_pos low]
    · rw [Payload.s8_eq, number, if_neg (Nat.not_lt.2 high)]
    · rw [Payload.mixSet_bit, read]
    · rw [Payload.events_bit, read]
    · rw [Payload.present, read]
  · rw [exec_request_hunting request on hunting, ← State.foldl_controlFrame on hunting params data]
    rfl

end Sys2Proof.Machine

/-! The notice units and the waits (chapter 10): sets of items, the update of the reasons, the two orders in which a
wait and an attention take an item, and the requests that act on the unit or on the parked wait of their port. -/
namespace Sys2Proof.Machine

/-! ### Sets of items -/

theorem ItemSet.empty_union (x : ItemSet) : ItemSet.empty.union x = x := ItemSet.ext_has fun i => by simp

theorem ItemSet.empty_diff (x : ItemSet) : ItemSet.empty.diff x = ItemSet.empty := ItemSet.ext_has fun i => by simp

/-- An item that the first set holds joins what the two sets share. -/
theorem ItemSet.inter_union_single {x : ItemSet} {i : Item} (h : x.has i = true) (y : ItemSet) :
    x.inter (y.union (ItemSet.single i)) = (x.inter y).union (ItemSet.single i) := by
  refine ItemSet.ext_has fun j => ?_
  by_cases same : i = j
  · subst same
    simp [h]
  · simp [same]

/-- An item that is new to a set leaves it again together with others. -/
theorem ItemSet.union_single_diff {x : ItemSet} {i : Item} (new : x.has i = false) (y : ItemSet) :
    (x.union (ItemSet.single i)).diff (y.union (ItemSet.single i)) = x.diff y := by
  refine ItemSet.ext_has fun j => ?_
  by_cases same : i = j
  · subst same
    simp [new]
  · simp [same]

theorem ItemSet.diff_empty (x : ItemSet) : x.diff ItemSet.empty = x := ItemSet.ext_has fun i => by simp

theorem ItemSet.single_diff {x : ItemSet} {i : Item} (out : x.has i = false) :
    (ItemSet.single i).diff x = ItemSet.single i := by
  refine ItemSet.ext_has fun j => ?_
  by_cases same : i = j
  · subst same
    simp [out]
  · simp [same]

theorem ItemSet.single_ne_empty (i : Item) : ItemSet.single i ≠ ItemSet.empty := fun none => by
  simpa using ItemSet.has_of_eq_empty none i

theorem ItemSet.has_of_inter_empty {x y : ItemSet} (apart : x.inter y = ItemSet.empty) {i : Item} (h : x.has i = true) :
    y.has i = false := by
  simpa [h] using ItemSet.has_of_eq_empty apart i

theorem Condition.names_eq (c : Condition) (i : Item) : c.names i = c.items.has i := rfl

/-! ### The update of the reasons (R170) -/

/-- R170: the reasons once the masked items that have occurred have joined them. -/
def PortState.dueReasons (x : PortState) : ItemSet := x.unit.reasons.union (x.unit.mask.inter x.unit.occurred)

/-- R170: whether an update of the unit reports its reasons. -/
abbrev PortState.reports (x : PortState) : Prop := x.unit.armed = true ∧ x.dueReasons ≠ ItemSet.empty

theorem PortState.not_reports {x : PortState} : ¬ x.reports ↔ x.unit.armed = false ∨ x.dueReasons = ItemSet.empty := by
  rw [PortState.reports, not_and_or, Bool.not_eq_true, not_not]

/-- R170: an armed unit with reasons reports them. -/
theorem PortState.update_reports {x : PortState} (reports : x.reports) (levels : BitVec 8) :
    x.update levels =
      { x with
        ready := x.ready ++ [.attention { items := x.dueReasons, levels := levels }]
        unit := { mask := x.unit.mask, reasons := x.dueReasons, armed := false
                  occurred := x.unit.occurred.diff x.dueReasons } } := by
  have fires : (x.unit.armed && !x.dueReasons.isEmpty) = true := by simpa [ItemSet.isEmpty] using reports
  exact if_pos fires

/-- R170, R171: a disarmed unit, or one without reasons, makes no frame ready. -/
theorem PortState.update_gathers {x : PortState} (quiet : ¬ x.reports) (levels : BitVec 8) :
    x.update levels =
      { x with unit := { mask := x.unit.mask, reasons := x.dueReasons, armed := x.unit.armed
                         occurred := x.unit.occurred } } := by
  have rests : ¬ (x.unit.armed && !x.dueReasons.isEmpty) = true := by simpa [ItemSet.isEmpty] using quiet
  exact if_neg rests

/-- Settles O18, by whether the unit is armed with a reason to report. -/
theorem itemAtNoticeUnit : Obligations.ItemAtNoticeUnit := by
  refine ⟨fun x y i j => ⟨ItemSet.has_union x y i, ItemSet.has_inter x y i, ItemSet.has_diff x y i,
    ItemSet.has_single i j, ItemSet.has_empty i⟩, fun x y => ItemSet.ext_has, fun c i => ⟨rfl, c.names_eq i⟩,
    fun b => rfl, ?_⟩
  rintro x i first levels free occurred reasons rfl rfl
  rw [PortState.arrive_noWait free]
  exact ⟨fun armed some => PortState.update_reports (x := x.record i) ⟨armed, some⟩ levels,
    fun quiet => PortState.update_gathers (x := x.record i) (PortState.not_reports.2 quiet) levels⟩

/-! ### The orders of the wait and the attention (R175) -/

/-- R175: an item that has left the occurred set, and whose state does not stand, meets no wait. -/
theorem PortState.offer_gone {x : PortState} {i : Item} (gone : x.unit.occurred.has i = false) {levels : BitVec 8}
    (down : levelStands levels i = false) : x.offer i levels = x := by
  unfold PortState.offer
  split
  · simp [gone, down]
  · rfl

/-- R175: the rise of a true state that the condition names meets the wait, wherever the item is. -/
theorem PortState.offer_stands {x : PortState} {w : ParkedWait} (parked : x.wait = some w) {i : Item}
    (named : w.condition.names i = true) {levels : BitVec 8} (stands : levelStands levels i = true) :
    x.offer i levels = x.meet w.condition levels := by
  unfold PortState.offer
  simp [parked, named, stands]

section
variable {x : PortState} {i : Item} (masked : x.unit.mask.has i = true) (fresh : x.unit.reasons = ItemSet.empty)
  (clean : x.unit.mask.inter x.unit.occurred = ItemSet.empty)
include masked fresh clean

/-- R170: the masked item is the one reason of a unit that had none. -/
theorem PortState.dueReasons_record : (x.record i).dueReasons = ItemSet.single i := by
  have due : (x.record i).dueReasons =
      x.unit.reasons.union (x.unit.mask.inter (x.unit.occurred.union (ItemSet.single i))) := rfl
  rw [due, fresh, ItemSet.empty_union, ItemSet.inter_union_single masked, clean, ItemSet.empty_union]

/-- R170, R175: the attention takes the item first: it reports it alone, and keeps it as the reason. -/
theorem PortState.update_record_first (armed : x.unit.armed = true) (levels : BitVec 8) :
    (x.record i).update levels =
      { x with
        ready := x.ready ++ [.attention { items := ItemSet.single i, levels := levels }]
        unit := { mask := x.unit.mask, reasons := ItemSet.single i, armed := false, occurred := x.unit.occurred } } := by
  have due := PortState.dueReasons_record masked fresh clean
  have left : (x.unit.occurred.union (ItemSet.single i)).diff (ItemSet.single i) = x.unit.occurred := by
    have back := ItemSet.union_single_diff (ItemSet.has_of_inter_empty clean masked) ItemSet.empty
    rwa [ItemSet.empty_union, ItemSet.diff_empty] at back
  rw [PortState.update_reports (x := x.record i) ⟨armed, by rw [due]; exact ItemSet.single_ne_empty i⟩, due]
  simp only [PortState.record, left]

/-- R170, R175: a wait that is met behind the attention consumes only what had occurred before. -/
theorem PortState.meet_update_first (armed : x.unit.armed = true) (c : Condition) (levels : BitVec 8) :
    ((x.record i).update levels).meet c levels =
      { x with
        wait := none, lost := false, garbled := false
        ready := x.ready ++ [.attention { items := ItemSet.single i, levels := levels },
          .parked (x.reply waitCode .met false (NoticeBlock.bytes
            { items := c.items.inter x.unit.occurred, levels := levels }))]
        unit := { mask := x.unit.mask, reasons := ItemSet.single i, armed := false
                  occurred := x.unit.occurred.diff (c.items.inter x.unit.occurred) } } := by
  have kept : (ItemSet.single i).diff (c.items.inter x.unit.occurred) = ItemSet.single i :=
    ItemSet.single_diff (by rw [ItemSet.has_inter, ItemSet.has_of_inter_empty clean masked, Bool.and_false])
  rw [PortState.update_record_first masked fresh clean armed]
  simp only [PortState.meet, PortState.consume, PortState.consumable, PortState.sendReply, kept, List.append_assoc]
  rfl

/-- R175: the wait takes the item first: MET carries it with what had occurred before, and no reason is left. -/
theorem PortState.meet_record_first {c : Condition} (named : c.names i = true) (levels : BitVec 8) :
    ((x.record i).meet c levels).update levels =
      { x with
        wait := none, lost := false, garbled := false
        ready := x.ready ++ [.parked (x.reply waitCode .met false (NoticeBlock.bytes
          { items := (c.items.inter x.unit.occurred).union (ItemSet.single i), levels := levels }))]
        unit := { mask := x.unit.mask, reasons := ItemSet.empty, armed := x.unit.armed
                  occurred := x.unit.occurred.diff (c.items.inter x.unit.occurred) } } := by
  have consumed : (x.record i).consumable c = (c.items.inter x.unit.occurred).union (ItemSet.single i) :=
    ItemSet.inter_union_single named _
  have left : (x.unit.occurred.union (ItemSet.single i)).diff
      ((c.items.inter x.unit.occurred).union (ItemSet.single i)) =
        x.unit.occurred.diff (c.items.inter x.unit.occurred) :=
    ItemSet.union_single_diff (ItemSet.has_of_inter_empty clean masked) _
  have unit : ((x.record i).meet c levels).unit =
      { mask := x.unit.mask, reasons := ItemSet.empty, armed := x.unit.armed
        occurred := x.unit.occurred.diff (c.items.inter x.unit.occurred) } := by
    simp only [PortState.meet, PortState.sendReply, PortState.consume, consumed]
    simp only [PortState.record, left, fresh, ItemSet.empty_diff]
  have due : ((x.record i).meet c levels).dueReasons = ItemSet.empty := by
    rw [PortState.dueReasons, unit]
    refine ItemSet.eq_empty fun j => ?_
    have apart := ItemSet.has_of_eq_empty clean j
    rw [ItemSet.has_inter] at apart
    simp only [ItemSet.has_union, ItemSet.has_empty, ItemSet.has_inter, ItemSet.has_diff, ← Bool.and_assoc, apart]
    rfl
  rw [PortState.update_gathers (PortState.not_reports.2 (.inr due)), due, unit]
  simp only [PortState.meet, consumed]
  rfl

end

/-- Settles O19, by which of the two is first; with the attention first, by whether the state of the item stands. -/
theorem attentionAndWaitOrders : Obligations.AttentionAndWaitOrders := by
  rintro x i w levels parked named armed masked fresh clean _ _ met rfl rfl carries
  have out : x.unit.occurred.has i = false := ItemSet.has_of_inter_empty clean masked
  have attention := PortState.update_record_first masked fresh clean armed levels
  have left : ((x.record i).update levels).unit.occurred.has i = false := by rw [attention]; exact out
  have waits : ((x.record i).update levels).wait = some w := by rw [PortState.update_wait]; exact parked
  have passed (down : levelStands levels i = false) :
      x.arrive i false levels = (x.record i).update levels := PortState.offer_gone left down
  have risen (stands : levelStands levels i = true) :
      x.arrive i false levels = ((x.record i).update levels).meet w.condition levels :=
    PortState.offer_stands waits named stands
  rw [attention] at passed
  rw [PortState.meet_update_first masked fresh clean armed] at risen
  have waitFirst : x.arrive i true levels = ((x.record i).meet w.condition levels).update levels :=
    congrArg (PortState.update · levels)
      (PortState.offer_named (x := x.record i) parked named (by simp [PortState.record]) levels)
  have reported : (x.arrive i false levels).unit.occurred.has i = false ∧
      (x.arrive i false levels).unit.armed = false ∧ (x.arrive i false levels).unit.reasons.has i = true := by
    cases stands : levelStands levels i with
    | false =>
      rw [passed stands]
      exact ⟨out, rfl, by simp⟩
    | true =>
      rw [risen stands]
      exact ⟨by simp [out], rfl, by simp⟩
  refine ⟨⟨reported.1, reported.2.1, reported.2.2, by simp [out], ?_, ?_⟩, by simp, ?_⟩
  · rintro e rfl
    exact passed rfl
  · rintro l rfl stands
    rw [risen stands, carries]
    rfl
  · rw [waitFirst, PortState.meet_record_first masked fresh clean named, carries, armed]
    rfl

/-! ### The end of a command that raises nothing (R158, R159) -/

/-- Nothing rises, so what the command brings to its own port is all that is delivered. -/
theorem State.conclude_own {s : State} (settled : s.settled) (p : Port) (x : PortState) (own : List (List Happening)) :
    (s.setPort p x).conclude s.engine [] p own = (s.setPort p x).deliver p own := by
  simp only [State.conclude, State.setPort_engine, itemBlocks_nil (rises_self _ _), List.append_nil]
  refine State.deliver_nothing _ _ ?_
  rw [State.deliver_other, State.setPort_port_other]
  exact PortState.settled_of settled p.other

/-- One block of happenings: the order is fixed. -/
theorem State.deliver_block (s : State) (p : Port) (x : PortState) (block : List Happening) :
    (s.setPort p x).deliver p [block] =
      { s.setPort p (x.run (Config.waitFirst s.draws) (s.engine.levels p) 0 block).kick with
        draws := s.draws + 1 } := by
  cases p <;> simp only [State.deliver, arrange_single, List.flatten_cons, List.flatten_nil, List.append_nil] <;> rfl

/-- R155: the port once a request is in service. -/
abbrev PortState.serving (x : PortState) (r : Request) : PortState := { x with service := some r }

/-- R155, R158: a request that acts on its own port alone, its port being x before any frame is built. -/
theorem exec_own {c : Instr} {p : Port} {r : Request} (request : requestOf c = some (p, r)) {s : State}
    (idle : s.idleAt p) {x : PortState} {own : List (List Happening)}
    (answer : answerOf r p s.engine ((s.port p).serving r) =
      { engine := s.engine, port := x, own := own, events := [] }) :
    exec c s = .next ((s.setPort p x).deliver p own) := by
  have ⟨_, _, _, _, settled⟩ := idle
  rw [exec_request_idle request idle, State.applyRequest, answer]
  exact congrArg Host.Outcome.next (State.conclude_own settled p x own)

/-- The same, port by port. -/
theorem exec_own_port {c : Instr} {p : Port} {r : Request} (request : requestOf c = some (p, r)) {s : State}
    (idle : s.idleAt p) {x : PortState} {own : List (List Happening)}
    (answer : answerOf r p s.engine ((s.port p).serving r) =
      { engine := s.engine, port := x, own := own, events := [] }) :
    ∃ t, exec c s = .next t ∧ t.engine = s.engine ∧ t.pending = s.pending ∧ t.port p.other = s.port p.other ∧
      ∃ (w : Nat → Bool) (order : List (List Happening)), order.Perm own ∧
        t.port p = (x.run w (s.engine.levels p) 0 order.flatten).kick := by
  obtain ⟨w, order, perm, left⟩ := State.deliver_port (s.setPort p x) p own
  rw [State.setPort_port, State.setPort_engine] at left
  exact ⟨_, exec_own request idle answer, by simp, by simp, by simp, w, order, perm, left⟩

/-! ### The timeout of a parked wait (R176) -/

section
variable {s : State} {p : Port} {w : ParkedWait}

theorem execWaitTimeout_free (free : (s.port p).wait = none) : execWaitTimeout p s = .next s := by
  simp only [execWaitTimeout, free]

theorem execWaitTimeout_untimed (parked : (s.port p).wait = some w) (untimed : w.timeout = 0) :
    execWaitTimeout p s = .next s := by
  simp [execWaitTimeout, parked, untimed]

theorem execWaitTimeout_timed (on : s.engine.powered = true) (parked : (s.port p).wait = some w)
    (timed : w.timeout ≠ 0) : execWaitTimeout p s =
      .next ((s.setPort p { s.port p with wait := none }).conclude s.engine [] p [[.timedOut]]) := by
  simp only [execWaitTimeout, parked]
  exact if_pos (by simp [on, timed])

end

/-- R159, R176: on a settled port the reply TIMED_OUT begins on an idle line, or waits behind the others. -/
theorem PortState.timedOut_kick {x : PortState} (settled : x.settled) (first : Bool) (levels : BitVec 8) :
    (x.happen first levels .timedOut).kick =
      PortState.withFrame { x with lost := false, garbled := false }
        (.parked { echo := 0x14, status := .timedOut, lost := x.lost, garbled := x.garbled, clamped := false
                   data := [0, 0, 0, levels] }) := by
  have block : NoticeBlock.bytes { items := ItemSet.empty, levels := levels } = [0, 0, 0, levels] := by
    simp [NoticeBlock.bytes, ItemSet.empty, bytes16, byteOf]
  rw [PortState.happen, block]
  exact PortState.kick_ready (x := { x with lost := false, garbled := false }) settled _

/-- Settles O17, by whether a wait is parked and whether it has a timeout. -/
theorem waitTimeoutAnswers : Obligations.WaitTimeoutAnswers := by
  intro s p on settled
  refine ⟨fun w parked timed => ?_, fun w => execWaitTimeout_untimed, execWaitTimeout_free⟩
  have concluded := (State.conclude_own settled p { s.port p with wait := none } [[.timedOut]]).trans
    (State.deliver_block _ _ _ _)
  have answered := PortState.timedOut_kick (x := { s.port p with wait := none }) (PortState.settled_of settled p)
    (Config.waitFirst s.draws 0) (s.engine.levels p)
  calc execWaitTimeout p s
      = .next { s.setPort p (({ s.port p with wait := none } : PortState).happen (Config.waitFirst s.draws 0)
            (s.engine.levels p) .timedOut).kick with draws := s.draws + 1 } := by
        rw [execWaitTimeout_timed on parked timed, concluded]
        rfl
    _ = _ := by rw [answered]

/-! ### CANCEL WAIT (R176) -/

theorem answerCancelWait_free {x : PortState} (free : x.wait = none) (echo : Byte) (e : Engine) :
    answerCancelWait echo e x = portAnswer e x echo .noWait [] := by
  simp only [answerCancelWait, free]

theorem answerCancelWait_parked {x : PortState} {w : ParkedWait} (parked : x.wait = some w) (echo : Byte) (e : Engine) :
    answerCancelWait echo e x =
      { engine := e, port := { x with wait := none }, own := [[.cancelled, .reply echo .ok false []]], events := [] } := by
  simp only [answerCancelWait, parked]

/-- R176: CANCELLED goes first, and carries LOST and GARBLED (log 25). -/
theorem PortState.run_cancelled (x : PortState) (w : Nat → Bool) (levels : BitVec 8) (echo : Byte) :
    x.run w levels 0 [.cancelled, .reply echo .ok false []] =
      { x with
        lost := false, garbled := false
        ready := x.ready ++
          [.parked (x.reply waitCode .cancelled false []),
            .service { echo := echo, status := .ok, lost := false, garbled := false, clamped := false, data := [] }] } := by
  simp [PortState.run, PortState.happen, PortState.sendReply, PortState.reply]

/-- Settles O16, by whether a wait is parked. -/
theorem cancelWaitAnswersBoth : Obligations.CancelWaitAnswersBoth := by
  intro s p q idle
  have answer := answerOf_of_name (r := ⟨0x15, q⟩) (p := p) (e := s.engine)
    (x := (s.port p).serving ⟨0x15, q⟩) .cancelWait rfl (class_open rfl)
  refine ⟨fun free => exec_plainReply rfl idle .noWait []
    (answer.trans (answerCancelWait_free (x := (s.port p).serving ⟨0x15, q⟩) free _ _)), fun w parked => ?_⟩
  obtain ⟨t, taken, engine, pending, other, first, order, perm, left⟩ := exec_own_port (c := .cancelWait p q) rfl idle
    (answer.trans (answerCancelWait_parked (x := (s.port p).serving ⟨0x15, q⟩) parked _ _))
  obtain ⟨-, hunting, empty, -, -⟩ := idle
  rw [List.perm_singleton.1 perm, List.flatten_singleton, PortState.run_cancelled] at left
  refine ⟨t, taken, engine, pending, other, ?_⟩
  rw [left]
  exact ⟨PortState.kick_wait _, PortState.kick_unit _, (PortState.kick_receiver _).trans hunting,
    (PortState.kick_queue _).trans empty, PortState.kick_service _, PortState.kick_lost _, PortState.kick_garbled _,
    (PortState.kick_outgoing _).trans (List.append_assoc _ _ _).symm⟩

/-! ### WAIT (R174, R175) -/

theorem metAtOnce_iff (c : Condition) (x : PortState) (levels : BitVec 8) :
    metAtOnce c x levels = true ↔ c.states &&& levels ≠ 0#8 ∨ c.items.inter x.unit.occurred ≠ ItemSet.empty := by
  rw [metAtOnce, Bool.or_eq_true, decide_eq_true_iff, PortState.consumable, ItemSet.isEmpty, Bool.not_eq_true',
    decide_eq_false_iff_not]

section
variable {x : PortState} (p : Port) (q : Payload) (echo : Byte) (e : Engine)

theorem answerWait_busy {w : ParkedWait} (parked : x.wait = some w) :
    answerWait p q echo e x = portAnswer e x echo .waitBusy [] := by
  simp only [answerWait, parked]

variable (free : x.wait = none) {c : Condition}
  (condition : c = { events := Payload.events q 0, states := Payload.states q 2 })
include free condition

theorem answerWait_met (met : metAtOnce c x (e.levels p) = true) :
    answerWait p q echo e x = portAnswer e (x.consume c) echo .met
      (NoticeBlock.bytes { items := x.consumable c, levels := e.levels p }) := by
  subst condition
  unfold answerWait
  rw [free]
  exact if_pos met

theorem answerWait_parks (unmet : metAtOnce c x (e.levels p) = false) :
    answerWait p q echo e x =
      { engine := e, port := { x with service := none, wait := some { condition := c, timeout := Payload.u16 q 3 } }
        own := [], events := [] } := by
  subst condition
  unfold answerWait
  rw [free]
  exact if_neg (by simp [unmet])

end

/-- Settles O15, by whether a wait is parked and whether the condition is met. -/
theorem waitParksOrIsMet : Obligations.WaitParksOrIsMet := by
  rintro s p q idle c condition found rfl
  generalize serving : (s.port p).serving ⟨0x14, q⟩ = x
  have wait : x.wait = (s.port p).wait := by rw [← serving]
  have unit : x.unit = (s.port p).unit := by rw [← serving]
  have answer : answerOf ⟨0x14, q⟩ p s.engine ((s.port p).serving ⟨0x14, q⟩) = answerWait p q 0x14 s.engine x := by
    rw [serving]
    exact answerOf_of_name .wait rfl (class_open rfl)
  have met : metAtOnce c x (s.engine.levels p) = true ↔
      c.states &&& s.engine.levels p ≠ 0#8 ∨ c.items.inter (s.port p).unit.occurred ≠ ItemSet.empty := by
    rw [metAtOnce_iff, unit]
  rw [← wait]
  refine ⟨fun w parked => ?_, fun free now => ?_, fun free level item => ?_⟩
  · rw [answerWait_busy p q _ _ parked, ← serving] at answer
    exact exec_plainReply rfl idle .waitBusy [] answer
  · rw [answerWait_met p q _ _ free condition (met.2 now), ← serving] at answer
    exact exec_portReplied rfl idle _ .met _ answer rfl rfl
  · have unmet : metAtOnce c x (s.engine.levels p) = false :=
      Bool.eq_false_iff.2 fun now => (met.1 now).elim (· level) (· item)
    have ⟨_, _, _, unserved, settled⟩ := idle
    rw [answerWait_parks p q _ _ free condition unmet, ← serving] at answer
    rw [exec_own rfl idle answer, State.deliver_nothing, ← unserved]
    rw [State.setPort_port]
    exact PortState.settled_of settled p

/-! ### Reading the unit (R172, R173, 11.3) -/

theorem PackBus.anyLost_eq (b : PackBus) : b.anyLost = decide (∃ a : Fin 32, (b.slots[a]).state = .lost) := by
  rw [Bool.eq_iff_iff, decide_eq_true_iff, PackBus.anyLost]
  simp

/-- Settles O13, read by read. -/
theorem noticeReads : Obligations.NoticeReads := by
  refine ⟨fun x => ⟨rfl, rfl⟩, fun e p => ?_, mem_rises, rfl, fun s p q idle => ⟨?_, ?_, ?_⟩⟩
  · rw [Engine.levels_bits, ← PackBus.anyLost_eq]
    cases calls : e.packs.calls <;> simp [Level.all, Engine.level, Library.busy, calls]
  · exact exec_plainReply rfl idle .ok _ (answerOf_of_name .readNoticeMask rfl (class_open rfl))
  · exact exec_plainReply rfl idle .ok _ (answerOf_of_name .readStates rfl (class_open rfl))
  · exact exec_portReplied rfl idle _ .ok _ (answerOf_of_name .readReasons rfl (class_open rfl)) rfl rfl

/-! ### SET NOTICE MASK (R172) -/

/-- R170: the attention frame that an update of the unit makes ready, if it makes one. -/
def PortState.attention (x : PortState) (levels : BitVec 8) : List Frame :=
  if x.reports then [.attention { items := x.dueReasons, levels := levels }] else []

theorem PortState.update_outgoing (x : PortState) (levels : BitVec 8) :
    (x.update levels).outgoing = x.outgoing ++ x.attention levels := by
  unfold PortState.attention
  split
  · rename_i reports
    rw [PortState.update_reports reports, PortState.outgoing_ready]
  · rename_i quiet
    rw [PortState.update_gathers quiet, List.append_nil]
    rfl

/-- R170: what an update leaves of the unit. -/
theorem PortState.update_unit (x : PortState) (levels : BitVec 8) :
    (x.update levels).unit =
      { mask := x.unit.mask, reasons := x.dueReasons
        armed := if x.reports then false else x.unit.armed
        occurred := if x.reports then x.unit.occurred.diff x.dueReasons else x.unit.occurred } := by
  by_cases reports : x.reports
  · rw [PortState.update_reports reports, if_pos reports, if_pos reports]
  · rw [PortState.update_gathers reports, if_neg reports, if_neg reports]

/-- R172: a reply and an update of the unit come to the same in either order, but for the order of their frames. -/
theorem PortState.run_replyAndUpdate (x : PortState) (w : Nat → Bool) (levels : BitVec 8) {echo : Byte} {status : Status}
    {clamped : Bool} {data : List Byte} {order : List (List Happening)}
    (perm : order.Perm [[.reply echo status clamped data], [.update]]) {y : PortState}
    (h : y = x.run w levels 0 order.flatten) :
    y.unit = (x.update levels).unit ∧ y.wait = x.wait ∧ y.lost = false ∧ y.garbled = false ∧
      (y.outgoing = x.outgoing ++ .service (x.reply echo status clamped data) :: x.attention levels ∨
        y.outgoing = x.outgoing ++ (x.attention levels ++ [.service (x.reply echo status clamped data)])) := by
  rcases perm_pair perm with rfl | rfl
  · have replied : y = (x.sendReply (.service (x.reply echo status clamped data))).update levels := h
    rw [replied]
    refine ⟨?_, PortState.update_wait .., PortState.update_lost .., PortState.update_garbled .., .inl ?_⟩
    · rw [PortState.update_unit, PortState.update_unit]
      rfl
    · rw [PortState.update_outgoing, PortState.outgoing_sendReply, List.append_assoc]
      rfl
  · have updated : y = (x.update levels).sendReply (.service ((x.update levels).reply echo status clamped data)) := h
    have same : (x.update levels).reply echo status clamped data = x.reply echo status clamped data := by
      simp [PortState.reply]
    rw [updated, same]
    refine ⟨rfl, PortState.update_wait .., rfl, rfl, .inr ?_⟩
    rw [PortState.outgoing_sendReply, PortState.update_outgoing, List.append_assoc]

/-- 11.2: the bytes of a reply. -/
theorem Reply.bytes_spelt (r : Reply) (short : r.data.length ≤ 512) :
    ∃ (flags high low check0 check1 : Byte) (body : List Byte),
      flags.toNat = r.lost.toNat + 2 * r.garbled.toNat + 4 * r.clamped.toNat ∧
      body = [r.echo, r.status.code, flags] ++ r.data ∧ high.toNat * 256 + low.toNat = body.length ∧
      check0.toNat * 256 + check1.toNat = (crc16 ([0x02, high, low] ++ body)).toNat ∧
      controlFrame 0x02 r.body = [0xA5, 0x02, high, low] ++ body ++ [check0, check1] := by
  have size : r.body.length < 65536 := by
    simp only [Reply.body, List.length_append, List.length_cons, List.length_nil]
    omega
  obtain ⟨high, low, check0, check1, length, check, frame⟩ := controlFrame_spelt 0x02 r.body size
  exact ⟨r.flags, high, low, check0, check1, r.body, r.flags_toNat, rfl, length, check, frame⟩

/-- 11.2, 11.3: the bytes of an attention. -/
theorem NoticeBlock.attention_spelt (b : NoticeBlock) :
    ∃ (events0 events1 check0 check1 : Byte), events0.toNat * 256 + events1.toNat = b.items.events.toNat ∧
      check0.toNat * 256 + check1.toNat =
        (crc16 [0x03, 0x00, 0x04, events0, events1, b.items.rises, b.levels]).toNat ∧
      Frame.bytes (.attention b) =
        [0xA5, 0x03, 0x00, 0x04, events0, events1, b.items.rises, b.levels, check0, check1] := by
  obtain ⟨events0, events1, events, number⟩ := bytes16_spelt (n := b.items.events.toNat) (by omega)
  obtain ⟨check0, check1, check, checked⟩ :=
    bytes16_spelt (crc16 [0x03, 0x00, 0x04, events0, events1, b.items.rises, b.levels]).isLt
  have block : b.bytes = [events0, events1, b.items.rises, b.levels] := by
    rw [NoticeBlock.bytes, events]
    rfl
  have covered : framed 0x03#8 b.bytes = [0x03, 0x00, 0x04, events0, events1, b.items.rises, b.levels] := by
    rw [framed, block]
    simp [bytes16, byteOf]
  refine ⟨events0, events1, check0, check1, number, checked, ?_⟩
  rw [Frame.bytes, controlFrame, covered, check]
  rfl

/-- R172: the port once a request is in service and has replaced the mask. -/
def PortState.withMask (x : PortState) (r : Request) (mask : ItemSet) : PortState :=
  { x with
    service := some r
    unit := { occurred := x.unit.occurred, mask := mask, reasons := x.unit.reasons
              armed := x.unit.armed || decide (mask ≠ ItemSet.empty) } }

theorem answerSetNoticeMask_eq {q : Payload} {mask : ItemSet}
    (replaced : mask = { events := Payload.events q 0, rises := Payload.states q 2 }) (echo : Byte) (e : Engine)
    (x : PortState) (r : Request) :
    answerSetNoticeMask q echo e (x.serving r) =
      { engine := e, port := x.withMask r mask, own := [[.reply echo .ok false []], [.update]], events := [] } := by
  subst replaced
  simp [answerSetNoticeMask, PortState.withMask, ItemSet.isEmpty]

/-- R172: SET NOTICE MASK at a port that comes to x once the mask is replaced. -/
theorem exec_setNoticeMask {s : State} {p : Port} {q : Payload} (idle : s.idleAt p) {mask : ItemSet}
    (replaced : mask = { events := Payload.events q 0, rises := Payload.states q 2 }) {x : PortState}
    (masked : x = (s.port p).withMask ⟨0x10, q⟩ mask) :
    ∃ t, exec (.setNoticeMask p q) s = .next t ∧ t.engine = s.engine ∧ t.pending = s.pending ∧
      t.port p.other = s.port p.other ∧ PortState.Same x (t.port p) ∧ (t.port p).wait = x.wait ∧
      (t.port p).lost = false ∧ (t.port p).garbled = false ∧ (t.port p).unit = (x.update (s.engine.levels p)).unit ∧
      ((t.port p).outgoing =
          x.outgoing ++ .service (x.reply 0x10 .ok false []) :: x.attention (s.engine.levels p) ∨
        (t.port p).outgoing =
          x.outgoing ++ (x.attention (s.engine.levels p) ++ [.service (x.reply 0x10 .ok false [])])) := by
  subst masked
  obtain ⟨t, taken, engine, pending, other, first, order, perm, left⟩ := exec_own_port (c := .setNoticeMask p q) rfl
    idle ((answerOf_of_name .setNoticeMask rfl (class_open rfl)).trans (answerSetNoticeMask_eq replaced _ _ _ _))
  obtain ⟨unit, wait, lost, garbled, sent⟩ := PortState.run_replyAndUpdate _ first _ perm rfl
  refine ⟨t, taken, engine, pending, other, ?_⟩
  rw [left, PortState.kick_wait, PortState.kick_lost, PortState.kick_garbled, PortState.kick_unit,
    PortState.kick_outgoing]
  exact ⟨(PortState.run_same ..).kick, wait, lost, garbled, unit, sent⟩

/-- Settles O14: the bytes frame by frame; the request by whether the unit has something to report. -/
theorem setNoticeMaskUpdates : Obligations.SetNoticeMaskUpdates := by
  refine ⟨fun n => ⟨byteOf_toNat n, rfl, rfl⟩, rfl, rfl, rfl, fun r short => ?_, NoticeBlock.attention_spelt,
    fun s p q idle mask reasons replaced joined armed arms => ?_⟩
  · obtain ⟨flags, high, low, check0, check1, body, bits, spelt, length, check, frame⟩ := r.bytes_spelt short
    exact ⟨flags, high, low, check0, check1, body, bits, spelt, length, check, frame, frame⟩
  · obtain ⟨x, masked⟩ : ∃ x, x = (s.port p).withMask ⟨0x10, q⟩ mask := ⟨_, rfl⟩
    have due : x.dueReasons = reasons := by rw [joined, masked]; rfl
    have arm : x.unit.armed = armed := by rw [arms, masked]; rfl
    obtain ⟨t, taken, engine, pending, other, same, wait, lost, garbled, unit, sent⟩ :=
      exec_setNoticeMask idle replaced masked
    obtain ⟨-, hunting, empty, -, -⟩ := idle
    rw [PortState.update_unit] at unit
    rw [PortState.attention] at sent
    have before : x.receiver = .hunting ∧ x.queue = [] ∧ x.service = some ⟨0x10, q⟩ ∧ x.wait = (s.port p).wait ∧
        x.unit.mask = mask ∧ x.unit.occurred = (s.port p).unit.occurred ∧ x.outgoing = (s.port p).outgoing ∧
        x.reply 0x10 .ok false [] = (s.port p).replyTo ⟨0x10, q⟩ .ok false [] := by
      rw [masked]
      exact ⟨hunting, empty, rfl, rfl, rfl, rfl, rfl, rfl⟩
    obtain ⟨receiver, queue, service, parked, named, occurred, outgoing, reply⟩ := before
    rw [outgoing, reply] at sent
    refine ⟨t, taken, engine, pending, other, same.receiver.trans receiver, same.queue.trans queue,
      same.service.trans service, wait.trans parked, lost, garbled, same.mask.trans named, by rw [unit]; exact due,
      fun fires => ?_, fun quiet => ?_⟩
    · have reports : x.reports := by rwa [PortState.reports, due, arm]
      rw [if_pos reports, if_pos reports, occurred, due] at unit
      rw [if_pos reports, due] at sent
      exact ⟨by rw [unit], by rw [unit], sent⟩
    · have rests : ¬ x.reports := PortState.not_reports.2 (by rwa [due, arm])
      rw [if_neg rests, if_neg rests, occurred, arm] at unit
      rw [if_neg rests] at sent
      exact ⟨by rw [unit], by rw [unit], sent.elim id id⟩

end Sys2Proof.Machine

/-! The queue of commands: what a step does by the command at its front. -/
namespace Sys2Proof.Machine

theorem step_of_pending_cons {s : State} {c : Instr} {rest : List Instr} (front : s.pending = c :: rest) :
    step s = exec c { s with pending := rest } := by
  rw [step, front]

theorem step_of_pending_nil {s : State} (empty : s.pending = []) : step s = .next s := by
  rw [step, empty]

/-- Settles O1: the accessors by their equations, a step by whether the queue is empty. -/
theorem stepTakesFrontCommand : Obligations.StepTakesFrontCommand := by
  refine ⟨fun s e x => ?stateParts, fun e r => ?engineParts, ?others, fun x => ?outgoing,
    fun _ _ _ => step_of_pending_cons, fun _ => step_of_pending_nil⟩
  case stateParts => exact ⟨rfl, rfl, rfl, rfl, rfl⟩
  case engineParts => exact ⟨rfl, rfl, rfl, rfl, rfl, rfl⟩
  case others => exact ⟨rfl, rfl, rfl, rfl⟩
  case outgoing => rfl

end Sys2Proof.Machine
